-- ==== Sys2Proof/Word.lean ====
section
/-!
DEFINITION. The words of the block and the type of its sample values.

* `CmdWord` is a command word and the content of an integer register (`IW = 32`, rules R28, R90);
  `PortBits` is a word of the host port (`W = 64`, rule R60).
* `Scalar` is the spec's `Num` (rules R7, R8): a real number held as PLAIN DATA.  A rational is held as
  itself, so every rule whose operands are rational is computed exactly, and so is a number of a real
  quadratic field; an `atom` is a real of which nothing is known (U10); any other value is held as the exact
  expression that produced it, over `sqrt`, `sin`, `cos` and rational multiples of `pi`.  Nothing is ever
  rounded.  `Sys2Proof/Machine/Arith.lean` holds the arithmetic, and `Sys2Proof/Machine/Reals.lean` says
  which real number a `Scalar` stands for.
-/

namespace Sys2Proof

/-- A command word, and the content of an integer register (`IW = 32`; rules R28, R90). -/
abbrev CmdWord := BitVec 32

/-- The bits of one word of the host port (`W = 64`; rule R60). -/
abbrev PortBits := BitVec 64

/-- The spec's `Num`: one real number, as an exact expression (rules R7, R8; log entry 1). -/
inductive Scalar where
  /-- A rational number. -/
  | rat (q : ℚ)
  /-- ANY real number: the one that `Config.atomWhole n` and `Config.atomBit n`, of which nothing is
  known, write in binary (rule R7, U10). -/
  | atom (n : Nat)
  /-- `a + b * sqrt q`. -/
  | surd (a b q : ℚ)
  /-- `c * pi`. -/
  | piMul (c : ℚ)
  /-- `x + y`. -/
  | sum (x y : Scalar)
  /-- `x * y`. -/
  | prod (x y : Scalar)
  /-- `x / y`. -/
  | quot (x y : Scalar)
  /-- `sqrt x`. -/
  | root (x : Scalar)
  /-- `sin x`. -/
  | sine (x : Scalar)
  /-- `cos x`. -/
  | cosine (x : Scalar)
  deriving DecidableEq, Repr, Inhabited

/-- A complex value `(re, im)` (rule R8). -/
structure Cx where
  re : Scalar
  im : Scalar
  deriving DecidableEq, Repr, Inhabited

end Sys2Proof
end

