-- ==== Sys2Proof/Syntax.lean ====
section
/-!
DEFINITION. The operation set: one constructor of `Instr` per row of `spec/opcode_table.json`
(rule R94), with the operands of rule R95 in the order of the assembler (rule R101): the axis suffix of
`INTERP` and `TREC` first, then destinations, then sources.
-/

namespace Sys2Proof

/-- A buffer number, the 3-bit operand that names one of `B[0]` .. `B[7]` (rules R21, R91). -/
abbrev Buf := Fin 8

/-- An axis (rule R18): the real (`ax = 0`) or imaginary (`ax = 1`) component. -/
inductive Axis where
  | re
  | im
  deriving DecidableEq, Repr, Inhabited

/-- The 21 operations (rule R94) with the buffers and the axis each names (rule R95). -/
inductive Instr where
  /-- `NOP` (rule R110). -/
  | nop
  /-- `SRST`, soft reset (rule R112). -/
  | srst
  /-- `CLRF`, clear the condition flags (rule R114). -/
  | clrf
  /-- `SRRC d0`: kernel out (rule R124). -/
  | srrc (d0 : Buf)
  /-- `INTERP.ax s0`: signal (rule R127). -/
  | interp (ax : Axis) (s0 : Buf)
  /-- `POW4 d0, s0`: result, signal (rule R141). -/
  | pow4 (d0 s0 : Buf)
  /-- `FEST s0`: fourth-power signal (rule R144). -/
  | fest (s0 : Buf)
  /-- `COSTAS d0, d1, d2, s0, s1`: corrected baseband, de-rotation exponential, `theta` and carrier;
  signal, filter taps (rule R156). -/
  | costas (d0 d1 d2 s0 s1 : Buf)
  /-- `TREC.ax d0, d1, s0`: recovered samples, `tau` record; signal (rule R172). -/
  | trec (ax : Axis) (d0 d1 s0 : Buf)
  /-- `QUANT d0, s0`: quantized symbols, recovered symbols (rule R185). -/
  | quant (d0 s0 : Buf)
  /-- `BARKER d0`: header out (rule R193). -/
  | barker (d0 : Buf)
  /-- `XCORR d0, d1, s0`: hit indices, hit values; quantized symbols (rule R200). -/
  | xcorr (d0 d1 s0 : Buf)
  /-- `FEXT d0, s0, s1, s2`: character codes; quantized symbols, hit indices, hit values (rule R210). -/
  | fext (d0 s0 s1 s2 : Buf)
  /-- `LTR2PAM d0, s0`: PAM levels, character codes (rule R222). -/
  | ltr2pam (d0 s0 : Buf)
  /-- `PAM2LTR d0, s0`: character codes, PAM levels (rule R224). -/
  | pam2ltr (d0 s0 : Buf)
  /-- `PAM2QAM d0, s0`: `4QAM` symbols, PAM levels (rule R225). -/
  | pam2qam (d0 s0 : Buf)
  /-- `QAM2PAM d0, s0`: PAM levels, `4QAM` symbols (rule R226). -/
  | qam2pam (d0 s0 : Buf)
  /-- `PAM2Q42 d0, s0`: `QAM4_2` symbols, PAM levels (rule R227). -/
  | pam2q42 (d0 s0 : Buf)
  /-- `Q422PAM d0, s0`: PAM levels, `QAM4_2` symbols (rule R228). -/
  | q422pam (d0 s0 : Buf)
  /-- `PAM2SYM d0, s0`: symbols, PAM levels (rule R231). -/
  | pam2sym (d0 s0 : Buf)
  /-- `SYM2PAM d0, s0`: PAM levels, symbols (rule R232). -/
  | sym2pam (d0 s0 : Buf)
  deriving DecidableEq, Repr

end Sys2Proof
end

