-- ==== Sys2Proof/WellFormed.lean ====
section
/-!
DEFINITION. The one check that the shape of `Instr` does not make: the destinations an operation uses
are pairwise different (rule R98).  A destination may equal a source (rule R15).
-/

namespace Sys2Proof

/-- The destinations an operation uses are pairwise different buffers (rule R98). -/
def Instr.wellFormed : Instr → Bool
  | .costas d0 d1 d2 _ _ => decide (d0 ≠ d1 ∧ d0 ≠ d2 ∧ d1 ≠ d2)
  | .trec _ d0 d1 _ => decide (d0 ≠ d1)
  | .xcorr d0 d1 _ => decide (d0 ≠ d1)
  | .nop | .srst | .clrf | .srrc _ | .interp _ _ | .pow4 _ _ | .fest _ | .quant _ _ | .barker _
  | .fext _ _ _ _ | .ltr2pam _ _ | .pam2ltr _ _ | .pam2qam _ _ | .qam2pam _ _ | .pam2q42 _ _
  | .q422pam _ _ | .pam2sym _ _ | .sym2pam _ _ => true

end Sys2Proof
end

