-- ==== Sys2Proof/Decode.lean ====
section
/-!
DEFINITION. Decoding of a 32-bit command word (rules R90 to R103) and, after it, the encoder.  Decoding
is total: a word spells an operation, or is rejected as `illegalOpcode` (rule R97) or `illegalField`
(rule R98), in the order of rule R103.
-/

namespace Sys2Proof

/-- The defined values of the field `op` (rule R94), by the mnemonic each names. -/
inductive Opcode where
  | NOP | SRST | CLRF | SRRC | INTERP | POW4 | FEST | COSTAS | TREC | QUANT | BARKER | XCORR | FEXT
  | LTR2PAM | PAM2LTR | PAM2QAM | QAM2PAM | PAM2Q42 | Q422PAM | PAM2SYM | SYM2PAM
  deriving DecidableEq, Repr

/-- The value of `op` that names each operation (rule R94). -/
def opcodeBits : Opcode → BitVec 8
  | .NOP => 0x00#8 | .SRST => 0x01#8 | .CLRF => 0x02#8
  | .SRRC => 0x10#8 | .INTERP => 0x11#8
  | .POW4 => 0x18#8 | .FEST => 0x19#8
  | .COSTAS => 0x20#8
  | .TREC => 0x28#8
  | .QUANT => 0x30#8
  | .BARKER => 0x38#8 | .XCORR => 0x39#8 | .FEXT => 0x3A#8
  | .LTR2PAM => 0x40#8 | .PAM2LTR => 0x41#8 | .PAM2QAM => 0x42#8 | .QAM2PAM => 0x43#8
  | .PAM2Q42 => 0x44#8 | .Q422PAM => 0x45#8 | .PAM2SYM => 0x46#8 | .SYM2PAM => 0x47#8

/-- The operation that a value of `op` names, none for the 235 undefined ones (rules R94, R97). -/
def opcodeOf (op : BitVec 8) : Option Opcode :=
  match op.toNat with
  | 0x00 => some .NOP | 0x01 => some .SRST | 0x02 => some .CLRF
  | 0x10 => some .SRRC | 0x11 => some .INTERP
  | 0x18 => some .POW4 | 0x19 => some .FEST
  | 0x20 => some .COSTAS
  | 0x28 => some .TREC
  | 0x30 => some .QUANT
  | 0x38 => some .BARKER | 0x39 => some .XCORR | 0x3A => some .FEXT
  | 0x40 => some .LTR2PAM | 0x41 => some .PAM2LTR | 0x42 => some .PAM2QAM | 0x43 => some .QAM2PAM
  | 0x44 => some .PAM2Q42 | 0x45 => some .Q422PAM | 0x46 => some .PAM2SYM | 0x47 => some .SYM2PAM
  | _ => none

/-- The mask of each operation: a 1 in every bit of `op`, of `rsv`, of every unused buffer field and,
where `ax` is unused, of `ax` (rule R96). -/
def opcodeMask : Opcode → CmdWord
  | .NOP | .SRST | .CLRF => 0xFFFFFFFF#32
  | .SRRC | .BARKER => 0xFF1FFFFF#32
  | .INTERP => 0xFFFF8FFE#32
  | .FEST => 0xFFFF8FFF#32
  | .COSTAS => 0xFF0001FF#32
  | .TREC => 0xFF038FFE#32
  | .XCORR => 0xFF038FFF#32
  | .FEXT => 0xFF1F803F#32
  | .POW4 | .QUANT | .LTR2PAM | .PAM2LTR | .PAM2QAM | .QAM2PAM | .PAM2Q42 | .Q422PAM | .PAM2SYM
  | .SYM2PAM => 0xFF1F8FFF#32

/-- The match of each operation: the opcode in `op`, 0 everywhere else (rule R96). -/
def opcodeMatch (o : Opcode) : CmdWord := opcodeBits o ++ 0#24

/-- The 3-bit buffer field of a word whose lowest bit is bit `lo` (rules R90, R91). -/
def bufField (w : CmdWord) (lo : Nat) : Buf := (w.extractLsb' lo 3).toFin

/-- Field `op`, bits 31:24 (rule R90). -/
def fieldOp (w : CmdWord) : BitVec 8 := w.extractLsb' 24 8
/-- Field `d0`, bits 23:21. -/
def fieldD0 (w : CmdWord) : Buf := bufField w 21
/-- Field `d1`, bits 20:18. -/
def fieldD1 (w : CmdWord) : Buf := bufField w 18
/-- Field `d2`, bits 17:15. -/
def fieldD2 (w : CmdWord) : Buf := bufField w 15
/-- Field `s0`, bits 14:12. -/
def fieldS0 (w : CmdWord) : Buf := bufField w 12
/-- Field `s1`, bits 11:9. -/
def fieldS1 (w : CmdWord) : Buf := bufField w 9
/-- Field `s2`, bits 8:6. -/
def fieldS2 (w : CmdWord) : Buf := bufField w 6
/-- Field `ax`, bit 0: 0 the real, 1 the imaginary component (rules R90, R92). -/
def fieldAx (w : CmdWord) : Axis := if w.getLsbD 0 then .im else .re

/-- The operation with the operands its fields name (rules R91, R95). -/
def operandsOf (o : Opcode) (w : CmdWord) : Instr :=
  match o with
  | .NOP => .nop
  | .SRST => .srst
  | .CLRF => .clrf
  | .SRRC => .srrc (fieldD0 w)
  | .INTERP => .interp (fieldAx w) (fieldS0 w)
  | .POW4 => .pow4 (fieldD0 w) (fieldS0 w)
  | .FEST => .fest (fieldS0 w)
  | .COSTAS => .costas (fieldD0 w) (fieldD1 w) (fieldD2 w) (fieldS0 w) (fieldS1 w)
  | .TREC => .trec (fieldAx w) (fieldD0 w) (fieldD1 w) (fieldS0 w)
  | .QUANT => .quant (fieldD0 w) (fieldS0 w)
  | .BARKER => .barker (fieldD0 w)
  | .XCORR => .xcorr (fieldD0 w) (fieldD1 w) (fieldS0 w)
  | .FEXT => .fext (fieldD0 w) (fieldS0 w) (fieldS1 w) (fieldS2 w)
  | .LTR2PAM => .ltr2pam (fieldD0 w) (fieldS0 w)
  | .PAM2LTR => .pam2ltr (fieldD0 w) (fieldS0 w)
  | .PAM2QAM => .pam2qam (fieldD0 w) (fieldS0 w)
  | .QAM2PAM => .qam2pam (fieldD0 w) (fieldS0 w)
  | .PAM2Q42 => .pam2q42 (fieldD0 w) (fieldS0 w)
  | .Q422PAM => .q422pam (fieldD0 w) (fieldS0 w)
  | .PAM2SYM => .pam2sym (fieldD0 w) (fieldS0 w)
  | .SYM2PAM => .sym2pam (fieldD0 w) (fieldS0 w)

/-- What a command word spells. -/
inductive Decoded where
  /-- An operation. -/
  | instr (i : Instr)
  /-- No operation: `op` is undefined (rule R97). -/
  | illegalOpcode
  /-- No operation: a reserved or unused field is nonzero, or two used destinations are equal
  (rule R98). -/
  | illegalField
  deriving DecidableEq, Repr

/-- Decoding, in the order of rule R103. -/
def decode (w : CmdWord) : Decoded :=
  match opcodeOf (fieldOp w) with
  | none => .illegalOpcode
  | some o =>
    if w &&& opcodeMask o = opcodeMatch o then
      if (operandsOf o w).wellFormed then .instr (operandsOf o w) else .illegalField
    else .illegalField

/-- The instruction the decoder reads from a row's `nbits` bits `w` of `spec/opcode_table.json`; a
command is one 32-bit word (rule R100), so any bit above `nbits` is 0. -/
def decodeTableWord (nbits w : Nat) : Option Instr :=
  match decode (BitVec.ofNat 32 (w % 2 ^ nbits)) with
  | .instr i => some i
  | .illegalOpcode => none
  | .illegalField => none

/-! The encoder, written from the same tables. -/

/-- The operation an instruction is (rule R94). -/
def Instr.opcode : Instr → Opcode
  | .nop => .NOP
  | .srst => .SRST
  | .clrf => .CLRF
  | .srrc _ => .SRRC
  | .interp _ _ => .INTERP
  | .pow4 _ _ => .POW4
  | .fest _ => .FEST
  | .costas _ _ _ _ _ => .COSTAS
  | .trec _ _ _ _ => .TREC
  | .quant _ _ => .QUANT
  | .barker _ => .BARKER
  | .xcorr _ _ _ => .XCORR
  | .fext _ _ _ _ => .FEXT
  | .ltr2pam _ _ => .LTR2PAM
  | .pam2ltr _ _ => .PAM2LTR
  | .pam2qam _ _ => .PAM2QAM
  | .qam2pam _ _ => .QAM2PAM
  | .pam2q42 _ _ => .PAM2Q42
  | .q422pam _ _ => .Q422PAM
  | .pam2sym _ _ => .PAM2SYM
  | .sym2pam _ _ => .SYM2PAM

/-- A buffer operand as its 3-bit field. -/
def bufBits (b : Buf) : BitVec 3 := BitVec.ofFin b

/-- The axis as the bit `ax` (rule R92). -/
def axisBit : Axis → BitVec 1
  | .re => 0#1
  | .im => 1#1

/-- A word of format `C` (rule R90), its fields from the most significant down. -/
def formatC (op : BitVec 8) (d0 d1 d2 s0 s1 s2 : BitVec 3) (ax : BitVec 1) : CmdWord :=
  op ++ d0 ++ d1 ++ d2 ++ s0 ++ s1 ++ s2 ++ 0#5 ++ ax

/-- The word of an operation that uses `d0` and `s0` only (rule R95). -/
def wordD0S0 (o : Opcode) (d0 s0 : Buf) : CmdWord :=
  formatC (opcodeBits o) (bufBits d0) 0#3 0#3 (bufBits s0) 0#3 0#3 0#1

/-- The command word of an instruction (rules R90, R94, R95): every unused field is 0. -/
def encode : Instr → CmdWord
  | .nop => formatC (opcodeBits .NOP) 0#3 0#3 0#3 0#3 0#3 0#3 0#1
  | .srst => formatC (opcodeBits .SRST) 0#3 0#3 0#3 0#3 0#3 0#3 0#1
  | .clrf => formatC (opcodeBits .CLRF) 0#3 0#3 0#3 0#3 0#3 0#3 0#1
  | .srrc d0 => formatC (opcodeBits .SRRC) (bufBits d0) 0#3 0#3 0#3 0#3 0#3 0#1
  | .interp ax s0 => formatC (opcodeBits .INTERP) 0#3 0#3 0#3 (bufBits s0) 0#3 0#3 (axisBit ax)
  | .pow4 d0 s0 => wordD0S0 .POW4 d0 s0
  | .fest s0 => formatC (opcodeBits .FEST) 0#3 0#3 0#3 (bufBits s0) 0#3 0#3 0#1
  | .costas d0 d1 d2 s0 s1 =>
    formatC (opcodeBits .COSTAS) (bufBits d0) (bufBits d1) (bufBits d2) (bufBits s0) (bufBits s1) 0#3 0#1
  | .trec ax d0 d1 s0 =>
    formatC (opcodeBits .TREC) (bufBits d0) (bufBits d1) 0#3 (bufBits s0) 0#3 0#3 (axisBit ax)
  | .quant d0 s0 => wordD0S0 .QUANT d0 s0
  | .barker d0 => formatC (opcodeBits .BARKER) (bufBits d0) 0#3 0#3 0#3 0#3 0#3 0#1
  | .xcorr d0 d1 s0 => formatC (opcodeBits .XCORR) (bufBits d0) (bufBits d1) 0#3 (bufBits s0) 0#3 0#3 0#1
  | .fext d0 s0 s1 s2 =>
    formatC (opcodeBits .FEXT) (bufBits d0) 0#3 0#3 (bufBits s0) (bufBits s1) (bufBits s2) 0#1
  | .ltr2pam d0 s0 => wordD0S0 .LTR2PAM d0 s0
  | .pam2ltr d0 s0 => wordD0S0 .PAM2LTR d0 s0
  | .pam2qam d0 s0 => wordD0S0 .PAM2QAM d0 s0
  | .qam2pam d0 s0 => wordD0S0 .QAM2PAM d0 s0
  | .pam2q42 d0 s0 => wordD0S0 .PAM2Q42 d0 s0
  | .q422pam d0 s0 => wordD0S0 .Q422PAM d0 s0
  | .pam2sym d0 s0 => wordD0S0 .PAM2SYM d0 s0
  | .sym2pam d0 s0 => wordD0S0 .SYM2PAM d0 s0

end Sys2Proof
end

