-- ==== Sys2Proof/Machine/Enclose.lean ====
section
/-!
DEFINITION. Certain bounds on the real number a `Scalar` stands for, so that most comparisons of reals
that are not rational are decided by a short computation (rule R8; log entry 4).

An interval `⟨lo, hi⟩` bounds `x` when `lo ≤ x * 2^64 ≤ hi`.  Every operation rounds outwards, so nothing
here replaces a real by a rounded value: a question that an interval does not decide is answered exactly by
the limits of `Sys2Proof/Machine/Limit.lean`.
`Sys2Proof/Laws/Enclose.lean` proves that the bounds hold.
-/

namespace Sys2Proof

/-- The bits of the integer square root of `n`, from bit `k - 1` down, added to `r`. -/
def isqrtBits : Nat → Nat → Nat → Nat
  | 0, _, r => r
  | k + 1, n, r => isqrtBits k n (if (r + 2 ^ k) * (r + 2 ^ k) ≤ n then r + 2 ^ k else r)

/-- The integer square root of `n`. -/
def isqrt (n : Nat) : Nat := isqrtBits (n.log2 / 2 + 1) n 0

/-- An interval of multiples of `2^-64`. -/
structure Ivl where
  lo : Int
  hi : Int
  deriving DecidableEq, Repr

namespace Ivl

/-- The scale, `2^64`. -/
def unit : Int := 2 ^ 64

/-- The quotient by a positive natural, rounded down. -/
def divDown (a : Int) (n : Nat) : Int := a / (n : Int)

/-- The quotient by a positive natural, rounded up. -/
def divUp (a : Int) (n : Nat) : Int := -((-a) / (n : Int))

/-- A rational. -/
def ofRat (q : ℚ) : Ivl := ⟨divDown (q.num * unit) q.den, divUp (q.num * unit) q.den⟩

/-- The sum. -/
def add (x y : Ivl) : Ivl := ⟨x.lo + y.lo, x.hi + y.hi⟩

/-- The negative. -/
def neg (x : Ivl) : Ivl := ⟨-x.hi, -x.lo⟩

/-- The product. -/
def mul (x y : Ivl) : Ivl :=
  ⟨divDown (min (min (x.lo * y.lo) (x.lo * y.hi)) (min (x.hi * y.lo) (x.hi * y.hi))) (2 ^ 64),
   divUp (max (max (x.lo * y.lo) (x.lo * y.hi)) (max (x.hi * y.lo) (x.hi * y.hi))) (2 ^ 64)⟩

/-- The product with an integer. -/
def timesInt (n : Int) (x : Ivl) : Ivl :=
  if 0 ≤ n then ⟨n * x.lo, n * x.hi⟩ else ⟨n * x.hi, n * x.lo⟩

/-- The quotient by a positive natural. -/
def divNat (x : Ivl) (n : Nat) : Ivl := ⟨divDown x.lo n, divUp x.hi n⟩

/-- The inverse of a positive interval. -/
def invPos (x : Ivl) : Ivl := ⟨divDown (unit * unit) x.hi.toNat, divUp (unit * unit) x.lo.toNat⟩

/-- The inverse, where the interval does not hold zero. -/
def inv (x : Ivl) : Option Ivl :=
  if 0 < x.lo then some x.invPos
  else if x.hi < 0 then some x.neg.invPos.neg
  else none

/-- A natural whose square is at most `n`. -/
def sqrtDown (n : Nat) : Nat := if isqrt n * isqrt n ≤ n then isqrt n else 0

/-- A natural whose square is above `n`. -/
def sqrtUp (n : Nat) : Nat := if n < (isqrt n + 1) * (isqrt n + 1) then isqrt n + 1 else n + 1

/-- The square root. -/
def sqrt (x : Ivl) : Ivl := ⟨sqrtDown (x.lo * unit).toNat, sqrtUp (x.hi * unit).toNat⟩

/-- `pi`, to 20 decimal places. -/
def pi : Ivl :=
  ⟨divDown (314159265358979323846 * unit) (10 ^ 20), divUp (314159265358979323847 * unit) (10 ^ 20)⟩

/-- The sum of the next `n` terms of the series of `cos x` and `sin x`, from the real and imaginary
parts `tc`, `ts` of the term `(i*x)^m / m!` on. -/
def seriesFrom (x : Ivl) : Nat → Nat → Ivl → Ivl → Ivl × Ivl
  | 0, _, _, _ => (⟨0, 0⟩, ⟨0, 0⟩)
  | n + 1, m, tc, ts =>
    let r := seriesFrom x n (m + 1) ((mul ts x).neg.divNat (m + 1)) ((mul tc x).divNat (m + 1))
    (tc.add r.1, ts.add r.2)

/-- An interval that holds every cosine and sine. -/
def anyTrig : Ivl := ⟨-unit, unit⟩

/-- Widen by one unit at each end, more than the 40-term series leaves out for an argument within 4. -/
def widen (x : Ivl) : Ivl := ⟨x.lo - 1, x.hi + 1⟩

/-- `cos x` and `sin x` for an argument within 4. -/
def trigSmall (x : Ivl) : Ivl × Ivl :=
  if -(4 * unit) ≤ x.lo ∧ x.hi ≤ 4 * unit then
    let r := seriesFrom x 40 0 ⟨unit, unit⟩ ⟨0, 0⟩
    (r.1.widen, r.2.widen)
  else (anyTrig, anyTrig)

/-- The argument less the multiple of `2*pi` that brings it near zero. -/
def reduceTurns (x : Ivl) : Ivl :=
  let n := ((x.lo + x.hi) / 2 + pi.lo) / (2 * pi.lo)
  x.add (pi.timesInt (-(2 * n)))

/-- `cos x` and `sin x`. -/
def trig (x : Ivl) : Ivl × Ivl := trigSmall x.reduceTurns

end Ivl

/-- Apply a function to two intervals, where both are known. -/
def bothKnown (f : Ivl → Ivl → Option Ivl) (x y : Option Ivl) : Option Ivl :=
  match x, y with
  | some a, some b => f a b
  | _, _ => none

/-- Certain bounds on the real number a scalar stands for, where they can be computed. -/
def Scalar.enclose : Scalar → Option Ivl
  | .rat q => some (.ofRat q)
  | .atom _ => none
  | .surd a b q => some ((Ivl.ofRat a).add ((Ivl.ofRat b).mul (Ivl.ofRat q).sqrt))
  | .piMul c => some ((Ivl.ofRat c).mul Ivl.pi)
  | .sum x y => bothKnown (fun a b => some (a.add b)) x.enclose y.enclose
  | .prod x y => bothKnown (fun a b => some (a.mul b)) x.enclose y.enclose
  | .quot x y => bothKnown (fun a b => b.inv.map a.mul) x.enclose y.enclose
  | .root x => x.enclose.map Ivl.sqrt
  | .sine x => x.enclose.map fun a => a.trig.2
  | .cosine x => x.enclose.map fun a => a.trig.1

/-- Is `0 < x`, where the bounds decide it? -/
def Scalar.certainPos (x : Scalar) : Option Bool :=
  match x.enclose with
  | some a => if 0 < a.lo then some true else if a.hi ≤ 0 then some false else none
  | none => none

/-- `floor x`, where the bounds decide it. -/
def Scalar.certainFloor (x : Scalar) : Option Int :=
  match x.enclose with
  | some a => if a.lo / Ivl.unit = a.hi / Ivl.unit then some (a.lo / Ivl.unit) else none
  | none => none

end Sys2Proof
end

