-- ==== Sys2Proof/Config.lean ====
section
/-!
DEFINITION. What an implementation fixes and the spec leaves open: the parameters of rules R7, R9 and
the free values of `93_implementation_defined.md`.  An `opaque` constant here has no body, so no
proof can see what it is and every statement of the package holds whatever it is.  The parameter `AW` of
rule R6 is `State.aw`, so that a statement holds for every value of it (log entry 2).
-/

namespace Sys2Proof.Config

/-- The numerator (less one) of `EPS_BETA`; see `epsBeta`. -/
opaque epsPred : Nat

/-- What the denominator of `EPS_BETA` has (less one) above four times its numerator; see `epsBeta`. -/
opaque epsSlack : Nat

/-- `EPS_BETA`, the value substituted for a zero roll-off (rules R7, R9, U12): SOME rational with
`0 < EPS_BETA < 1/4`.  Every such rational is of this form, and nothing else is known of it
(log entry 3). -/
def epsBeta : ℚ := (epsPred + 1 : ℚ) / (4 * (epsPred + 1) + epsSlack + 1)

/-- The greatest integer not above the real that `Scalar.atom n` stands for (rule R7, U10; log entry 1). -/
opaque atomWhole : Nat → Int

/-- Binary digit `k` after the point of the real that `Scalar.atom n` stands for.  Every real is a whole
part and binary digits, so the atoms are ANY reals (rule R7, U10; log entry 1). -/
opaque atomBit : Nat → Nat → Bool

/-- `NumEnc`: the 64-bit word that encodes a `Num` (rule R7, U11; log entry 5). -/
opaque numEnc : Scalar → PortBits

/-- The `Num` that a 64-bit word encodes (rule R7, U11; log entry 5). -/
opaque numDec : PortBits → Scalar

/-- What a buffer component holds once an operation has made it unspecified (rule R23, U2): by the
number of operations ended so far and the component's window address (log entry 6). -/
opaque freeNum : Nat → Nat → Scalar

/-- The word a host read of an unspecified window component returns (rule R67, U3): by the number of
operations ended so far and the address, so that reads are idempotent while no operation completes
(rule R71; log entry 7). -/
opaque freeWord : Nat → Nat → PortBits

/-- How many host reads of `STATUS` and `ID` may complete while an operation is in progress, that is
how long the operation takes (rules R74, R305, U14): by the number of operations ended so far
(log entry 8). -/
opaque opTime : Nat → Nat

end Sys2Proof.Config
end

