-- ==== Sys2Proof/Machine/Limit.lean ====
section
/-!
DEFINITION. The exact sign of a real (rules R8, R14), for the few numbers whose bounds
(`Sys2Proof/Machine/Enclose.lean`) do not tell it: the rationals `x.approx 0`, `x.approx 1`, .. tend to the
real that `x` stands for, and its sign is a property of that limit.

Whether SOME natural number has a property is asked by trying them one after another.  As a function the
question always has its true answer (`Sys2Proof/Laws/Limit.lean`); a program that runs it on a property
that no number has does not come to an end, as none does that compares reals (log entry 4).
-/

namespace Sys2Proof

/-- The least natural number from `k` on with a property, where there is one. -/
def search (p : Nat → Bool) (k : Nat) : Option Nat := if p k then some k else search p (k + 1)
partial_fixpoint

/-- Does some natural number have a property? -/
def somewhere (p : Nat → Bool) : Bool := (search p 0).isSome

/-- Is the limit of a convergent sequence positive: is it, from some `n` on, above `1/(n+1)`? -/
def limitPositive (f : Nat → ℚ) : Bool :=
  somewhere fun n => !somewhere fun j => decide (f (n + j) ≤ 1 / (n + 1))

/-- Is the limit of a convergent sequence other than zero? -/
def limitNonzero (f : Nat → ℚ) : Bool := limitPositive f || limitPositive fun k => -f k

/-- A rational within `2/k` of `sqrt q`. -/
def sqrtNear (q : ℚ) (k : Nat) : ℚ := (Nat.sqrt ⌊q * k ^ 2⌋.toNat : ℚ) / k

/-- The first `k` terms of the series of `pi`. -/
def piNear (k : Nat) : ℚ := 4 * ∑ i ∈ Finset.range k, (-1) ^ i / (2 * (i : ℚ) + 1)

/-- The real and imaginary parts of `(i*q)^m`. -/
def turnPower (q : ℚ) : Nat → ℚ × ℚ
  | 0 => (1, 0)
  | m + 1 => (-((turnPower q m).2 * q), (turnPower q m).1 * q)

/-- The first `k` terms of the series of `cos q`. -/
def cosNear (q : ℚ) (k : Nat) : ℚ := ∑ m ∈ Finset.range k, (turnPower q m).1 / (m.factorial : ℚ)

/-- The first `k` terms of the series of `sin q`. -/
def sinNear (q : ℚ) (k : Nat) : ℚ := ∑ m ∈ Finset.range k, (turnPower q m).2 / (m.factorial : ℚ)

/-- The whole part of an atom with its first `k` binary digits. -/
def atomNear (n k : Nat) : ℚ :=
  Config.atomWhole n + ∑ i ∈ Finset.range k, (if Config.atomBit n i then 1 else 0) / 2 ^ (i + 1)

/-- Rationals that tend to the real number a scalar stands for. -/
def Scalar.approx : Scalar → Nat → ℚ
  | .rat q => fun _ => q
  | .atom n => atomNear n
  | .surd a b q => fun k => a + b * sqrtNear q k
  | .piMul c => fun k => c * piNear k
  | .sum x y => fun k => x.approx k + y.approx k
  | .prod x y => fun k => x.approx k * y.approx k
  | .quot x y => if limitNonzero y.approx then fun k => x.approx k / y.approx k else fun _ => 0
  | .root x => fun k => sqrtNear (x.approx k) k
  | .sine x => fun k => sinNear (x.approx k) k
  | .cosine x => fun k => cosNear (x.approx k) k

/-- The integers, one after another: `0, -1, 1, -2, 2, ..`. -/
def intAt (n : Nat) : Int := if n % 2 = 0 then (n / 2 : Nat) else -(n / 2 : Nat) - 1

/-- The first integer with a property, where there is one. -/
def searchInt (p : Int → Bool) : Int :=
  match search (fun n => p (intAt n)) 0 with
  | some n => intAt n
  | none => 0

end Sys2Proof
end

