-- ==== Sys2Proof/Machine/Arith.lean ====
section
/-!
DEFINITION. The arithmetic of `Scalar` (rules R8, R13, R14).

Each operation computes exactly on rationals, within a real quadratic field, and on rational multiples
of `pi`, and builds the exact expression otherwise; only identities that hold of all reals are used to
shorten it.  Every comparison and every `floor` has the value it has of the reals (`Scalar.lt_iff`,
`Scalar.floor_val` of `Sys2Proof/Laws/Scalar.lean`): of rationals and within a quadratic field it is
computed, of other reals it is computed from their certain bounds (`Sys2Proof/Machine/Enclose.lean`) and,
where those do not tell, it is the property of the limits of `Sys2Proof/Machine/Limit.lean` (log entry 4).
-/

namespace Sys2Proof.Scalar

/-- An integer as a scalar. -/
def ofInt (n : Int) : Scalar := .rat n

/-- A natural as a scalar. -/
def ofNat (n : Nat) : Scalar := .rat n

/-- `0`. -/
def zero : Scalar := .rat 0

/-- `1`. -/
def one : Scalar := .rat 1

/-- `c * pi`, which is rational only for `c = 0`. -/
def timesPi (c : ℚ) : Scalar := if c = 0 then .rat 0 else .piMul c

/-- `pi` (rule R8). -/
def pi : Scalar := .piMul 1

/-- The square root of a rational, where that is rational. -/
def ratSqrt? (q : ℚ) : Option ℚ :=
  let r : ℚ := (isqrt q.num.toNat : ℚ) / (isqrt q.den : ℚ)
  if r * r = q then some r else none

/-- `a + b * sqrt q`, which is rational for `b = 0`. -/
def surdOf (a b q : ℚ) : Scalar := if b = 0 then .rat a else .surd a b q

/-- The rational `r` with `b * sqrt q' = r * sqrt q`, if there is one: `sqrt q' = sqrt (q'/q) * sqrt q`. -/
def inField (q b q' : ℚ) : Option ℚ :=
  if q' = q then some b
  else if 0 < q then (ratSqrt? (q' / q)).map fun r => b * r
  else none

/-- The sum of two reals. -/
def add (x y : Scalar) : Scalar :=
  match x, y with
  | .rat a, .rat b => .rat (a + b)
  | .rat a, .surd a' b' q => .surd (a + a') b' q
  | .surd a b q, .rat a' => .surd (a + a') b q
  | .surd a b q, .surd a' b' q' => match inField q b' q' with
    | some r => surdOf (a + a') (b + r) q
    | none => .sum x y
  | .piMul a, .piMul b => timesPi (a + b)
  | x, y => if x = zero then y else if y = zero then x else .sum x y

/-- The product of a rational and a real. -/
def scale (k : ℚ) (x : Scalar) : Scalar :=
  match x with
  | .rat a => .rat (k * a)
  | .surd a b q => surdOf (k * a) (k * b) q
  | .piMul a => timesPi (k * a)
  | x => if k = 0 then zero else if k = 1 then x else .prod (.rat k) x

/-- The product of two reals. -/
def mul (x y : Scalar) : Scalar :=
  match x, y with
  | .rat a, y => scale a y
  | x, .rat b => scale b x
  | .surd a b q, .surd a' b' q' => match inField q b' q' with
    | some r => if 0 ≤ q then surdOf (a * a' + b * r * q) (a * r + a' * b) q else .prod x y
    | none => .prod x y
  | x, y => .prod x y

/-- The negative of a real. -/
def neg (x : Scalar) : Scalar := scale (-1) x

/-- The difference of two reals. -/
def sub (x y : Scalar) : Scalar := if x = y then zero else add x (neg y)

/-- The quotient of two reals; no rule divides by zero (rule R117). -/
def div (x y : Scalar) : Scalar :=
  match x, y with
  | x, .rat b => scale b⁻¹ x
  | .piMul a, .piMul b => .rat (a / b)
  | x, .surd a b q =>
    if q < 0 ∨ a * a - b * b * q = 0 then .quot x y
    else mul x (surdOf (a / (a * a - b * b * q)) (-b / (a * a - b * b * q)) q)
  | x, y => if x = zero then zero else .quot x y

/-- The square root of a non-negative real (rule R8). -/
def sqrt (x : Scalar) : Scalar :=
  match x with
  | .rat q =>
    if q ≤ 0 then .rat 0
    else match ratSqrt? q with
      | some r => .rat r
      | none => .surd 0 1 q
  | x => .root x

/-- `cos (c * pi)`: by table where the value is rational or a square root of a rational. -/
def cosPi (c : ℚ) : Scalar :=
  let r := c - 2 * ((c / 2).floor : ℚ)
  if r = 0 then .rat 1
  else if r = 1 / 3 ∨ r = 5 / 3 then .rat (1 / 2)
  else if r = 1 / 2 ∨ r = 3 / 2 then .rat 0
  else if r = 2 / 3 ∨ r = 4 / 3 then .rat (-1 / 2)
  else if r = 1 then .rat (-1)
  else if r = 1 / 4 ∨ r = 7 / 4 then .surd 0 (1 / 2) 2
  else if r = 3 / 4 ∨ r = 5 / 4 then .surd 0 (-1 / 2) 2
  else if r = 1 / 6 ∨ r = 11 / 6 then .surd 0 (1 / 2) 3
  else if r = 5 / 6 ∨ r = 7 / 6 then .surd 0 (-1 / 2) 3
  else .cosine (.piMul r)

/-- The cosine of a real (rule R8). -/
def cos (x : Scalar) : Scalar :=
  match x with
  | .rat q => if q = 0 then .rat 1 else .cosine (.rat q)
  | .piMul c => cosPi c
  | x => .cosine x

/-- The sine of a real (rule R8). -/
def sin (x : Scalar) : Scalar :=
  match x with
  | .rat q => if q = 0 then .rat 0 else .sine (.rat q)
  | .piMul c => cosPi (c - 1 / 2)
  | x => .sine x

/-- Is `a + b * sqrt q` positive, for `q >= 0`? -/
def surdPos (a b q : ℚ) : Bool :=
  if 0 < b then decide (0 < a) || decide (a * a < b * b * q)
  else decide (0 < a) && decide (b * b * q < a * a)

/-- Is a real positive?  A number of a quadratic field is decided by computation, any other by its certain
bounds, and where those do not tell by the sequence that tends to it (rule R8; log entry 4). -/
def positive (d : Scalar) : Bool :=
  match d with
  | .rat r => decide (0 < r)
  | .surd a b q => if 0 ≤ q then surdPos a b q else decide (0 < a)
  | d => match certainPos d with
    | some answer => answer
    | none => limitPositive d.approx

/-- Is `x < y`? -/
def lt (x y : Scalar) : Bool := if x = y then false else positive (sub y x)

/-- Is `x ≤ y`? -/
def le (x y : Scalar) : Bool := !lt y x

/-- Is `x = y` as reals? -/
def eq (x y : Scalar) : Bool := !lt x y && !lt y x

/-- The greater of two reals. -/
def max (x y : Scalar) : Scalar := if lt x y then y else x

/-- The absolute value of a real (rule R13). -/
def abs (x : Scalar) : Scalar := if lt x zero then neg x else x

/-- `sgn` (rule R14): `+1`, `-1`, and `0` for zero. -/
def sgn (x : Scalar) : ℚ := if lt zero x then 1 else if lt x zero then -1 else 0

/-- `floor` (rule R13): the greatest integer not above. -/
def floor (x : Scalar) : Int :=
  match x with
  | .rat q => q.floor
  | x => match certainFloor x with
    | some n => n
    | none => searchInt fun n => le (ofInt n) x && lt x (ofInt (n + 1))

/-- `ceil` (rule R13). -/
def ceil (x : Scalar) : Int := -floor (neg x)

/-- The integer that a real is, if it is one. -/
def toInt? (x : Scalar) : Option Int :=
  match x with
  | .rat q => if q.den = 1 then some q.num else none
  | x => if eq x (ofInt (floor x)) then some (floor x) else none

/-- The sum of a sequence, zero when it is empty (rule R13). -/
def total : List Scalar → Scalar
  | [] => zero
  | x :: xs => add x (total xs)

/-- The sum of the products of two sequences, element by element. -/
def dot : List Scalar → List Scalar → Scalar
  | x :: xs, y :: ys => add (mul x y) (dot xs ys)
  | _, _ => zero

end Sys2Proof.Scalar

namespace Sys2Proof.Cx

/-- A real as a complex value, `im = 0` (rule R22). -/
def ofReal (x : Scalar) : Cx := ⟨x, .zero⟩

/-- A pair of integers as a complex value. -/
def ofInts (a b : Int) : Cx := ⟨.ofInt a, .ofInt b⟩

/-- Complex multiplication, `(a,b)*(c,d) = (a*c - b*d, a*d + b*c)` (rule R141). -/
def mul (z w : Cx) : Cx :=
  ⟨(z.re.mul w.re).sub (z.im.mul w.im), (z.re.mul w.im).add (z.im.mul w.re)⟩

/-- The square of the modulus, `re^2 + im^2`. -/
def normSq (z : Cx) : Scalar := (z.re.mul z.re).add (z.im.mul z.im)

/-- The modulus `sqrt (re^2 + im^2)` (rule R13). -/
def modulus (z : Cx) : Scalar := z.normSq.sqrt

/-- Are two complex values equal, as reals on both components? -/
def eq (z w : Cx) : Bool := z.re.eq w.re && z.im.eq w.im

/-- The component of an axis (rule R18). -/
def comp (z : Cx) (im : Bool) : Scalar := if im then z.im else z.re

end Sys2Proof.Cx
end

