-- ==== Sys2Proof/Machine/State.lean ====
section
/-!
DEFINITION. The state of the block (`10_state.md`) as plain data, with the two things the host drives
it with: the accesses it has issued and not yet seen complete, and the answers it has received.
-/

namespace Sys2Proof.Machine

/-- One word of the host port (rule R62; log entry 5): its bits, or the encoding `NumEnc` of a `Num`,
kept as that `Num`. -/
inductive PortWord where
  | bits (w : PortBits)
  | num (v : Scalar)
  deriving DecidableEq, Repr, Inhabited

/-- What the host does at the port: one-word accesses at a word address (rule R61), and the reset input
(rule R290). -/
inductive HostAccess where
  /-- `MemRead(a, 1)`. -/
  | read (a : Nat)
  /-- `MemWrite(a, 1, v)`. -/
  | write (a : Nat) (v : PortWord)
  /-- The hardware reset input is asserted and released. -/
  | reset
  deriving DecidableEq, Repr

/-- The nine values of `STATUS.FCODE` (rule R263, U7). -/
inductive FCode where
  /-- 0: no fault since reset. -/
  | none
  /-- 1: `w[31:24]` is not a defined opcode (rule R97). -/
  | illegalOpcode
  /-- 2: a reserved or unused field is nonzero, or two destinations are equal (rule R98). -/
  | illegalField
  /-- 3: a configuration register the operation reads is outside its legal set (rule R264). -/
  | config
  /-- 4: the interpolator's window leaves the buffer (rule R265). -/
  | margin
  /-- 5: a source that must be non-empty has length 0 (rule R266). -/
  | empty
  /-- 6: a result would be longer than `BUFCAP` (rule R267). -/
  | overflow
  /-- 7: a source element is outside the domain of an arithmetic map (rule R268). -/
  | domain
  /-- 8: the slices or the lists of the frame extractor differ in length (rule R269). -/
  | desync
  deriving DecidableEq, Repr

/-- The fields of `STATUS` (rule R26).  `BUSY` is held by `State.inFlight`; the bits that read as zero
are added by `statusWord`. -/
structure Status where
  done : Bool
  fault : Bool
  fcode : FCode
  nosync : Bool
  hitovf : Bool
  desync : Bool
  unrec : Bool
  deriving DecidableEq, Repr

/-- The configuration registers (rules R33, R35): six integer registers, fourteen `Num` registers. -/
structure Cfg where
  p : CmdWord
  l : CmdWord
  hdr : CmdWord
  modType : CmdWord
  hitcap : CmdWord
  flen : CmdWord
  beta : Scalar
  toff : Scalar
  fs : Scalar
  f0 : Scalar
  muC : Scalar
  muT : Scalar
  delta : Scalar
  tinit : Scalar
  tmLo : Scalar
  tmHi : Scalar
  trig : Scalar
  amin : Scalar
  amax : Scalar
  tq : Scalar
  deriving DecidableEq, Repr

/-- The result registers (rule R37). -/
structure Results where
  ival : Scalar
  thresh : Scalar
  theta : Scalar
  tau : Scalar
  tnow : Scalar
  nsym : CmdWord
  nhr : CmdWord
  nhi : CmdWord
  deriving DecidableEq, Repr

/-- One sample buffer (rules R21, R23): its length register and the components that are stored.  A cell
`(k, v)` says that component `k % 2` (0 = `re`, 1 = `im`) of element `k / 2` holds `v`; a component with
no cell has never been written since hardware reset (U1, U3).  The keys rise strictly (`Buffer.wf`). -/
structure Buffer where
  len : CmdWord
  cells : List (Nat × Scalar)
  deriving DecidableEq, Repr

/-- The state of the block. -/
structure State where
  /-- The parameter `AW` of rule R6 less 8: rule R6 admits 8 to 31.  Which it is belongs to the block and no
  step changes it; it stands here because `exec` has no other argument (U13; log entry 2). -/
  awAbove8 : Fin 24
  /-- The accepted command word while an operation is in progress; `STATUS.BUSY` is `isSome`
  (rules R26, R53, R260).  The registers and buffers of the state are the snapshot (log entry 9). -/
  inFlight : Option CmdWord
  /-- How many host reads of `STATUS` and `ID` may still complete before the operation in progress ends
  (rules R74, R305; log entry 8). -/
  busyReads : Nat
  /-- `STATUS` but for `BUSY` (rule R26). -/
  status : Status
  /-- `CTRL` (rule R31). -/
  ctrl : CmdWord
  /-- `FINFO` (rule R32). -/
  finfo : CmdWord
  /-- `FCMD` (rule R32). -/
  fcmd : CmdWord
  /-- The configuration registers (rules R33, R35). -/
  cfg : Cfg
  /-- The result registers (rule R37). -/
  res : Results
  /-- The buffers `B[0]` .. `B[7]` with `LEN[0]` .. `LEN[7]` (rules R21, R38). -/
  bufs : Vector Buffer 8
  /-- The model's own: the number of operations and hardware resets ended so far, from which the free
  values are drawn (log entries 6, 7, 8). -/
  epoch : Nat
  /-- The model's own: the host's accesses that have not taken effect yet, oldest first (rule R73). -/
  pending : List HostAccess
  /-- The model's own: the addresses the host has read and the words returned, newest first. -/
  answered : List (Nat × PortWord)
  deriving DecidableEq, Repr

/-- The model has no fault outcome: "There is no `stuck` case" (`93_implementation_defined.md`); the
faults of rule R263 are next states in which `STATUS.FAULT` is set.  Safe: nothing is hidden by it. -/
inductive Fault
  deriving DecidableEq, Repr

/-- Why a step has no next state. -/
inductive Refusal where
  /-- Raised by an arm of `exec` whose instruction has no meaning; no arm is left so.  Safe. -/
  | notModelled (mnemonic : String)
  /-- Raised by an operation that reads a component of `B[n]` that neither the host nor an operation has
  written since hardware reset: "a model must make such an operation fault or refuse rather than give
  the elements a value" (rule R68, U3; log entry 10).  Safe: the model stops where the hardware goes on. -/
  | uninitialised (n : Buf)
  deriving DecidableEq, Repr

/-- `STATUS` after reset: 0 (rules R26, R54). -/
def Status.reset : Status :=
  { done := false, fault := false, fcode := .none, nosync := false, hitovf := false, desync := false,
    unrec := false }

/-- The configuration registers after reset: 0 but for `HITCAP = 80` (rules R33, R35, R54). -/
def Cfg.reset : Cfg :=
  { p := 0#32, l := 0#32, hdr := 0#32, modType := 0#32, hitcap := 80#32, flen := 0#32,
    beta := .rat 0, toff := .rat 0, fs := .rat 0, f0 := .rat 0, muC := .rat 0, muT := .rat 0,
    delta := .rat 0, tinit := .rat 0, tmLo := .rat 0, tmHi := .rat 0, trig := .rat 0, amin := .rat 0,
    amax := .rat 0, tq := .rat 0 }

/-- The result registers after reset: 0 (rules R37, R54). -/
def Results.reset : Results :=
  { ival := .rat 0, thresh := .rat 0, theta := .rat 0, tau := .rat 0, tnow := .rat 0, nsym := 0#32,
    nhr := 0#32, nhi := 0#32 }

/-- A buffer after hardware reset: length 0, every component unspecified (rules R54, R290, U1). -/
def Buffer.reset : Buffer := { len := 0#32, cells := [] }

/-- The machine right after hardware reset (rules R54, R290), with an idle host and `AW = 16`, the value
of every address the spec writes (rule R6, U13; log entry 2). -/
def State.reset : State :=
  { awAbove8 := 8, inFlight := none, busyReads := 0, status := .reset, ctrl := 0#32, finfo := 0#32, fcmd := 0#32,
    cfg := .reset, res := .reset, bufs := Vector.replicate 8 .reset, epoch := 0, pending := [],
    answered := [] }

end Sys2Proof.Machine
end

