-- ==== Sys2Proof/Machine/Flags.lean ====
section
/-!
DEFINITION. `STATUS` as a word (rule R26), the four condition flags (rules R26, R27, R271) and the
interrupt line (rule R272).
-/

namespace Sys2Proof.Machine

/-- The number of each fault code (rule R263). -/
def FCode.code : FCode → BitVec 8
  | .none => 0#8
  | .illegalOpcode => 1#8
  | .illegalField => 2#8
  | .config => 3#8
  | .margin => 4#8
  | .empty => 5#8
  | .overflow => 6#8
  | .domain => 7#8
  | .desync => 8#8

/-- A one-bit field. -/
def bit (b : Bool) : BitVec 1 := if b then 1#1 else 0#1

/-- `STATUS.BUSY` (rule R26). -/
def State.busy (s : State) : Bool := s.inFlight.isSome

/-- The word `STATUS` reads as, its fields from bit 31 down (rule R26). -/
def statusWord (s : State) : CmdWord :=
  0#12 ++ bit s.status.unrec ++ bit s.status.desync ++ bit s.status.hitovf ++ bit s.status.nosync
    ++ s.status.fcode.code ++ 0#5 ++ bit s.status.fault ++ bit s.status.done ++ bit s.busy

/-- The output line `irq` (rule R272). -/
def State.irq (s : State) : Bool :=
  (s.status.done && s.ctrl.getLsbD 0) || (s.status.fault && s.ctrl.getLsbD 1)

/-- The condition flags an operation raises; a flag it does not raise keeps its value, because the flags
are sticky (rule R26). -/
structure Conds where
  nosync : Bool := false
  hitovf : Bool := false
  desync : Bool := false
  unrec : Bool := false
  deriving DecidableEq, Repr

/-- Set the condition flags raised at completion (rules R26, R271). -/
def setConds (c : Conds) (s : State) : State :=
  { s with status := { s.status with
      nosync := s.status.nosync || c.nosync
      hitovf := s.status.hitovf || c.hitovf
      desync := s.status.desync || c.desync
      unrec := s.status.unrec || c.unrec } }

/-- Clear the four condition flags (rule R114). -/
def clearConds (s : State) : State :=
  { s with status := { s.status with nosync := false, hitovf := false, desync := false, unrec := false } }

end Sys2Proof.Machine
end

