-- ==== Sys2Proof/Machine/Ops.lean ====
section
/-!
DEFINITION. The named operations over the buffer file and the registers, and the life of a command:
completion (rule R261), `raise` (rule R262), the way out of a fault (`softReset`, rules R112, R275) and
hardware reset (rule R290).
-/

namespace Sys2Proof.Machine

/-! The cells of a buffer. -/

/-- The value of component key `k`; none where nothing has been written since hardware reset. -/
def lookupCell : List (Nat × Scalar) → Nat → Option Scalar
  | [], _ => none
  | (a, v) :: rest, k => if a = k then some v else lookupCell rest k

/-- Write component key `k`, keeping the keys strictly rising. -/
def setCell : List (Nat × Scalar) → Nat → Scalar → List (Nat × Scalar)
  | [], k, v => [(k, v)]
  | (a, x) :: rest, k, v =>
    if k < a then (k, v) :: (a, x) :: rest
    else if k = a then (k, v) :: rest
    else (a, x) :: setCell rest k v

/-- The values of keys `k`, `k + 2`, `k + 4`, .. (`n` of them), up to the first that has no cell: one
walk of the cells, whose keys rise. -/
def gather : List (Nat × Scalar) → Nat → Nat → List Scalar
  | _, _, 0 => []
  | [], _, _ + 1 => []
  | (a, v) :: rest, k, n + 1 =>
    if a < k then gather rest k (n + 1)
    else if a = k then v :: gather rest (k + 2) n
    else []

/-- The keys of the cells rise strictly from `lo`. -/
def risingFrom : Nat → List (Nat × Scalar) → Bool
  | _, [] => true
  | lo, (a, _) :: rest => decide (lo ≤ a) && risingFrom (a + 1) rest

/-- `AW`, the index width of a buffer (rule R6, U13). -/
def State.aw (s : State) : Nat := 8 + s.awAbove8.val

/-- `BUFCAP = 2^AW`, the capacity of every buffer (rule R6). -/
def State.bufCap (s : State) : Nat := 2 ^ s.aw

/-- How many component keys a buffer has: two for each of its `BUFCAP` elements (rule R64). -/
def compCount (aw : Nat) : Nat := 2 ^ (aw + 1)

/-- The one canonical form of a buffer's cells: keys strictly rising, each inside the buffer. -/
def Buffer.wf (b : Buffer) (aw : Nat) : Bool :=
  risingFrom 0 b.cells && b.cells.all fun c => decide (c.1 < compCount aw)

/-- The key of an element's component within its buffer, `2*i + c` (rule R64). -/
def compKey (i : Nat) (ax : Axis) : Nat :=
  match ax with
  | .re => 2 * i
  | .im => 2 * i + 1

/-! The buffer file. -/

/-- Buffer `n` (rule R21). -/
def State.buf (s : State) (n : Buf) : Buffer := s.bufs[n]

/-- Replace buffer `n`. -/
def State.setBuf (s : State) (n : Buf) (b : Buffer) : State := { s with bufs := s.bufs.set n b }

/-- `LEN[n]` as a number (rule R23). -/
def State.bufLen (s : State) (n : Buf) : Nat := (s.buf n).len.toNat

/-- Component `ax` of element `i` of buffer `n`; none if it has never been written since hardware reset. -/
def State.comp (s : State) (n : Buf) (i : Nat) (ax : Axis) : Option Scalar :=
  lookupCell (s.buf n).cells (compKey i ax)

/-- The window address of component key 0 of buffer `n` (rule R64). -/
def windowBase (aw : Nat) (n : Buf) : Nat := 2 ^ (aw + 4) + n.val * 2 ^ (aw + 1)

/-- One element as an operation writes it; a component it leaves unwritten is none (only `TREC` does,
where the component it keeps was never written; rule R172). -/
structure Elem where
  re : Option Scalar
  im : Option Scalar
  deriving DecidableEq, Repr

/-- A complex value as an element. -/
def Elem.ofCx (z : Cx) : Elem := ⟨some z.re, some z.im⟩

/-- A cell for a component that is written, none for one that is not. -/
def cellOf (k : Nat) : Option Scalar → List (Nat × Scalar)
  | none => []
  | some v => [(k, v)]

/-- The cells of a result sequence, from element `i` up. -/
def packCells : Nat → List Elem → List (Nat × Scalar)
  | _, [] => []
  | i, e :: es => cellOf (2 * i) e.re ++ cellOf (2 * i + 1) e.im ++ packCells (i + 1) es

/-- The components at and beyond element `m` that had a value: they become unspecified (rule R23, U2),
each the free value of its address at this epoch. -/
def staleCells (epoch base m : Nat) : List (Nat × Scalar) → List (Nat × Scalar)
  | [] => []
  | (a, _) :: rest =>
    if a < 2 * m then staleCells epoch base m rest
    else (a, Config.freeNum epoch (base + a)) :: staleCells epoch base m rest

/-- `B[d] <- seq` (rules R12, R23): the elements of the result, `LEN[d]` its length, and every element
beyond it unspecified. -/
def State.writeElems (s : State) (d : Buf) (es : List Elem) : State :=
  s.setBuf d
    { len := BitVec.ofNat 32 es.length
      cells := packCells 0 es ++ staleCells s.epoch (windowBase s.aw d) es.length (s.buf d).cells }

/-- `B[d] <- seq` for a complex sequence. -/
def State.writeCx (s : State) (d : Buf) (zs : List Cx) : State := s.writeElems d (zs.map Elem.ofCx)

/-- `B[d] <- seq` for a real sequence: `im = 0` (rule R22). -/
def State.writeReal (s : State) (d : Buf) (xs : List Scalar) : State := s.writeCx d (xs.map Cx.ofReal)

/-! The registers as the numbers the rules use. -/

/-- `P`. -/
def State.pNat (s : State) : Nat := s.cfg.p.toNat
/-- `L`. -/
def State.lNat (s : State) : Nat := s.cfg.l.toNat
/-- `HITCAP`. -/
def State.hitcapNat (s : State) : Nat := s.cfg.hitcap.toNat
/-- `FLEN`. -/
def State.flenNat (s : State) : Nat := s.cfg.flen.toNat

/-! The life of a command. -/

/-- What an operation's rule comes to: a result, a `raise`, or the read of a component that has never
been written. -/
inductive Res (α : Type) where
  | ok (a : α)
  | raise (f : FCode) (info : Nat)
  | uninit (n : Buf)
  deriving DecidableEq, Repr

/-- Go on with a result; a `raise` ends the rule at that point (rule R262). -/
def Res.bind {α β : Type} (r : Res α) (f : α → Res β) : Res β :=
  match r with
  | .ok a => f a
  | .raise c info => .raise c info
  | .uninit n => .uninit n

/-- Raise a fault if a test fails. -/
def require (test : Bool) (f : FCode) (info : Nat) : Res Unit :=
  if test then .ok () else .raise f info

/-- The accepted command word (rule R53). -/
def State.acceptedWord (s : State) : CmdWord := s.inFlight.getD 0#32

/-- The sequencer falls idle: `BUSY <- 0`, and the epoch of the free values moves on. -/
def idle (s : State) : State := { s with inFlight := none, busyReads := 0, epoch := s.epoch + 1 }

/-- Completion: `BUSY <- 0`, `DONE <- 1` (rule R261). -/
def complete (s : State) : State := idle { s with status := { s.status with done := true } }

/-- `raise F(info)` (rule R262): no result of the operation is written; `FAULT`, `FCODE`, `FINFO`,
`FCMD` and `BUSY` change and `DONE` stays as acceptance left it. -/
def raise (f : FCode) (info : Nat) (s : State) : State :=
  idle { s with
    status := { s.status with fault := true, fcode := f }
    finfo := BitVec.ofNat 32 info
    fcmd := s.acceptedWord }

/-- The end of an operation whose rule, from state `s`, comes to `r`. -/
def finish (s : State) (r : Res State) : Host.Outcome State Fault Refusal :=
  match r with
  | .ok t => .next (complete t)
  | .raise f info => .next (raise f info s)
  | .uninit n => .refused (.uninitialised n)

/-- Every register at its reset value, the buffer elements untouched (rules R112, R292). -/
def resetRegisters (s : State) : State :=
  { s with
    status := .reset
    ctrl := 0#32
    finfo := 0#32
    fcmd := 0#32
    cfg := .reset
    res := .reset
    bufs := s.bufs.map fun b => { b with len := 0#32 } }

/-- The way out of a fault, `SRST` (rules R112, R275): the reset values win over `DONE`. -/
def softReset (s : State) : State := idle (resetRegisters s)

/-- Hardware reset (rule R290): an operation in progress is abandoned, every register takes its reset
value and every buffer element is unspecified.  The host's side goes on, and `AW` is what it is. -/
def hardReset (s : State) : State :=
  { State.reset with
    awAbove8 := s.awAbove8
    epoch := s.epoch + 1
    pending := s.pending
    answered := s.answered }

end Sys2Proof.Machine
end

