-- ==== Sys2Proof/Machine/Operands.lean ====
section
/-!
DEFINITION. The operand forms (rules R22, R91, R95): a source buffer read as complex values, as one
component, as a window of one component, or one component at a time.  A source is read from the snapshot
(rule R15).  A component that has never been written ends the operation (rule R68, U3).
-/

namespace Sys2Proof.Machine

/-- The sequence read, if every one of the `n` components asked for has been written. -/
def allOf (b : Buf) (n : Nat) (xs : List Scalar) : Res (List Scalar) :=
  if xs.length = n then .ok xs else .uninit b

/-- Elements `i0 .. i0+n-1` of component `ax` of a source, up to the first never written. -/
def State.prefixOf (s : State) (b : Buf) (ax : Axis) (i0 n : Nat) : List Scalar :=
  gather (s.buf b).cells (compKey i0 ax) n

/-- Elements `i0 .. i0+n-1` of component `ax` of a source. -/
def State.srcSlice (s : State) (b : Buf) (ax : Axis) (i0 n : Nat) : Res (List Scalar) :=
  allOf b n (s.prefixOf b ax i0 n)

/-- `Re(B[b])` or `Im(B[b])` (rules R12, R92). -/
def State.srcAxis (s : State) (b : Buf) (ax : Axis) : Res (List Scalar) := s.srcSlice b ax 0 (s.bufLen b)

/-- The real sequence kept in `re` (rule R22). -/
def State.srcRe (s : State) (b : Buf) : Res (List Scalar) := s.srcAxis b .re

/-- `B[b]` as a complex sequence (rule R12). -/
def State.srcCx (s : State) (b : Buf) : Res (List Cx) :=
  (s.srcAxis b .re).bind fun xs =>
  (s.srcAxis b .im).bind fun ys =>
  .ok (xs.zipWith Cx.mk ys)

/-- `B[b][i]`, one component. -/
def State.srcComp (s : State) (b : Buf) (i : Nat) (ax : Axis) : Res Scalar :=
  match s.comp b i ax with
  | some v => .ok v
  | none => .uninit b

end Sys2Proof.Machine
end

