-- ==== Sys2Proof/Machine/Mapper.lean ====
section
/-!
DEFINITION. The symbol/bit mapper (`47_mapper.md`): the eight mapper operations and the functions
`sym2pam` and `pam2ltr` that the frame extractor shares with them.
-/

namespace Sys2Proof.Machine

open Scalar

/-- The modulation types (rules R33, R34). -/
inductive Modulation where
  | qam4
  | qam42
  | pam4
  deriving DecidableEq, Repr

/-- The modulation type that `MOD` selects; none for the reserved values 3 and above (rule R34). -/
def modulationOf (m : CmdWord) : Option Modulation :=
  match m.toNat with
  | 0 => some .qam4
  | 1 => some .qam42
  | 2 => some .pam4
  | _ => none

/-- The selected modulation type, or `CONFIG` (rule R264). -/
def modulation (s : State) : Res Modulation :=
  match modulationOf s.cfg.modType with
  | some m => .ok m
  | none => .raise .config 0

/-! Character codes and PAM levels. -/

/-- The level of a base-4 digit, `2*(48 + d) - 99` (rule R221). -/
def levelOf (d : Nat) : Scalar := ofInt (2 * (48 + d) - 99)

/-- The four levels of a character code, most significant digit first (rule R221). -/
def levelsOf (c : Nat) : List Scalar :=
  [levelOf (c / 64 % 4), levelOf (c / 16 % 4), levelOf (c / 4 % 4), levelOf (c % 4)]

/-- The character code that a real is: an integer in 0..255 (rule R221). -/
def charCode? (x : Scalar) : Option Nat :=
  match x.toInt? with
  | some n => if 0 ≤ n ∧ n ≤ 255 then some n.toNat else none
  | none => none

/-- `ltr2pam` from element `i` up; `DOMAIN(i)` at the first element that is no character code
(rules R221, R222). -/
def ltr2pamFrom : Nat → List Scalar → Res (List Scalar)
  | _, [] => .ok []
  | i, x :: xs =>
    match charCode? x with
    | none => .raise .domain i
    | some c => (ltr2pamFrom (i + 1) xs).bind fun rest => .ok (levelsOf c ++ rest)

/-- The digit of a PAM level, `(v + 3)/2` (rule R223); none for any other value. -/
def digitOf (v : Scalar) : Option Nat :=
  if v.eq (ofInt (-3)) then some 0
  else if v.eq (ofInt (-1)) then some 1
  else if v.eq (ofInt 1) then some 2
  else if v.eq (ofInt 3) then some 3
  else none

/-- The digit of level `i`, or `DOMAIN(i)` (rule R224). -/
def digitAt (i : Nat) (v : Scalar) : Res Nat :=
  match digitOf v with
  | some d => .ok d
  | none => .raise .domain i

/-- `pam2ltr` from level `i` up: one character code per full group of four levels, the tail dropped
unexamined (rules R223, R224). -/
def pam2ltrFrom : Nat → List Scalar → Res (List Scalar)
  | i, a :: b :: c :: d :: rest =>
    (digitAt i a).bind fun d3 =>
    (digitAt (i + 1) b).bind fun d2 =>
    (digitAt (i + 2) c).bind fun d1 =>
    (digitAt (i + 3) d).bind fun d0 =>
    (pam2ltrFrom (i + 4) rest).bind fun cs =>
    .ok (ofNat (64 * d3 + 16 * d2 + 4 * d1 + d0) :: cs)
  | _, _ => .ok []

/-- The rule of `LTR2PAM` (rule R222): the elements are examined in order, so a `DOMAIN` fault at an
element comes before the read of a later one. -/
def ltr2pamRule (d0 s0 : Buf) (s : State) : Res State :=
  (require (decide (4 * s.bufLen s0 ≤ s.bufCap)) .overflow 0).bind fun _ =>
  let xs := s.prefixOf s0 .re 0 (s.bufLen s0)
  (ltr2pamFrom 0 xs).bind fun levels =>
  (allOf s0 (s.bufLen s0) xs).bind fun _ =>
  .ok (s.writeReal d0 levels)

/-- `LTR2PAM d0, s0` (rule R222). -/
def execLtr2pam (d0 s0 : Buf) (s : State) : Host.Outcome State Fault Refusal :=
  finish s (ltr2pamRule d0 s0 s)

/-- The first level, from index `i` up, that is none of -3, -1, 1, 3 (rule R224). -/
def badLevelFrom : Nat → List Scalar → Option Nat
  | _, [] => none
  | i, v :: vs => match digitOf v with
    | some _ => badLevelFrom (i + 1) vs
    | none => some i

/-- The rule of `PAM2LTR` (rule R224): the levels of the full groups are examined in order. -/
def pam2ltrRule (d0 s0 : Buf) (s : State) : Res State :=
  let n := 4 * (s.bufLen s0 / 4)
  let ps := s.prefixOf s0 .re 0 n
  (match badLevelFrom 0 ps with
    | some i => Res.raise .domain i
    | none => .ok ()).bind fun _ =>
  (allOf s0 n ps).bind fun _ =>
  (pam2ltrFrom 0 ps).bind fun codes =>
  .ok (s.writeReal d0 codes)

/-- `PAM2LTR d0, s0` (rule R224). -/
def execPam2ltr (d0 s0 : Buf) (s : State) : Host.Outcome State Fault Refusal :=
  finish s (pam2ltrRule d0 s0 s)

/-! PAM levels and constellation points. -/

/-- A lookup's answer for one element, and whether it is the catch-all's (rule R233). -/
structure Looked (α : Type) where
  out : α
  unrec : Bool
  deriving DecidableEq, Repr

/-- The symbol that each of the four levels -3, -1, 1, 3 maps to, in a modulation (rules R225, R227,
R229). -/
def pointOf (m : Modulation) (d : Nat) : Cx :=
  match m with
  | .qam4 => match d with
    | 0 => .ofInts (-1) (-1)
    | 1 => .ofInts (-1) 1
    | 2 => .ofInts 1 (-1)
    | _ => .ofInts 1 1
  | .qam42 => match d with
    | 0 => .ofInts (-3) (-3)
    | 1 => .ofInts (-1) (-1)
    | 2 => .ofInts 1 1
    | _ => .ofInts 3 3
  | .pam4 => match d with
    | 0 => .ofInts (-3) 0
    | 1 => .ofInts (-1) 0
    | 2 => .ofInts 1 0
    | _ => .ofInts 3 0

/-- `pam2sym` of one level: three tested entries and the last branch (rules R225, R227, R229, R233). -/
def pam2symOne (m : Modulation) (p : Scalar) : Looked Cx :=
  match digitOf p with
  | some d => ⟨pointOf m d, false⟩
  | none => ⟨pointOf m 3, true⟩

/-- Does a symbol match a point?  For `4PAM` the imaginary component takes no part (rule R230). -/
def matchesPoint (m : Modulation) (z : Cx) (d : Nat) : Bool :=
  match m with
  | .pam4 => z.re.eq (pointOf m d).re
  | .qam4 | .qam42 => z.eq (pointOf m d)

/-- `sym2pam` of one symbol: three tested entries and the last branch (rules R226, R228, R230, R233). -/
def sym2pamOne (m : Modulation) (z : Cx) : Looked Scalar :=
  if matchesPoint m z 0 then ⟨ofInt (-3), false⟩
  else if matchesPoint m z 1 then ⟨ofInt (-1), false⟩
  else if matchesPoint m z 2 then ⟨ofInt 1, false⟩
  else ⟨ofInt 3, !matchesPoint m z 3⟩

/-- Does a lookup of a sequence reach the catch-all anywhere (rule R233)? -/
def anyUnrec {α : Type} (ls : List (Looked α)) : Bool := ls.any Looked.unrec

/-- `pam2sym(p, m)` of a sequence. -/
def pam2symSeq (m : Modulation) (ps : List Scalar) : List (Looked Cx) := ps.map (pam2symOne m)

/-- `sym2pam(z, m)` of a sequence. -/
def sym2pamSeq (m : Modulation) (zs : List Cx) : List (Looked Scalar) := zs.map (sym2pamOne m)

/-- Levels to symbols, in modulation `m` (rules R225, R227, R229). -/
def mapToSymbols (m : Modulation) (d0 s0 : Buf) (s : State) : Res State :=
  (s.srcRe s0).bind fun ps =>
  let r := pam2symSeq m ps
  .ok (setConds { unrec := anyUnrec r } (s.writeCx d0 (r.map Looked.out)))

/-- A symbol source: for `4PAM` its real component only, the imaginary one being ignored (rule R230). -/
def srcSymbols (m : Modulation) (s0 : Buf) (s : State) : Res (List Cx) :=
  match m with
  | .pam4 => (s.srcRe s0).bind fun xs => .ok (xs.map Cx.ofReal)
  | .qam4 | .qam42 => s.srcCx s0

/-- Symbols to levels, in modulation `m` (rules R226, R228, R230). -/
def mapToLevels (m : Modulation) (d0 s0 : Buf) (s : State) : Res State :=
  (srcSymbols m s0 s).bind fun zs =>
  let r := sym2pamSeq m zs
  .ok (setConds { unrec := anyUnrec r } (s.writeReal d0 (r.map Looked.out)))

/-- `PAM2QAM d0, s0` (rule R225). -/
def execPam2qam (d0 s0 : Buf) (s : State) : Host.Outcome State Fault Refusal :=
  finish s (mapToSymbols .qam4 d0 s0 s)

/-- `QAM2PAM d0, s0` (rule R226). -/
def execQam2pam (d0 s0 : Buf) (s : State) : Host.Outcome State Fault Refusal :=
  finish s (mapToLevels .qam4 d0 s0 s)

/-- `PAM2Q42 d0, s0` (rule R227). -/
def execPam2q42 (d0 s0 : Buf) (s : State) : Host.Outcome State Fault Refusal :=
  finish s (mapToSymbols .qam42 d0 s0 s)

/-- `Q422PAM d0, s0` (rule R228). -/
def execQ422pam (d0 s0 : Buf) (s : State) : Host.Outcome State Fault Refusal :=
  finish s (mapToLevels .qam42 d0 s0 s)

/-- `PAM2SYM d0, s0` (rule R231): the modulation that `MOD` selects. -/
def execPam2sym (d0 s0 : Buf) (s : State) : Host.Outcome State Fault Refusal :=
  finish s ((modulation s).bind fun m => mapToSymbols m d0 s0 s)

/-- `SYM2PAM d0, s0` (rule R232): the modulation that `MOD` selects. -/
def execSym2pam (d0 s0 : Buf) (s : State) : Host.Outcome State Fault Refusal :=
  finish s ((modulation s).bind fun m => mapToLevels m d0 s0 s)

end Sys2Proof.Machine
end

