-- ==== Sys2Proof/Machine/Barker.lean ====
section
/-!
DEFINITION. The Barker header generator `BARKER`, the frame correlator `XCORR` and the frame extractor
`FEXT` (`46_barker_sync.md`).
-/

namespace Sys2Proof.Machine

open Scalar

/-- The Barker code of the length in `HDR`; none for any other value (rule R191). -/
def barkerCode (hdr : CmdWord) : Option (List Int) :=
  match hdr.toNat with
  | 13 => some [1, 1, 1, 1, 1, -1, -1, 1, 1, -1, 1, -1, 1]
  | 11 => some [1, 1, 1, -1, -1, -1, 1, -1, -1, 1, -1]
  | 7 => some [1, 1, 1, -1, -1, 1, -1]
  | _ => none

/-- A chip as a header symbol (rule R192): x3 for `QAM4_2`, real-only x3 for `4PAM`, x11/10 for `4QAM`. -/
def headerSymbol (m : Modulation) (chip : Int) : Cx :=
  match m with
  | .qam42 => .ofInts (3 * chip) (3 * chip)
  | .pam4 => .ofInts (3 * chip) 0
  | .qam4 => ⟨.rat (11 / 10 * chip), .rat (11 / 10 * chip)⟩

/-- `header(HDR, MOD)` for a code (rule R192). -/
def header (m : Modulation) (code : List Int) : List Cx := code.map (headerSymbol m)

/-- The selected code, or `CONFIG` (rule R264). -/
def selectedCode (s : State) : Res (List Int) :=
  match barkerCode s.cfg.hdr with
  | some c => .ok c
  | none => .raise .config 0

/-- The rule of `BARKER` (rule R193). -/
def barkerRule (d0 : Buf) (s : State) : Res State :=
  (selectedCode s).bind fun code =>
  (modulation s).bind fun m =>
  .ok (s.writeCx d0 (header m code))

/-- `BARKER d0` (rule R193). -/
def execBarker (d0 : Buf) (s : State) : Host.Outcome State Fault Refusal := finish s (barkerRule d0 s)

/-! The correlator. -/

/-- The sums of products of `v` with the next `n` windows of a sequence. -/
def slidingDots (v : List Scalar) : Nat → List Scalar → List Scalar
  | 0, _ => []
  | n + 1, a => dot a v :: slidingDots v n a.tail

/-- The full correlation, of length `N + M - 1`: `c[i] = sum_n a[i - (M-1) + n] * v[n]`, with `a` zero
outside its range (rule R195). -/
def correlate (a v : List Scalar) : List Scalar :=
  slidingDots v (a.length + v.length - 1)
    (List.replicate (v.length - 1) zero ++ a ++ List.replicate (v.length - 1) zero)

/-- The hits of one axis (rule R196): the recorded lags with their signed values, in scan order, and
whether a hit was dropped because the table was full (rule R197). -/
structure Hits where
  list : List (Nat × Scalar)
  dropped : Bool
  deriving DecidableEq, Repr

/-- The scan of rule R196 from lag `i` with room for `room` more hits. -/
def scanHits (trig : Scalar) : Nat → Nat → List Scalar → Hits
  | _, _, [] => ⟨[], false⟩
  | i, room, c :: cs =>
    if trig.le c.abs then
      match room with
      | 0 => ⟨(scanHits trig (i + 1) 0 cs).list, true⟩
      | room + 1 =>
        let h := scanHits trig (i + 1) room cs
        ⟨(i, c) :: h.list, h.dropped⟩
    else scanHits trig (i + 1) room cs

/-- The two axes' tables side by side, the shorter padded with zeros (rule R198). -/
def packTables : List Scalar → List Scalar → List Cx
  | [], ys => ys.map fun y => ⟨zero, y⟩
  | x :: xs, ys => ⟨x, ys.headD zero⟩ :: packTables xs ys.tail

/-- A sequence without its trailing zero-pairs (rule R198). -/
def trimZeros : List Cx → List Cx
  | [] => []
  | z :: zs =>
    match trimZeros zs with
    | [] => if z.eq ⟨zero, zero⟩ then [] else [z]
    | r :: rs => z :: r :: rs

/-- The index table of an axis. -/
def Hits.indices (h : Hits) : List Scalar := h.list.map fun p => ofNat p.1

/-- The value table of an axis. -/
def Hits.values (h : Hits) : List Scalar := h.list.map fun p => p.2

/-- The imaginary component of the correlator's source.  For `4PAM` the header's imaginary part is all
zero, so no value of it enters the correlation and it is not read (rules R192, R200; log entry 13). -/
def corrIm (m : Modulation) (s0 : Buf) (s : State) : Res (List Scalar) :=
  match m with
  | .pam4 => .ok (List.replicate (s.bufLen s0) zero)
  | .qam4 | .qam42 => s.srcAxis s0 .im

/-- The rule of `XCORR` (rule R200). -/
def xcorrRule (d0 d1 s0 : Buf) (s : State) : Res State :=
  (selectedCode s).bind fun code =>
  (modulation s).bind fun m =>
  (require (decide (s.hitcapNat ≤ s.bufCap)) .config 0).bind fun _ =>
  (require (decide (s.bufLen s0 ≠ 0)) .empty 0).bind fun _ =>
  (s.srcAxis s0 .re).bind fun qr =>
  (corrIm m s0 s).bind fun qi =>
  let hd := header m code
  let hr := scanHits s.cfg.trig 0 s.hitcapNat (correlate qr (hd.map Cx.re))
  let hi := scanHits s.cfg.trig 0 s.hitcapNat (correlate qi (hd.map Cx.im))
  let s' := (s.writeCx d0 (trimZeros (packTables hr.indices hi.indices))).writeCx d1
    (trimZeros (packTables hr.values hi.values))
  .ok (setConds
    { hitovf := hr.dropped || hi.dropped
      desync := decide (hr.list.length ≠ hi.list.length) && decide (m ≠ .pam4) }
    { s' with res := { s'.res with
        nhr := BitVec.ofNat 32 hr.list.length
        nhi := BitVec.ofNat 32 hi.list.length } })

/-- `XCORR d0, d1, s0` (rule R200). -/
def execXcorr (d0 d1 s0 : Buf) (s : State) : Host.Outcome State Fault Refusal :=
  finish s (xcorrRule d0 d1 s0 s)

/-! The frame extractor. -/

/-- The operands and registers of the extractor (rules R205, R210). -/
structure FextArgs where
  q : Buf
  idx : Buf
  val : Buf
  hdr : Nat
  flen : Nat
  nHits : Nat
  deriving DecidableEq, Repr

/-- Hit index `k` of an axis: a non-negative integer, or `DOMAIN` with the hit being extracted
(rule R205). -/
def hitIndex (s : State) (b : Buf) (ax : Axis) (k hit : Nat) : Res Nat :=
  (s.srcComp b k ax).bind fun x =>
  match x.toInt? with
  | some n => if 0 ≤ n then .ok n.toNat else .raise .domain hit
  | none => .raise .domain hit

/-- The end of the slice of hit `k` whose start is `start` (rule R205). -/
def sliceEnd (s : State) (a : FextArgs) (ax : Axis) (k : Nat) (start : Nat) : Res Int :=
  if k + 1 < a.nHits then (hitIndex s a.idx ax (k + 1) k).bind fun nxt => .ok ((nxt : Int) - a.hdr + 1)
  else .ok ((start : Int) + a.flen - a.hdr)

/-- The bounds `start` and `end` of the slice of one axis of hit `k` (rule R205). -/
def sliceBounds (s : State) (a : FextArgs) (ax : Axis) (k : Nat) : Res (Nat × Int) :=
  (hitIndex s a.idx ax k k).bind fun idx =>
  (sliceEnd s a ax k (idx + 1)).bind fun stop => .ok (idx + 1, stop)

/-- A bound clamped to `[0, N]` (rule R206). -/
def clampTo (n : Nat) (v : Int) : Nat := min v.toNat n

/-- The sign-corrected slice of one axis of hit `k` between its bounds (rules R206, R207). -/
def axisSlice (s : State) (a : FextArgs) (ax : Axis) (k : Nat) (b : Nat × Int) : Res (List Scalar) :=
  (s.srcComp a.val k ax).bind fun v =>
  let lo := clampTo (s.bufLen a.q) b.1
  let hi := clampTo (s.bufLen a.q) b.2
  (s.srcSlice a.q ax lo (hi - lo)).bind fun xs => .ok (xs.map (scale v.sgn))

/-- The corrected symbols of hit `k` (rules R205 to R208): the bounds of both axes, then their slices;
for `4PAM` the real axis only. -/
def hitSymbols (m : Modulation) (s : State) (a : FextArgs) (k : Nat) : Res (List Cx) :=
  match m with
  | .pam4 =>
    (sliceBounds s a .re k).bind fun b =>
    (axisSlice s a .re k b).bind fun xs => .ok (xs.map Cx.ofReal)
  | .qam4 | .qam42 =>
    (sliceBounds s a .re k).bind fun br =>
    (sliceBounds s a .im k).bind fun bi =>
    (axisSlice s a .re k br).bind fun xs =>
    (axisSlice s a .im k bi).bind fun ys =>
    (require (decide (xs.length = ys.length)) .desync k).bind fun _ =>
    .ok (xs.zipWith Cx.mk ys)

/-- The character codes of the hits from `k` on, `rem` of them, and whether a demapping reached the
catch-all (rules R209, R210). -/
def extractFrom (m : Modulation) (s : State) (a : FextArgs) : Nat → Nat → Res (Looked (List Scalar))
  | 0, _ => .ok ⟨[], false⟩
  | rem + 1, k =>
    (hitSymbols m s a k).bind fun zs =>
    let r := sym2pamSeq m zs
    (pam2ltrFrom 0 (r.map Looked.out)).bind fun codes =>
    (extractFrom m s a rem (k + 1)).bind fun rest =>
    .ok ⟨codes ++ rest.out, anyUnrec r || rest.unrec⟩

/-- The rule of `FEXT` (rule R210). -/
def fextRule (d0 s0 s1 s2 : Buf) (s : State) : Res State :=
  (selectedCode s).bind fun _ =>
  (modulation s).bind fun m =>
  (require (decide (s.bufLen s2 = s.bufLen s1)) .desync 0).bind fun _ =>
  (extractFrom m s
    { q := s0, idx := s1, val := s2, hdr := s.cfg.hdr.toNat, flen := s.flenNat, nHits := s.bufLen s1 }
    (s.bufLen s1) 0).bind fun r =>
  (require (decide (r.out.length ≤ s.bufCap)) .overflow 0).bind fun _ =>
  .ok (setConds { nosync := decide (s.bufLen s1 = 0), unrec := r.unrec } (s.writeReal d0 r.out))

/-- `FEXT d0, s0, s1, s2` (rule R210). -/
def execFext (d0 s0 s1 s2 : Buf) (s : State) : Host.Outcome State Fault Refusal :=
  finish s (fextRule d0 s0 s1 s2 s)

end Sys2Proof.Machine
end

