-- ==== Sys2Proof/Machine/Costas.lean ====
section
/-!
DEFINITION. The carrier/phase recovery loop `COSTAS` (`43_costas.md`).
-/

namespace Sys2Proof.Machine

open Scalar

/-- The registers the loop reads (rule R151). -/
structure LoopParams where
  f0 : Scalar
  fs : Scalar
  mu : Scalar
  taps : List Scalar
  deriving DecidableEq, Repr

/-- PC's LoopState (rules R50, R152): the sample index, the phase accumulator and the four delay lines,
oldest sample first. -/
structure LoopState where
  k : Nat
  theta : Scalar
  z0 : List Scalar
  z1 : List Scalar
  z2 : List Scalar
  z3 : List Scalar
  deriving DecidableEq, Repr

/-- The initial LoopState (rule R152). -/
def LoopState.initial (q : Nat) : LoopState :=
  { k := 0, theta := zero, z0 := List.replicate q zero, z1 := List.replicate q zero,
    z2 := List.replicate q zero, z3 := List.replicate q zero }

/-- The oscillator phase `phi[k] = 2*pi*F0*k/FS + theta[k]` (rule R153). -/
def oscPhase (c : LoopParams) (st : LoopState) : Scalar :=
  (((timesPi (2 * st.k)).mul c.f0).div c.fs).add st.theta

/-- The mixer product of branch `m`, `s * cos(phi + m*pi/4)` (rule R153). -/
def mixer (x : Scalar) (phi : Scalar) (m : Nat) : Scalar := x.mul (cos (phi.add (timesPi (m / 4))))

/-- Drop the oldest, append the newest (rule R153). -/
def pushDelay (z : List Scalar) (u : Scalar) : List Scalar := z.tail ++ [u]

/-- The filtered output of a branch, the time-reversed taps times the delay line (rule R153). -/
def branchOut (taps z : List Scalar) : Scalar := dot taps.reverse z

/-- One step of the loop for the input's real part `x` (rule R153). -/
def loopStep (c : LoopParams) (st : LoopState) (x : Scalar) : LoopState :=
  let phi := oscPhase c st
  let z0 := pushDelay st.z0 (mixer x phi 0)
  let z1 := pushDelay st.z1 (mixer x phi 1)
  let z2 := pushDelay st.z2 (mixer x phi 2)
  let z3 := pushDelay st.z3 (mixer x phi 3)
  let err := (((branchOut c.taps z0).mul (branchOut c.taps z1)).mul (branchOut c.taps z2)).mul
    (branchOut c.taps z3)
  { k := st.k + 1, theta := st.theta.add (c.mu.mul err), z0 := z0, z1 := z1, z2 := z2, z3 := z3 }

/-- The outputs of one sample (rule R155). -/
structure CarrierOut where
  /-- `D[k] = x[k] * E[k]`. -/
  corrected : Cx
  /-- `E[k] = (cos(phi[k]), -sin(phi[k]))`. -/
  derot : Cx
  /-- `T[k] = (theta[k], cos(phi[k]))`. -/
  traj : Cx
  deriving DecidableEq, Repr

/-- The outputs of sample `x[k]` (rule R155). -/
def carrierOut (c : LoopParams) (st : LoopState) (x : Cx) : CarrierOut :=
  let phi := oscPhase c st
  let e : Cx := ⟨cos phi, neg (sin phi)⟩
  { corrected := x.mul e, derot := e, traj := ⟨st.theta, cos phi⟩ }

/-- The loop over the remaining samples: their outputs and `theta[N]` (rules R153 to R155). -/
def runLoop (c : LoopParams) : LoopState → List Cx → List CarrierOut × Scalar
  | st, [] => ([], st.theta)
  | st, x :: xs =>
    let r := runLoop c (loopStep c st x.re) xs
    (carrierOut c st x :: r.1, r.2)

/-- The rule of `COSTAS` (rule R156). -/
def costasRule (d0 d1 d2 s0 s1 : Buf) (s : State) : Res State :=
  (require (zero.lt s.cfg.fs) .config 0).bind fun _ =>
  (require (decide (s.bufLen s1 ≠ 0)) .empty 0).bind fun _ =>
  (s.srcCx s0).bind fun x =>
  (s.srcRe s1).bind fun h =>
  let r := runLoop { f0 := s.cfg.f0, fs := s.cfg.fs, mu := s.cfg.muC, taps := h }
    (.initial h.length) x
  let s' := ((s.writeCx d0 (r.1.map CarrierOut.corrected)).writeCx d1 (r.1.map CarrierOut.derot)).writeCx
    d2 (r.1.map CarrierOut.traj)
  .ok { s' with res := { s'.res with theta := r.2 } }

/-- `COSTAS d0, d1, d2, s0, s1` (rule R156). -/
def execCostas (d0 d1 d2 s0 s1 : Buf) (s : State) : Host.Outcome State Fault Refusal :=
  finish s (costasRule d0 d1 d2 s0 s1 s)

end Sys2Proof.Machine
end

