-- ==== Sys2Proof/Machine/FreqEst.lean ====
section
/-!
DEFINITION. The coarse frequency estimator: `POW4` and `FEST` (`42_freq_est.md`).
-/

namespace Sys2Proof.Machine

open Scalar

/-- The fourth power `z*z*z*z` of a complex value (rule R141). -/
def fourthPower (z : Cx) : Cx := ((z.mul z).mul z).mul z

/-- The rule of `POW4` (rule R141). -/
def pow4Rule (d0 s0 : Buf) (s : State) : Res State :=
  (s.srcCx s0).bind fun zs => .ok (s.writeCx d0 (zs.map fourthPower))

/-- `POW4 d0, s0` (rule R141). -/
def execPow4 (d0 s0 : Buf) (s : State) : Host.Outcome State Fault Refusal := finish s (pow4Rule d0 s0 s)

/-- `z[n] * exp(-j*2*pi*kappa*n/N)` (rule R142). -/
def dftTerm (len : Nat) (kappa : Int) (n : Nat) (z : Cx) : Cx :=
  let a := timesPi (2 * kappa * n / len)
  z.mul ⟨cos a, neg (sin a)⟩

/-- The sum of a sequence of complex values. -/
def totalCx : List Cx → Cx
  | [] => ⟨zero, zero⟩
  | z :: zs => ⟨z.re.add (totalCx zs).re, z.im.add (totalCx zs).im⟩

/-- `X(kappa) = sum_n z[n] * exp(-j*2*pi*kappa*n/N)` (rule R142). -/
def dftBin (zs : List Cx) (kappa : Int) : Cx :=
  totalCx (zs.zipIdx.map fun (z, n) => dftTerm zs.length kappa n z)

/-- The signed bin index of spectrum index `i`, `i - floor(N/2)` (rule R142). -/
def binOf (len i : Nat) : Int := (i : Int) - (len / 2 : Nat)

/-- The squares of the zero-centred magnitude spectrum, `S[i]^2 = |X(i - floor(N/2))|^2` (rule R142);
the peak is found on the squares, which are in the order of the magnitudes (log entry 11). -/
def spectrumSq (zs : List Cx) : List Scalar :=
  (List.range zs.length).map fun i => (dftBin zs (binOf zs.length i)).normSq

/-- The smallest index of a greatest element, scanning on from index `i` with the best so far
(rule R143). -/
def peakFrom : List Scalar → Nat → Nat → Scalar → Nat
  | [], _, best, _ => best
  | x :: xs, i, best, v => if v.lt x then peakFrom xs (i + 1) i x else peakFrom xs (i + 1) best v

/-- The smallest index of a greatest element (rule R143). -/
def peakIndex : List Scalar → Nat
  | [] => 0
  | x :: xs => peakFrom xs 1 0 x

/-- `fest(z, FS) = kappa* * FS / (4*N)` (rule R143). -/
def festValue (zs : List Cx) (fs : Scalar) : Scalar :=
  ((ofInt (binOf zs.length (peakIndex (spectrumSq zs)))).mul fs).div (ofNat (4 * zs.length))

/-- The rule of `FEST` (rule R144). -/
def festRule (s0 : Buf) (s : State) : Res State :=
  (require (zero.lt s.cfg.fs) .config 0).bind fun _ =>
  (require (decide (s.bufLen s0 ≠ 0)) .empty 0).bind fun _ =>
  (s.srcCx s0).bind fun zs =>
  .ok { s with cfg := { s.cfg with f0 := festValue zs s.cfg.fs } }

/-- `FEST s0` (rule R144). -/
def execFest (s0 : Buf) (s : State) : Host.Outcome State Fault Refusal := finish s (festRule s0 s)

end Sys2Proof.Machine
end

