-- ==== Sys2Proof/Machine/Pulse.lean ====
section
/-!
DEFINITION. The pulse shape generator `SRRC` and the fractional-delay interpolator `INTERP`
(`41_srrc_interp.md`).
-/

namespace Sys2Proof.Machine

open Scalar

/-- The roll-off in use: `EPS_BETA` for a roll-off of exactly zero (rule R121). -/
def effectiveBeta (beta : Scalar) : Scalar := if beta.eq zero then .rat Config.epsBeta else beta

/-- `g(t; b, P)` at `t = 0`: `(1 - b + 4*b/pi) / sqrt(P)` (rule R122). -/
def pulseCentre (b : Scalar) (p : Nat) : Scalar :=
  ((one.sub b).add ((scale 4 b).div pi)).div (sqrt (ofNat p))

/-- `g(t; b, P)` at `4*b*t = 1` and `-1`:
`b/sqrt(2*P) * ((1 + 2/pi)*sin(pi/(4*b)) + (1 - 2/pi)*cos(pi/(4*b)))` (rule R122). -/
def pulseEdge (b : Scalar) (p : Nat) : Scalar :=
  let a := pi.div (scale 4 b)
  let twoOverPi := (ofNat 2).div pi
  (b.div (sqrt (ofNat (2 * p)))).mul
    (((one.add twoOverPi).mul (sin a)).add ((one.sub twoOverPi).mul (cos a)))

/-- `g(t; b, P)` at every other `t`:
`(sin(pi*t*(1-b)) + 4*b*t*cos(pi*t*(1+b))) / (pi*t*(1 - (4*b*t)^2)) / sqrt(P)` (rule R121). -/
def pulseRegular (t b : Scalar) (p : Nat) : Scalar :=
  let pt := pi.mul t
  let fbt := scale 4 (b.mul t)
  ((((sin (pt.mul (one.sub b))).add (fbt.mul (cos (pt.mul (one.add b))))).div
    (pt.mul (one.sub (fbt.mul fbt)))).div (sqrt (ofNat p)))

/-- The square-root raised-cosine pulse `g(t; beta, P)` (rules R121, R122).  The formula is even in `t`
and is taken at `|t|`, so that equal values of the pulse are equal data (rule R125). -/
def pulse (t beta : Scalar) (p : Nat) : Scalar :=
  let b := effectiveBeta beta
  if t.eq zero then pulseCentre b p
  else if (scale 4 (b.mul t)).abs.eq one then pulseEdge b p
  else pulseRegular t.abs b p

/-- Tap `m` of `K(L, beta, P, off)`: `g((m - L*P + off)/P; beta, P)` (rule R123). -/
def kernelTap (l p : Nat) (beta off : Scalar) (m : Nat) : Scalar :=
  pulse (((ofInt ((m : Int) - (l * p : Nat))).add off).div (ofNat p)) beta p

/-- The pulse kernel `K(L, beta, P, off)`, of length `2*L*P + 1` (rule R123). -/
def kernel (l p : Nat) (beta off : Scalar) : List Scalar :=
  (List.range (2 * (l * p) + 1)).map (kernelTap l p beta off)

/-- The legal set of `P` and `BETA` (rule R264). -/
def pulseConfigLegal (c : Cfg) : Bool :=
  decide (c.p ≠ 0#32) && zero.le c.beta && c.beta.le one

/-- The rule of `SRRC` (rule R124). -/
def srrcRule (d0 : Buf) (s : State) : Res State :=
  (require (pulseConfigLegal s.cfg) .config 0).bind fun _ =>
  (require (decide (2 * s.lNat * s.pNat + 1 ≤ s.bufCap)) .overflow 0).bind fun _ =>
  .ok (s.writeReal d0 (kernel s.lNat s.pNat s.cfg.beta s.cfg.toff))

/-- `SRRC d0` (rule R124). -/
def execSrrc (d0 : Buf) (s : State) : Host.Outcome State Fault Refusal := finish s (srrcRule d0 s)

/-- The interpolator's window is inside a sequence of length `n`: `t0 - l >= 0` and `t0 + l + 1 <= n`
(rules R126, R265). -/
def windowInside (t0 : Int) (l n : Nat) : Bool :=
  decide (0 ≤ t0 - l) && decide (t0 + l + 1 ≤ n)

/-- `interp(x, t; L, P, beta)` (rule R126) for `x` component `ax` of `B[b]`; `info` is what a `MARGIN`
fault reports.  The value is output `2*l` of the full convolution of the window
`x[t0-l : t0+l+1]` and the kernel offset by `tau`: `sum_i w[i] * s[2*l - i]`. -/
def interpolate (s : State) (b : Buf) (ax : Axis) (t : Scalar) (info : Nat) : Res Scalar :=
  let t0 := t.floor
  let tau := t.sub (ofInt t0)
  let l := s.lNat * s.pNat
  (require (windowInside t0 l (s.bufLen b)) .margin info).bind fun _ =>
  (s.srcSlice b ax (t0 - l).toNat (2 * l + 1)).bind fun w =>
  .ok (dot w (kernel s.lNat s.pNat s.cfg.beta tau).reverse)

/-- The rule of `INTERP` (rule R127). -/
def interpRule (ax : Axis) (s0 : Buf) (s : State) : Res State :=
  (require (pulseConfigLegal s.cfg) .config 0).bind fun _ =>
  (interpolate s s0 ax s.cfg.tq 0).bind fun v =>
  .ok { s with res := { s.res with ival := v } }

/-- `INTERP.ax s0` (rule R127). -/
def execInterp (ax : Axis) (s0 : Buf) (s : State) : Host.Outcome State Fault Refusal :=
  finish s (interpRule ax s0 s)

end Sys2Proof.Machine
end

