-- ==== Sys2Proof/Machine/Quantizer.lean ====
section
/-!
DEFINITION. The symbol quantizer `QUANT` (`45_quantizer.md`).
-/

namespace Sys2Proof.Machine

open Scalar

/-- The order of complex values: real part first, imaginary part among equal real parts (rule R182). -/
def cxLt (a b : Cx) : Bool := a.re.lt b.re || (a.re.eq b.re && a.im.lt b.im)

/-- The least symbol of a sequence in that order (rule R182). -/
def cxMin : Cx → List Cx → Cx
  | m, [] => m
  | m, z :: zs => cxMin (if cxLt z m then z else m) zs

/-- The greatest symbol of a sequence in that order (rule R182). -/
def cxMax : Cx → List Cx → Cx
  | m, [] => m
  | m, z :: zs => cxMax (if cxLt m z then z else m) zs

/-- `T = (|zmin| + |zmax|) / 4` (rule R183). -/
def threshold (zmin zmax : Cx) : Scalar := (zmin.modulus.add zmax.modulus).div (ofNat 4)

/-- `r < ((sqrt a + sqrt b) / 4)^2` for rationals `a, b >= 0`, computed without a square root: with
`c = 16*r - a - b` it says `c < 2*sqrt(a*b)` (log entry 12). -/
def belowSurds (r a b : ℚ) : Bool :=
  let c := 16 * r - a - b
  decide (c < 0) || decide (c * c < 4 * a * b)

/-- Is the squared modulus of `z` below `T^2` (rule R184)?  Without a square root where the three squared
moduli that enter are rational (log entry 12), and by the order of the reals otherwise. -/
def innerRing (zmin zmax z : Cx) : Bool :=
  match z.normSq, zmin.normSq, zmax.normSq with
  | .rat r, .rat a, .rat b => belowSurds r a b
  | n, _, _ => n.lt ((threshold zmin zmax).mul (threshold zmin zmax))

/-- The decision `q(z)` (rule R184): one ring for both axes, the sign of each. -/
def quantize (zmin zmax : Cx) (amin amax : Scalar) (z : Cx) : Cx :=
  let r := if innerRing zmin zmax z then amin else amax
  ⟨scale z.re.sgn r, scale z.im.sgn r⟩

/-- The rule of `QUANT` from its source sequence on (rule R185). -/
def quantSeq (d0 : Buf) (s : State) : List Cx → Res State
  | [] => .raise .empty 0
  | z :: zs =>
    let zmin := cxMin z zs
    let zmax := cxMax z zs
    let s' := s.writeCx d0 ((z :: zs).map (quantize zmin zmax s.cfg.amin s.cfg.amax))
    .ok { s' with res := { s'.res with thresh := threshold zmin zmax } }

/-- The rule of `QUANT` (rule R185). -/
def quantRule (d0 s0 : Buf) (s : State) : Res State :=
  (require (zero.lt s.cfg.amin && s.cfg.amin.le s.cfg.amax) .config 0).bind fun _ =>
  (require (decide (s.bufLen s0 ≠ 0)) .empty 0).bind fun _ =>
  (s.srcCx s0).bind (quantSeq d0 s)

/-- `QUANT d0, s0` (rule R185). -/
def execQuant (d0 s0 : Buf) (s : State) : Host.Outcome State Fault Refusal := finish s (quantRule d0 s0 s)

end Sys2Proof.Machine
end

