-- ==== Sys2Proof/Machine/System.lean ====
section
/-!
DEFINITION. The system operations `NOP`, `SRST`, `CLRF` (`40_system_ops.md`).
-/

namespace Sys2Proof.Machine

/-- `NOP` (rule R110): nothing but `DONE`. -/
def execNop (s : State) : Host.Outcome State Fault Refusal := finish s (.ok s)

/-- `SRST` (rule R112): the one command whose completion does not set `DONE`. -/
def execSrst (s : State) : Host.Outcome State Fault Refusal := .next (softReset s)

/-- `CLRF` (rule R114): the four condition flags are cleared. -/
def execClrf (s : State) : Host.Outcome State Fault Refusal := finish s (.ok (clearConds s))

end Sys2Proof.Machine
end

