-- ==== Sys2Proof/Machine/Timing.lean ====
section
/-!
DEFINITION. The timing recovery loop `TREC` (`44_timing.md`).
-/

namespace Sys2Proof.Machine

open Scalar

/-- PC's TimingState (rules R51, R167) with the records of the iterations so far, newest first. -/
structure TimingState where
  tnow : Scalar
  tau : Scalar
  n : Nat
  xs : List Scalar
  ts : List Scalar
  deriving DecidableEq, Repr

/-- The initial TimingState: `t_now = max(TINIT, TM_LO)`, `tau = 0`, `n = 0` (rule R167). -/
def TimingState.initial (c : Cfg) : TimingState :=
  { tnow := c.tinit.max c.tmLo, tau := zero, n := 0, xs := [], ts := [] }

/-- The loop's end, `N - TM_HI` (rule R169). -/
def timingEnd (c : Cfg) (len : Nat) : Scalar := (ofNat len).sub c.tmHi

/-- One iteration: the three probes in order, then the updates; `tau` is recorded after its update
(rule R169). -/
def timingStep (s : State) (s0 : Buf) (ax : Axis) (st : TimingState) : Res TimingState :=
  let t := st.tnow.add st.tau
  (interpolate s s0 ax t st.n).bind fun cur =>
  (interpolate s s0 ax (t.add s.cfg.delta) st.n).bind fun late =>
  (interpolate s s0 ax (t.sub s.cfg.delta) st.n).bind fun early =>
  let tau := st.tau.add ((s.cfg.muT.mul (late.sub early)).mul cur)
  .ok { tnow := st.tnow.add (ofNat s.pNat), tau := tau, n := st.n + 1,
        xs := cur :: st.xs, ts := tau :: st.ts }

/-- The loop: while `t_now < N - TM_HI` (rule R169).  The fuel is the iteration count of rule R170: for
every value of the registers the guard itself ends the loop after that many iterations (log entry 14). -/
def timingLoop (s : State) (s0 : Buf) (ax : Axis) : Nat → TimingState → Res TimingState
  | 0, st => .ok st
  | fuel + 1, st =>
    if st.tnow.lt (timingEnd s.cfg (s.bufLen s0)) then
      (timingStep s s0 ax st).bind (timingLoop s s0 ax fuel)
    else .ok st

/-- The iteration count `n_end = max(0, ceil((N - TM_HI - max(TINIT, TM_LO)) / P))` (rule R170). -/
def iterationCount (c : Cfg) (len : Nat) : Nat :=
  (ceil (((timingEnd c len).sub (c.tinit.max c.tmLo)).div (ofNat c.p.toNat))).toNat

/-- Element `i` of a destination: the selected component takes `v`, the other keeps what it held below
the old length and is 0 beyond it (rule R172). -/
def mergedElem (s : State) (d : Buf) (ax : Axis) (i : Nat) (v : Scalar) : Elem :=
  let kept (other : Axis) : Option Scalar := if i < s.bufLen d then s.comp d i other else some zero
  match ax with
  | .re => ⟨some v, kept .im⟩
  | .im => ⟨kept .re, some v⟩

/-- The elements a destination takes, its old elements those of the snapshot `s` (rule R172). -/
def mergedElems (s : State) (d : Buf) (ax : Axis) (vs : List Scalar) : List Elem :=
  vs.zipIdx.map fun (v, i) => mergedElem s d ax i v

/-- The rule of `TREC` (rule R172). -/
def trecRule (ax : Axis) (d0 d1 s0 : Buf) (s : State) : Res State :=
  (require (pulseConfigLegal s.cfg) .config 0).bind fun _ =>
  (timingLoop s s0 ax (iterationCount s.cfg (s.bufLen s0)) (.initial s.cfg)).bind fun st =>
  (require (decide (st.n ≤ s.bufCap)) .overflow 0).bind fun _ =>
  let s' := (s.writeElems d0 (mergedElems s d0 ax st.xs.reverse)).writeElems d1
    (mergedElems s d1 ax st.ts.reverse)
  .ok { s' with res := { s'.res with tau := st.tau, tnow := st.tnow, nsym := BitVec.ofNat 32 st.n } }

/-- `TREC.ax d0, d1, s0` (rule R172). -/
def execTrec (ax : Axis) (d0 d1 s0 : Buf) (s : State) : Host.Outcome State Fault Refusal :=
  finish s (trecRule ax d0 d1 s0 s)

end Sys2Proof.Machine
end

