-- ==== Sys2Proof/Machine/Dispatch.lean ====
section
/-! DEFINITION. The meaning of every operation, one arm per constructor of `Instr` (rule R94). -/

namespace Sys2Proof.Machine

def exec (i : Instr) (s : State) : Host.Outcome State Fault Refusal :=
  match i with
  | .nop => Sys2Proof.Machine.execNop s
  | .srst => Sys2Proof.Machine.execSrst s
  | .clrf => Sys2Proof.Machine.execClrf s
  | .srrc d0 => Sys2Proof.Machine.execSrrc d0 s
  | .interp ax s0 => Sys2Proof.Machine.execInterp ax s0 s
  | .pow4 d0 s0 => Sys2Proof.Machine.execPow4 d0 s0 s
  | .fest s0 => Sys2Proof.Machine.execFest s0 s
  | .costas d0 d1 d2 s0 s1 => Sys2Proof.Machine.execCostas d0 d1 d2 s0 s1 s
  | .trec ax d0 d1 s0 => Sys2Proof.Machine.execTrec ax d0 d1 s0 s
  | .quant d0 s0 => Sys2Proof.Machine.execQuant d0 s0 s
  | .barker d0 => Sys2Proof.Machine.execBarker d0 s
  | .xcorr d0 d1 s0 => Sys2Proof.Machine.execXcorr d0 d1 s0 s
  | .fext d0 s0 s1 s2 => Sys2Proof.Machine.execFext d0 s0 s1 s2 s
  | .ltr2pam d0 s0 => Sys2Proof.Machine.execLtr2pam d0 s0 s
  | .pam2ltr d0 s0 => Sys2Proof.Machine.execPam2ltr d0 s0 s
  | .pam2qam d0 s0 => Sys2Proof.Machine.execPam2qam d0 s0 s
  | .qam2pam d0 s0 => Sys2Proof.Machine.execQam2pam d0 s0 s
  | .pam2q42 d0 s0 => Sys2Proof.Machine.execPam2q42 d0 s0 s
  | .q422pam d0 s0 => Sys2Proof.Machine.execQ422pam d0 s0 s
  | .pam2sym d0 s0 => Sys2Proof.Machine.execPam2sym d0 s0 s
  | .sym2pam d0 s0 => Sys2Proof.Machine.execSym2pam d0 s0 s

end Sys2Proof.Machine
end

