-- ==== Sys2Proof/Machine/Port.lean ====
section
/-!
DEFINITION. The host port (`20_memory.md`): the address map, reads and writes of registers and of the
buffer window, the acceptance of a command (rules R113, R260), and the accesses that complete or are
held while an operation is in progress (rules R74, R75).
-/

namespace Sys2Proof.Machine

/-- The registers of the page `0x00` .. `0xFF` other than `LEN` (rules R26 to R37). -/
inductive Reg where
  | id | cmd | status | ctrl | finfo | fcmd
  | p | l | hdr | modType | hitcap | flen
  | beta | toff | fs | f0 | muC | muT | delta | tinit | tmLo | tmHi | trig | amin | amax | tq
  | ival | thresh | theta | tau | tnow | nsym | nhr | nhi
  deriving DecidableEq, Repr

/-- What a word address of the port names (rules R63, R64). -/
inductive Target where
  /-- A register. -/
  | reg (r : Reg)
  /-- `LEN[n]`. -/
  | len (n : Buf)
  /-- Component key `k` (`2*i + c`) of buffer `n`. -/
  | cell (n : Buf) (k : Nat)
  /-- Nothing: reads return 0, writes are ignored. -/
  | unmapped
  deriving DecidableEq, Repr

/-- The register at an address of the page (rules R26 to R37). -/
def regAt (a : Nat) : Option Reg :=
  match a with
  | 0x00 => some .id | 0x01 => some .cmd | 0x02 => some .status | 0x03 => some .ctrl
  | 0x04 => some .finfo | 0x05 => some .fcmd
  | 0x10 => some .p | 0x11 => some .l | 0x12 => some .hdr | 0x13 => some .modType
  | 0x14 => some .hitcap | 0x15 => some .flen
  | 0x20 => some .beta | 0x21 => some .toff | 0x22 => some .fs | 0x23 => some .f0
  | 0x24 => some .muC | 0x25 => some .muT | 0x26 => some .delta | 0x27 => some .tinit
  | 0x28 => some .tmLo | 0x29 => some .tmHi | 0x2A => some .trig | 0x2B => some .amin
  | 0x2C => some .amax | 0x2D => some .tq
  | 0x30 => some .ival | 0x31 => some .thresh | 0x32 => some .theta | 0x33 => some .tau
  | 0x34 => some .tnow | 0x35 => some .nsym | 0x36 => some .nhr | 0x37 => some .nhi
  | _ => none

/-- The address of `LEN[0]` (rule R38). -/
def lenBase : Nat := 0x40

/-- The first address of the buffer window, `2^(AW+4)` (rule R63). -/
def windowStart (aw : Nat) : Nat := 2 ^ (aw + 4)

/-- The address map (rules R38, R39, R63, R64). -/
def target (aw a : Nat) : Target :=
  if windowStart aw ≤ a ∧ a < 2 * windowStart aw then
    .cell (Fin.ofNat 8 (a / compCount aw)) (a % compCount aw)
  else if lenBase ≤ a ∧ a < lenBase + 8 then .len (Fin.ofNat 8 (a - lenBase))
  else match regAt a with
    | some r => .reg r
    | none => .unmapped

/-! Words. -/

/-- The bits of a port word (rule R62). -/
def PortWord.toBits : PortWord → PortBits
  | .bits w => w
  | .num v => Config.numEnc v

/-- The low 32 bits of a port word, what an integer register stores (rules R28, R62). -/
def PortWord.toInt (w : PortWord) : CmdWord := w.toBits.setWidth 32

/-- The `Num` a port word encodes (rules R28, R62). -/
def PortWord.toNum : PortWord → Scalar
  | .bits w => Config.numDec w
  | .num v => v

/-- The word an integer register reads as: its value extended with zeros (rules R28, R62). -/
def intWord (v : CmdWord) : PortWord := .bits (v.setWidth 64)

/-- `ID`, the constant `0x50435331` (rule R29). -/
def idConstant : CmdWord := 0x50435331#32

/-- The word a register reads as (rules R26 to R37); `CMD` is write-only and reads 0. -/
def readReg (s : State) : Reg → PortWord
  | .id => intWord idConstant
  | .cmd => intWord 0#32
  | .status => intWord (statusWord s)
  | .ctrl => intWord s.ctrl
  | .finfo => intWord s.finfo
  | .fcmd => intWord s.fcmd
  | .p => intWord s.cfg.p
  | .l => intWord s.cfg.l
  | .hdr => intWord s.cfg.hdr
  | .modType => intWord s.cfg.modType
  | .hitcap => intWord s.cfg.hitcap
  | .flen => intWord s.cfg.flen
  | .beta => .num s.cfg.beta
  | .toff => .num s.cfg.toff
  | .fs => .num s.cfg.fs
  | .f0 => .num s.cfg.f0
  | .muC => .num s.cfg.muC
  | .muT => .num s.cfg.muT
  | .delta => .num s.cfg.delta
  | .tinit => .num s.cfg.tinit
  | .tmLo => .num s.cfg.tmLo
  | .tmHi => .num s.cfg.tmHi
  | .trig => .num s.cfg.trig
  | .amin => .num s.cfg.amin
  | .amax => .num s.cfg.amax
  | .tq => .num s.cfg.tq
  | .ival => .num s.res.ival
  | .thresh => .num s.res.thresh
  | .theta => .num s.res.theta
  | .tau => .num s.res.tau
  | .tnow => .num s.res.tnow
  | .nsym => intWord s.res.nsym
  | .nhr => intWord s.res.nhr
  | .nhi => intWord s.res.nhi

/-- A window read (rules R64, R67): an element below `LEN[n]` whose component has a value reads as that
value; any other reads as an unspecified word, the same one until an operation ends (rule R71). -/
def readCell (s : State) (a : Nat) (n : Buf) (k : Nat) : PortWord :=
  if k / 2 < s.bufLen n then
    match lookupCell (s.buf n).cells k with
    | some v => .num v
    | none => .bits (Config.freeWord s.epoch a)
  else .bits (Config.freeWord s.epoch a)

/-- `MemRead(a, 1)` (rules R61, R63). -/
def memRead (s : State) (a : Nat) : PortWord :=
  match target s.aw a with
  | .reg r => readReg s r
  | .len n => intWord (s.buf n).len
  | .cell n k => readCell s a n k
  | .unmapped => intWord 0#32

/-- The word of `SRST` (rule R112). -/
def srstWord : CmdWord := 0x01000000#32

/-- A write of `CMD` that takes effect (rules R113, R260): dropped while `FAULT = 1` unless it is
`SRST`; otherwise accepted, `BUSY <- 1`, `DONE <- 0` and the word latched. -/
def offerCommand (w : CmdWord) (s : State) : State :=
  if s.status.fault && decide (w ≠ srstWord) then s
  else { s with
    inFlight := some w
    busyReads := Config.opTime s.epoch
    status := { s.status with done := false } }

/-- A write of a configuration register (rules R33, R35). -/
def writeCfg (s : State) (c : Cfg) : State := { s with cfg := c }

/-- A write of a register (rules R28 to R37): a read-only register ignores it, `CTRL` keeps its two low
bits (rule R31), a configuration register stores the value as written (rule R33). -/
def writeReg (s : State) (r : Reg) (w : PortWord) : State :=
  match r with
  | .cmd => offerCommand w.toInt s
  | .ctrl => { s with ctrl := w.toInt &&& 0x3#32 }
  | .p => writeCfg s { s.cfg with p := w.toInt }
  | .l => writeCfg s { s.cfg with l := w.toInt }
  | .hdr => writeCfg s { s.cfg with hdr := w.toInt }
  | .modType => writeCfg s { s.cfg with modType := w.toInt }
  | .hitcap => writeCfg s { s.cfg with hitcap := w.toInt }
  | .flen => writeCfg s { s.cfg with flen := w.toInt }
  | .beta => writeCfg s { s.cfg with beta := w.toNum }
  | .toff => writeCfg s { s.cfg with toff := w.toNum }
  | .fs => writeCfg s { s.cfg with fs := w.toNum }
  | .f0 => writeCfg s { s.cfg with f0 := w.toNum }
  | .muC => writeCfg s { s.cfg with muC := w.toNum }
  | .muT => writeCfg s { s.cfg with muT := w.toNum }
  | .delta => writeCfg s { s.cfg with delta := w.toNum }
  | .tinit => writeCfg s { s.cfg with tinit := w.toNum }
  | .tmLo => writeCfg s { s.cfg with tmLo := w.toNum }
  | .tmHi => writeCfg s { s.cfg with tmHi := w.toNum }
  | .trig => writeCfg s { s.cfg with trig := w.toNum }
  | .amin => writeCfg s { s.cfg with amin := w.toNum }
  | .amax => writeCfg s { s.cfg with amax := w.toNum }
  | .tq => writeCfg s { s.cfg with tq := w.toNum }
  | .id | .status | .finfo | .fcmd | .ival | .thresh | .theta | .tau | .tnow | .nsym | .nhr | .nhi => s

/-- A write of `LEN[n]` (rule R38): a value above `BUFCAP` is ignored. -/
def writeLen (s : State) (n : Buf) (v : CmdWord) : State :=
  if v.toNat ≤ s.bufCap then s.setBuf n { s.buf n with len := v } else s

/-- A window write (rule R66): the addressed component alone, never `LEN[n]`. -/
def writeCell (s : State) (n : Buf) (k : Nat) (v : Scalar) : State :=
  s.setBuf n { s.buf n with cells := setCell (s.buf n).cells k v }

/-- `MemWrite(a, 1, w)` (rules R61, R63). -/
def memWrite (s : State) (a : Nat) (w : PortWord) : State :=
  match target s.aw a with
  | .reg r => writeReg s r w
  | .len n => writeLen s n w.toInt
  | .cell n k => writeCell s n k w.toNum
  | .unmapped => s

/-- A read completes: the host has its word. -/
def answer (s : State) (a : Nat) : State := { s with answered := (a, memRead s a) :: s.answered }

/-- A host access takes effect in an idle block (rules R73, R260, R290). -/
def takeAccess (x : HostAccess) (s : State) : State :=
  match x with
  | .read a => answer s a
  | .write a w => memWrite s a w
  | .reset => hardReset s

/-- The reads that complete while an operation is in progress: those of `STATUS` and `ID` (rule R74). -/
def completesWhileBusy (a : Nat) : Bool := decide (a = 0x02) || decide (a = 0x00)

/-- The host access, if any, that comes before the end of the operation in progress: a read of `STATUS`
or `ID` (rule R74) or a hardware reset (rule R290), while the operation still takes time.  Every other
access is held. -/
def accessWhileBusy (s : State) : Option HostAccess :=
  if s.busyReads = 0 then none
  else match s.pending with
    | .read a :: _ => if completesWhileBusy a then some (.read a) else none
    | .reset :: _ => some .reset
    | .write _ _ :: _ => none
    | [] => none

end Sys2Proof.Machine
end

