-- ==== Sys2Proof/Machine/Sequencer.lean ====
section
/-!
DEFINITION. The sequencer (rule R20): what runs an accepted word, and one step of the block in each of
its two conditions, an operation in progress or none.
-/

namespace Sys2Proof.Machine

/-- An accepted word runs to its end (rule R103): an illegal word raises its decode fault, any other is
executed. -/
def runWord (w : CmdWord) (s : State) : Host.Outcome State Fault Refusal :=
  match decode w with
  | .illegalOpcode => .next (raise .illegalOpcode 0 s)
  | .illegalField => .next (raise .illegalField 0 s)
  | .instr i => exec i s

/-- A step while word `w` is in progress: a host access that comes before the end takes effect (rules
R74, R75, R290), else the operation ends. -/
def busyStep (w : CmdWord) (s : State) : Host.Outcome State Fault Refusal :=
  match accessWhileBusy s with
  | some x => .next (takeAccess x { s with pending := s.pending.tail, busyReads := s.busyReads - 1 })
  | none => runWord w s

/-- A step while no operation is in progress: the oldest host access takes effect (rule R73); without
one the block stays idle (rule R293). -/
def idleStep (s : State) : State :=
  match s.pending with
  | [] => s
  | x :: rest => takeAccess x { s with pending := rest }

/-- The state in which `w` has just been accepted and the next step ends its operation (rule R260). -/
def withAccepted (w : CmdWord) (s : State) : State :=
  { s with inFlight := some w, busyReads := 0, status := { s.status with done := false } }

end Sys2Proof.Machine
end

