-- ==== Sys2Proof/Machine/Step.lean ====
section
/-!
DEFINITION. One step of the block, and the state in which a given word is the next to run.  The block
has no program counter (rule R25): the word that runs next is the accepted one (rules R53, R260).
-/

namespace Sys2Proof.Machine

/-- One step of the block: of the operation in progress, or, without one, of the host. -/
def step (s : State) : Host.Outcome State Fault Refusal :=
  match s.inFlight with
  | some w => busyStep w s
  | none => .next (idleStep s)

/-- `s` with the `nbits` bits `w` accepted as the command word that the very next step runs. -/
def State.withFetchWord (s : State) (nbits w : Nat) : State :=
  withAccepted (BitVec.ofNat 32 (w % 2 ^ nbits)) s

end Sys2Proof.Machine
end

