-- ==== Sys2Proof/Machine/Reals.lean ====
section
/-!
DEFINITION. Which real number a `Scalar` stands for (rule R8: "a complex value is a pair `(re, im)` of
`Num`, and `sin`, `cos`, `sqrt`, `pi` ... have their mathematical meaning"), and the spec's real
functions over it.  No step of the machine uses this file; statements about real values do.
-/

namespace Sys2Proof

/-- The real number that an atom stands for: its whole part and its binary digits (rule R7, U10). -/
noncomputable def atomReal (n : Nat) : ℝ :=
  Config.atomWhole n + ∑' i : ℕ, (if Config.atomBit n i then (1 : ℝ) else 0) / 2 ^ (i + 1)

/-- The real number a scalar stands for (rule R8). -/
noncomputable def Scalar.val : Scalar → ℝ
  | .rat q => q
  | .atom n => atomReal n
  | .surd a b q => a + b * Real.sqrt q
  | .piMul c => c * Real.pi
  | .sum x y => x.val + y.val
  | .prod x y => x.val * y.val
  | .quot x y => x.val / y.val
  | .root x => Real.sqrt x.val
  | .sine x => Real.sin x.val
  | .cosine x => Real.cos x.val

/-- The complex number a pair stands for (rule R8). -/
noncomputable def Cx.val (z : Cx) : ℂ := ⟨z.re.val, z.im.val⟩

/-- The roll-off in use: `EPS_BETA` for a roll-off of exactly zero (rules R9, R121). -/
noncomputable def realBeta (beta : ℝ) : ℝ := if beta = 0 then (Config.epsBeta : ℝ) else beta

/-- `g(t; beta, P)` (rules R121, R122). -/
noncomputable def realPulse (t beta : ℝ) (p : ℕ) : ℝ :=
  let b := realBeta beta
  if t = 0 then (1 - b + 4 * b / Real.pi) / Real.sqrt p
  else if |4 * b * t| = 1 then
    b / Real.sqrt (2 * p) * ((1 + 2 / Real.pi) * Real.sin (Real.pi / (4 * b)) +
      (1 - 2 / Real.pi) * Real.cos (Real.pi / (4 * b)))
  else
    (Real.sin (Real.pi * t * (1 - b)) + 4 * b * t * Real.cos (Real.pi * t * (1 + b))) /
      (Real.pi * t * (1 - (4 * b * t) ^ 2)) / Real.sqrt p

/-- `X(kappa) = sum_n z[n] * exp(-j*2*pi*kappa*n/N)` (rule R142). -/
noncomputable def realDft (zs : List ℂ) (kappa : ℤ) : ℂ :=
  ∑ n ∈ Finset.range zs.length,
    zs.getD n 0 * Complex.exp (-(2 * Real.pi * kappa * n / zs.length) * Complex.I)

/-- An interval bounds a real: `lo ≤ x * 2^64 ≤ hi`. -/
def Ivl.Bounds (i : Ivl) (x : ℝ) : Prop := (i.lo : ℝ) ≤ x * 2 ^ 64 ∧ x * 2 ^ 64 ≤ (i.hi : ℝ)

end Sys2Proof
end

