-- ==== Sys2Proof/Safety.lean ====
section
/-!
DEFINITION. The terms in which statements are made: the invariant of the block's states, what a buffer
holds, and what an operation that completes leaves unchanged.
-/

namespace Sys2Proof

/-- The source buffers an operation names (rule R95). -/
def Instr.sources : Instr → List Buf
  | .nop | .srst | .clrf | .srrc _ | .barker _ => []
  | .interp _ s0 => [s0]
  | .pow4 _ s0 => [s0]
  | .fest s0 => [s0]
  | .costas _ _ _ s0 s1 => [s0, s1]
  | .trec _ _ _ s0 => [s0]
  | .quant _ s0 => [s0]
  | .xcorr _ _ s0 => [s0]
  | .fext _ s0 s1 s2 => [s0, s1, s2]
  | .ltr2pam _ s0 => [s0]
  | .pam2ltr _ s0 => [s0]
  | .pam2qam _ s0 => [s0]
  | .qam2pam _ s0 => [s0]
  | .pam2q42 _ s0 => [s0]
  | .q422pam _ s0 => [s0]
  | .pam2sym _ s0 => [s0]
  | .sym2pam _ s0 => [s0]

namespace Machine

/-! The invariant. -/

/-- Every buffer is in its canonical form and no length exceeds `BUFCAP` (rules R23, R38). -/
abbrev State.BuffersSound (s : State) : Prop :=
  ∀ n : Buf, (s.buf n).wf s.aw = true ∧ s.bufLen n ≤ s.bufCap

/-- Bits 31:2 of `CTRL` are zero (rule R31). -/
abbrev State.CtrlSound (s : State) : Prop := s.ctrl &&& 0xFFFFFFFC#32 = 0#32

/-- `FCODE` names a fault exactly while `FAULT` is set, and without a fault `FINFO` and `FCMD` are 0
(rules R26, R32, R262). -/
abbrev State.FaultRecordSound (s : State) : Prop :=
  if s.status.fault then s.status.fcode ≠ .none
  else s.status.fcode = .none ∧ s.finfo = 0#32 ∧ s.fcmd = 0#32

/-- `DONE` is set only while no operation is in progress and no fault stands (rules R260 to R262). -/
abbrev State.DoneSound (s : State) : Prop :=
  s.status.done = true → s.inFlight = none ∧ s.status.fault = false

/-- While a fault stands nothing but `SRST` is in progress (rules R113, R273). -/
abbrev State.FaultedSound (s : State) : Prop :=
  s.status.fault = true → s.inFlight = none ∨ s.inFlight = some srstWord

/-- Without an operation in progress no time of one is left. -/
abbrev State.IdleSound (s : State) : Prop := s.inFlight = none → s.busyReads = 0

/-- The invariant of the block's states. -/
abbrev State.Inv (s : State) : Prop :=
  s.BuffersSound ∧ s.CtrlSound ∧ s.FaultRecordSound ∧ s.DoneSound ∧ s.FaultedSound ∧ s.IdleSound

/-! What a buffer holds. -/

/-- Component `ax` of `B[b]` is the real sequence `xs`, and `LEN[b]` its length. -/
def State.HoldsAxis (s : State) (b : Buf) (ax : Axis) (xs : List Scalar) : Prop :=
  s.bufLen b = xs.length ∧ ∀ i x, xs[i]? = some x → s.comp b i ax = some x

/-- `B[b]` is the complex sequence `zs`, and `LEN[b]` its length. -/
def State.HoldsCx (s : State) (b : Buf) (zs : List Cx) : Prop :=
  s.bufLen b = zs.length ∧
    ∀ i z, zs[i]? = some z → s.comp b i .re = some z.re ∧ s.comp b i .im = some z.im

/-- `B[b]` is the real sequence `xs` with `im = 0` (rule R22). -/
def State.HoldsReal (s : State) (b : Buf) (xs : List Scalar) : Prop :=
  s.HoldsCx b (xs.map Cx.ofReal)

/-- Every component of the value of `B[b]` has been written (rules R23, R68). -/
abbrev State.Loaded (s : State) (b : Buf) : Prop :=
  ∀ i, i < s.bufLen b → (s.comp b i .re).isSome = true ∧ (s.comp b i .im).isSome = true

/-- Two rationals as a complex value. -/
def ratCx (q : ℚ × ℚ) : Cx := ⟨.rat q.1, .rat q.2⟩

/-- The interpolator's window at time `t` leaves `B[b]`: `t0 - L*P < 0` or `t0 + L*P + 1 > N` for
`t0 = floor(t)` (rules R126, R265). -/
def State.LeavesBuffer (s : State) (b : Buf) (t : ℝ) : Prop :=
  ⌊t⌋ - (s.lNat * s.pNat : ℕ) < 0 ∨ (s.bufLen b : ℤ) < ⌊t⌋ + (s.lNat * s.pNat : ℕ) + 1

/-- A hit index that has been written and is not a non-negative integer (rule R205). -/
def State.BadIndex (s : State) (b : Buf) (k : ℕ) (ax : Axis) : Prop :=
  ∃ x, s.comp b k ax = some x ∧ ∀ n : ℕ, x.val ≠ n

/-! Registers. -/

/-- `BETA` is in its legal set (rules R35, R264). -/
abbrev LegalBeta (b : Scalar) : Prop := 0 ≤ b.val ∧ b.val ≤ 1

/-- `AMIN` and `AMAX` are in their legal set (rule R264). -/
abbrev LegalAlphabet (a b : Scalar) : Prop := 0 < a.val ∧ a.val ≤ b.val

/-- `HDR` and `MOD` are in their legal sets (rule R264). -/
abbrev LegalFrame (c : Cfg) : Prop :=
  (c.hdr = 7#32 ∨ c.hdr = 11#32 ∨ c.hdr = 13#32) ∧ c.modType.toNat ≤ 2

/-- Every register has its reset value (rule R54). -/
def RegistersReset (t : State) : Prop :=
  statusWord t = 0#32 ∧ t.inFlight = none ∧ t.ctrl = 0#32 ∧ t.finfo = 0#32 ∧ t.fcmd = 0#32 ∧
    (t.cfg.p = 0#32 ∧ t.cfg.l = 0#32 ∧ t.cfg.hdr = 0#32 ∧ t.cfg.modType = 0#32 ∧
      t.cfg.hitcap = 80#32 ∧ t.cfg.flen = 0#32) ∧
    (t.cfg.beta = .rat 0 ∧ t.cfg.toff = .rat 0 ∧ t.cfg.fs = .rat 0 ∧ t.cfg.f0 = .rat 0 ∧
      t.cfg.muC = .rat 0 ∧ t.cfg.muT = .rat 0 ∧ t.cfg.delta = .rat 0 ∧ t.cfg.tinit = .rat 0 ∧
      t.cfg.tmLo = .rat 0 ∧ t.cfg.tmHi = .rat 0 ∧ t.cfg.trig = .rat 0 ∧ t.cfg.amin = .rat 0 ∧
      t.cfg.amax = .rat 0 ∧ t.cfg.tq = .rat 0) ∧
    (t.res.ival = .rat 0 ∧ t.res.thresh = .rat 0 ∧ t.res.theta = .rat 0 ∧ t.res.tau = .rat 0 ∧
      t.res.tnow = .rat 0 ∧ t.res.nsym = 0#32 ∧ t.res.nhr = 0#32 ∧ t.res.nhi = 0#32) ∧
    ∀ n : Buf, t.bufLen n = 0

/-- The state with its four condition flags replaced. -/
def withConds (c : Conds) (s : State) : State :=
  { s with status := { s.status with
      nosync := c.nosync, hitovf := c.hitovf, desync := c.desync, unrec := c.unrec } }

/-! The spec's functions on rational data, written from the rules and apart from the machine. -/

/-- The sign of a rational (rule R14). -/
def ratSign (q : ℚ) : ℚ := if 0 < q then 1 else if q < 0 then -1 else 0

/-- The order of complex values: real part first, imaginary part among equal real parts (rule R182). -/
def lexLe (p q : ℚ × ℚ) : Prop := p.1 < q.1 ∨ (p.1 = q.1 ∧ p.2 ≤ q.2)

/-- The same order on reals (rule R182). -/
def cxLexLe (z w : Cx) : Prop :=
  z.re.val < w.re.val ∨ (z.re.val = w.re.val ∧ z.im.val ≤ w.im.val)

/-- Element `i` of a sequence that is zero outside its range (rule R195). -/
def atIndex (xs : List ℚ) (i : ℤ) : ℚ := if 0 ≤ i then xs.getD i.toNat 0 else 0

/-- The chips of the header selected by `HDR` (rule R191). -/
def specChips (hdr : CmdWord) : List ℚ :=
  if hdr = 13#32 then [1, 1, 1, 1, 1, -1, -1, 1, 1, -1, 1, -1, 1]
  else if hdr = 11#32 then [1, 1, 1, -1, -1, -1, 1, -1, -1, 1, -1]
  else if hdr = 7#32 then [1, 1, 1, -1, -1, 1, -1]
  else []

/-- A chip as a header symbol, by `MOD` (rule R192). -/
def specHeaderSymbol (modType : ℕ) (b : ℚ) : ℚ × ℚ :=
  if modType = 1 then (3 * b, 3 * b)
  else if modType = 2 then (3 * b, 0)
  else (11 / 10 * b, 11 / 10 * b)

/-- `c[i]`, the full correlation of `a` with `v` (rule R195). -/
def specCorrelation (a v : List ℚ) (i : ℕ) : ℚ :=
  ((List.range v.length).map fun n : ℕ =>
    atIndex a ((i : ℤ) - ((v.length : ℤ) - 1) + (n : ℤ)) * v.getD n 0).sum

/-- Every lag at which the correlation meets the trigger, in scan order (rule R196). -/
def specAllHits (a v : List ℚ) (trig : ℚ) : List ℕ :=
  (List.range (a.length + v.length - 1)).filter fun i => decide (trig ≤ |specCorrelation a v i|)

/-- The hits recorded: the first `cap` of them, with their signed values (rule R196). -/
def specHits (a v : List ℚ) (trig : ℚ) (cap : ℕ) : List (ℕ × ℚ) :=
  ((specAllHits a v trig).take cap).map fun i => (i, specCorrelation a v i)

/-- Entry `k` of an index table; the entries beyond the count are 0 (rule R196). -/
def indexEntry (h : List (ℕ × ℚ)) (k : ℕ) : ℚ := ((h[k]?.map Prod.fst).getD 0 : ℕ)

/-- Entry `k` of a value table; the entries beyond the count are 0 (rule R196). -/
def valueEntry (h : List (ℕ × ℚ)) (k : ℕ) : ℚ := (h[k]?.map Prod.snd).getD 0

/-- `B[d]` is the packed list of pairs without its trailing zero-pairs (rule R198): its length is the
least `n` such that every pair from `n` on is `(0, 0)`. -/
def HoldsTrimmed (t : State) (d : Buf) (re im : ℕ → ℚ) : Prop :=
  (∀ k, k < t.bufLen d → t.comp d k .re = some (.rat (re k)) ∧ t.comp d k .im = some (.rat (im k))) ∧
    (∀ k, t.bufLen d ≤ k → re k = 0 ∧ im k = 0) ∧
    ∀ m, (∀ k, m ≤ k → re k = 0 ∧ im k = 0) → t.bufLen d ≤ m

/-- The slice of `xs` over `start <= i < stop`, cut to the sequence (rule R206). -/
def specSlice (xs : List ℚ) (start stop : ℤ) : List ℚ :=
  ((List.range xs.length).filter fun i : ℕ => decide (start ≤ (i : ℤ) ∧ (i : ℤ) < stop)).map fun i : ℕ =>
    xs.getD i 0

/-- The sign-corrected slice of one axis for hit `k` (rules R205 to R207): `idx` and `val` are that
axis's components of the hit lists, `n` their length. -/
def specAxisSlice (xs : List ℚ) (idx : List ℕ) (val : List ℚ) (hdr flen k : ℕ) : List ℚ :=
  let start : ℤ := idx.getD k 0 + 1
  let stop : ℤ :=
    if k + 1 < idx.length then (idx.getD (k + 1) 0 : ℤ) - hdr + 1 else start + flen - hdr
  (specSlice xs start stop).map fun x => ratSign (val.getD k 0) * x

/-- The point of a PAM level, by `MOD` (rules R225, R227, R229): three tested entries and the last
branch. -/
def specPoint (modType : ℕ) (p : ℚ) : ℚ × ℚ :=
  if modType = 0 then
    if p = -3 then (-1, -1) else if p = -1 then (-1, 1) else if p = 1 then (1, -1) else (1, 1)
  else if modType = 1 then
    if p = -3 then (-3, -3) else if p = -1 then (-1, -1) else if p = 1 then (1, 1) else (3, 3)
  else
    if p = -3 then (-3, 0) else if p = -1 then (-1, 0) else if p = 1 then (1, 0) else (3, 0)

/-- The PAM level of a symbol, by `MOD` (rules R226, R228, R230): three tested entries and the last
branch; for `4PAM` the imaginary component takes no part. -/
def specLevel (modType : ℕ) (z : ℚ × ℚ) : ℚ :=
  if modType = 2 then
    if z.1 = -3 then -3 else if z.1 = -1 then -1 else if z.1 = 1 then 1 else 3
  else
    if z = specPoint modType (-3) then -3 else if z = specPoint modType (-1) then -1
    else if z = specPoint modType 1 then 1 else 3

/-- The symbol is one of the four recognised points (rule R233). -/
def specKnown (modType : ℕ) (z : ℚ × ℚ) : Prop :=
  if modType = 2 then z.1 = -3 ∨ z.1 = -1 ∨ z.1 = 1 ∨ z.1 = 3
  else z = specPoint modType (-3) ∨ z = specPoint modType (-1) ∨ z = specPoint modType 1 ∨
    z = specPoint modType 3

/-- The four levels of a character code, most significant digit first (rule R221). -/
def specLevels (c : ℕ) : List ℚ :=
  [2 * ((c / 64 % 4 : ℕ) : ℚ) - 3, 2 * ((c / 16 % 4 : ℕ) : ℚ) - 3, 2 * ((c / 4 % 4 : ℕ) : ℚ) - 3,
    2 * ((c % 4 : ℕ) : ℚ) - 3]

/-- The character codes of a sequence of PAM levels, one for each full group of four; the tail is dropped
(rule R223).  `digit v = (v + 3) / 2`. -/
def specCodes (ls : List ℚ) : List ℚ :=
  (List.range (ls.length / 4)).map fun g =>
    64 * ((ls.getD (4 * g) 0 + 3) / 2) + 16 * ((ls.getD (4 * g + 1) 0 + 3) / 2) +
      4 * ((ls.getD (4 * g + 2) 0 + 3) / 2) + (ls.getD (4 * g + 3) 0 + 3) / 2

/-! What a completed operation leaves unchanged. -/

/-- Buffer `n` reads the same: its length, and every component of every element. -/
def SameBuffer (s t : State) (n : Buf) : Prop :=
  t.bufLen n = s.bufLen n ∧ ∀ i ax, t.comp n i ax = s.comp n i ax

/-- Every buffer but those listed reads the same. -/
def SameBuffersBut (ds : List Buf) (s t : State) : Prop := ∀ n : Buf, n ∉ ds → SameBuffer s t n

/-- `AW`, `CTRL`, `FINFO`, `FCMD` and the host's side are the same. -/
def SameControl (s t : State) : Prop :=
  t.aw = s.aw ∧ t.ctrl = s.ctrl ∧ t.finfo = s.finfo ∧ t.fcmd = s.fcmd ∧ t.pending = s.pending ∧
    t.answered = s.answered

/-- `STATUS` at completion: `BUSY = 0`, `DONE = 1`, the condition flags of `c` set, everything else as it
was (rules R26, R261). -/
def StatusDone (c : Conds) (s t : State) : Prop :=
  t.inFlight = none ∧ t.busyReads = 0 ∧
    t.status = { s.status with
      done := true
      nosync := s.status.nosync || c.nosync
      hitovf := s.status.hitovf || c.hitovf
      desync := s.status.desync || c.desync
      unrec := s.status.unrec || c.unrec }

/-- The frame of an operation that completes: `STATUS` as at completion, no other control register
changed, and no buffer outside `ds`.  The configuration and result registers are said apart. -/
def CompletesWith (c : Conds) (ds : List Buf) (s t : State) : Prop :=
  StatusDone c s t ∧ SameControl s t ∧ SameBuffersBut ds s t

/-- The same frame where no configuration and no result register changes. -/
def CompletesPlain (c : Conds) (ds : List Buf) (s t : State) : Prop :=
  CompletesWith c ds s t ∧ t.cfg = s.cfg ∧ t.res = s.res

/-- The operation faulted with `f` and `info`: exactly the fault registers and `BUSY` changed (rule
R262). -/
def FaultsWith (f : FCode) (info : Nat) (s t : State) : Prop :=
  t.aw = s.aw ∧ t.inFlight = none ∧ t.busyReads = 0 ∧
    t.status = { s.status with fault := true, fcode := f } ∧
    t.finfo = BitVec.ofNat 32 info ∧ t.fcmd = s.acceptedWord ∧
    t.ctrl = s.ctrl ∧ t.cfg = s.cfg ∧ t.res = s.res ∧ t.bufs = s.bufs ∧
    t.pending = s.pending ∧ t.answered = s.answered

end Machine

end Sys2Proof
end

