-- ==== Sys2Proof/Certificates/Slice0/Obligations.lean ====
section
/-!
DEFINITION. The statements for the provers.  Each docstring names the rules of the spec it formalises,
and the log entries of a choice of the model that it rests on.  `s.Inv` is the invariant of
`StepKeepsInvariant`.
-/

open Sys2Proof Sys2Proof.Machine

/-! Encoding. -/

/-- Every well-formed instruction decodes from its own encoding (rules R90 to R95, R98). -/
def Obligations.DecodeEncode : Prop :=
  ∀ i : Instr, i.wellFormed = true → decode (encode i) = .instr i

/-- A word that decodes is the encoding of what it decodes to: no word but one spells an instruction
(rules R96, R98, R99). -/
def Obligations.DecodedWordIsItsEncoding : Prop :=
  ∀ (w : CmdWord) (i : Instr), decode w = .instr i → i.wellFormed = true ∧ encode i = w

/-- A word meets the mask and match of an operation exactly when some operands of that operation encode
to it (rules R95, R96). -/
def Obligations.MaskSelectsOperation : Prop :=
  ∀ (o : Opcode) (w : CmdWord),
    w &&& opcodeMask o = opcodeMatch o ↔ ∃ i : Instr, i.opcode = o ∧ encode i = w

/-- A word whose `op` is none of rule R94's spells no operation, and executing it raises
`ILLEGAL_OPCODE` and changes nothing else (rule R97). -/
def Obligations.UndefinedOpcodeFaults : Prop :=
  ∀ (s : State) (w : CmdWord), s.inFlight = some w → accessWhileBusy s = none →
    w.extractLsb' 24 8 ∉
      [0x00#8, 0x01#8, 0x02#8, 0x10#8, 0x11#8, 0x18#8, 0x19#8, 0x20#8, 0x28#8, 0x30#8, 0x38#8, 0x39#8,
        0x3A#8, 0x40#8, 0x41#8, 0x42#8, 0x43#8, 0x44#8, 0x45#8, 0x46#8, 0x47#8] →
    (∀ i : Instr, encode i ≠ w) ∧
      ∃ t, step s = .next t ∧ FaultsWith .illegalOpcode 0 s t ∧ t.fcmd = w

/-- A word with a defined `op` that is the encoding of no well-formed instruction raises
`ILLEGAL_FIELD` (rule R98): so do the reserved bits, a nonzero unused field, and two equal
destinations. -/
def Obligations.IllegalFieldFaults : Prop :=
  (∀ (s : State) (w : CmdWord) (o : Opcode), s.inFlight = some w → accessWhileBusy s = none →
    w.extractLsb' 24 8 = opcodeBits o → (∀ i : Instr, i.wellFormed = true → encode i ≠ w) →
    ∃ t, step s = .next t ∧ FaultsWith .illegalField 0 s t ∧ t.fcmd = w) ∧
  (∀ (w : CmdWord) (i : Instr), w &&& 0x3E#32 ≠ 0#32 → encode i ≠ w) ∧
  (∀ (d d1 s0 s1 : Buf) (ax : Axis),
    (Instr.costas d d d1 s0 s1).wellFormed = false ∧ (Instr.costas d d1 d s0 s1).wellFormed = false ∧
    (Instr.costas d1 d d s0 s1).wellFormed = false ∧ (Instr.trec ax d d s0).wellFormed = false ∧
    (Instr.xcorr d d s0).wellFormed = false)

/-- Command words of V30, each with the instruction the spec writes for it. -/
def Obligations.SampleCommandWords : Prop :=
  decode 0x10000000#32 = .instr (.srrc 0) ∧
  decode 0x11001001#32 = .instr (.interp .im 1) ∧
  decode 0x204E0200#32 = .instr (.costas 2 3 4 0 1) ∧
  decode 0x28B82001#32 = .instr (.trec .im 5 6 2) ∧
  decode 0x30200000#32 = .instr (.quant 1 0) ∧
  decode 0x394C1000#32 = .instr (.xcorr 2 3 1) ∧
  decode 0x3A8014C0#32 = .instr (.fext 4 1 2 3) ∧
  decode 0x45202000#32 = .instr (.q422pam 1 2)

/-! One step. -/

/-- A step runs the decoded instruction (rules R20, R73, R103): with a command in progress and no host
access that comes before its end, the step is `exec` of the instruction the word decodes to; a host
access that comes first takes effect instead; without a command in progress the oldest host access does:
a write at any address writes that word there (rule R61), and with no access the block stays as it is (rule
R293).  That some host reads complete before an operation ends is rule R74; how many is free (log entry 8). -/
def Obligations.StepRunsDecodedInstruction : Prop :=
  (∀ (s : State) (w : CmdWord) (i : Instr), s.inFlight = some w → decode w = .instr i →
    i.wellFormed = true ∧
    (accessWhileBusy s = none → step s = exec i s) ∧
    ∀ x, accessWhileBusy s = some x →
      step s = .next
        (takeAccess x { s with pending := s.pending.tail, busyReads := s.busyReads - 1 })) ∧
  (∀ (s : State) (w : Nat) (i : Instr), decodeTableWord 32 w = some i →
    step (s.withFetchWord 32 w) = exec i (s.withFetchWord 32 w)) ∧
  (∀ s : State, s.inFlight = none → step s = .next (idleStep s)) ∧
  (∀ (s : State) (a : Nat) (w : PortWord) (rest : List HostAccess),
    s.inFlight = none → s.pending = .write a w :: rest →
    step s = .next (memWrite { s with pending := rest } a w)) ∧
  (∀ s : State, s.inFlight = none → s.pending = [] → step s = .next s)

/-! Reset. -/

/-- What reset leaves (rule R54): after a hardware reset every register has its reset value and the
elements of the buffers are unspecified; that an unspecified element is held as one never written is the
model's choice (log entry 23).  After `SRST` the registers are the same and every element is unchanged. -/
def Obligations.ResetRegisters : Prop :=
  RegistersReset State.reset ∧
  ∀ s : State, RegistersReset (hardReset s) ∧ RegistersReset (softReset s) ∧
    ∀ n i ax, (hardReset s).comp n i ax = none ∧ (softReset s).comp n i ax = s.comp n i ax

/-- The invariant holds right after reset. -/
def Obligations.InvariantAtReset : Prop := State.reset.Inv

/-- Every step keeps the invariant: the cells of every buffer stay in canonical form and its length
within `BUFCAP`, `CTRL`'s reserved bits stay 0, `FCODE` names a fault exactly while one stands and
`FINFO` and `FCMD` are 0 without one, `DONE` is set only in an idle, unfaulted block, and nothing but
`SRST` runs while a fault stands.  The parameter `AW` stays what it is (rule R6). -/
def Obligations.StepKeepsInvariant : Prop :=
  ∀ s t : State, s.Inv → step s = .next t → t.Inv ∧ t.aw = s.aw

/-- Hardware reset takes effect in an idle block and in the middle of an operation, which it abandons
(rule R290): nothing of it is written, the registers have their reset values, `irq` is 0, `ID` reads
its constant.  That `busyReads` says whether the operation still runs is the model's (log entry 8), and
so is it that an element, which rule R290 leaves unspecified, is held as one never written (log entry
23). -/
def Obligations.HardwareResetAbandons : Prop :=
  ∀ (s : State) (rest : List HostAccess), s.pending = .reset :: rest →
    (s.inFlight = none ∨ s.busyReads ≠ 0) →
    ∃ t, step s = .next t ∧ RegistersReset t ∧ t.pending = rest ∧ t.answered = s.answered ∧
      t.irq = false ∧ memRead t 0x00 = .bits 0x50435331#64 ∧ ∀ n i ax, t.comp n i ax = none

/-! The life of a command. -/

/-- A write of `CMD` (rules R113, R260): while `FAULT = 1` a word other than `0x01000000` is dropped and
nothing changes; otherwise the word is accepted, and while `FAULT = 1` an accepted `0x01000000` runs as
`SRST`. -/
def Obligations.CommandAcceptance : Prop :=
  ∀ (s : State) (v : PortWord) (rest : List HostAccess),
    s.inFlight = none → s.pending = .write 0x01 v :: rest →
    (s.status.fault = true ∧ v.toInt ≠ 0x01000000#32 → step s = .next { s with pending := rest }) ∧
    (s.status.fault = false ∨ v.toInt = 0x01000000#32 →
      ∃ t, step s = .next t ∧
        t = { s with
          pending := rest
          inFlight := some v.toInt
          busyReads := t.busyReads
          status := { s.status with done := false } } ∧
        (v.toInt = 0x01000000#32 → accessWhileBusy t = none → step t = .next (softReset t)))

/-- Faults are precise (rule R262): an operation that ends with `FAULT` set has written none of its
results; `FAULT`, `FCODE`, `FINFO`, `FCMD` and `BUSY` are all that changed.  While a fault stands,
every step keeps it as it was recorded, until the fault is cleared. -/
def Obligations.FaultsArePrecise : Prop :=
  (∀ (i : Instr) (s t : State), s.status.fault = false → exec i s = .next t →
    t.status.fault = true → ∃ f n, f ≠ .none ∧ FaultsWith f n s t) ∧
  (∀ s t : State, s.Inv → s.status.fault = true → step s = .next t → t.status.fault = true →
    t.status.fcode = s.status.fcode ∧ t.finfo = s.finfo ∧ t.fcmd = s.fcmd)

/-- Completion (rules R112, R261): an operation that ends without a fault leaves `BUSY = 0` and
`DONE = 1`, `SRST` alone `DONE = 0`. -/
def Obligations.CompletionSetsDone : Prop :=
  ∀ (i : Instr) (s t : State), exec i s = .next t → t.inFlight = none ∧ t.busyReads = 0 ∧
    (t.status.fault = false → t.status.done = decide (i ≠ .srst))

/-- A `STATUS` read that completes while an operation is in progress returns `BUSY = 1`, `DONE = 0` and
the fault and condition fields of before (rule R75), and changes nothing but the host's side.  How many
such reads there are is free (log entry 8). -/
def Obligations.StatusReadWhileBusy : Prop :=
  ∀ (s : State) (k : Nat) (rest : List HostAccess), s.Inv → s.inFlight.isSome = true →
    s.busyReads = k + 1 → s.pending = .read 0x02 :: rest →
    ∃ (t : State) (v : CmdWord), step s = .next t ∧
      t = { s with
        busyReads := k, pending := rest
        answered := (0x02, .bits (v.setWidth 64)) :: s.answered } ∧
      v.getLsbD 0 = true ∧ v.getLsbD 1 = false ∧ v.getLsbD 2 = s.status.fault ∧
      v.extractLsb' 8 8 = s.status.fcode.code ∧ v.getLsbD 16 = s.status.nosync ∧
      v.getLsbD 17 = s.status.hitovf ∧ v.getLsbD 18 = s.status.desync ∧
      v.getLsbD 19 = s.status.unrec

/-- While an operation is in progress the only host accesses that complete are reads of `STATUS` and
`ID` (rule R74); a hardware reset abandons it (rule R290); every other access is held, and stays
pending, until the operation has ended. -/
def Obligations.OtherAccessesAreHeld : Prop :=
  ∀ s t : State, s.inFlight.isSome = true → step s = .next t →
    (∃ a rest, s.pending = .read a :: rest ∧ (a = 0x02 ∨ a = 0x00) ∧
      t = { s with
        busyReads := s.busyReads - 1, pending := rest
        answered := (a, memRead s a) :: s.answered }) ∨
    (∃ rest, s.pending = .reset :: rest ∧ t = hardReset { s with pending := rest }) ∨
    (t.inFlight = none ∧ t.pending = s.pending ∧ t.answered = s.answered)

/-- The fields of `STATUS` (rule R26), with the nine numbers of `FCODE` (rule R263), and the line `irq`
(rule R272): a level, of `DONE`, `FAULT` and the two enables of `CTRL` alone; 0 while `CTRL = 0`; and it
falls when a command is accepted in an unfaulted block. -/
def Obligations.StatusWordAndIrq : Prop :=
  ∀ s : State,
    (statusWord s).getLsbD 0 = s.inFlight.isSome ∧ (statusWord s).getLsbD 1 = s.status.done ∧
    (statusWord s).getLsbD 2 = s.status.fault ∧ (statusWord s).extractLsb' 3 5 = 0#5 ∧
    (statusWord s).extractLsb' 8 8 = (match s.status.fcode with
      | .none => 0#8
      | .illegalOpcode => 1#8
      | .illegalField => 2#8
      | .config => 3#8
      | .margin => 4#8
      | .empty => 5#8
      | .overflow => 6#8
      | .domain => 7#8
      | .desync => 8#8) ∧
    (statusWord s).getLsbD 16 = s.status.nosync ∧ (statusWord s).getLsbD 17 = s.status.hitovf ∧
    (statusWord s).getLsbD 18 = s.status.desync ∧ (statusWord s).getLsbD 19 = s.status.unrec ∧
    (statusWord s).extractLsb' 20 12 = 0#12 ∧
    s.irq = ((statusWord s).getLsbD 1 && s.ctrl.getLsbD 0 ||
      (statusWord s).getLsbD 2 && s.ctrl.getLsbD 1) ∧
    (s.ctrl = 0#32 → s.irq = false) ∧
    ∀ w, s.status.fault = false → (offerCommand w s).irq = false

/-- The ways to clear `FAULT` are `SRST` and hardware reset (rule R275): both put every register at its
reset value; `SRST` keeps every element. -/
def Obligations.FaultClearedOnlyByReset : Prop :=
  ∀ s t : State, s.status.fault = true → step s = .next t → t.status.fault = false →
    (s.inFlight = some 0x01000000#32 ∧ RegistersReset t ∧
      ∀ n i ax, t.comp n i ax = s.comp n i ax) ∨
    (∃ rest, s.pending = .reset :: rest ∧ RegistersReset t ∧ t.pending = rest)

/-- A condition flag is cleared only by `CLRF`, `SRST` or hardware reset, and set only by the operations
the spec names for it (rules R26, R271). -/
def Obligations.ConditionFlagsSticky : Prop :=
  ∀ s t : State, step s = .next t →
    ((s.inFlight = some 0x02000000#32 ∨ s.inFlight = some 0x01000000#32 ∨
        ∃ rest, s.pending = .reset :: rest) ∨
      ((s.status.nosync = true → t.status.nosync = true) ∧
        (s.status.hitovf = true → t.status.hitovf = true) ∧
        (s.status.desync = true → t.status.desync = true) ∧
        (s.status.unrec = true → t.status.unrec = true))) ∧
    (t.status.nosync = true → s.status.nosync = true ∨
      ∃ w d0 s0 s1 s2, s.inFlight = some w ∧ decode w = .instr (.fext d0 s0 s1 s2)) ∧
    (t.status.hitovf = true → s.status.hitovf = true ∨
      ∃ w d0 d1 s0, s.inFlight = some w ∧ decode w = .instr (.xcorr d0 d1 s0)) ∧
    (t.status.desync = true → s.status.desync = true ∨
      ∃ w d0 d1 s0, s.inFlight = some w ∧ decode w = .instr (.xcorr d0 d1 s0)) ∧
    (t.status.unrec = true → s.status.unrec = true ∨
      ∃ w i, s.inFlight = some w ∧ decode w = .instr i ∧
        i.opcode ∈ [.FEXT, .PAM2QAM, .QAM2PAM, .PAM2Q42, .Q422PAM, .PAM2SYM, .SYM2PAM])

/-- No operation reads a condition flag (rules R26, R271): with the four flags set to anything, every
operation comes to the same end and leaves the same state but for the four flags. -/
def Obligations.ConditionFlagsNeverRead : Prop :=
  ∀ (i : Instr) (s : State) (c : Conds),
    (∀ t, exec i s = .next t →
      ∃ t', exec i (withConds c s) = .next t' ∧ clearConds t' = clearConds t) ∧
    (∀ r, exec i s = .refused r → exec i (withConds c s) = .refused r)

/-- Every operation comes to an end on every state (rule R300): it answers a next state, unless a source
of it has a component within its length that nothing has written since hardware reset; then the model
may refuse (rule R68, U3: the model's choice, log entry 10). -/
def Obligations.OperationsEndUnlessUnwritten : Prop :=
  ∀ (i : Instr) (s : State), s.Inv →
    (∃ t, exec i s = .next t) ∨
    ∃ b ∈ i.sources, exec i s = .refused (.uninitialised b) ∧ ¬ s.Loaded b

/-- An operation that reads the whole of a source refuses where a component that it reads has never been
written, rather than give it a value (rule R68, U3: the model's choice, log entry 10): the operations that
read both components, then those that read `re` alone.  For `MOD = 2` that `SYM2PAM` and `XCORR` read `re`
alone rests on log entry 13; `LTR2PAM` and `PAM2LTR` examine the elements in order, so that a `DOMAIN`
fault at an earlier one comes first. -/
def Obligations.UnwrittenSourceIsRefused : Prop :=
  ∀ (s : State) (b d d1 d2 : Buf), s.Inv →
    (¬ s.Loaded b →
      exec (.pow4 d b) s = .refused (.uninitialised b) ∧
      exec (.qam2pam d b) s = .refused (.uninitialised b) ∧
      exec (.q422pam d b) s = .refused (.uninitialised b) ∧
      (s.cfg.modType.toNat ≤ 1 → exec (.sym2pam d b) s = .refused (.uninitialised b)) ∧
      (0 < s.cfg.fs.val → exec (.fest b) s = .refused (.uninitialised b) ∧
        ∀ h, s.bufLen h ≠ 0 → exec (.costas d d1 d2 b h) s = .refused (.uninitialised b)) ∧
      (LegalAlphabet s.cfg.amin s.cfg.amax → exec (.quant d b) s = .refused (.uninitialised b)) ∧
      (LegalFrame s.cfg → s.cfg.modType.toNat ≤ 1 → s.cfg.hitcap.toNat ≤ s.bufCap →
        exec (.xcorr d d1 b) s = .refused (.uninitialised b))) ∧
    ∀ i < s.bufLen b, s.comp b i .re = none →
      exec (.pam2qam d b) s = .refused (.uninitialised b) ∧
      exec (.pam2q42 d b) s = .refused (.uninitialised b) ∧
      (s.cfg.modType.toNat ≤ 2 → exec (.pam2sym d b) s = .refused (.uninitialised b)) ∧
      (s.cfg.modType.toNat = 2 → exec (.sym2pam d b) s = .refused (.uninitialised b)) ∧
      (LegalFrame s.cfg → s.cfg.modType.toNat = 2 → s.cfg.hitcap.toNat ≤ s.bufCap →
        exec (.xcorr d d1 b) s = .refused (.uninitialised b)) ∧
      (0 < s.cfg.fs.val → ∀ x, s.Loaded x →
        exec (.costas d d1 d2 x b) s = .refused (.uninitialised b)) ∧
      (4 * s.bufLen b ≤ s.bufCap →
        (∀ j < i, ∃ x, s.comp b j .re = some x ∧ ∃ c : ℕ, c ≤ 255 ∧ x.val = c) →
        exec (.ltr2pam d b) s = .refused (.uninitialised b)) ∧
      (i < 4 * (s.bufLen b / 4) →
        (∀ j < i, ∃ x, s.comp b j .re = some x ∧ ∃ l ∈ ([-3, -1, 1, 3] : List ℤ), x.val = l) →
        exec (.pam2ltr d b) s = .refused (.uninitialised b))

/-! The host port. -/

/-- A read has no side effect (rule R71): in an idle block it gives the host its word and changes nothing
else, and every address then reads as before. -/
def Obligations.ReadsHaveNoSideEffect : Prop :=
  ∀ (s : State) (a : Nat) (rest : List HostAccess), s.inFlight = none → s.pending = .read a :: rest →
    ∃ t, step s = .next t ∧
      t = { s with pending := rest, answered := (a, memRead s a) :: s.answered } ∧
      ∀ b, memRead t b = memRead s b

/-- Every address of the register page that names no register reads 0 and ignores writes (rule R39); so
does every address outside the page and the window (rule R63). -/
def Obligations.UnmappedAddresses : Prop :=
  ∀ (s : State) (a : Nat) (w : PortWord),
    (a ≤ 0xFF ∧ ¬ a ≤ 0x05 ∧ ¬ (0x10 ≤ a ∧ a ≤ 0x15) ∧ ¬ (0x20 ≤ a ∧ a ≤ 0x2D) ∧
      ¬ (0x30 ≤ a ∧ a ≤ 0x37) ∧ ¬ (0x40 ≤ a ∧ a ≤ 0x47)) ∨
    (0xFF < a ∧ ¬ (2 ^ (s.aw + 4) ≤ a ∧ a < 2 ^ (s.aw + 5))) →
    memRead s a = .bits 0#64 ∧ memWrite s a w = s

/-- The buffer window (rules R64, R66): the word at `2^(AW+4) + n*2^(AW+1) + 2*i + c` is component `c` of
`B[n][i]`; with `AW = 16` that is `0x100000 + n*0x20000 + 2*i + c`.  A write changes that component alone,
never a length, also beyond `LEN[n]`; within `LEN[n]` it reads back. -/
def Obligations.WindowWriteThenRead : Prop :=
  ∀ (s : State) (n : Buf) (i : Nat) (ax : Axis) (w : PortWord) (a : Nat), i < 2 ^ s.aw →
    a = 2 ^ (s.aw + 4) + n.val * 2 ^ (s.aw + 1) + 2 * i + (match ax with | .re => 0 | .im => 1) →
    (memWrite s a w).comp n i ax = some w.toNum ∧
    (∀ m j ax', ¬ (m = n ∧ j = i ∧ ax' = ax) →
      (memWrite s a w).comp m j ax' = s.comp m j ax') ∧
    (∀ m, (memWrite s a w).bufLen m = s.bufLen m) ∧
    { memWrite s a w with bufs := s.bufs } = s ∧
    (i < s.bufLen n → memRead (memWrite s a w) a = .num w.toNum) ∧
    (∀ x, i < s.bufLen n → s.comp n i ax = some x → memRead s a = .num x)

/-- `LEN[n]` at `0x40 + n` (rule R38): a write of a value up to `BUFCAP` is stored, one above it is
ignored; no element changes. -/
def Obligations.LengthRegisterWrite : Prop :=
  ∀ (s : State) (n : Buf) (w : PortWord),
    memRead s (0x40 + n.val) = .bits ((s.buf n).len.setWidth 64) ∧
    (w.toInt.toNat ≤ s.bufCap →
      (memWrite s (0x40 + n.val) w).bufLen n = w.toInt.toNat ∧
      (∀ m, m ≠ n → (memWrite s (0x40 + n.val) w).bufLen m = s.bufLen m) ∧
      (∀ m i ax, (memWrite s (0x40 + n.val) w).comp m i ax = s.comp m i ax) ∧
      { memWrite s (0x40 + n.val) w with bufs := s.bufs } = s) ∧
    (s.bufCap < w.toInt.toNat → memWrite s (0x40 + n.val) w = s)

/-- The registers (rules R26 to R37).  Which register each address names: a write of an integer
configuration register stores the low 32 bits as written, of a `Num` one the `Num`, of `CTRL` its two low
bits, in that register alone, and a read returns the value of that register, an integer extended with
zeros.  A read-only register ignores writes; `CMD` reads 0; a value written reads back; and a write of any
address but `CMD` and `LEN` changes what no other address reads as. -/
def Obligations.RegisterWriteIsLocal : Prop :=
  (∀ b : PortBits, (PortWord.bits b).toInt = b.setWidth 32) ∧
  (∀ v : Scalar, (PortWord.num v).toNum = v) ∧
  ∀ (s : State) (w : PortWord),
    (∀ x ∈ [(0x10, { s.cfg with p := w.toInt }), (0x11, { s.cfg with l := w.toInt }),
        (0x12, { s.cfg with hdr := w.toInt }), (0x13, { s.cfg with modType := w.toInt }),
        (0x14, { s.cfg with hitcap := w.toInt }), (0x15, { s.cfg with flen := w.toInt }),
        (0x20, { s.cfg with beta := w.toNum }), (0x21, { s.cfg with toff := w.toNum }),
        (0x22, { s.cfg with fs := w.toNum }), (0x23, { s.cfg with f0 := w.toNum }),
        (0x24, { s.cfg with muC := w.toNum }), (0x25, { s.cfg with muT := w.toNum }),
        (0x26, { s.cfg with delta := w.toNum }), (0x27, { s.cfg with tinit := w.toNum }),
        (0x28, { s.cfg with tmLo := w.toNum }), (0x29, { s.cfg with tmHi := w.toNum }),
        (0x2A, { s.cfg with trig := w.toNum }), (0x2B, { s.cfg with amin := w.toNum }),
        (0x2C, { s.cfg with amax := w.toNum }), (0x2D, { s.cfg with tq := w.toNum })],
      memWrite s x.1 w = { s with cfg := x.2 }) ∧
    memWrite s 0x03 w = { s with ctrl := w.toInt &&& 3#32 } ∧
    (∀ x ∈ [(0x02, statusWord s), (0x03, s.ctrl), (0x04, s.finfo), (0x05, s.fcmd), (0x10, s.cfg.p),
        (0x11, s.cfg.l), (0x12, s.cfg.hdr), (0x13, s.cfg.modType), (0x14, s.cfg.hitcap),
        (0x15, s.cfg.flen), (0x35, s.res.nsym), (0x36, s.res.nhr), (0x37, s.res.nhi)],
      memRead s x.1 = .bits (x.2.setWidth 64)) ∧
    (∀ x ∈ [(0x20, s.cfg.beta), (0x21, s.cfg.toff), (0x22, s.cfg.fs), (0x23, s.cfg.f0),
        (0x24, s.cfg.muC), (0x25, s.cfg.muT), (0x26, s.cfg.delta), (0x27, s.cfg.tinit),
        (0x28, s.cfg.tmLo), (0x29, s.cfg.tmHi), (0x2A, s.cfg.trig), (0x2B, s.cfg.amin),
        (0x2C, s.cfg.amax), (0x2D, s.cfg.tq), (0x30, s.res.ival), (0x31, s.res.thresh),
        (0x32, s.res.theta), (0x33, s.res.tau), (0x34, s.res.tnow)],
      memRead s x.1 = .num x.2) ∧
    (∀ a, 0x10 ≤ a → a ≤ 0x15 → memRead (memWrite s a w) a = .bits (w.toInt.setWidth 64)) ∧
    (∀ a, 0x20 ≤ a → a ≤ 0x2D → memRead (memWrite s a w) a = .num w.toNum) ∧
    memRead (memWrite s 0x03 w) 0x03 = .bits ((w.toInt &&& 3#32).setWidth 64) ∧
    memRead s 0x01 = .bits 0#64 ∧ memRead s 0x00 = .bits 0x50435331#64 ∧
    (∀ a ∈ [0x00, 0x02, 0x04, 0x05, 0x30, 0x31, 0x32, 0x33, 0x34, 0x35, 0x36, 0x37],
      memWrite s a w = s) ∧
    (∀ a b, a ≠ 0x01 → ¬ (0x40 ≤ a ∧ a ≤ 0x47) → b ≠ a →
      memRead (memWrite s a w) b = memRead s b)

/-! The system operations. -/

/-- `NOP` (rule R110). -/
def Obligations.NopCompletes : Prop :=
  decode 0x00000000#32 = .instr .nop ∧
  (∀ w : CmdWord, w.extractLsb' 24 8 = 0x00#8 → w ≠ 0x00000000#32 → decode w = .illegalField) ∧
  (∀ s : State, s.status.fault = true → offerCommand 0x00000000#32 s = s) ∧
  ∀ s : State, ∃ t, exec .nop s = .next t ∧ CompletesPlain {} [] s t

/-- `SRST` (rule R112): every register takes its reset value, `DONE` is 0, no element changes; it is
accepted while `FAULT = 1`. -/
def Obligations.SrstCompletes : Prop :=
  decode 0x01000000#32 = .instr .srst ∧
  (∀ w : CmdWord, w.extractLsb' 24 8 = 0x01#8 → w ≠ 0x01000000#32 → decode w = .illegalField) ∧
  (∀ s : State, (offerCommand 0x01000000#32 s).inFlight = some 0x01000000#32) ∧
  ∀ s : State, ∃ t, exec .srst s = .next t ∧ RegistersReset t ∧ t.status.done = false ∧
    (∀ n i ax, t.comp n i ax = s.comp n i ax) ∧ t.pending = s.pending ∧ t.answered = s.answered

/-- `CLRF` (rule R114): the four condition flags are cleared; `FAULT`, `FCODE` and everything else stay. -/
def Obligations.ClrfCompletes : Prop :=
  decode 0x02000000#32 = .instr .clrf ∧
  (∀ w : CmdWord, w.extractLsb' 24 8 = 0x02#8 → w ≠ 0x02000000#32 → decode w = .illegalField) ∧
  (∀ s : State, s.status.fault = true → offerCommand 0x02000000#32 s = s) ∧
  ∀ s : State, ∃ t, exec .clrf s = .next t ∧ t.inFlight = none ∧ t.busyReads = 0 ∧
    t.status = { s.status with
      done := true, nosync := false, hitovf := false, desync := false, unrec := false } ∧
    SameControl s t ∧ SameBuffersBut [] s t ∧ t.cfg = s.cfg ∧ t.res = s.res

/-! Faults that an operation's own tests raise. -/

/-- `CONFIG` (rule R264): each operation faults on a register it reads that is outside its legal set,
before any data is looked at, and changes nothing else. -/
def Obligations.ConfigTraps : Prop :=
  ∀ (s : State) (i : Instr),
    (i.opcode ∈ [.SRRC, .INTERP, .TREC] ∧
      (s.cfg.p = 0#32 ∨ s.cfg.beta.val < 0 ∨ 1 < s.cfg.beta.val)) ∨
    (i.opcode ∈ [.FEST, .COSTAS] ∧ s.cfg.fs.val ≤ 0) ∨
    (i.opcode = .QUANT ∧ (s.cfg.amin.val ≤ 0 ∨ s.cfg.amax.val < s.cfg.amin.val)) ∨
    (i.opcode ∈ [.BARKER, .XCORR, .FEXT] ∧
      (s.cfg.hdr ≠ 7#32 ∧ s.cfg.hdr ≠ 11#32 ∧ s.cfg.hdr ≠ 13#32)) ∨
    (i.opcode ∈ [.BARKER, .XCORR, .FEXT, .PAM2SYM, .SYM2PAM] ∧ 3 ≤ s.cfg.modType.toNat) ∨
    (i.opcode = .XCORR ∧ s.bufCap < s.cfg.hitcap.toNat) →
    ∃ t, exec i s = .next t ∧ FaultsWith .config 0 s t

/-- `MARGIN` (rule R265): `INTERP` faults where its window leaves the buffer; `TREC` faults at the first
iteration one of whose three probes (rule R169) does, the current one at `tnow + tau`, the late one at
`tnow + tau + DELTA` or the early one at `tnow + tau - DELTA`, each looked at where those before it are
inside, with the number of iterations completed (rule R263). -/
def Obligations.MarginTraps : Prop :=
  (∀ (s : State) (ax : Axis) (s0 : Buf), s.cfg.p ≠ 0#32 → LegalBeta s.cfg.beta →
    s.LeavesBuffer s0 s.cfg.tq.val →
    ∃ t, exec (.interp ax s0) s = .next t ∧ FaultsWith .margin 0 s t) ∧
  (∀ (s : State) (ax : Axis) (d0 d1 s0 : Buf) (k : ℕ) (tnow tau : ℕ → Scalar),
    s.cfg.p ≠ 0#32 → LegalBeta s.cfg.beta →
    tnow 0 = s.cfg.tinit.max s.cfg.tmLo → tau 0 = .zero →
    (∀ j < k, ∃ cur late early,
      interpolate s s0 ax ((tnow j).add (tau j)) j = .ok cur ∧
      interpolate s s0 ax (((tnow j).add (tau j)).add s.cfg.delta) j = .ok late ∧
      interpolate s s0 ax (((tnow j).add (tau j)).sub s.cfg.delta) j = .ok early ∧
      tnow (j + 1) = (tnow j).add (.ofNat s.pNat) ∧
      tau (j + 1) = (tau j).add ((s.cfg.muT.mul (late.sub early)).mul cur)) →
    max s.cfg.tinit.val s.cfg.tmLo.val + k * s.cfg.p.toNat < s.bufLen s0 - s.cfg.tmHi.val →
    (s.LeavesBuffer s0 ((tnow k).val + (tau k).val) ∨
      ∃ cur, interpolate s s0 ax ((tnow k).add (tau k)) k = .ok cur ∧
        (s.LeavesBuffer s0 ((tnow k).val + (tau k).val + s.cfg.delta.val) ∨
          ∃ late, interpolate s s0 ax (((tnow k).add (tau k)).add s.cfg.delta) k = .ok late ∧
            s.LeavesBuffer s0 ((tnow k).val + (tau k).val - s.cfg.delta.val))) →
    ∃ t, exec (.trec ax d0 d1 s0) s = .next t ∧ FaultsWith .margin k s t)

/-- `EMPTY` (rule R266) and `OVERFLOW` (rule R267): a source that must be non-empty has length 0; a
result would be longer than `BUFCAP`.  `SRRC` and `LTR2PAM` test the length before they compute; `TREC`
has then run its `n` iterations (rule R172), and `FEXT` has extracted every hit (rule R210), here on
rational data. -/
def Obligations.EmptyAndOverflowTraps : Prop :=
  (∀ (s : State) (b : Buf), 0 < s.cfg.fs.val → s.bufLen b = 0 →
    (∃ t, exec (.fest b) s = .next t ∧ FaultsWith .empty 0 s t) ∧
    ∀ d0 d1 d2 s0, ∃ t, exec (.costas d0 d1 d2 s0 b) s = .next t ∧ FaultsWith .empty 0 s t) ∧
  (∀ (s : State) (d b : Buf), LegalAlphabet s.cfg.amin s.cfg.amax → s.bufLen b = 0 →
    ∃ t, exec (.quant d b) s = .next t ∧ FaultsWith .empty 0 s t) ∧
  (∀ (s : State) (d0 d1 b : Buf), LegalFrame s.cfg → s.cfg.hitcap.toNat ≤ s.bufCap → s.bufLen b = 0 →
    ∃ t, exec (.xcorr d0 d1 b) s = .next t ∧ FaultsWith .empty 0 s t) ∧
  (∀ (s : State) (d : Buf), s.cfg.p ≠ 0#32 → LegalBeta s.cfg.beta →
    s.bufCap < 2 * s.cfg.l.toNat * s.cfg.p.toNat + 1 →
    ∃ t, exec (.srrc d) s = .next t ∧ FaultsWith .overflow 0 s t) ∧
  (∀ (s : State) (d b : Buf), s.bufCap < 4 * s.bufLen b →
    ∃ t, exec (.ltr2pam d b) s = .next t ∧ FaultsWith .overflow 0 s t) ∧
  (∀ (s : State) (ax : Axis) (d0 d1 s0 : Buf) (n : ℕ) (tnow tau : ℕ → Scalar),
    s.cfg.p ≠ 0#32 → LegalBeta s.cfg.beta →
    n = ⌈((s.bufLen s0 : ℝ) - s.cfg.tmHi.val - max s.cfg.tinit.val s.cfg.tmLo.val) /
      s.cfg.p.toNat⌉.toNat → s.bufCap < n →
    tnow 0 = s.cfg.tinit.max s.cfg.tmLo → tau 0 = .zero →
    (∀ j < n, ∃ cur late early,
      interpolate s s0 ax ((tnow j).add (tau j)) j = .ok cur ∧
      interpolate s s0 ax (((tnow j).add (tau j)).add s.cfg.delta) j = .ok late ∧
      interpolate s s0 ax (((tnow j).add (tau j)).sub s.cfg.delta) j = .ok early ∧
      tnow (j + 1) = (tnow j).add (.ofNat s.pNat) ∧
      tau (j + 1) = (tau j).add ((s.cfg.muT.mul (late.sub early)).mul cur)) →
    ∃ t, exec (.trec ax d0 d1 s0) s = .next t ∧ FaultsWith .overflow 0 s t) ∧
  (∀ (s : State) (d0 s0 s1 s2 : Buf) (xr xi vr vi : List ℚ) (ir ii : List ℕ)
    (zs : ℕ → List (ℚ × ℚ)),
    s.Inv → LegalFrame s.cfg → s.cfg.modType.toNat ≠ 2 → vr.length = ir.length →
    s.HoldsAxis s0 .re (xr.map Scalar.rat) → s.HoldsAxis s0 .im (xi.map Scalar.rat) →
    s.HoldsAxis s1 .re (ir.map Scalar.ofNat) → s.HoldsAxis s1 .im (ii.map Scalar.ofNat) →
    s.HoldsAxis s2 .re (vr.map Scalar.rat) → s.HoldsAxis s2 .im (vi.map Scalar.rat) →
    (∀ k < ir.length, (specAxisSlice xr ir vr s.cfg.hdr.toNat s.cfg.flen.toNat k).length =
      (specAxisSlice xi ii vi s.cfg.hdr.toNat s.cfg.flen.toNat k).length) →
    (∀ k, zs k = (specAxisSlice xr ir vr s.cfg.hdr.toNat s.cfg.flen.toNat k).zip
      (specAxisSlice xi ii vi s.cfg.hdr.toNat s.cfg.flen.toNat k)) →
    s.bufCap < ((List.range ir.length).flatMap fun k =>
      specCodes ((zs k).map (specLevel s.cfg.modType.toNat))).length →
    ∃ t, exec (.fext d0 s0 s1 s2) s = .next t ∧ FaultsWith .overflow 0 s t) ∧
  (∀ (s : State) (d0 s0 s1 s2 : Buf) (xr vr : List ℚ) (ir : List ℕ),
    s.Inv → LegalFrame s.cfg → s.cfg.modType.toNat = 2 → vr.length = ir.length →
    s.HoldsAxis s0 .re (xr.map Scalar.rat) → s.HoldsAxis s1 .re (ir.map Scalar.ofNat) →
    s.HoldsAxis s2 .re (vr.map Scalar.rat) →
    s.bufCap < ((List.range ir.length).flatMap fun k =>
      specCodes ((specAxisSlice xr ir vr s.cfg.hdr.toNat s.cfg.flen.toNat k).map
        fun x => specLevel 2 (x, 0))).length →
    ∃ t, exec (.fext d0 s0 s1 s2) s = .next t ∧ FaultsWith .overflow 0 s t)

/-- `DOMAIN` of the character mapper (rules R222, R224, R268): the fault names the first element that
has no image. -/
def Obligations.CharacterDomainTraps : Prop :=
  (∀ (s : State) (d b : Buf) (xs : List Scalar) (x : Scalar), s.Inv →
    xs.length < s.bufLen b → 4 * s.bufLen b ≤ s.bufCap →
    (∀ j y, xs[j]? = some y → s.comp b j .re = some y ∧ ∃ c : ℕ, c ≤ 255 ∧ y.val = c) →
    s.comp b xs.length .re = some x → (∀ c : ℕ, c ≤ 255 → x.val ≠ c) →
    ∃ t, exec (.ltr2pam d b) s = .next t ∧ FaultsWith .domain xs.length s t) ∧
  (∀ (s : State) (d b : Buf) (ls : List Scalar) (x : Scalar), s.Inv →
    ls.length < 4 * (s.bufLen b / 4) →
    (∀ j y, ls[j]? = some y → s.comp b j .re = some y ∧ ∃ l ∈ ([-3, -1, 1, 3] : List ℤ), y.val = l) →
    s.comp b ls.length .re = some x → (∀ l ∈ ([-3, -1, 1, 3] : List ℤ), x.val ≠ l) →
    ∃ t, exec (.pam2ltr d b) s = .next t ∧ FaultsWith .domain ls.length s t)

/-- The faults of `FEXT`'s own lists.  `DESYNC(0)` where the two hit lists differ in length, and `DESYNC`
at the first hit where its two slices do (rules R208, R269).  `DOMAIN` where a hit index that is read is
not a non-negative integer (rules R205, R268), with the hit being extracted (rule R263): hit 0 for its own
index; hit `k` for the next index `k + 1`, which it reads for the end of its slice, where the hits before
it extract.  For `MOD = 2` no imaginary component is read. -/
def Obligations.FextDesyncTraps : Prop :=
  (∀ (s : State) (d0 s0 s1 s2 : Buf), LegalFrame s.cfg → s.bufLen s2 ≠ s.bufLen s1 →
    ∃ t, exec (.fext d0 s0 s1 s2) s = .next t ∧ FaultsWith .desync 0 s t) ∧
  (∀ (s : State) (d0 s0 s1 s2 : Buf) (xr xi vr vi : List ℚ) (ir ii : List ℕ) (k : ℕ),
    s.Inv → LegalFrame s.cfg → s.cfg.modType.toNat ≠ 2 → vr.length = ir.length →
    s.HoldsAxis s0 .re (xr.map Scalar.rat) → s.HoldsAxis s0 .im (xi.map Scalar.rat) →
    s.HoldsAxis s1 .re (ir.map Scalar.ofNat) → s.HoldsAxis s1 .im (ii.map Scalar.ofNat) →
    s.HoldsAxis s2 .re (vr.map Scalar.rat) → s.HoldsAxis s2 .im (vi.map Scalar.rat) →
    k < ir.length →
    (∀ j < k, (specAxisSlice xr ir vr s.cfg.hdr.toNat s.cfg.flen.toNat j).length =
      (specAxisSlice xi ii vi s.cfg.hdr.toNat s.cfg.flen.toNat j).length) →
    (specAxisSlice xr ir vr s.cfg.hdr.toNat s.cfg.flen.toNat k).length ≠
      (specAxisSlice xi ii vi s.cfg.hdr.toNat s.cfg.flen.toNat k).length →
    ∃ t, exec (.fext d0 s0 s1 s2) s = .next t ∧ FaultsWith .desync k s t) ∧
  (∀ (s : State) (d0 s0 s1 s2 : Buf), LegalFrame s.cfg → s.bufLen s2 = s.bufLen s1 → s.bufLen s1 ≠ 0 →
    (s.BadIndex s1 0 .re ∨
      s.cfg.modType.toNat ≠ 2 ∧ (s.comp s1 0 .re).isSome = true ∧
        (1 < s.bufLen s1 → (s.comp s1 1 .re).isSome = true) ∧ s.BadIndex s1 0 .im) →
    ∃ t, exec (.fext d0 s0 s1 s2) s = .next t ∧ FaultsWith .domain 0 s t) ∧
  (∀ (s : State) (d0 s0 s1 s2 : Buf) (xr xi vr vi : List ℚ) (ir ii : List ℕ) (k : ℕ),
    s.Inv → LegalFrame s.cfg → s.bufLen s2 = s.bufLen s1 → k + 1 < s.bufLen s1 →
    s.HoldsAxis s0 .re (xr.map Scalar.rat) →
    ir.length = k + 1 → (∀ j y, ir[j]? = some y → s.comp s1 j .re = some (.ofNat y)) →
    vr.length = k + 1 → (∀ j y, vr[j]? = some y → s.comp s2 j .re = some (.rat y)) →
    (s.cfg.modType.toNat ≠ 2 →
      s.HoldsAxis s0 .im (xi.map Scalar.rat) ∧
      ii.length = k + 1 ∧ (∀ j y, ii[j]? = some y → s.comp s1 j .im = some (.ofNat y)) ∧
      vi.length = k + 1 ∧ (∀ j y, vi[j]? = some y → s.comp s2 j .im = some (.rat y)) ∧
      ∀ j < k, (specAxisSlice xr ir vr s.cfg.hdr.toNat s.cfg.flen.toNat j).length =
        (specAxisSlice xi ii vi s.cfg.hdr.toNat s.cfg.flen.toNat j).length) →
    (s.BadIndex s1 (k + 1) .re ∨
      s.cfg.modType.toNat ≠ 2 ∧ (s.comp s1 (k + 1) .re).isSome = true ∧ s.BadIndex s1 (k + 1) .im) →
    ∃ t, exec (.fext d0 s0 s1 s2) s = .next t ∧ FaultsWith .domain k s t)

/-! The pulse shape generator and the interpolator. -/

/-- `SRRC` (rule R124) completes for legal registers: `B[d0]` is the kernel, of length `2*L*P + 1`. -/
def Obligations.SrrcCompletes : Prop :=
  ∀ (s : State) (d0 : Buf), s.cfg.p ≠ 0#32 → LegalBeta s.cfg.beta →
    2 * s.cfg.l.toNat * s.cfg.p.toNat + 1 ≤ s.bufCap →
    ∃ (t : State) (ks : List Scalar), exec (.srrc d0) s = .next t ∧ CompletesPlain {} [d0] s t ∧ t.HoldsReal d0 ks ∧
      ks = kernel s.cfg.l.toNat s.cfg.p.toNat s.cfg.beta s.cfg.toff ∧
      ks.length = 2 * s.cfg.l.toNat * s.cfg.p.toNat + 1

/-- The taps of the kernel are the square-root raised-cosine pulse (rules R121 to R123), for every
roll-off in `[0, 1]` and every offset. -/
def Obligations.KernelTapValues : Prop :=
  ∀ (l p : ℕ) (beta off : Scalar), 1 ≤ p → LegalBeta beta →
    (kernel l p beta off).length = 2 * l * p + 1 ∧
    ∀ m, m ≤ 2 * l * p → ∃ x : Scalar, (kernel l p beta off)[m]? = some x ∧
      x.val = realPulse (((m : ℝ) - (l * p : ℕ) + off.val) / p) beta.val p

/-- Pulse symmetry (rules R122, R125): the pulse is even, and with `TOFF = 0` the kernel is symmetric
about its centre tap, for every roll-off in `[0, 1]`. -/
def Obligations.PulseSymmetry : Prop :=
  (∀ (t beta : ℝ) (p : ℕ), realPulse (-t) beta p = realPulse t beta p) ∧
  ∀ (l p : ℕ) (beta off : Scalar), 1 ≤ p → LegalBeta beta → off.val = 0 → ∀ m, m ≤ 2 * l * p →
    ∃ x y : Scalar, (kernel l p beta off)[m]? = some x ∧
      (kernel l p beta off)[2 * l * p - m]? = some y ∧ x.val = y.val

/-- `INTERP` (rules R126, R127) completes where its window is inside the buffer: `IVAL` is the sum over
the window of the samples times the kernel offset by `tau`, reversed. -/
def Obligations.InterpCompletes : Prop :=
  ∀ (s : State) (ax : Axis) (s0 : Buf) (xs : List Scalar) (t0 : ℤ) (l : ℕ), s.Inv →
    s.cfg.p ≠ 0#32 → LegalBeta s.cfg.beta → t0 = ⌊s.cfg.tq.val⌋ → l = s.cfg.l.toNat * s.cfg.p.toNat →
    0 ≤ t0 - l → t0 + l + 1 ≤ s.bufLen s0 → xs.length = 2 * l + 1 →
    (∀ i x, xs[i]? = some x → s.comp s0 ((t0 - l).toNat + i) ax = some x) →
    ∃ (t : State) (v : Scalar), exec (.interp ax s0) s = .next t ∧ CompletesWith {} [] s t ∧ t.cfg = s.cfg ∧
      t.res = { s.res with ival := v } ∧
      v.val = ((List.range (2 * l + 1)).map fun i =>
        (xs.getD i .zero).val *
          ((kernel s.cfg.l.toNat s.cfg.p.toNat s.cfg.beta (s.cfg.tq.sub (.ofInt t0))).getD (2 * l - i)
            .zero).val).sum

/-- What `INTERP` computes (rule R128): the samples as a train of pulses, evaluated at `TQ`. -/
def Obligations.InterpIsPulseTrain : Prop :=
  ∀ (s : State) (ax : Axis) (s0 : Buf) (xs : List Scalar) (t0 : ℤ) (l : ℕ), s.Inv →
    s.cfg.p ≠ 0#32 → LegalBeta s.cfg.beta → t0 = ⌊s.cfg.tq.val⌋ → l = s.cfg.l.toNat * s.cfg.p.toNat →
    0 ≤ t0 - l → t0 + l + 1 ≤ s.bufLen s0 → xs.length = 2 * l + 1 →
    (∀ i x, xs[i]? = some x → s.comp s0 ((t0 - l).toNat + i) ax = some x) →
    ∃ t, exec (.interp ax s0) s = .next t ∧
      t.res.ival.val = ((List.range (2 * l + 1)).map fun i =>
        (xs.getD i .zero).val *
          realPulse ((s.cfg.tq.val - ((t0 - l : ℤ) + i)) / s.cfg.p.toNat) s.cfg.beta.val
            s.cfg.p.toNat).sum

/-! The coarse frequency estimator. -/

/-- `POW4` (rule R141): every element is the fourth power of the source's, also where source and
destination are one buffer; an empty source gives an empty result. -/
def Obligations.Pow4Completes : Prop :=
  ∀ (s : State) (d0 s0 : Buf) (zs : List Cx), s.Inv → s.HoldsCx s0 zs →
    ∃ (t : State) (ws : List Cx), exec (.pow4 d0 s0) s = .next t ∧ CompletesPlain {} [d0] s t ∧ t.HoldsCx d0 ws ∧
      ws.length = zs.length ∧
      ∀ (i : ℕ) (z w : Cx), zs[i]? = some z → ws[i]? = some w → w.val = z.val ^ 4

/-- `FEST` (rules R142 to R144): `F0` is `kappa* * FS / (4*N)` for the first bin of the zero-centred
spectrum whose magnitude no other exceeds, within `[-FS/8, FS/8)`, and nothing else is written. -/
def Obligations.FestFindsPeak : Prop :=
  ∀ (s : State) (s0 : Buf) (zs : List Cx), s.Inv → 0 < s.cfg.fs.val → s.HoldsCx s0 zs →
    zs ≠ [] →
    ∃ (t : State) (v : Scalar) (i : ℕ), exec (.fest s0) s = .next t ∧ CompletesWith {} [] s t ∧ t.res = s.res ∧
      t.cfg = { s.cfg with f0 := v } ∧ i < zs.length ∧
      v.val = ((i : ℝ) - (zs.length / 2 : ℕ)) * s.cfg.fs.val / (4 * zs.length) ∧
      -s.cfg.fs.val / 8 ≤ v.val ∧ v.val < s.cfg.fs.val / 8 ∧
      (∀ j < zs.length, ‖realDft (zs.map Cx.val) ((j : ℤ) - (zs.length / 2 : ℕ))‖ ≤
        ‖realDft (zs.map Cx.val) ((i : ℤ) - (zs.length / 2 : ℕ))‖) ∧
      ∀ j < i, ‖realDft (zs.map Cx.val) ((j : ℤ) - (zs.length / 2 : ℕ))‖ <
        ‖realDft (zs.map Cx.val) ((i : ℤ) - (zs.length / 2 : ℕ))‖

/-! The carrier loop. -/

/-- `COSTAS` (rules R151 to R156): the loop of rule R153 over the reals.  `theta` starts at 0; each
branch is the FIR output of the taps over the mixer products so far; the error is the product of the
four; the three outputs and `THETA` are as rule R155 and R156 say.  That an empty signal gives empty
outputs and `THETA = 0` is the loop of no samples (log entry 21). -/
def Obligations.CostasRunsLoop : Prop :=
  ∀ (s : State) (d0 d1 d2 s0 s1 : Buf) (xs : List Cx) (hs : List Scalar), s.Inv →
    d0 ≠ d1 → d0 ≠ d2 → d1 ≠ d2 → 0 < s.cfg.fs.val → s.HoldsCx s0 xs →
    s.HoldsAxis s1 .re hs → hs ≠ [] →
    ∃ (t : State) (dd ee tt : List Cx) (y : Scalar) (theta phi : ℕ → ℝ),
      exec (.costas d0 d1 d2 s0 s1) s = .next t ∧ CompletesWith {} [d0, d1, d2] s t ∧
      t.cfg = s.cfg ∧ t.res = { s.res with theta := y } ∧ y.val = theta xs.length ∧
      t.HoldsCx d0 dd ∧ t.HoldsCx d1 ee ∧ t.HoldsCx d2 tt ∧
      dd.length = xs.length ∧ ee.length = xs.length ∧ tt.length = xs.length ∧
      theta 0 = 0 ∧
      (∀ k < xs.length,
        phi k = 2 * Real.pi * s.cfg.f0.val * k / s.cfg.fs.val + theta k ∧
        theta (k + 1) = theta k + s.cfg.muC.val * ∏ m ∈ Finset.range 4, ∑ q ∈ Finset.range hs.length,
          if q ≤ k then
            (hs.getD q .zero).val * ((xs.getD (k - q) ⟨.zero, .zero⟩).re.val *
              Real.cos (phi (k - q) + m * Real.pi / 4))
          else 0) ∧
      ∀ (k : ℕ) (x d e u : Cx), xs[k]? = some x → dd[k]? = some d → ee[k]? = some e → tt[k]? = some u →
        u.val = ⟨theta k, Real.cos (phi k)⟩ ∧ e.val = ⟨Real.cos (phi k), -Real.sin (phi k)⟩ ∧
        d.val = x.val * e.val

/-! The timing loop. -/

/-- `TREC` (rules R167 to R172): where every probe of the run's iterations is inside the buffer, the
operation completes; the iterations are those of rule R170 (log entry 14), the samples and the updated
`tau` are recorded in the selected component, and the other component of an element that already existed
is kept, beyond the old length it is 0.  That a kept component which was never written stays so, and
`TREC` goes on, is the model's choice (log entry 22). -/
def Obligations.TrecRunsLoop : Prop :=
  ∀ (s : State) (ax other : Axis) (d0 d1 s0 : Buf) (n : ℕ)
    (tnow tau cur late early : ℕ → Scalar), s.Inv →
    other ≠ ax → d0 ≠ d1 → s.cfg.p ≠ 0#32 → LegalBeta s.cfg.beta →
    n = ⌈((s.bufLen s0 : ℝ) - s.cfg.tmHi.val - max s.cfg.tinit.val s.cfg.tmLo.val) /
      s.cfg.p.toNat⌉.toNat → n ≤ s.bufCap →
    tnow 0 = s.cfg.tinit.max s.cfg.tmLo → tau 0 = .zero →
    (∀ k < n,
      interpolate s s0 ax ((tnow k).add (tau k)) k = .ok (cur k) ∧
      interpolate s s0 ax (((tnow k).add (tau k)).add s.cfg.delta) k = .ok (late k) ∧
      interpolate s s0 ax (((tnow k).add (tau k)).sub s.cfg.delta) k = .ok (early k) ∧
      tnow (k + 1) = (tnow k).add (.ofNat s.pNat) ∧
      tau (k + 1) = (tau k).add ((s.cfg.muT.mul ((late k).sub (early k))).mul (cur k))) →
    ∃ t, exec (.trec ax d0 d1 s0) s = .next t ∧ CompletesWith {} [d0, d1] s t ∧ t.cfg = s.cfg ∧
      t.res = { s.res with tau := tau n, tnow := tnow n, nsym := BitVec.ofNat 32 n } ∧
      t.res.nsym.toNat = n ∧
      (tnow n).val = max s.cfg.tinit.val s.cfg.tmLo.val + n * s.cfg.p.toNat ∧
      (∀ k < n, (tau (k + 1)).val =
        (tau k).val + s.cfg.muT.val * ((late k).val - (early k).val) * (cur k).val) ∧
      t.bufLen d0 = n ∧ t.bufLen d1 = n ∧
      ∀ k < n, t.comp d0 k ax = some (cur k) ∧ t.comp d1 k ax = some (tau (k + 1)) ∧
        ∀ d ∈ [d0, d1],
          t.comp d k other = if k < s.bufLen d then s.comp d k other else some .zero

/-- `TREC` with `MU_T = 0` is a resampler at spacing `P` (rule R172), and with margins of at least
`L*P + |DELTA|` and `L*P + 1 + |DELTA|` no probe leaves the buffer (rule R168): it completes for every
such setting of the registers, also with no iteration at all, with the count of rule R170 (log entry 14).
That it does so where a component it keeps was never written is the model's choice (log entry 22). -/
def Obligations.TrecResamples : Prop :=
  ∀ (s : State) (ax : Axis) (d0 d1 s0 : Buf) (first : ℝ) (n : ℕ), s.Inv →
    d0 ≠ d1 → s.cfg.p ≠ 0#32 → LegalBeta s.cfg.beta → s.cfg.muT.val = 0 →
    (s.lNat * s.pNat : ℕ) + |s.cfg.delta.val| ≤ s.cfg.tmLo.val →
    (s.lNat * s.pNat : ℕ) + 1 + |s.cfg.delta.val| ≤ s.cfg.tmHi.val →
    (∀ i < s.bufLen s0, (s.comp s0 i ax).isSome = true) →
    first = max s.cfg.tinit.val s.cfg.tmLo.val →
    n = ⌈((s.bufLen s0 : ℝ) - s.cfg.tmHi.val - first) / s.cfg.p.toNat⌉.toNat →
    ∃ t, exec (.trec ax d0 d1 s0) s = .next t ∧ CompletesWith {} [d0, d1] s t ∧ t.cfg = s.cfg ∧
      t.res.nsym.toNat = n ∧ t.res.tau.val = 0 ∧ t.res.tnow.val = first + n * s.cfg.p.toNat ∧
      t.bufLen d0 = n ∧ t.bufLen d1 = n ∧
      ∀ k < n, ∃ u x y, u.val = first + k * s.cfg.p.toNat ∧ t.comp d0 k ax = some x ∧
        t.comp d1 k ax = some y ∧ y.val = 0 ∧ interpolate s s0 ax u k = .ok x

/-! The quantizer. -/

/-- `QUANT` (rules R182 to R185) completes on every source that is not empty.  `THRESH` is a quarter of
the sum of the moduli of the extremes, in the order of the real part first; an element is put on the inner
ring strictly below it and on the outer one from it on, with one ring for both axes and the sign of each
(rule R14). -/
def Obligations.QuantCompletes : Prop :=
  ∀ (s : State) (d0 s0 : Buf) (zs : List Cx), s.Inv → LegalAlphabet s.cfg.amin s.cfg.amax →
    s.HoldsCx s0 zs → zs ≠ [] →
    ∃ (t : State) (ws : List Cx) (v : Scalar), ∃ lo ∈ zs, ∃ hi ∈ zs,
      exec (.quant d0 s0) s = .next t ∧ CompletesWith {} [d0] s t ∧ t.cfg = s.cfg ∧
      t.res = { s.res with thresh := v } ∧ t.HoldsCx d0 ws ∧ ws.length = zs.length ∧
      (∀ z ∈ zs, cxLexLe lo z ∧ cxLexLe z hi) ∧ v.val = (‖lo.val‖ + ‖hi.val‖) / 4 ∧
      ∀ (i : ℕ) (z w : Cx), zs[i]? = some z → ws[i]? = some w →
        ∃ r : ℝ, (‖z.val‖ ^ 2 < v.val ^ 2 → r = s.cfg.amin.val) ∧
          (v.val ^ 2 ≤ ‖z.val‖ ^ 2 → r = s.cfg.amax.val) ∧
          w.re.val = Real.sign z.re.val * r ∧ w.im.val = Real.sign z.im.val * r

/-- The decision of `QUANT` on rational symbols (rules R182 to R184): the extremes in the order of the
real part first, `T = (|zmin| + |zmax|)/4`, the inner ring strictly below `T` and the outer one from `T`
on, the sign of each axis with `sgn(0) = 0`. -/
def Obligations.QuantRingDecision : Prop :=
  ∀ (s : State) (d0 s0 : Buf) (qs : List (ℚ × ℚ)) (amin amax : ℚ), s.Inv →
    s.cfg.amin = .rat amin → s.cfg.amax = .rat amax → 0 < amin → amin ≤ amax →
    s.HoldsCx s0 (qs.map ratCx) → qs ≠ [] →
    ∃ t, ∃ lo ∈ qs, ∃ hi ∈ qs, ∃ thresh : ℝ,
      exec (.quant d0 s0) s = .next t ∧ (∀ q ∈ qs, lexLe lo q ∧ lexLe q hi) ∧
      thresh = (Real.sqrt (lo.1 ^ 2 + lo.2 ^ 2 : ℚ) + Real.sqrt (hi.1 ^ 2 + hi.2 ^ 2 : ℚ)) / 4 ∧
      t.res.thresh.val = thresh ∧ t.bufLen d0 = qs.length ∧
      ∀ i q, qs[i]? = some q → ∃ r : ℚ,
        (((q.1 ^ 2 + q.2 ^ 2 : ℚ) : ℝ) < thresh ^ 2 → r = amin) ∧
        (thresh ^ 2 ≤ ((q.1 ^ 2 + q.2 ^ 2 : ℚ) : ℝ) → r = amax) ∧
        t.comp d0 i .re = some (.rat (ratSign q.1 * r)) ∧
        t.comp d0 i .im = some (.rat (ratSign q.2 * r))

/-! Frame synchronisation. -/

/-- `BARKER` (rules R191 to R193): `B[d0]` is the header of the selected code and modulation, exactly. -/
def Obligations.BarkerHeader : Prop :=
  ∀ (s : State) (d0 : Buf), LegalFrame s.cfg →
    ∃ t, exec (.barker d0) s = .next t ∧ CompletesPlain {} [d0] s t ∧
      t.bufLen d0 = s.cfg.hdr.toNat ∧
      t.HoldsCx d0
        ((specChips s.cfg.hdr).map fun b => ratCx (specHeaderSymbol s.cfg.modType.toNat b))

/-- `XCORR` (rules R197 to R200) completes on every source that is not empty, whatever its values: two
packed lists of at most `HITCAP` entries, the two counts, and no change of any other flag than `HITOVF`
and `DESYNC`.  That for `MOD = 2` it completes also where an imaginary component was never written is the
model's choice: it does not read that component (log entry 13). -/
def Obligations.XcorrCompletes : Prop :=
  ∀ (s : State) (d0 d1 s0 : Buf) (xr : List Scalar), s.Inv → d0 ≠ d1 → LegalFrame s.cfg →
    s.cfg.hitcap.toNat ≤ s.bufCap → s.HoldsAxis s0 .re xr → xr ≠ [] →
    (s.cfg.modType.toNat ≠ 2 → ∃ xi, s.HoldsAxis s0 .im xi) →
    ∃ (t : State) (nr ni : ℕ) (ovf : Bool), exec (.xcorr d0 d1 s0) s = .next t ∧
      CompletesWith
        { hitovf := ovf, desync := decide (nr ≠ ni) && decide (s.cfg.modType.toNat ≠ 2) }
        [d0, d1] s t ∧
      t.cfg = s.cfg ∧ t.res = { s.res with nhr := BitVec.ofNat 32 nr, nhi := BitVec.ofNat 32 ni } ∧
      nr ≤ s.cfg.hitcap.toNat ∧ ni ≤ s.cfg.hitcap.toNat ∧
      t.bufLen d0 ≤ max nr ni ∧ t.bufLen d1 ≤ max nr ni

/-- The correlator on rational symbols (rules R195 to R199): on each axis the first `HITCAP` lags whose
correlation with the header meets the trigger, with their signed values, packed side by side and trimmed;
`HITOVF` where a hit was dropped, `DESYNC` where the counts differ and `MOD` is not 2.  That for `MOD = 2`
the imaginary component is not read is the model's choice (log entry 13). -/
def Obligations.XcorrRecordsHits : Prop :=
  ∀ (s : State) (d0 d1 s0 : Buf) (xr xi : List ℚ) (trig : ℚ) (hr hi : List (ℕ × ℚ)) (ar ai : ℕ),
    s.Inv → d0 ≠ d1 → LegalFrame s.cfg → s.cfg.hitcap.toNat ≤ s.bufCap → s.cfg.trig = .rat trig →
    xr ≠ [] → s.HoldsAxis s0 .re (xr.map Scalar.rat) →
    (s.cfg.modType.toNat ≠ 2 → s.HoldsAxis s0 .im (xi.map Scalar.rat)) → xi.length = xr.length →
    hr = specHits xr ((specChips s.cfg.hdr).map fun b => (specHeaderSymbol s.cfg.modType.toNat b).1)
      trig s.cfg.hitcap.toNat →
    hi = specHits xi ((specChips s.cfg.hdr).map fun b => (specHeaderSymbol s.cfg.modType.toNat b).2)
      trig s.cfg.hitcap.toNat →
    ar = (specAllHits xr
      ((specChips s.cfg.hdr).map fun b => (specHeaderSymbol s.cfg.modType.toNat b).1) trig).length →
    ai = (specAllHits xi
      ((specChips s.cfg.hdr).map fun b => (specHeaderSymbol s.cfg.modType.toNat b).2) trig).length →
    ∃ t, exec (.xcorr d0 d1 s0) s = .next t ∧
      CompletesWith
        { hitovf := decide (s.cfg.hitcap.toNat < ar) || decide (s.cfg.hitcap.toNat < ai)
          desync := decide (hr.length ≠ hi.length) && decide (s.cfg.modType.toNat ≠ 2) }
        [d0, d1] s t ∧
      t.cfg = s.cfg ∧
      t.res = { s.res with nhr := BitVec.ofNat 32 hr.length, nhi := BitVec.ofNat 32 hi.length } ∧
      HoldsTrimmed t d0 (indexEntry hr) (indexEntry hi) ∧
      HoldsTrimmed t d1 (valueEntry hr) (valueEntry hi)

/-- `FEXT` with no hits (rule R204): the output is the empty sequence and `NOSYNC` is set; an ordinary
completion. -/
def Obligations.FextWithoutHits : Prop :=
  ∀ (s : State) (d0 s0 s1 s2 : Buf), LegalFrame s.cfg → s.bufLen s1 = 0 → s.bufLen s2 = 0 →
    ∃ t, exec (.fext d0 s0 s1 s2) s = .next t ∧ CompletesPlain { nosync := true } [d0] s t ∧
      t.bufLen d0 = 0

/-- `FEXT` for `4QAM` and `QAM4_2` on rational symbols (rules R205 to R210): each hit's slices, sign
corrected per axis, recombined, demapped and grouped, appended in the order of the hits; `UNREC` where a
symbol is none of the four points. -/
def Obligations.FextExtracts : Prop :=
  ∀ (s : State) (d0 s0 s1 s2 : Buf) (xr xi vr vi : List ℚ) (ir ii : List ℕ)
    (zs : ℕ → List (ℚ × ℚ)) (out : List ℚ),
    s.Inv → LegalFrame s.cfg → s.cfg.modType.toNat ≠ 2 → vr.length = ir.length →
    s.HoldsAxis s0 .re (xr.map Scalar.rat) → s.HoldsAxis s0 .im (xi.map Scalar.rat) →
    s.HoldsAxis s1 .re (ir.map Scalar.ofNat) → s.HoldsAxis s1 .im (ii.map Scalar.ofNat) →
    s.HoldsAxis s2 .re (vr.map Scalar.rat) → s.HoldsAxis s2 .im (vi.map Scalar.rat) →
    (∀ k < ir.length, (specAxisSlice xr ir vr s.cfg.hdr.toNat s.cfg.flen.toNat k).length =
      (specAxisSlice xi ii vi s.cfg.hdr.toNat s.cfg.flen.toNat k).length) →
    (∀ k, zs k = (specAxisSlice xr ir vr s.cfg.hdr.toNat s.cfg.flen.toNat k).zip
      (specAxisSlice xi ii vi s.cfg.hdr.toNat s.cfg.flen.toNat k)) →
    out = (List.range ir.length).flatMap (fun k =>
      specCodes ((zs k).map (specLevel s.cfg.modType.toNat))) → out.length ≤ s.bufCap →
    ∃ (t : State) (unrec : Bool), exec (.fext d0 s0 s1 s2) s = .next t ∧
      CompletesPlain { nosync := decide (ir = []), unrec := unrec } [d0] s t ∧
      (unrec = true ↔ ∃ k < ir.length, ∃ z ∈ zs k, ¬ specKnown s.cfg.modType.toNat z) ∧
      t.HoldsReal d0 (out.map Scalar.rat)

/-- `FEXT` for `4PAM` on rational symbols (rules R205, R208 to R210): the real axis alone; no imaginary
component of any source is read. -/
def Obligations.FextExtractsRealAxis : Prop :=
  ∀ (s : State) (d0 s0 s1 s2 : Buf) (xr vr : List ℚ) (ir : List ℕ)
    (zs : ℕ → List ℚ) (out : List ℚ),
    s.Inv → LegalFrame s.cfg → s.cfg.modType.toNat = 2 → vr.length = ir.length →
    s.HoldsAxis s0 .re (xr.map Scalar.rat) → s.HoldsAxis s1 .re (ir.map Scalar.ofNat) →
    s.HoldsAxis s2 .re (vr.map Scalar.rat) →
    (∀ k, zs k = specAxisSlice xr ir vr s.cfg.hdr.toNat s.cfg.flen.toNat k) →
    out = (List.range ir.length).flatMap (fun k =>
      specCodes ((zs k).map fun x => specLevel 2 (x, 0))) → out.length ≤ s.bufCap →
    ∃ (t : State) (unrec : Bool), exec (.fext d0 s0 s1 s2) s = .next t ∧
      CompletesPlain { nosync := decide (ir = []), unrec := unrec } [d0] s t ∧
      (unrec = true ↔ ∃ k < ir.length, ∃ x ∈ zs k, ¬ specKnown 2 (x, 0)) ∧
      t.HoldsReal d0 (out.map Scalar.rat)

/-- The phase ambiguity is undone per axis (rule R207): two blocks whose streams and hit values differ
by an inversion of the real axis, of the imaginary axis, or of both extract the same character codes. -/
def Obligations.AxisInversionUndone : Prop :=
  ∀ (s s' : State) (d0 s0 s1 s2 : Buf) (xr xi vr vi : List ℚ) (ir ii : List ℕ) (er ei : ℚ),
    s.Inv → s'.Inv → LegalFrame s.cfg → s.cfg.modType.toNat ≠ 2 → s'.aw = s.aw → s'.cfg.hdr = s.cfg.hdr →
    s'.cfg.modType = s.cfg.modType → s'.cfg.flen = s.cfg.flen →
    er ∈ ([1, -1] : List ℚ) → ei ∈ ([1, -1] : List ℚ) → vr.length = ir.length →
    s.HoldsAxis s0 .re (xr.map Scalar.rat) → s.HoldsAxis s0 .im (xi.map Scalar.rat) →
    s.HoldsAxis s1 .re (ir.map Scalar.ofNat) → s.HoldsAxis s1 .im (ii.map Scalar.ofNat) →
    s.HoldsAxis s2 .re (vr.map Scalar.rat) → s.HoldsAxis s2 .im (vi.map Scalar.rat) →
    s'.HoldsAxis s0 .re (xr.map fun x => Scalar.rat (er * x)) →
    s'.HoldsAxis s0 .im (xi.map fun x => Scalar.rat (ei * x)) →
    s'.HoldsAxis s1 .re (ir.map Scalar.ofNat) → s'.HoldsAxis s1 .im (ii.map Scalar.ofNat) →
    s'.HoldsAxis s2 .re (vr.map fun v => Scalar.rat (er * v)) →
    s'.HoldsAxis s2 .im (vi.map fun v => Scalar.rat (ei * v)) →
    (∀ k < ir.length, (specAxisSlice xr ir vr s.cfg.hdr.toNat s.cfg.flen.toNat k).length =
      (specAxisSlice xi ii vi s.cfg.hdr.toNat s.cfg.flen.toNat k).length) →
    ((List.range ir.length).map fun k =>
      (specAxisSlice xr ir vr s.cfg.hdr.toNat s.cfg.flen.toNat k).length / 4).sum ≤ s.bufCap →
    ∃ (t t' : State) (codes : List Scalar), exec (.fext d0 s0 s1 s2) s = .next t ∧ exec (.fext d0 s0 s1 s2) s' = .next t' ∧
      t.HoldsReal d0 codes ∧ t'.HoldsReal d0 codes

/-! The mapper. -/

/-- `LTR2PAM` (rules R221, R222): four levels for each character code, most significant digit first. -/
def Obligations.Ltr2pamCompletes : Prop :=
  ∀ (s : State) (d0 s0 : Buf) (xs : List Scalar) (cs : List ℕ), s.Inv → s.HoldsAxis s0 .re xs →
    xs.map Scalar.val = cs.map (fun c : ℕ => (c : ℝ)) → (∀ c ∈ cs, c ≤ 255) →
    4 * xs.length ≤ s.bufCap →
    ∃ t, exec (.ltr2pam d0 s0) s = .next t ∧ CompletesPlain {} [d0] s t ∧
      t.HoldsReal d0 ((cs.flatMap specLevels).map Scalar.rat)

/-- `PAM2LTR` (rules R223, R224): one character code for each full group of four levels; the tail of up
to three levels is not examined, not even whether it was ever written. -/
def Obligations.Pam2ltrCompletes : Prop :=
  ∀ (s : State) (d0 s0 : Buf) (ls : List ℚ), s.Inv → ls.length = 4 * (s.bufLen s0 / 4) →
    (∀ l ∈ ls, l ∈ ([-3, -1, 1, 3] : List ℚ)) →
    (∀ i l, ls[i]? = some l → s.comp s0 i .re = some (.rat l)) →
    ∃ t, exec (.pam2ltr d0 s0) s = .next t ∧ CompletesPlain {} [d0] s t ∧
      t.bufLen d0 = s.bufLen s0 / 4 ∧ t.HoldsReal d0 ((specCodes ls).map Scalar.rat)

/-- `PAM2QAM`, `PAM2Q42` and `PAM2SYM` (rules R225, R227, R229, R231, R233): every level goes to the
point the rule lists for it, one that is no rational to the last, and `UNREC` is set exactly where a level
is none of -3, -1, 1, 3. -/
def Obligations.LevelsToSymbols : Prop :=
  ∀ (s : State) (d0 s0 : Buf) (i : Instr) (m : ℕ) (ps : List Scalar), s.Inv →
    (i = .pam2qam d0 s0 ∧ m = 0) ∨ (i = .pam2q42 d0 s0 ∧ m = 1) ∨
      (i = .pam2sym d0 s0 ∧ m = s.cfg.modType.toNat ∧ m ≤ 2) →
    s.HoldsAxis s0 .re ps →
    ∃ (t : State) (zs : List Cx) (unrec : Bool), exec i s = .next t ∧
      CompletesPlain { unrec := unrec } [d0] s t ∧
      t.HoldsCx d0 zs ∧ zs.length = ps.length ∧
      (∀ (k : ℕ) (p : Scalar) (z : Cx), ps[k]? = some p → zs[k]? = some z →
        (∀ q : ℚ, p.val = q → z = ratCx (specPoint m q)) ∧
        ((∀ q : ℚ, p.val ≠ q) → z = ratCx (specPoint m 3))) ∧
      (unrec = true ↔ ∃ p ∈ ps, ∀ l ∈ ([-3, -1, 1, 3] : List ℤ), p.val ≠ l)

/-- `QAM2PAM`, `Q422PAM` and `SYM2PAM` (rules R226, R228, R230, R232, R233): every symbol goes to the
level the rule lists for it, one with a component that is no rational to the last, and `UNREC` is set
exactly where a symbol is none of the four points.  For `4PAM` the imaginary component takes no part. -/
def Obligations.SymbolsToLevels : Prop :=
  ∀ (s : State) (d0 s0 : Buf) (i : Instr) (m : ℕ) (zs : List Cx), s.Inv →
    (i = .qam2pam d0 s0 ∧ m = 0) ∨ (i = .q422pam d0 s0 ∧ m = 1) ∨
      (i = .sym2pam d0 s0 ∧ m = s.cfg.modType.toNat ∧ m ≤ 2) →
    s.HoldsAxis s0 .re (zs.map Cx.re) → (m ≠ 2 → s.HoldsAxis s0 .im (zs.map Cx.im)) →
    ∃ (t : State) (ls : List Scalar) (unrec : Bool), exec i s = .next t ∧
      CompletesPlain { unrec := unrec } [d0] s t ∧
      t.HoldsReal d0 ls ∧ ls.length = zs.length ∧
      (∀ (k : ℕ) (z : Cx) (l : Scalar), zs[k]? = some z → ls[k]? = some l →
        (∀ q : ℚ × ℚ, z.re.val = q.1 → (m ≠ 2 → z.im.val = q.2) → l = .rat (specLevel m q)) ∧
        ((∀ q : ℚ × ℚ, z.re.val = q.1 → m ≠ 2 → z.im.val ≠ q.2) → (m = 2 → ∀ q : ℚ, z.re.val ≠ q) →
          l = .rat 3)) ∧
      (unrec = true ↔ ∃ z ∈ zs, ∀ q : ℚ × ℚ, z.re.val = q.1 → (m ≠ 2 → z.im.val = q.2) →
        ¬ specKnown m q)

/-- The mapper round trips (rule R234): `pam2ltr(ltr2pam(s)) = s` for every sequence of codes in
0..255; `sym2pam(pam2sym(p, m), m) = p` for every level and modulation, with `UNREC` never set; and
`ltr2pam(pam2ltr(p)) = p` for valid levels in full groups of four. -/
def Obligations.MapperRoundTrip : Prop :=
  (∀ cs : List ℕ, (∀ c ∈ cs, c ≤ 255) →
    ∃ ls, ltr2pamFrom 0 (cs.map Scalar.ofNat) = .ok ls ∧
      pam2ltrFrom 0 ls = .ok (cs.map Scalar.ofNat)) ∧
  (∀ (m : Modulation) (p : ℚ), p ∈ ([-3, -1, 1, 3] : List ℚ) →
    (pam2symOne m (.rat p)).unrec = false ∧
    sym2pamOne m (pam2symOne m (.rat p)).out = ⟨.rat p, false⟩) ∧
  ∀ ls : List ℚ, (∀ l ∈ ls, l ∈ ([-3, -1, 1, 3] : List ℚ)) → ls.length % 4 = 0 →
    ∃ cs, pam2ltrFrom 0 (ls.map Scalar.rat) = .ok cs ∧ ltr2pamFrom 0 cs = .ok (ls.map Scalar.rat)

/-! The arithmetic. -/

/-- The arithmetic of every rule is that of the real numbers (rules R8, R13, R14, R141): the operations on
real and complex values, with `pi`, `sqrt`, `sin` and `cos`; the order and the equality; `floor`, `ceil`,
`|v|` and `sgn`.  Nothing is rounded and no comparison is left open, for any reals. -/
def Obligations.ArithmeticIsExact : Prop :=
  (∀ x y : Scalar, (x.add y).val = x.val + y.val ∧ (x.sub y).val = x.val - y.val ∧
    (x.mul y).val = x.val * y.val ∧ (x.div y).val = x.val / y.val ∧ x.neg.val = -x.val ∧
    x.sqrt.val = Real.sqrt x.val ∧ x.sin.val = Real.sin x.val ∧ x.cos.val = Real.cos x.val ∧
    Scalar.pi.val = Real.pi) ∧
  (∀ x y : Scalar, (x.lt y = true ↔ x.val < y.val) ∧ (x.le y = true ↔ x.val ≤ y.val) ∧
    (x.eq y = true ↔ x.val = y.val) ∧ (x.max y).val = max x.val y.val) ∧
  (∀ x : Scalar, x.floor = ⌊x.val⌋ ∧ x.ceil = ⌈x.val⌉ ∧ x.abs.val = |x.val| ∧
    (x.sgn : ℝ) = Real.sign x.val ∧ ∀ n : ℤ, x.toInt? = some n ↔ x.val = n) ∧
  ∀ z w : Cx, (z.mul w).val = z.val * w.val ∧ z.modulus.val = ‖z.val‖ ∧ (z.eq w = true ↔ z.val = w.val)
end

