-- ==== Sys2Proof/Laws/State.lean ====
section
/-!
SUPPORT. What each update of the state leaves in each field: one lemma per field per update, true by
`rfl`, so that no proof unfolds a record update.
-/

namespace Sys2Proof.Machine

/-! `AW` (rule R6, U13). -/

theorem aw_ge (s : State) : 8 ≤ s.aw := by simp [State.aw]
theorem aw_le (s : State) : s.aw ≤ 31 := by have := s.awAbove8.isLt; simp only [State.aw]; omega
theorem bufCap_le (s : State) : s.bufCap ≤ 2 ^ 31 := Nat.pow_le_pow_right (n := 2) (by norm_num) (aw_le s)
theorem bufCap_ge (s : State) : 256 ≤ s.bufCap :=
  Nat.pow_le_pow_right (n := 2) (i := 8) (by norm_num) (aw_ge s)
theorem bufCap_pos (s : State) : 0 < s.bufCap := Nat.two_pow_pos s.aw
theorem compCount_aw (s : State) : compCount s.aw = 2 * s.bufCap := by
  rw [compCount, State.bufCap, pow_succ, Nat.mul_comm]
theorem windowStart_aw (s : State) : windowStart s.aw = 16 * s.bufCap := by
  rw [windowStart, State.bufCap, pow_add]
  omega

/-! `setBuf`. -/

@[simp] theorem setBuf_inFlight (s : State) (n : Buf) (b : Buffer) : (s.setBuf n b).inFlight = s.inFlight := rfl
@[simp] theorem setBuf_busyReads (s : State) (n : Buf) (b : Buffer) : (s.setBuf n b).busyReads = s.busyReads := rfl
@[simp] theorem setBuf_awAbove8 (s : State) (n : Buf) (b : Buffer) : (s.setBuf n b).awAbove8 = s.awAbove8 := rfl
@[simp] theorem setBuf_aw (s : State) (n : Buf) (b : Buffer) : (s.setBuf n b).aw = s.aw := rfl
@[simp] theorem setBuf_bufCap (s : State) (n : Buf) (b : Buffer) : (s.setBuf n b).bufCap = s.bufCap := rfl
@[simp] theorem setBuf_status (s : State) (n : Buf) (b : Buffer) : (s.setBuf n b).status = s.status := rfl
@[simp] theorem setBuf_ctrl (s : State) (n : Buf) (b : Buffer) : (s.setBuf n b).ctrl = s.ctrl := rfl
@[simp] theorem setBuf_finfo (s : State) (n : Buf) (b : Buffer) : (s.setBuf n b).finfo = s.finfo := rfl
@[simp] theorem setBuf_fcmd (s : State) (n : Buf) (b : Buffer) : (s.setBuf n b).fcmd = s.fcmd := rfl
@[simp] theorem setBuf_cfg (s : State) (n : Buf) (b : Buffer) : (s.setBuf n b).cfg = s.cfg := rfl
@[simp] theorem setBuf_res (s : State) (n : Buf) (b : Buffer) : (s.setBuf n b).res = s.res := rfl
@[simp] theorem setBuf_bufs (s : State) (n : Buf) (b : Buffer) : (s.setBuf n b).bufs = s.bufs.set n b := rfl
@[simp] theorem setBuf_epoch (s : State) (n : Buf) (b : Buffer) : (s.setBuf n b).epoch = s.epoch := rfl
@[simp] theorem setBuf_pending (s : State) (n : Buf) (b : Buffer) : (s.setBuf n b).pending = s.pending := rfl
@[simp] theorem setBuf_answered (s : State) (n : Buf) (b : Buffer) : (s.setBuf n b).answered = s.answered := rfl

/-! `writeElems`. -/

@[simp] theorem writeElems_inFlight (s : State) (d : Buf) (es : List Elem) : (s.writeElems d es).inFlight = s.inFlight := rfl
@[simp] theorem writeElems_busyReads (s : State) (d : Buf) (es : List Elem) : (s.writeElems d es).busyReads = s.busyReads := rfl
@[simp] theorem writeElems_awAbove8 (s : State) (d : Buf) (es : List Elem) : (s.writeElems d es).awAbove8 = s.awAbove8 := rfl
@[simp] theorem writeElems_aw (s : State) (d : Buf) (es : List Elem) : (s.writeElems d es).aw = s.aw := rfl
@[simp] theorem writeElems_bufCap (s : State) (d : Buf) (es : List Elem) : (s.writeElems d es).bufCap = s.bufCap := rfl
@[simp] theorem writeElems_status (s : State) (d : Buf) (es : List Elem) : (s.writeElems d es).status = s.status := rfl
@[simp] theorem writeElems_ctrl (s : State) (d : Buf) (es : List Elem) : (s.writeElems d es).ctrl = s.ctrl := rfl
@[simp] theorem writeElems_finfo (s : State) (d : Buf) (es : List Elem) : (s.writeElems d es).finfo = s.finfo := rfl
@[simp] theorem writeElems_fcmd (s : State) (d : Buf) (es : List Elem) : (s.writeElems d es).fcmd = s.fcmd := rfl
@[simp] theorem writeElems_cfg (s : State) (d : Buf) (es : List Elem) : (s.writeElems d es).cfg = s.cfg := rfl
@[simp] theorem writeElems_res (s : State) (d : Buf) (es : List Elem) : (s.writeElems d es).res = s.res := rfl
@[simp] theorem writeElems_epoch (s : State) (d : Buf) (es : List Elem) : (s.writeElems d es).epoch = s.epoch := rfl
@[simp] theorem writeElems_pending (s : State) (d : Buf) (es : List Elem) : (s.writeElems d es).pending = s.pending := rfl
@[simp] theorem writeElems_answered (s : State) (d : Buf) (es : List Elem) : (s.writeElems d es).answered = s.answered := rfl

/-! `writeCx`. -/

@[simp] theorem writeCx_inFlight (s : State) (d : Buf) (zs : List Cx) : (s.writeCx d zs).inFlight = s.inFlight := rfl
@[simp] theorem writeCx_busyReads (s : State) (d : Buf) (zs : List Cx) : (s.writeCx d zs).busyReads = s.busyReads := rfl
@[simp] theorem writeCx_awAbove8 (s : State) (d : Buf) (zs : List Cx) : (s.writeCx d zs).awAbove8 = s.awAbove8 := rfl
@[simp] theorem writeCx_aw (s : State) (d : Buf) (zs : List Cx) : (s.writeCx d zs).aw = s.aw := rfl
@[simp] theorem writeCx_bufCap (s : State) (d : Buf) (zs : List Cx) : (s.writeCx d zs).bufCap = s.bufCap := rfl
@[simp] theorem writeCx_status (s : State) (d : Buf) (zs : List Cx) : (s.writeCx d zs).status = s.status := rfl
@[simp] theorem writeCx_ctrl (s : State) (d : Buf) (zs : List Cx) : (s.writeCx d zs).ctrl = s.ctrl := rfl
@[simp] theorem writeCx_finfo (s : State) (d : Buf) (zs : List Cx) : (s.writeCx d zs).finfo = s.finfo := rfl
@[simp] theorem writeCx_fcmd (s : State) (d : Buf) (zs : List Cx) : (s.writeCx d zs).fcmd = s.fcmd := rfl
@[simp] theorem writeCx_cfg (s : State) (d : Buf) (zs : List Cx) : (s.writeCx d zs).cfg = s.cfg := rfl
@[simp] theorem writeCx_res (s : State) (d : Buf) (zs : List Cx) : (s.writeCx d zs).res = s.res := rfl
@[simp] theorem writeCx_epoch (s : State) (d : Buf) (zs : List Cx) : (s.writeCx d zs).epoch = s.epoch := rfl
@[simp] theorem writeCx_pending (s : State) (d : Buf) (zs : List Cx) : (s.writeCx d zs).pending = s.pending := rfl
@[simp] theorem writeCx_answered (s : State) (d : Buf) (zs : List Cx) : (s.writeCx d zs).answered = s.answered := rfl

/-! `writeReal`. -/

@[simp] theorem writeReal_inFlight (s : State) (d : Buf) (xs : List Scalar) : (s.writeReal d xs).inFlight = s.inFlight := rfl
@[simp] theorem writeReal_busyReads (s : State) (d : Buf) (xs : List Scalar) : (s.writeReal d xs).busyReads = s.busyReads := rfl
@[simp] theorem writeReal_awAbove8 (s : State) (d : Buf) (xs : List Scalar) : (s.writeReal d xs).awAbove8 = s.awAbove8 := rfl
@[simp] theorem writeReal_aw (s : State) (d : Buf) (xs : List Scalar) : (s.writeReal d xs).aw = s.aw := rfl
@[simp] theorem writeReal_bufCap (s : State) (d : Buf) (xs : List Scalar) : (s.writeReal d xs).bufCap = s.bufCap := rfl
@[simp] theorem writeReal_status (s : State) (d : Buf) (xs : List Scalar) : (s.writeReal d xs).status = s.status := rfl
@[simp] theorem writeReal_ctrl (s : State) (d : Buf) (xs : List Scalar) : (s.writeReal d xs).ctrl = s.ctrl := rfl
@[simp] theorem writeReal_finfo (s : State) (d : Buf) (xs : List Scalar) : (s.writeReal d xs).finfo = s.finfo := rfl
@[simp] theorem writeReal_fcmd (s : State) (d : Buf) (xs : List Scalar) : (s.writeReal d xs).fcmd = s.fcmd := rfl
@[simp] theorem writeReal_cfg (s : State) (d : Buf) (xs : List Scalar) : (s.writeReal d xs).cfg = s.cfg := rfl
@[simp] theorem writeReal_res (s : State) (d : Buf) (xs : List Scalar) : (s.writeReal d xs).res = s.res := rfl
@[simp] theorem writeReal_epoch (s : State) (d : Buf) (xs : List Scalar) : (s.writeReal d xs).epoch = s.epoch := rfl
@[simp] theorem writeReal_pending (s : State) (d : Buf) (xs : List Scalar) : (s.writeReal d xs).pending = s.pending := rfl
@[simp] theorem writeReal_answered (s : State) (d : Buf) (xs : List Scalar) : (s.writeReal d xs).answered = s.answered := rfl

/-! `idle`. -/

@[simp] theorem idle_inFlight (s : State) : (idle s).inFlight = none := rfl
@[simp] theorem idle_busyReads (s : State) : (idle s).busyReads = 0 := rfl
@[simp] theorem idle_awAbove8 (s : State) : (idle s).awAbove8 = s.awAbove8 := rfl
@[simp] theorem idle_aw (s : State) : (idle s).aw = s.aw := rfl
@[simp] theorem idle_bufCap (s : State) : (idle s).bufCap = s.bufCap := rfl
@[simp] theorem idle_status (s : State) : (idle s).status = s.status := rfl
@[simp] theorem idle_ctrl (s : State) : (idle s).ctrl = s.ctrl := rfl
@[simp] theorem idle_finfo (s : State) : (idle s).finfo = s.finfo := rfl
@[simp] theorem idle_fcmd (s : State) : (idle s).fcmd = s.fcmd := rfl
@[simp] theorem idle_cfg (s : State) : (idle s).cfg = s.cfg := rfl
@[simp] theorem idle_res (s : State) : (idle s).res = s.res := rfl
@[simp] theorem idle_bufs (s : State) : (idle s).bufs = s.bufs := rfl
@[simp] theorem idle_epoch (s : State) : (idle s).epoch = s.epoch + 1 := rfl
@[simp] theorem idle_pending (s : State) : (idle s).pending = s.pending := rfl
@[simp] theorem idle_answered (s : State) : (idle s).answered = s.answered := rfl

/-! `complete`. -/

@[simp] theorem complete_inFlight (s : State) : (complete s).inFlight = none := rfl
@[simp] theorem complete_busyReads (s : State) : (complete s).busyReads = 0 := rfl
@[simp] theorem complete_awAbove8 (s : State) : (complete s).awAbove8 = s.awAbove8 := rfl
@[simp] theorem complete_aw (s : State) : (complete s).aw = s.aw := rfl
@[simp] theorem complete_bufCap (s : State) : (complete s).bufCap = s.bufCap := rfl
@[simp] theorem complete_status (s : State) : (complete s).status = { s.status with done := true } := rfl
@[simp] theorem complete_ctrl (s : State) : (complete s).ctrl = s.ctrl := rfl
@[simp] theorem complete_finfo (s : State) : (complete s).finfo = s.finfo := rfl
@[simp] theorem complete_fcmd (s : State) : (complete s).fcmd = s.fcmd := rfl
@[simp] theorem complete_cfg (s : State) : (complete s).cfg = s.cfg := rfl
@[simp] theorem complete_res (s : State) : (complete s).res = s.res := rfl
@[simp] theorem complete_bufs (s : State) : (complete s).bufs = s.bufs := rfl
@[simp] theorem complete_epoch (s : State) : (complete s).epoch = s.epoch + 1 := rfl
@[simp] theorem complete_pending (s : State) : (complete s).pending = s.pending := rfl
@[simp] theorem complete_answered (s : State) : (complete s).answered = s.answered := rfl

/-! `raise`. -/

@[simp] theorem raise_inFlight (f : FCode) (info : Nat) (s : State) : (raise f info s).inFlight = none := rfl
@[simp] theorem raise_busyReads (f : FCode) (info : Nat) (s : State) : (raise f info s).busyReads = 0 := rfl
@[simp] theorem raise_awAbove8 (f : FCode) (info : Nat) (s : State) : (raise f info s).awAbove8 = s.awAbove8 := rfl
@[simp] theorem raise_aw (f : FCode) (info : Nat) (s : State) : (raise f info s).aw = s.aw := rfl
@[simp] theorem raise_bufCap (f : FCode) (info : Nat) (s : State) : (raise f info s).bufCap = s.bufCap := rfl
@[simp] theorem raise_status (f : FCode) (info : Nat) (s : State) : (raise f info s).status = { s.status with fault := true, fcode := f } := rfl
@[simp] theorem raise_ctrl (f : FCode) (info : Nat) (s : State) : (raise f info s).ctrl = s.ctrl := rfl
@[simp] theorem raise_finfo (f : FCode) (info : Nat) (s : State) : (raise f info s).finfo = BitVec.ofNat 32 info := rfl
@[simp] theorem raise_fcmd (f : FCode) (info : Nat) (s : State) : (raise f info s).fcmd = s.acceptedWord := rfl
@[simp] theorem raise_cfg (f : FCode) (info : Nat) (s : State) : (raise f info s).cfg = s.cfg := rfl
@[simp] theorem raise_res (f : FCode) (info : Nat) (s : State) : (raise f info s).res = s.res := rfl
@[simp] theorem raise_bufs (f : FCode) (info : Nat) (s : State) : (raise f info s).bufs = s.bufs := rfl
@[simp] theorem raise_epoch (f : FCode) (info : Nat) (s : State) : (raise f info s).epoch = s.epoch + 1 := rfl
@[simp] theorem raise_pending (f : FCode) (info : Nat) (s : State) : (raise f info s).pending = s.pending := rfl
@[simp] theorem raise_answered (f : FCode) (info : Nat) (s : State) : (raise f info s).answered = s.answered := rfl

/-! `setConds`. -/

@[simp] theorem setConds_inFlight (c : Conds) (s : State) : (setConds c s).inFlight = s.inFlight := rfl
@[simp] theorem setConds_busyReads (c : Conds) (s : State) : (setConds c s).busyReads = s.busyReads := rfl
@[simp] theorem setConds_awAbove8 (c : Conds) (s : State) : (setConds c s).awAbove8 = s.awAbove8 := rfl
@[simp] theorem setConds_aw (c : Conds) (s : State) : (setConds c s).aw = s.aw := rfl
@[simp] theorem setConds_bufCap (c : Conds) (s : State) : (setConds c s).bufCap = s.bufCap := rfl
@[simp] theorem setConds_ctrl (c : Conds) (s : State) : (setConds c s).ctrl = s.ctrl := rfl
@[simp] theorem setConds_finfo (c : Conds) (s : State) : (setConds c s).finfo = s.finfo := rfl
@[simp] theorem setConds_fcmd (c : Conds) (s : State) : (setConds c s).fcmd = s.fcmd := rfl
@[simp] theorem setConds_cfg (c : Conds) (s : State) : (setConds c s).cfg = s.cfg := rfl
@[simp] theorem setConds_res (c : Conds) (s : State) : (setConds c s).res = s.res := rfl
@[simp] theorem setConds_bufs (c : Conds) (s : State) : (setConds c s).bufs = s.bufs := rfl
@[simp] theorem setConds_epoch (c : Conds) (s : State) : (setConds c s).epoch = s.epoch := rfl
@[simp] theorem setConds_pending (c : Conds) (s : State) : (setConds c s).pending = s.pending := rfl
@[simp] theorem setConds_answered (c : Conds) (s : State) : (setConds c s).answered = s.answered := rfl

/-! `clearConds`. -/

@[simp] theorem clearConds_inFlight (s : State) : (clearConds s).inFlight = s.inFlight := rfl
@[simp] theorem clearConds_busyReads (s : State) : (clearConds s).busyReads = s.busyReads := rfl
@[simp] theorem clearConds_awAbove8 (s : State) : (clearConds s).awAbove8 = s.awAbove8 := rfl
@[simp] theorem clearConds_aw (s : State) : (clearConds s).aw = s.aw := rfl
@[simp] theorem clearConds_bufCap (s : State) : (clearConds s).bufCap = s.bufCap := rfl
@[simp] theorem clearConds_ctrl (s : State) : (clearConds s).ctrl = s.ctrl := rfl
@[simp] theorem clearConds_finfo (s : State) : (clearConds s).finfo = s.finfo := rfl
@[simp] theorem clearConds_fcmd (s : State) : (clearConds s).fcmd = s.fcmd := rfl
@[simp] theorem clearConds_cfg (s : State) : (clearConds s).cfg = s.cfg := rfl
@[simp] theorem clearConds_res (s : State) : (clearConds s).res = s.res := rfl
@[simp] theorem clearConds_bufs (s : State) : (clearConds s).bufs = s.bufs := rfl
@[simp] theorem clearConds_epoch (s : State) : (clearConds s).epoch = s.epoch := rfl
@[simp] theorem clearConds_pending (s : State) : (clearConds s).pending = s.pending := rfl
@[simp] theorem clearConds_answered (s : State) : (clearConds s).answered = s.answered := rfl

/-! `resetRegisters`. -/

@[simp] theorem resetRegisters_inFlight (s : State) : (resetRegisters s).inFlight = s.inFlight := rfl
@[simp] theorem resetRegisters_busyReads (s : State) : (resetRegisters s).busyReads = s.busyReads := rfl
@[simp] theorem resetRegisters_awAbove8 (s : State) : (resetRegisters s).awAbove8 = s.awAbove8 := rfl
@[simp] theorem resetRegisters_aw (s : State) : (resetRegisters s).aw = s.aw := rfl
@[simp] theorem resetRegisters_bufCap (s : State) : (resetRegisters s).bufCap = s.bufCap := rfl
@[simp] theorem resetRegisters_status (s : State) : (resetRegisters s).status = .reset := rfl
@[simp] theorem resetRegisters_ctrl (s : State) : (resetRegisters s).ctrl = 0#32 := rfl
@[simp] theorem resetRegisters_finfo (s : State) : (resetRegisters s).finfo = 0#32 := rfl
@[simp] theorem resetRegisters_fcmd (s : State) : (resetRegisters s).fcmd = 0#32 := rfl
@[simp] theorem resetRegisters_cfg (s : State) : (resetRegisters s).cfg = .reset := rfl
@[simp] theorem resetRegisters_res (s : State) : (resetRegisters s).res = .reset := rfl
@[simp] theorem resetRegisters_epoch (s : State) : (resetRegisters s).epoch = s.epoch := rfl
@[simp] theorem resetRegisters_pending (s : State) : (resetRegisters s).pending = s.pending := rfl
@[simp] theorem resetRegisters_answered (s : State) : (resetRegisters s).answered = s.answered := rfl

/-! `Status.reset`. -/

@[simp] theorem Status.reset_done : Status.reset.done = false := rfl
@[simp] theorem Status.reset_fault : Status.reset.fault = false := rfl
@[simp] theorem Status.reset_fcode : Status.reset.fcode = .none := rfl
@[simp] theorem Status.reset_nosync : Status.reset.nosync = false := rfl
@[simp] theorem Status.reset_hitovf : Status.reset.hitovf = false := rfl
@[simp] theorem Status.reset_desync : Status.reset.desync = false := rfl
@[simp] theorem Status.reset_unrec : Status.reset.unrec = false := rfl

/-! `softReset`. -/

@[simp] theorem softReset_inFlight (s : State) : (softReset s).inFlight = none := rfl
@[simp] theorem softReset_busyReads (s : State) : (softReset s).busyReads = 0 := rfl
@[simp] theorem softReset_awAbove8 (s : State) : (softReset s).awAbove8 = s.awAbove8 := rfl
@[simp] theorem softReset_aw (s : State) : (softReset s).aw = s.aw := rfl
@[simp] theorem softReset_bufCap (s : State) : (softReset s).bufCap = s.bufCap := rfl
@[simp] theorem softReset_status (s : State) : (softReset s).status = .reset := rfl
@[simp] theorem softReset_ctrl (s : State) : (softReset s).ctrl = 0#32 := rfl
@[simp] theorem softReset_finfo (s : State) : (softReset s).finfo = 0#32 := rfl
@[simp] theorem softReset_fcmd (s : State) : (softReset s).fcmd = 0#32 := rfl
@[simp] theorem softReset_cfg (s : State) : (softReset s).cfg = .reset := rfl
@[simp] theorem softReset_res (s : State) : (softReset s).res = .reset := rfl
@[simp] theorem softReset_epoch (s : State) : (softReset s).epoch = s.epoch + 1 := rfl
@[simp] theorem softReset_pending (s : State) : (softReset s).pending = s.pending := rfl
@[simp] theorem softReset_answered (s : State) : (softReset s).answered = s.answered := rfl

/-! `hardReset`. -/

@[simp] theorem hardReset_inFlight (s : State) : (hardReset s).inFlight = none := rfl
@[simp] theorem hardReset_busyReads (s : State) : (hardReset s).busyReads = 0 := rfl
@[simp] theorem hardReset_awAbove8 (s : State) : (hardReset s).awAbove8 = s.awAbove8 := rfl
@[simp] theorem hardReset_aw (s : State) : (hardReset s).aw = s.aw := rfl
@[simp] theorem hardReset_bufCap (s : State) : (hardReset s).bufCap = s.bufCap := rfl
@[simp] theorem hardReset_status (s : State) : (hardReset s).status = .reset := rfl
@[simp] theorem hardReset_ctrl (s : State) : (hardReset s).ctrl = 0#32 := rfl
@[simp] theorem hardReset_finfo (s : State) : (hardReset s).finfo = 0#32 := rfl
@[simp] theorem hardReset_fcmd (s : State) : (hardReset s).fcmd = 0#32 := rfl
@[simp] theorem hardReset_cfg (s : State) : (hardReset s).cfg = .reset := rfl
@[simp] theorem hardReset_res (s : State) : (hardReset s).res = .reset := rfl
@[simp] theorem hardReset_bufs (s : State) : (hardReset s).bufs = Vector.replicate 8 .reset := rfl
@[simp] theorem hardReset_epoch (s : State) : (hardReset s).epoch = s.epoch + 1 := rfl
@[simp] theorem hardReset_pending (s : State) : (hardReset s).pending = s.pending := rfl
@[simp] theorem hardReset_answered (s : State) : (hardReset s).answered = s.answered := rfl

/-! `writeCfg`. -/

@[simp] theorem writeCfg_inFlight (s : State) (c : Cfg) : (writeCfg s c).inFlight = s.inFlight := rfl
@[simp] theorem writeCfg_busyReads (s : State) (c : Cfg) : (writeCfg s c).busyReads = s.busyReads := rfl
@[simp] theorem writeCfg_awAbove8 (s : State) (c : Cfg) : (writeCfg s c).awAbove8 = s.awAbove8 := rfl
@[simp] theorem writeCfg_aw (s : State) (c : Cfg) : (writeCfg s c).aw = s.aw := rfl
@[simp] theorem writeCfg_bufCap (s : State) (c : Cfg) : (writeCfg s c).bufCap = s.bufCap := rfl
@[simp] theorem writeCfg_status (s : State) (c : Cfg) : (writeCfg s c).status = s.status := rfl
@[simp] theorem writeCfg_ctrl (s : State) (c : Cfg) : (writeCfg s c).ctrl = s.ctrl := rfl
@[simp] theorem writeCfg_finfo (s : State) (c : Cfg) : (writeCfg s c).finfo = s.finfo := rfl
@[simp] theorem writeCfg_fcmd (s : State) (c : Cfg) : (writeCfg s c).fcmd = s.fcmd := rfl
@[simp] theorem writeCfg_cfg (s : State) (c : Cfg) : (writeCfg s c).cfg = c := rfl
@[simp] theorem writeCfg_res (s : State) (c : Cfg) : (writeCfg s c).res = s.res := rfl
@[simp] theorem writeCfg_bufs (s : State) (c : Cfg) : (writeCfg s c).bufs = s.bufs := rfl
@[simp] theorem writeCfg_epoch (s : State) (c : Cfg) : (writeCfg s c).epoch = s.epoch := rfl
@[simp] theorem writeCfg_pending (s : State) (c : Cfg) : (writeCfg s c).pending = s.pending := rfl
@[simp] theorem writeCfg_answered (s : State) (c : Cfg) : (writeCfg s c).answered = s.answered := rfl

/-! `answer`. -/

@[simp] theorem answer_inFlight (s : State) (a : Nat) : (answer s a).inFlight = s.inFlight := rfl
@[simp] theorem answer_busyReads (s : State) (a : Nat) : (answer s a).busyReads = s.busyReads := rfl
@[simp] theorem answer_awAbove8 (s : State) (a : Nat) : (answer s a).awAbove8 = s.awAbove8 := rfl
@[simp] theorem answer_aw (s : State) (a : Nat) : (answer s a).aw = s.aw := rfl
@[simp] theorem answer_bufCap (s : State) (a : Nat) : (answer s a).bufCap = s.bufCap := rfl
@[simp] theorem answer_status (s : State) (a : Nat) : (answer s a).status = s.status := rfl
@[simp] theorem answer_ctrl (s : State) (a : Nat) : (answer s a).ctrl = s.ctrl := rfl
@[simp] theorem answer_finfo (s : State) (a : Nat) : (answer s a).finfo = s.finfo := rfl
@[simp] theorem answer_fcmd (s : State) (a : Nat) : (answer s a).fcmd = s.fcmd := rfl
@[simp] theorem answer_cfg (s : State) (a : Nat) : (answer s a).cfg = s.cfg := rfl
@[simp] theorem answer_res (s : State) (a : Nat) : (answer s a).res = s.res := rfl
@[simp] theorem answer_bufs (s : State) (a : Nat) : (answer s a).bufs = s.bufs := rfl
@[simp] theorem answer_epoch (s : State) (a : Nat) : (answer s a).epoch = s.epoch := rfl
@[simp] theorem answer_pending (s : State) (a : Nat) : (answer s a).pending = s.pending := rfl
@[simp] theorem answer_answered (s : State) (a : Nat) : (answer s a).answered = (a, memRead s a) :: s.answered := rfl

/-! `withAccepted`. -/

@[simp] theorem withAccepted_inFlight (w : CmdWord) (s : State) : (withAccepted w s).inFlight = some w := rfl
@[simp] theorem withAccepted_busyReads (w : CmdWord) (s : State) : (withAccepted w s).busyReads = 0 := rfl
@[simp] theorem withAccepted_awAbove8 (w : CmdWord) (s : State) : (withAccepted w s).awAbove8 = s.awAbove8 := rfl
@[simp] theorem withAccepted_aw (w : CmdWord) (s : State) : (withAccepted w s).aw = s.aw := rfl
@[simp] theorem withAccepted_bufCap (w : CmdWord) (s : State) : (withAccepted w s).bufCap = s.bufCap := rfl
@[simp] theorem withAccepted_status (w : CmdWord) (s : State) : (withAccepted w s).status = { s.status with done := false } := rfl
@[simp] theorem withAccepted_ctrl (w : CmdWord) (s : State) : (withAccepted w s).ctrl = s.ctrl := rfl
@[simp] theorem withAccepted_finfo (w : CmdWord) (s : State) : (withAccepted w s).finfo = s.finfo := rfl
@[simp] theorem withAccepted_fcmd (w : CmdWord) (s : State) : (withAccepted w s).fcmd = s.fcmd := rfl
@[simp] theorem withAccepted_cfg (w : CmdWord) (s : State) : (withAccepted w s).cfg = s.cfg := rfl
@[simp] theorem withAccepted_res (w : CmdWord) (s : State) : (withAccepted w s).res = s.res := rfl
@[simp] theorem withAccepted_bufs (w : CmdWord) (s : State) : (withAccepted w s).bufs = s.bufs := rfl
@[simp] theorem withAccepted_epoch (w : CmdWord) (s : State) : (withAccepted w s).epoch = s.epoch := rfl
@[simp] theorem withAccepted_pending (w : CmdWord) (s : State) : (withAccepted w s).pending = s.pending := rfl
@[simp] theorem withAccepted_answered (w : CmdWord) (s : State) : (withAccepted w s).answered = s.answered := rfl

/-! The condition flags and the fields of `STATUS` beside them. -/

@[simp] theorem setConds_done (c : Conds) (s : State) : (setConds c s).status.done = s.status.done := rfl
@[simp] theorem setConds_fault (c : Conds) (s : State) : (setConds c s).status.fault = s.status.fault := rfl
@[simp] theorem setConds_fcode (c : Conds) (s : State) : (setConds c s).status.fcode = s.status.fcode := rfl
@[simp] theorem setConds_nosync (c : Conds) (s : State) :
    (setConds c s).status.nosync = (s.status.nosync || c.nosync) := rfl
@[simp] theorem setConds_hitovf (c : Conds) (s : State) :
    (setConds c s).status.hitovf = (s.status.hitovf || c.hitovf) := rfl
@[simp] theorem setConds_desync (c : Conds) (s : State) :
    (setConds c s).status.desync = (s.status.desync || c.desync) := rfl
@[simp] theorem setConds_unrec (c : Conds) (s : State) :
    (setConds c s).status.unrec = (s.status.unrec || c.unrec) := rfl
@[simp] theorem clearConds_done (s : State) : (clearConds s).status.done = s.status.done := rfl
@[simp] theorem clearConds_fault (s : State) : (clearConds s).status.fault = s.status.fault := rfl
@[simp] theorem clearConds_fcode (s : State) : (clearConds s).status.fcode = s.status.fcode := rfl
@[simp] theorem clearConds_nosync (s : State) : (clearConds s).status.nosync = false := rfl
@[simp] theorem clearConds_hitovf (s : State) : (clearConds s).status.hitovf = false := rfl
@[simp] theorem clearConds_desync (s : State) : (clearConds s).status.desync = false := rfl
@[simp] theorem clearConds_unrec (s : State) : (clearConds s).status.unrec = false := rfl

/-! One buffer after an update. -/

@[simp] theorem buf_setBuf_same (s : State) (n : Buf) (b : Buffer) : (s.setBuf n b).buf n = b := by
  simp [State.buf, State.setBuf]

@[simp] theorem buf_setBuf_ne (s : State) {m n : Buf} (b : Buffer) (h : m ≠ n) :
    (s.setBuf n b).buf m = s.buf m := by
  have h' : (n : Nat) ≠ (m : Nat) := fun e => h (Fin.ext e.symm)
  simp [State.buf, State.setBuf, h']

/-- Two states with the same buffers have the same buffer `n`. -/
theorem buf_congr {s t : State} (h : s.bufs = t.bufs) (n : Buf) : s.buf n = t.buf n := by
  simp [State.buf, h]

@[simp] theorem buf_idle (s : State) (n : Buf) : (idle s).buf n = s.buf n := rfl
@[simp] theorem buf_complete (s : State) (n : Buf) : (complete s).buf n = s.buf n := rfl
@[simp] theorem buf_raise (f : FCode) (info : Nat) (s : State) (n : Buf) :
    (raise f info s).buf n = s.buf n := rfl
@[simp] theorem buf_setConds (c : Conds) (s : State) (n : Buf) : (setConds c s).buf n = s.buf n := rfl
@[simp] theorem buf_clearConds (s : State) (n : Buf) : (clearConds s).buf n = s.buf n := rfl
@[simp] theorem buf_writeCfg (s : State) (c : Cfg) (n : Buf) : (writeCfg s c).buf n = s.buf n := rfl
@[simp] theorem buf_answer (s : State) (a : Nat) (n : Buf) : (answer s a).buf n = s.buf n := rfl
@[simp] theorem buf_withAccepted (w : CmdWord) (s : State) (n : Buf) :
    (withAccepted w s).buf n = s.buf n := rfl

@[simp] theorem buf_resetRegisters (s : State) (n : Buf) :
    (resetRegisters s).buf n = { s.buf n with len := 0#32 } := by
  simp [State.buf, resetRegisters]

@[simp] theorem buf_softReset (s : State) (n : Buf) :
    (softReset s).buf n = { s.buf n with len := 0#32 } := buf_resetRegisters s n

@[simp] theorem buf_reset (n : Buf) : State.reset.buf n = Buffer.reset := by
  simp [State.buf, State.reset]

@[simp] theorem buf_hardReset (s : State) (n : Buf) : (hardReset s).buf n = Buffer.reset := by
  simp [State.buf, hardReset, State.reset]

@[simp] theorem buf_writeElems_same (s : State) (d : Buf) (es : List Elem) :
    (s.writeElems d es).buf d =
      { len := BitVec.ofNat 32 es.length
        cells := packCells 0 es ++ staleCells s.epoch (windowBase s.aw d) es.length (s.buf d).cells } := by
  simp [State.writeElems]

@[simp] theorem buf_writeElems_ne (s : State) {d n : Buf} (es : List Elem) (h : n ≠ d) :
    (s.writeElems d es).buf n = s.buf n := by
  simp [State.writeElems, h]

@[simp] theorem buf_writeCx_ne (s : State) {d n : Buf} (zs : List Cx) (h : n ≠ d) :
    (s.writeCx d zs).buf n = s.buf n := by
  simp [State.writeCx, h]

@[simp] theorem buf_writeReal_ne (s : State) {d n : Buf} (xs : List Scalar) (h : n ≠ d) :
    (s.writeReal d xs).buf n = s.buf n := by
  simp [State.writeReal, h]

end Sys2Proof.Machine
end

