-- ==== Sys2Proof/Laws/Memory.lean ====
section
/-!
SUPPORT. The cells of a buffer: what is read after a write, and that every operation over them keeps the
one canonical form (`Buffer.wf`): keys strictly rising, each inside the buffer.
-/

namespace Sys2Proof.Machine

/-! Reading after writing. -/

@[simp] theorem lookupCell_nil (k : Nat) : lookupCell [] k = none := rfl

theorem lookupCell_cons (a : Nat) (v : Scalar) (cs : List (Nat × Scalar)) (k : Nat) :
    lookupCell ((a, v) :: cs) k = if a = k then some v else lookupCell cs k := rfl

/-- The component written reads back. -/
@[simp] theorem lookupCell_setCell_same (cs : List (Nat × Scalar)) (k : Nat) (v : Scalar) :
    lookupCell (setCell cs k v) k = some v := by
  induction cs with
  | nil => simp [setCell, lookupCell]
  | cons c cs ih =>
    obtain ⟨a, x⟩ := c
    simp only [setCell]
    split
    · simp [lookupCell]
    · split
      · simp [lookupCell]
      · rename_i h
        simp [lookupCell, Ne.symm h, ih]

/-- Every other component reads as before. -/
@[simp] theorem lookupCell_setCell_ne (cs : List (Nat × Scalar)) {j k : Nat} (v : Scalar) (h : j ≠ k) :
    lookupCell (setCell cs k v) j = lookupCell cs j := by
  induction cs with
  | nil => simp [setCell, lookupCell, Ne.symm h]
  | cons c cs ih =>
    obtain ⟨a, x⟩ := c
    simp only [setCell]
    split
    · simp [lookupCell, Ne.symm h]
    · split
      · rename_i e
        subst e
        simp [lookupCell, Ne.symm h]
      · simp [lookupCell, ih]

theorem lookupCell_append (xs ys : List (Nat × Scalar)) (k : Nat) :
    lookupCell (xs ++ ys) k = (lookupCell xs k).or (lookupCell ys k) := by
  induction xs with
  | nil => simp
  | cons c xs ih =>
    obtain ⟨a, v⟩ := c
    simp only [List.cons_append, lookupCell_cons]
    split <;> simp [ih]

@[simp] theorem lookupCell_cellOf_same (k : Nat) (v : Option Scalar) : lookupCell (cellOf k v) k = v := by
  cases v <;> simp [cellOf, lookupCell]

theorem lookupCell_cellOf_ne {j k : Nat} (v : Option Scalar) (h : k ≠ j) :
    lookupCell (cellOf k v) j = none := by
  cases v <;> simp [cellOf, lookupCell, h]

/-- No cell of a packed sequence lies below its first element. -/
theorem lookupCell_packCells_below (es : List Elem) {i k : Nat} (h : k < 2 * i) :
    lookupCell (packCells i es) k = none := by
  induction es generalizing i with
  | nil => rfl
  | cons e es ih =>
    simp only [packCells, lookupCell_append]
    rw [lookupCell_cellOf_ne _ (by omega), lookupCell_cellOf_ne _ (by omega), ih (by omega)]
    rfl

/-- Element `j` of a packed sequence holds what was packed. -/
theorem lookupCell_packCells (es : List Elem) (i j : Nat) (ax : Axis) :
    lookupCell (packCells i es) (compKey (i + j) ax) =
      (es[j]?).bind fun e => match ax with | .re => e.re | .im => e.im := by
  induction es generalizing i j with
  | nil => simp [packCells]
  | cons e es ih =>
    simp only [packCells, lookupCell_append]
    cases j with
    | zero =>
      cases ax
      · rw [show compKey (i + 0) .re = 2 * i from rfl, lookupCell_cellOf_same,
          lookupCell_cellOf_ne _ (by omega), lookupCell_packCells_below _ (by omega)]
        simp
      · rw [show compKey (i + 0) .im = 2 * i + 1 from rfl, lookupCell_cellOf_same,
          lookupCell_cellOf_ne _ (by omega), lookupCell_packCells_below _ (by omega)]
        simp
    | succ j =>
      have hk : 2 * i + 2 ≤ compKey (i + (j + 1)) ax := by cases ax <;> (simp only [compKey]; omega)
      rw [lookupCell_cellOf_ne _ (by omega), lookupCell_cellOf_ne _ (by omega),
        show i + (j + 1) = (i + 1) + j by omega, ih]
      simp

/-- A stale component holds the free value of its address, where it had a value at all. -/
theorem lookupCell_staleCells (epoch base m : Nat) (cs : List (Nat × Scalar)) (k : Nat) :
    lookupCell (staleCells epoch base m cs) k =
      if k < 2 * m then none else (lookupCell cs k).map fun _ => Config.freeNum epoch (base + k) := by
  induction cs with
  | nil => simp [staleCells]
  | cons c cs ih =>
    obtain ⟨a, v⟩ := c
    simp only [staleCells]
    by_cases hk : k < 2 * m
    · simp only [hk, if_true] at ih ⊢
      split
      · exact ih
      · rw [lookupCell_cons, if_neg (by omega), ih]
    · simp only [hk, if_false] at ih ⊢
      split
      · rw [ih, lookupCell_cons, if_neg (by omega)]
      · simp only [lookupCell_cons]
        split
        · rename_i e; simp [e]
        · exact ih

/-! The canonical form. -/

theorem risingFrom_mono {lo lo' : Nat} (h : lo ≤ lo') {cs : List (Nat × Scalar)}
    (hr : risingFrom lo' cs = true) : risingFrom lo cs = true := by
  cases cs with
  | nil => rfl
  | cons c cs =>
    obtain ⟨a, v⟩ := c
    simp only [risingFrom, Bool.and_eq_true, decide_eq_true_eq] at hr ⊢
    exact ⟨h.trans hr.1, hr.2⟩

theorem risingFrom_append {lo mid : Nat} {xs ys : List (Nat × Scalar)} (hle : lo ≤ mid)
    (hx : risingFrom lo xs = true) (hm : ∀ c ∈ xs, c.1 < mid) (hy : risingFrom mid ys = true) :
    risingFrom lo (xs ++ ys) = true := by
  induction xs generalizing lo with
  | nil => exact risingFrom_mono hle hy
  | cons c xs ih =>
    obtain ⟨a, v⟩ := c
    simp only [List.cons_append, risingFrom, Bool.and_eq_true, decide_eq_true_eq] at hx ⊢
    have ha : a < mid := hm (a, v) (by simp)
    exact ⟨hx.1, ih (by omega) hx.2 fun c hc => hm c (by simp [hc])⟩

theorem risingFrom_setCell {lo k : Nat} {cs : List (Nat × Scalar)} (v : Scalar) (hk : lo ≤ k)
    (h : risingFrom lo cs = true) : risingFrom lo (setCell cs k v) = true := by
  induction cs generalizing lo with
  | nil => simp [setCell, risingFrom, hk]
  | cons c cs ih =>
    obtain ⟨a, x⟩ := c
    simp only [risingFrom, Bool.and_eq_true, decide_eq_true_eq] at h
    simp only [setCell]
    split
    · rename_i hka
      simp only [risingFrom, Bool.and_eq_true, decide_eq_true_eq]
      exact ⟨hk, by omega, h.2⟩
    · split
      · rename_i e
        subst e
        simp only [risingFrom, Bool.and_eq_true, decide_eq_true_eq]
        exact h
      · simp only [risingFrom, Bool.and_eq_true, decide_eq_true_eq]
        exact ⟨h.1, ih (by omega) h.2⟩

theorem mem_setCell {cs : List (Nat × Scalar)} {k : Nat} {v : Scalar} {c : Nat × Scalar}
    (h : c ∈ setCell cs k v) : c.1 = k ∨ c ∈ cs := by
  induction cs with
  | nil => simp [setCell] at h; simp [h]
  | cons b cs ih =>
    obtain ⟨a, x⟩ := b
    simp only [setCell] at h
    split at h
    · rcases List.mem_cons.mp h with h | h
      · simp [h]
      · exact .inr h
    · split at h
      · rcases List.mem_cons.mp h with h | h
        · simp [h]
        · exact .inr (by simp [h])
      · rcases List.mem_cons.mp h with h | h
        · exact .inr (by simp [h])
        · rcases ih h with h | h
          · exact .inl h
          · exact .inr (by simp [h])

theorem Buffer.wf_iff (b : Buffer) (aw : Nat) :
    b.wf aw = true ↔ risingFrom 0 b.cells = true ∧ ∀ c ∈ b.cells, c.1 < compCount aw := by
  simp [Buffer.wf]

/-- A window write inside the buffer keeps the canonical form (rule R66). -/
theorem wf_setCell {b : Buffer} {aw k : Nat} (v : Scalar) (hk : k < compCount aw) (h : b.wf aw = true) :
    ({ b with cells := setCell b.cells k v } : Buffer).wf aw = true := by
  rw [Buffer.wf_iff] at h ⊢
  refine ⟨risingFrom_setCell v (Nat.zero_le k) h.1, fun c hc => ?_⟩
  rcases mem_setCell hc with e | e
  · rw [e]; exact hk
  · exact h.2 c e

theorem mem_cellOf {k : Nat} {v : Option Scalar} {c : Nat × Scalar} (h : c ∈ cellOf k v) : c.1 = k := by
  cases v <;> simp [cellOf] at h
  simp [h]

theorem mem_packCells {es : List Elem} {i : Nat} {c : Nat × Scalar} (h : c ∈ packCells i es) :
    2 * i ≤ c.1 ∧ c.1 < 2 * (i + es.length) := by
  induction es generalizing i with
  | nil => simp [packCells] at h
  | cons e es ih =>
    simp only [packCells, List.mem_append] at h
    simp only [List.length_cons]
    rcases h with (h | h) | h
    · have := mem_cellOf h; omega
    · have := mem_cellOf h; omega
    · have := ih h; omega

theorem risingFrom_cellOf {lo k : Nat} (v : Option Scalar) (h : lo ≤ k) :
    risingFrom lo (cellOf k v) = true := by
  cases v <;> simp [cellOf, risingFrom, h]

theorem risingFrom_packCells (es : List Elem) (i : Nat) : risingFrom (2 * i) (packCells i es) = true := by
  induction es generalizing i with
  | nil => rfl
  | cons e es ih =>
    simp only [packCells]
    refine risingFrom_append (mid := 2 * (i + 1)) (by omega) ?_ ?_ (ih (i + 1))
    · exact risingFrom_append (mid := 2 * i + 1) (by omega) (risingFrom_cellOf _ (le_refl _))
        (fun c hc => by have := mem_cellOf hc; omega) (risingFrom_cellOf _ (le_refl _))
    · intro c hc
      rcases List.mem_append.mp hc with h | h <;> have := mem_cellOf h <;> omega

theorem mem_staleCells {epoch base m : Nat} {cs : List (Nat × Scalar)} {c : Nat × Scalar}
    (h : c ∈ staleCells epoch base m cs) : 2 * m ≤ c.1 ∧ ∃ c' ∈ cs, c'.1 = c.1 := by
  induction cs with
  | nil => simp [staleCells] at h
  | cons b cs ih =>
    obtain ⟨a, x⟩ := b
    simp only [staleCells] at h
    split at h
    · obtain ⟨h1, c', h2, h3⟩ := ih h
      exact ⟨h1, c', by simp [h2], h3⟩
    · rcases List.mem_cons.mp h with h | h
      · exact ⟨by rw [h]; simp; omega, (a, x), by simp, by rw [h]⟩
      · obtain ⟨h1, c', h2, h3⟩ := ih h
        exact ⟨h1, c', by simp [h2], h3⟩

theorem risingFrom_staleCells (epoch base m : Nat) {lo : Nat} {cs : List (Nat × Scalar)}
    (h : risingFrom lo cs = true) : risingFrom (max lo (2 * m)) (staleCells epoch base m cs) = true := by
  induction cs generalizing lo with
  | nil => rfl
  | cons b cs ih =>
    obtain ⟨a, x⟩ := b
    simp only [risingFrom, Bool.and_eq_true, decide_eq_true_eq] at h
    simp only [staleCells]
    split
    · exact risingFrom_mono (by omega) (ih h.2)
    · simp only [risingFrom, Bool.and_eq_true, decide_eq_true_eq]
      exact ⟨by omega, risingFrom_mono (by omega) (ih h.2)⟩

/-- An operation's result of at most `BUFCAP` elements leaves its buffer in canonical form (rule R23). -/
theorem wf_writeElems (s : State) (d : Buf) (es : List Elem) (hlen : es.length ≤ s.bufCap)
    (h : (s.buf d).wf s.aw = true) : ((s.writeElems d es).buf d).wf s.aw = true := by
  rw [Buffer.wf_iff] at h
  rw [buf_writeElems_same, Buffer.wf_iff]
  constructor
  · refine risingFrom_append (mid := 2 * es.length) (by omega) (risingFrom_packCells es 0)
      (fun c hc => ?_) ?_
    · have := (mem_packCells hc).2; omega
    · exact risingFrom_mono (by omega) (risingFrom_staleCells _ _ es.length h.1)
  · intro c hc
    rcases List.mem_append.mp hc with hc | hc
    · have h1 := (mem_packCells hc).2
      have h2 := compCount_aw s
      omega
    · obtain ⟨_, c', h2, h3⟩ := mem_staleCells hc
      rw [← h3]
      exact h.2 c' h2

theorem wf_reset (aw : Nat) : Buffer.reset.wf aw = true := rfl

/-! What an operation's result reads as. -/

theorem ofNat_toNat_of_le {s : State} {n : Nat} (h : n ≤ s.bufCap) : (BitVec.ofNat 32 n).toNat = n := by
  have := bufCap_le s
  rw [BitVec.toNat_ofNat, Nat.mod_eq_of_lt (by omega)]

/-- `LEN[d]` is the length of the result (rule R23). -/
theorem bufLen_writeElems (s : State) (d : Buf) (es : List Elem) (h : es.length ≤ s.bufCap) :
    (s.writeElems d es).bufLen d = es.length := by
  simp [State.bufLen, ofNat_toNat_of_le h]

/-- The elements of a result, below its length (rule R23). -/
theorem comp_writeElems (s : State) (d : Buf) (es : List Elem) (i : Nat) (ax : Axis)
    (h : i < es.length) :
    (s.writeElems d es).comp d i ax = match ax with | .re => es[i].re | .im => es[i].im := by
  have hk : compKey i ax < 2 * es.length := by cases ax <;> simp [compKey] <;> omega
  simp only [State.comp, buf_writeElems_same, lookupCell_append, lookupCell_staleCells, hk, if_true,
    Option.or_none]
  have hp := lookupCell_packCells es 0 i ax
  rw [Nat.zero_add] at hp
  rw [hp]
  simp [h]

/-- Element `i` of a complex result (rule R23). -/
theorem comp_writeCx (s : State) (d : Buf) (zs : List Cx) (i : Nat) (ax : Axis) (h : i < zs.length) :
    (s.writeCx d zs).comp d i ax = some (match ax with | .re => zs[i].re | .im => zs[i].im) := by
  rw [State.writeCx, comp_writeElems s d _ i ax (by simpa using h)]
  cases ax <;> simp [Elem.ofCx]

/-- Element `i` of a real result: the value in `re`, 0 in `im` (rule R22). -/
theorem comp_writeReal (s : State) (d : Buf) (xs : List Scalar) (i : Nat) (ax : Axis)
    (h : i < xs.length) :
    (s.writeReal d xs).comp d i ax = some (match ax with | .re => xs[i] | .im => Scalar.zero) := by
  rw [State.writeReal, comp_writeCx s d _ i ax (by simpa using h)]
  cases ax <;> simp [Cx.ofReal]

/-! Reading a run of components. -/

/-- Cells below the keys looked for do not matter. -/
theorem gather_eq_lookup : ∀ (cs : List (Nat × Scalar)) (lo k n : Nat), lo ≤ k →
    risingFrom lo cs = true → ∀ i, i < (gather cs k n).length →
      (gather cs k n)[i]? = lookupCell cs (k + 2 * i) := by
  intro cs
  induction cs with
  | nil => intro lo k n _ _ i hi; cases n <;> simp [gather] at hi
  | cons c cs ih =>
    obtain ⟨a, v⟩ := c
    intro lo k n hlo hr i hi
    simp only [risingFrom, Bool.and_eq_true, decide_eq_true_eq] at hr
    cases n with
    | zero => simp [gather] at hi
    | succ n =>
      simp only [gather] at hi ⊢
      split at hi
      · rename_i hak
        simp only [hak, if_true]
        rw [lookupCell_cons, if_neg (by omega)]
        exact ih (a + 1) k (n + 1) (by omega) hr.2 i hi
      · rename_i hak
        simp only [hak, if_false]
        split at hi
        · rename_i e
          subst e
          simp only [if_true]
          cases i with
          | zero => simp [lookupCell]
          | succ i =>
            rw [lookupCell_cons, if_neg (by omega), List.getElem?_cons_succ,
              ih (a + 1) (a + 2) n (by omega) hr.2 i (by simpa using hi)]
            congr 1
            omega
        · simp at hi

theorem gather_length_le (cs : List (Nat × Scalar)) (k n : Nat) : (gather cs k n).length ≤ n := by
  induction cs generalizing k n with
  | nil => cases n <;> simp [gather]
  | cons c cs ih =>
    obtain ⟨a, v⟩ := c
    cases n with
    | zero => simp [gather]
    | succ n =>
      simp only [gather]
      split
      · exact ih k (n + 1)
      · split
        · simpa using ih (k + 2) n
        · simp

end Sys2Proof.Machine
end

