-- ==== Sys2Proof/Laws/Enclose.lean ====
section
/-!
SUPPORT. The bounds of `Sys2Proof/Machine/Enclose.lean` hold of the reals they are about.
-/

namespace Sys2Proof

namespace Ivl

theorem divDown_le (a : Int) {n : Nat} (hn : 0 < n) : ((divDown a n : Int) : ℝ) ≤ (a : ℝ) / n := by
  have h : (a / (n : Int)) * (n : Int) ≤ a := Int.ediv_mul_le a (by omega)
  rw [le_div_iff₀ (by exact_mod_cast hn)]
  unfold divDown
  exact_mod_cast h

theorem le_divUp (a : Int) {n : Nat} (hn : 0 < n) : (a : ℝ) / n ≤ ((divUp a n : Int) : ℝ) := by
  have h := divDown_le (-a) hn
  unfold divDown at h
  unfold divUp
  push_cast at h ⊢
  rw [neg_div] at h
  linarith

theorem unit_pos : (0 : ℝ) < 2 ^ 64 := by positivity

theorem unit_cast : ((unit : Int) : ℝ) = 2 ^ 64 := by norm_num [unit]

theorem ofRat_bounds (q : ℚ) : (ofRat q).Bounds q := by
  have hd : 0 < q.den := q.den_pos
  have hq : (q : ℝ) * 2 ^ 64 = ((q.num * unit : Int) : ℝ) / (q.den : ℕ) := by
    rw [Rat.cast_def q]
    push_cast
    rw [unit_cast]
    ring
  constructor
  · rw [hq]; exact divDown_le _ hd
  · rw [hq]; exact le_divUp _ hd

theorem add_bounds {i j : Ivl} {x y : ℝ} (hx : i.Bounds x) (hy : j.Bounds y) :
    (i.add j).Bounds (x + y) := by
  obtain ⟨a, b⟩ := hx
  obtain ⟨c, d⟩ := hy
  constructor <;> simp only [add] <;> push_cast <;> linarith

theorem neg_bounds {i : Ivl} {x : ℝ} (hx : i.Bounds x) : i.neg.Bounds (-x) := by
  obtain ⟨a, b⟩ := hx
  constructor <;> simp only [neg] <;> push_cast <;> linarith

/-- The product of two numbers in intervals is between the least and the greatest corner product. -/
theorem mul_corners {a b c d x y : ℝ} (h1 : a ≤ x) (h2 : x ≤ b) (h3 : c ≤ y) (h4 : y ≤ d) :
    min (min (a * c) (a * d)) (min (b * c) (b * d)) ≤ x * y ∧
      x * y ≤ max (max (a * c) (a * d)) (max (b * c) (b * d)) := by
  have key : ∀ t, c ≤ t → t ≤ d → min (a * t) (b * t) ≤ x * t ∧ x * t ≤ max (a * t) (b * t) := by
    intro t _ _
    rcases le_total 0 t with ht | ht
    · exact ⟨(min_le_left _ _).trans (mul_le_mul_of_nonneg_right h1 ht),
        (mul_le_mul_of_nonneg_right h2 ht).trans (le_max_right _ _)⟩
    · exact ⟨(min_le_right _ _).trans (mul_le_mul_of_nonpos_right h2 ht),
        (mul_le_mul_of_nonpos_right h1 ht).trans (le_max_left _ _)⟩
  have cornerlo : ∀ u, min (u * c) (u * d) ≤ u * y ∧ u * y ≤ max (u * c) (u * d) := by
    intro u
    rcases le_total 0 u with hu | hu
    · exact ⟨(min_le_left _ _).trans (mul_le_mul_of_nonneg_left h3 hu),
        (mul_le_mul_of_nonneg_left h4 hu).trans (le_max_right _ _)⟩
    · exact ⟨(min_le_right _ _).trans (mul_le_mul_of_nonpos_left h4 hu),
        (mul_le_mul_of_nonpos_left h3 hu).trans (le_max_left _ _)⟩
  obtain ⟨k1, k2⟩ := key y h3 h4
  constructor
  · exact (min_le_min (cornerlo a).1 (cornerlo b).1).trans k1
  · exact k2.trans (max_le_max (cornerlo a).2 (cornerlo b).2)

theorem mul_bounds {i j : Ivl} {x y : ℝ} (hx : i.Bounds x) (hy : j.Bounds y) :
    (i.mul j).Bounds (x * y) := by
  obtain ⟨h1, h2⟩ := mul_corners hx.1 hx.2 hy.1 hy.2
  have h64 : ((2 ^ 64 : ℕ) : ℝ) = 2 ^ 64 := by norm_num
  have hxy : x * y * 2 ^ 64 = (x * 2 ^ 64 * (y * 2 ^ 64)) / 2 ^ 64 := by field_simp
  constructor
  · refine (divDown_le _ (by norm_num)).trans ?_
    rw [h64, hxy]
    refine div_le_div_of_nonneg_right ?_ unit_pos.le
    push_cast
    exact h1
  · refine le_trans ?_ (le_divUp _ (by norm_num))
    rw [h64, hxy]
    refine div_le_div_of_nonneg_right ?_ unit_pos.le
    push_cast
    exact h2

theorem timesInt_bounds {i : Ivl} {x : ℝ} (n : Int) (hx : i.Bounds x) :
    (timesInt n i).Bounds (n * x) := by
  obtain ⟨a, b⟩ := hx
  unfold timesInt
  split
  · rename_i h
    have hn : (0 : ℝ) ≤ n := by exact_mod_cast h
    constructor <;> push_cast <;> nlinarith
  · rename_i h
    have hn : (n : ℝ) ≤ 0 := by exact_mod_cast (not_le.mp h).le
    constructor <;> push_cast <;> nlinarith

theorem divNat_bounds {i : Ivl} {x : ℝ} {n : Nat} (hn : 0 < n) (hx : i.Bounds x) :
    (i.divNat n).Bounds (x / n) := by
  obtain ⟨a, b⟩ := hx
  have hn' : (0 : ℝ) ≤ n := by positivity
  have e : x / n * 2 ^ 64 = x * 2 ^ 64 / n := by ring
  constructor
  · rw [e]; exact (divDown_le _ hn).trans (div_le_div_of_nonneg_right a hn')
  · rw [e]; exact (div_le_div_of_nonneg_right b hn').trans (le_divUp _ hn)

theorem invPos_bounds {i : Ivl} {x : ℝ} (hi : 0 < i.lo) (hx : i.Bounds x) : i.invPos.Bounds x⁻¹ := by
  obtain ⟨a, b⟩ := hx
  have hlo : (0 : ℝ) < i.lo := by exact_mod_cast hi
  have hxu : 0 < x * 2 ^ 64 := lt_of_lt_of_le hlo a
  have hx0 : 0 < x := pos_of_mul_pos_left hxu unit_pos.le
  have hhi : (0 : ℝ) < i.hi := lt_of_lt_of_le hxu b
  have hhi' : 0 < i.hi := by exact_mod_cast hhi
  have chi : ((i.hi.toNat : ℕ) : ℝ) = i.hi := by exact_mod_cast Int.toNat_of_nonneg hhi'.le
  have clo : ((i.lo.toNat : ℕ) : ℝ) = i.lo := by exact_mod_cast Int.toNat_of_nonneg hi.le
  have e : x⁻¹ * 2 ^ 64 = (2 ^ 64 * 2 ^ 64) / (x * 2 ^ 64) := by field_simp
  have cu : ((unit * unit : Int) : ℝ) = 2 ^ 64 * 2 ^ 64 := by push_cast; rw [unit_cast]
  constructor
  · refine (divDown_le _ (by omega)).trans ?_
    rw [e, chi, cu]
    exact div_le_div_of_nonneg_left (by positivity) hxu b
  · refine le_trans ?_ (le_divUp _ (by omega))
    rw [e, clo, cu]
    exact div_le_div_of_nonneg_left (by positivity) hlo a

theorem inv_bounds {i j : Ivl} {x : ℝ} (h : i.inv = some j) (hx : i.Bounds x) : j.Bounds x⁻¹ := by
  unfold inv at h
  split at h
  · rename_i hi
    cases h
    exact invPos_bounds hi hx
  · split at h
    · rename_i hi
      cases h
      have hn := neg_bounds (invPos_bounds (i := i.neg) (by simp only [neg]; omega) (neg_bounds hx))
      rwa [inv_neg, neg_neg] at hn
    · cases h

theorem sqrtDown_sq_le (n : Nat) : sqrtDown n * sqrtDown n ≤ n := by
  unfold sqrtDown
  split
  · assumption
  · omega

theorem lt_sqrtUp_sq (n : Nat) : n < sqrtUp n * sqrtUp n := by
  unfold sqrtUp
  split
  · assumption
  · nlinarith

theorem sqrt_bounds {i : Ivl} {x : ℝ} (hx : i.Bounds x) : i.sqrt.Bounds (Real.sqrt x) := by
  obtain ⟨a, b⟩ := hx
  have e : Real.sqrt x * 2 ^ 64 = Real.sqrt (x * 2 ^ 64 * 2 ^ 64) := by
    rw [mul_assoc, Real.sqrt_mul' _ (by positivity), Real.sqrt_mul_self unit_pos.le]
  have toNat_le : ∀ z : Int, ∀ r : ℝ, (z : ℝ) ≤ r → ((z.toNat : ℕ) : ℝ) ≤ max r 0 := by
    intro z r h
    rcases le_total 0 z with hz | hz
    · rw [show ((z.toNat : ℕ) : ℝ) = z by exact_mod_cast Int.toNat_of_nonneg hz]
      exact h.trans (le_max_left _ _)
    · rw [Int.toNat_of_nonpos hz]
      simp
  constructor
  · rw [e]
    simp only [sqrt]
    have h1 := sqrtDown_sq_le (i.lo * unit).toNat
    have h2 := toNat_le (i.lo * unit) (x * 2 ^ 64 * 2 ^ 64) (by
      push_cast; rw [unit_cast]; exact mul_le_mul_of_nonneg_right a unit_pos.le)
    set m := sqrtDown (i.lo * unit).toNat
    have h3 : ((m : ℕ) : ℝ) * m ≤ max (x * 2 ^ 64 * 2 ^ 64) 0 := le_trans (by exact_mod_cast h1) h2
    rcases le_total (x * 2 ^ 64 * 2 ^ 64) 0 with hz | hz
    · rw [max_eq_right hz] at h3
      have : (m : ℝ) = 0 := by nlinarith [mul_self_nonneg (m : ℝ), Nat.cast_nonneg (α := ℝ) m]
      push_cast
      rw [this]
      exact Real.sqrt_nonneg _
    · rw [max_eq_left hz] at h3
      push_cast
      exact Real.le_sqrt_of_sq_le (by nlinarith)
  · rw [e]
    simp only [sqrt]
    have h1 := lt_sqrtUp_sq (i.hi * unit).toNat
    have h2 : x * 2 ^ 64 * 2 ^ 64 ≤ (((i.hi * unit).toNat : ℕ) : ℝ) := by
      have : x * 2 ^ 64 * 2 ^ 64 ≤ ((i.hi * unit : Int) : ℝ) := by
        push_cast; rw [unit_cast]; exact mul_le_mul_of_nonneg_right b unit_pos.le
      exact this.trans (by exact_mod_cast Int.self_le_toNat _)
    set m := sqrtUp (i.hi * unit).toNat
    have h3 : (((i.hi * unit).toNat : ℕ) : ℝ) ≤ (m : ℝ) * m := by exact_mod_cast h1.le
    push_cast
    exact Real.sqrt_le_iff.mpr ⟨Nat.cast_nonneg m, by nlinarith⟩

theorem pi_bounds : pi.Bounds Real.pi := by
  have h1 := Real.pi_gt_d20
  have h2 := Real.pi_lt_d20
  have hc : ((10 ^ 20 : ℕ) : ℝ) = 10 ^ 20 := by norm_num
  constructor
  · refine (divDown_le _ (by norm_num)).trans ?_
    rw [hc]
    push_cast
    rw [unit_cast, div_le_iff₀ (by norm_num)]
    nlinarith
  · refine le_trans ?_ (le_divUp _ (by norm_num))
    rw [hc]
    push_cast
    rw [unit_cast, le_div_iff₀ (by norm_num)]
    nlinarith

/-! The series of `exp (i*x)`. -/

theorem seriesFrom_bounds (i : Ivl) (x : ℝ) (hx : i.Bounds x) :
    ∀ (n m : Nat) (tc ts : Ivl) (t : ℂ), tc.Bounds t.re → ts.Bounds t.im →
      t = (Complex.I * x) ^ m / (m.factorial : ℂ) →
      (seriesFrom i n m tc ts).1.Bounds
          (∑ k ∈ Finset.range n, (Complex.I * x) ^ (m + k) / ((m + k).factorial : ℂ)).re ∧
        (seriesFrom i n m tc ts).2.Bounds
          (∑ k ∈ Finset.range n, (Complex.I * x) ^ (m + k) / ((m + k).factorial : ℂ)).im := by
  intro n
  induction n with
  | zero =>
    intro m tc ts t _ _ _
    simp [seriesFrom, Bounds]
  | succ n ih =>
    intro m tc ts t hc hs ht
    have hm : (((m + 1 : ℕ) : ℝ)) ≠ 0 := by positivity
    have hmc : (((m + 1 : ℕ) : ℂ)) ≠ 0 := by exact_mod_cast hm
    have hnext : t * (Complex.I * x) / ((m + 1 : ℕ) : ℂ)
        = (Complex.I * x) ^ (m + 1) / ((m + 1).factorial : ℂ) := by
      rw [ht, Nat.factorial_succ]
      push_cast
      field_simp
      ring
    have hre : (t * (Complex.I * x) / ((m + 1 : ℕ) : ℂ)).re = -(t.im * x) / ((m + 1 : ℕ) : ℝ) := by
      rw [Complex.div_natCast_re]
      simp
    have him : (t * (Complex.I * x) / ((m + 1 : ℕ) : ℂ)).im = (t.re * x) / ((m + 1 : ℕ) : ℝ) := by
      rw [Complex.div_natCast_im]
      simp
    have hc' : (((mul ts i).neg).divNat (m + 1)).Bounds (t * (Complex.I * x) / ((m + 1 : ℕ) : ℂ)).re := by
      rw [hre]
      exact divNat_bounds (Nat.succ_pos m) (neg_bounds (mul_bounds hs hx))
    have hs' : ((mul tc i).divNat (m + 1)).Bounds (t * (Complex.I * x) / ((m + 1 : ℕ) : ℂ)).im := by
      rw [him]
      exact divNat_bounds (Nat.succ_pos m) (mul_bounds hc hx)
    obtain ⟨r1, r2⟩ := ih (m + 1) _ _ _ hc' hs' hnext
    have hsum : ∑ k ∈ Finset.range (n + 1), (Complex.I * x) ^ (m + k) / ((m + k).factorial : ℂ)
        = t + ∑ k ∈ Finset.range n, (Complex.I * x) ^ (m + 1 + k) / ((m + 1 + k).factorial : ℂ) := by
      rw [Finset.sum_range_succ', add_comm, Nat.add_zero, ← ht]
      refine congrArg (t + ·) (Finset.sum_congr rfl fun k _ => ?_)
      rw [show m + (k + 1) = m + 1 + k by ring]
    simp only [seriesFrom]
    rw [hsum, Complex.add_re, Complex.add_im]
    exact ⟨add_bounds hc r1, add_bounds hs r2⟩

/-- What the 40-term series leaves out is less than `2^-64`. -/
theorem series_remainder {x : ℝ} (hx : |x| ≤ 4) :
    ‖Complex.exp (Complex.I * x) -
      ∑ k ∈ Finset.range 40, (Complex.I * x) ^ k / (k.factorial : ℂ)‖ * 2 ^ 64 ≤ 1 := by
  have hn : ‖Complex.I * (x : ℂ)‖ = |x| := by simp
  have h := Complex.exp_bound' (x := Complex.I * x) (n := 40) (by
    rw [hn]; norm_num; linarith)
  rw [hn] at h
  have h4 : |x| ^ 40 ≤ 4 ^ 40 := pow_le_pow_left₀ (abs_nonneg x) hx 40
  have hf : (0 : ℝ) < ((40 : ℕ).factorial : ℝ) := by positivity
  calc _ ≤ |x| ^ 40 / ((40 : ℕ).factorial : ℝ) * 2 * 2 ^ 64 :=
        mul_le_mul_of_nonneg_right h unit_pos.le
    _ ≤ 4 ^ 40 / ((40 : ℕ).factorial : ℝ) * 2 * 2 ^ 64 := by gcongr
    _ ≤ 1 := by norm_num [Nat.factorial]

theorem widen_bounds {i : Ivl} {x y : ℝ} (hx : i.Bounds x) (h : |y - x| * 2 ^ 64 ≤ 1) :
    i.widen.Bounds y := by
  obtain ⟨a, b⟩ := hx
  have h1 := neg_abs_le (y - x)
  have h2 := le_abs_self (y - x)
  have hu := unit_pos
  constructor <;> simp only [widen] <;> push_cast <;> nlinarith

theorem anyTrig_bounds {y : ℝ} (h1 : -1 ≤ y) (h2 : y ≤ 1) : anyTrig.Bounds y := by
  constructor <;> simp only [anyTrig] <;> push_cast <;> rw [unit_cast] <;> nlinarith [unit_pos]

theorem trigSmall_bounds {i : Ivl} {x : ℝ} (hx : i.Bounds x) :
    (trigSmall i).1.Bounds (Real.cos x) ∧ (trigSmall i).2.Bounds (Real.sin x) := by
  unfold trigSmall
  split
  · rename_i h
    have hx4 : |x| ≤ 4 := by
      have hlo : (-(4 * unit : Int) : ℝ) ≤ i.lo := by exact_mod_cast h.1
      have hhi : (i.hi : ℝ) ≤ ((4 * unit : Int) : ℝ) := by exact_mod_cast h.2
      push_cast at hlo hhi
      rw [unit_cast] at hlo hhi
      have hu := unit_pos
      rw [abs_le]
      constructor
      · have := hlo.trans hx.1; nlinarith
      · have := hx.2.trans hhi; nlinarith
    have hr := series_remainder hx4
    set S := ∑ k ∈ Finset.range 40, (Complex.I * x) ^ k / (k.factorial : ℂ) with hS
    have one_b : (⟨unit, unit⟩ : Ivl).Bounds (1 : ℂ).re := by
      constructor <;> simp [unit_cast]
    have zero_b : (⟨0, 0⟩ : Ivl).Bounds (1 : ℂ).im := by
      constructor <;> simp
    have hb := seriesFrom_bounds i x hx 40 0 ⟨unit, unit⟩ ⟨0, 0⟩ 1 one_b zero_b (by simp)
    simp only [zero_add] at hb
    rw [← hS] at hb
    have hexp : Complex.exp (Complex.I * x) = ⟨Real.cos x, Real.sin x⟩ := by
      rw [mul_comm]
      exact Complex.ext (Complex.exp_ofReal_mul_I_re x) (Complex.exp_ofReal_mul_I_im x)
    rw [hexp] at hr
    constructor
    · refine widen_bounds hb.1 (le_trans ?_ hr)
      refine mul_le_mul_of_nonneg_right ?_ unit_pos.le
      have := Complex.abs_re_le_norm ((⟨Real.cos x, Real.sin x⟩ : ℂ) - S)
      simpa using this
    · refine widen_bounds hb.2 (le_trans ?_ hr)
      refine mul_le_mul_of_nonneg_right ?_ unit_pos.le
      have := Complex.abs_im_le_norm ((⟨Real.cos x, Real.sin x⟩ : ℂ) - S)
      simpa using this
  · exact ⟨anyTrig_bounds (Real.neg_one_le_cos x) (Real.cos_le_one x),
      anyTrig_bounds (Real.neg_one_le_sin x) (Real.sin_le_one x)⟩

theorem trig_bounds {i : Ivl} {x : ℝ} (hx : i.Bounds x) :
    i.trig.1.Bounds (Real.cos x) ∧ i.trig.2.Bounds (Real.sin x) := by
  unfold trig reduceTurns
  set n := ((i.lo + i.hi) / 2 + pi.lo) / (2 * pi.lo)
  have h := trigSmall_bounds (add_bounds hx (timesInt_bounds (-(2 * n)) pi_bounds))
  have e : x + ((-(2 * n) : Int) : ℝ) * Real.pi = x - n * (2 * Real.pi) := by push_cast; ring
  rw [e, Real.cos_sub_int_mul_two_pi, Real.sin_sub_int_mul_two_pi] at h
  exact h

end Ivl

theorem bothKnown_some {f : Ivl → Ivl → Option Ivl} {x y : Option Ivl} {i : Ivl}
    (h : bothKnown f x y = some i) : ∃ a b, x = some a ∧ y = some b ∧ f a b = some i := by
  unfold bothKnown at h
  split at h
  · exact ⟨_, _, rfl, rfl, h⟩
  · cases h

/-- Every bound that is computed holds. -/
theorem Scalar.enclose_bounds : ∀ (x : Scalar) {i : Ivl}, x.enclose = some i → i.Bounds x.val := by
  intro x
  induction x with
  | rat q =>
    intro i h
    cases h
    exact Ivl.ofRat_bounds q
  | atom n =>
    intro i h
    cases h
  | surd a b q =>
    intro i h
    cases h
    exact Ivl.add_bounds (Ivl.ofRat_bounds a)
      (Ivl.mul_bounds (Ivl.ofRat_bounds b) (Ivl.sqrt_bounds (Ivl.ofRat_bounds q)))
  | piMul c =>
    intro i h
    cases h
    exact Ivl.mul_bounds (Ivl.ofRat_bounds c) Ivl.pi_bounds
  | sum x y hx hy =>
    intro i h
    obtain ⟨a, b, ha, hb, he⟩ := bothKnown_some h
    cases he
    exact Ivl.add_bounds (hx ha) (hy hb)
  | prod x y hx hy =>
    intro i h
    obtain ⟨a, b, ha, hb, he⟩ := bothKnown_some h
    cases he
    exact Ivl.mul_bounds (hx ha) (hy hb)
  | quot x y hx hy =>
    intro i h
    obtain ⟨a, b, ha, hb, he⟩ := bothKnown_some h
    obtain ⟨c, hc, rfl⟩ := Option.map_eq_some_iff.mp he
    have := Ivl.mul_bounds (hx ha) (Ivl.inv_bounds hc (hy hb))
    rwa [← div_eq_mul_inv] at this
  | root x hx =>
    intro i h
    obtain ⟨a, ha, rfl⟩ := Option.map_eq_some_iff.mp h
    exact Ivl.sqrt_bounds (hx ha)
  | sine x hx =>
    intro i h
    obtain ⟨a, ha, rfl⟩ := Option.map_eq_some_iff.mp h
    exact (Ivl.trig_bounds (hx ha)).2
  | cosine x hx =>
    intro i h
    obtain ⟨a, ha, rfl⟩ := Option.map_eq_some_iff.mp h
    exact (Ivl.trig_bounds (hx ha)).1

/-- A sign that the bounds decide is the sign of the real. -/
theorem Scalar.certainPos_sound {x : Scalar} {b : Bool} (h : x.certainPos = some b) :
    (b = true ↔ 0 < x.val) := by
  unfold certainPos at h
  split at h
  · rename_i a ha
    obtain ⟨h1, h2⟩ := Scalar.enclose_bounds x ha
    have hu := Ivl.unit_pos
    split at h
    · rename_i hp
      cases h
      have : (0 : ℝ) < a.lo := by exact_mod_cast hp
      simp only [true_iff]
      nlinarith
    · split at h
      · rename_i hn
        cases h
        have : (a.hi : ℝ) ≤ 0 := by exact_mod_cast hn
        simp only [Bool.false_eq_true, false_iff, not_lt]
        nlinarith
      · cases h
  · cases h

/-- A floor that the bounds decide is the floor of the real. -/
theorem Scalar.certainFloor_sound {x : Scalar} {n : Int} (h : x.certainFloor = some n) :
    ⌊x.val⌋ = n := by
  unfold certainFloor at h
  split at h
  · rename_i a ha
    obtain ⟨h1, h2⟩ := Scalar.enclose_bounds x ha
    have hu := Ivl.unit_pos
    split at h
    · rename_i he
      cases h
      have hup : (0 : Int) < Ivl.unit := by norm_num [Ivl.unit]
      have l1 : (a.lo / Ivl.unit) * Ivl.unit ≤ a.lo := Int.ediv_mul_le _ hup.ne'
      have l2 : a.hi < (a.hi / Ivl.unit + 1) * Ivl.unit := Int.lt_ediv_add_one_mul_self _ hup
      rw [← he] at l2
      have r1 : ((a.lo / Ivl.unit : Int) : ℝ) * 2 ^ 64 ≤ a.lo := by
        rw [← Ivl.unit_cast]; exact_mod_cast l1
      have r2 : (a.hi : ℝ) < (((a.lo / Ivl.unit : Int) : ℝ) + 1) * 2 ^ 64 := by
        rw [← Ivl.unit_cast]; exact_mod_cast l2
      rw [Int.floor_eq_iff]
      constructor <;> nlinarith
    · cases h
  · cases h

end Sys2Proof
end

