-- ==== Sys2Proof/Laws/Limit.lean ====
section
/-!
SUPPORT. The limits of `Sys2Proof/Machine/Limit.lean`: a search answers truly whether a number has a
property, the approximations of a scalar tend to the real it stands for, and so the sign read from them is
the sign of that real.
-/

namespace Sys2Proof

open Filter Topology

/-! Searches. -/

/-- What a search finds has the property. -/
theorem search_sound {p : Nat → Bool} {k n : Nat} (h : search p k = some n) : p n = true := by
  refine search.partial_correctness p (fun _ r => p r = true) ?_ k n h
  intro f hf k r hr
  split at hr
  · cases hr
    assumption
  · exact hf _ _ hr

/-- A search finds a number where one has the property. -/
theorem search_complete {p : Nat → Bool} {n : Nat} (hn : p n = true) :
    ∀ j k, k + j = n → (search p k).isSome = true
  | 0, k, h => by
    obtain rfl : k = n := h
    rw [search, if_pos hn]
    rfl
  | j + 1, k, h => by
    rw [search]
    split
    · rfl
    · exact search_complete hn j (k + 1) (by omega)

/-- `somewhere` is the existence of a number with the property. -/
@[simp] theorem somewhere_iff {p : Nat → Bool} : somewhere p = true ↔ ∃ n, p n = true := by
  constructor
  · intro h
    obtain ⟨n, hn⟩ := Option.isSome_iff_exists.mp h
    exact ⟨n, search_sound hn⟩
  · rintro ⟨n, hn⟩
    exact search_complete hn n 0 (by omega)

/-- Every integer is met in the enumeration. -/
theorem intAt_surjective (z : Int) : ∃ n, intAt n = z := by
  by_cases h : 0 ≤ z
  · refine ⟨2 * z.toNat, ?_⟩
    simp only [intAt]
    rw [if_pos (by omega)]
    omega
  · refine ⟨2 * (-z - 1).toNat + 1, ?_⟩
    simp only [intAt]
    rw [if_neg (by omega)]
    omega

/-- The one integer with a property is found. -/
theorem searchInt_eq {p : Int → Bool} {z : Int} (hz : p z = true) (hu : ∀ y, p y = true → y = z) :
    searchInt p = z := by
  obtain ⟨n, rfl⟩ := intAt_surjective z
  have h := search_complete (p := fun n => p (intAt n)) hz n 0 (by omega)
  obtain ⟨m, hm⟩ := Option.isSome_iff_exists.mp h
  rw [searchInt, hm]
  exact hu _ (search_sound (p := fun n => p (intAt n)) hm)

/-- The sign of a limit. -/
theorem limitPositive_iff {f : Nat → ℚ} {x : ℝ} (h : Tendsto (fun k => (f k : ℝ)) atTop (𝓝 x)) :
    limitPositive f = true ↔ 0 < x := by
  simp only [limitPositive, somewhere_iff, Bool.not_eq_true', ← Bool.not_eq_true, not_exists,
    decide_eq_true_eq, not_le]
  constructor
  · rintro ⟨n, hn⟩
    have h1 : (0 : ℝ) < 1 / ((n : ℝ) + 1) := by positivity
    refine h1.trans_le (ge_of_tendsto h (eventually_atTop.mpr ⟨n, fun k hk => ?_⟩))
    have := hn (k - n)
    rw [Nat.add_sub_cancel' hk] at this
    have h2 : (((1 : ℚ) / (n + 1) : ℚ) : ℝ) < f k := by exact_mod_cast this
    push_cast at h2
    exact h2.le
  · intro hx
    obtain ⟨m, hm⟩ := exists_nat_one_div_lt (half_pos hx)
    obtain ⟨k, hk⟩ := eventually_atTop.mp (h.eventually (lt_mem_nhds (half_lt_self hx)))
    refine ⟨max m k, fun j => ?_⟩
    have h1 : (1 : ℝ) / ((max m k : ℕ) + 1) ≤ 1 / ((m : ℝ) + 1) := by
      apply one_div_le_one_div_of_le (by positivity)
      push_cast
      gcongr
      exact le_max_left _ _
    have h2 := hk (max m k + j) (by omega)
    have : ((1 / ((max m k : ℕ) + 1 : ℚ) : ℚ) : ℝ) < f (max m k + j) := by
      push_cast at h1 ⊢
      linarith
    exact_mod_cast this

/-- Whether a limit is zero. -/
theorem limitNonzero_iff {f : Nat → ℚ} {x : ℝ} (h : Tendsto (fun k => (f k : ℝ)) atTop (𝓝 x)) :
    limitNonzero f = true ↔ x ≠ 0 := by
  have hn : Tendsto (fun k => ((-f k : ℚ) : ℝ)) atTop (𝓝 (-x)) := by simpa using h.neg
  rw [limitNonzero, Bool.or_eq_true, limitPositive_iff h, limitPositive_iff hn, ne_iff_lt_or_gt]
  constructor <;> rintro (h | h)
  · exact .inr h
  · exact .inl (by linarith)
  · exact .inr (by linarith)
  · exact .inl h

/-! The approximations. -/

/-- `sqrtNear` is within `2/k` of the square root. -/
theorem sqrtNear_close (q : ℚ) {k : ℕ} (hk : 0 < k) : |(sqrtNear q k : ℝ) - Real.sqrt q| ≤ 2 / k := by
  have hk' : (0 : ℝ) < k := by exact_mod_cast hk
  set n := ⌊q * (k : ℚ) ^ 2⌋.toNat with hn
  have e : (sqrtNear q k : ℝ) = (Nat.sqrt n : ℝ) / k := by simp [sqrtNear, hn]
  have hs : Real.sqrt (q * k ^ 2) = Real.sqrt q * k := by
    rw [Real.sqrt_mul' _ (by positivity), Real.sqrt_sq hk'.le]
  have lo : (Nat.sqrt n : ℝ) ≤ Real.sqrt q * k := by
    rw [← hs]
    by_cases hq : 0 ≤ q * (k : ℚ) ^ 2
    · apply Real.le_sqrt_of_sq_le
      have h1 : ((Nat.sqrt n) ^ 2 : ℕ) ≤ n := by rw [sq]; exact Nat.sqrt_le n
      have h2 : (n : ℚ) ≤ q * k ^ 2 := by
        have : (n : ℤ) = ⌊q * (k : ℚ) ^ 2⌋ := Int.toNat_of_nonneg (Int.floor_nonneg.mpr hq)
        calc (n : ℚ) = ((n : ℤ) : ℚ) := by simp
          _ ≤ _ := by rw [this]; exact Int.floor_le _
      have h1' : ((Nat.sqrt n : ℝ)) ^ 2 ≤ n := by exact_mod_cast h1
      have h2' : (n : ℝ) ≤ q * k ^ 2 := by exact_mod_cast h2
      linarith
    · have : n = 0 := by
        rw [hn]
        have := Int.floor_le (q * (k : ℚ) ^ 2)
        have h3 : ⌊q * (k : ℚ) ^ 2⌋ ≤ 0 := by
          have : (⌊q * (k : ℚ) ^ 2⌋ : ℚ) < 1 := by linarith
          have : ⌊q * (k : ℚ) ^ 2⌋ < 1 := by exact_mod_cast this
          omega
        omega
      rw [this]
      simp only [Nat.sqrt_zero, Nat.cast_zero]
      positivity
  have hi : Real.sqrt q * k ≤ (Nat.sqrt n : ℝ) + 2 := by
    rw [← hs]
    apply Real.sqrt_le_iff.mpr
    refine ⟨by positivity, ?_⟩
    have h1 : n < (Nat.sqrt n + 1) * (Nat.sqrt n + 1) := Nat.lt_succ_sqrt n
    have h2 : q * (k : ℚ) ^ 2 < n + 1 := by
      have h3 := Int.lt_floor_add_one (q * (k : ℚ) ^ 2)
      have h4 : (⌊q * (k : ℚ) ^ 2⌋ : ℚ) ≤ ((n : ℤ) : ℚ) := by
        have : ⌊q * (k : ℚ) ^ 2⌋ ≤ (n : ℤ) := Int.self_le_toNat _
        exact_mod_cast this
      have h5 : ((n : ℤ) : ℚ) = n := by simp
      linarith
    have h1' : (n : ℝ) + 1 ≤ (Nat.sqrt n + 1) * (Nat.sqrt n + 1) := by exact_mod_cast h1
    have h2' : (q : ℝ) * k ^ 2 < n + 1 := by exact_mod_cast h2
    have h6 : (0 : ℝ) ≤ Nat.sqrt n := by positivity
    nlinarith
  rw [e, abs_le]
  constructor
  · rw [neg_le_sub_iff_le_add, ← add_div, le_div_iff₀ hk']
    exact hi
  · rw [sub_le_iff_le_add]
    have : (Nat.sqrt n : ℝ) / k ≤ Real.sqrt q := by rw [div_le_iff₀ hk']; exact lo
    have h2 : (0 : ℝ) ≤ 2 / k := by positivity
    linarith

theorem sqrtNear_tendsto {f : ℕ → ℚ} {x : ℝ} (h : Tendsto (fun k => (f k : ℝ)) atTop (𝓝 x)) :
    Tendsto (fun k => (sqrtNear (f k) k : ℝ)) atTop (𝓝 (Real.sqrt x)) := by
  have h1 : Tendsto (fun k => Real.sqrt (f k : ℝ)) atTop (𝓝 (Real.sqrt x)) :=
    (Real.continuous_sqrt.tendsto x).comp h
  have h2 : Tendsto (fun k : ℕ => (2 : ℝ) / k) atTop (𝓝 0) := tendsto_const_div_atTop_nhds_zero_nat 2
  have h3 : Tendsto (fun k => (sqrtNear (f k) k : ℝ) - Real.sqrt (f k)) atTop (𝓝 0) := by
    refine squeeze_zero_norm' (eventually_atTop.mpr ⟨1, fun k hk => ?_⟩) h2
    rw [Real.norm_eq_abs]
    exact sqrtNear_close (f k) hk
  simpa using h3.add h1

theorem piNear_tendsto : Tendsto (fun k => (piNear k : ℝ)) atTop (𝓝 Real.pi) := by
  have h := Real.tendsto_sum_pi_div_four.const_mul 4
  rw [mul_div_cancel₀ _ (by norm_num)] at h
  refine h.congr fun k => ?_
  simp [piNear]

theorem turnPower_eq (q : ℚ) (m : ℕ) :
    (Complex.I * (q : ℝ)) ^ m = ⟨((turnPower q m).1 : ℝ), ((turnPower q m).2 : ℝ)⟩ := by
  induction m with
  | zero => apply Complex.ext <;> simp [turnPower]
  | succ m ih =>
    rw [pow_succ, ih]
    apply Complex.ext <;> simp [turnPower]

/-- The two series side by side. -/
theorem series_eq (q : ℚ) (k : ℕ) :
    ∑ m ∈ Finset.range k, (Complex.I * (q : ℝ)) ^ m / (m.factorial : ℂ) =
      ⟨(cosNear q k : ℝ), (sinNear q k : ℝ)⟩ := by
  apply Complex.ext
  · rw [Complex.re_sum]
    simp only [turnPower_eq, Complex.div_natCast_re, cosNear]
    push_cast
    rfl
  · rw [Complex.im_sum]
    simp only [turnPower_eq, Complex.div_natCast_im, sinNear]
    push_cast
    rfl

theorem trigNear_tendsto {f : ℕ → ℚ} {x : ℝ} (h : Tendsto (fun k => (f k : ℝ)) atTop (𝓝 x)) :
    Tendsto (fun k => (⟨(cosNear (f k) k : ℝ), (sinNear (f k) k : ℝ)⟩ : ℂ)) atTop
      (𝓝 (Complex.exp (Complex.I * x))) := by
  have h1 : Tendsto (fun k => Complex.exp (Complex.I * (f k : ℝ))) atTop (𝓝 (Complex.exp (Complex.I * x))) :=
    ((Complex.continuous_exp.comp
      (continuous_const.mul Complex.continuous_ofReal)).tendsto x).comp h
  set b := |x| + 1 with hb
  have h2 : Tendsto (fun k : ℕ => b ^ k / (k.factorial : ℝ) * 2) atTop (𝓝 0) := by
    simpa using (FloorSemiring.tendsto_pow_div_factorial_atTop b).mul_const 2
  have hbound : ∀ᶠ k in atTop, |(f k : ℝ)| ≤ b :=
    (h.abs.eventually (gt_mem_nhds (show |x| < b by rw [hb]; linarith))).mono fun _ h => h.le
  have hlarge : ∀ᶠ k : ℕ in atTop, 2 * b ≤ (k : ℝ) := by
    obtain ⟨n, hn⟩ := exists_nat_ge (2 * b)
    exact eventually_atTop.mpr ⟨n, fun k hk => hn.trans (by exact_mod_cast hk)⟩
  have h3 : Tendsto (fun k => (⟨(cosNear (f k) k : ℝ), (sinNear (f k) k : ℝ)⟩ : ℂ) -
      Complex.exp (Complex.I * (f k : ℝ))) atTop (𝓝 0) := by
    refine squeeze_zero_norm' ?_ h2
    filter_upwards [hbound, hlarge] with k hk hl
    have hn : ‖Complex.I * ((f k : ℝ) : ℂ)‖ = |(f k : ℝ)| := by simp
    have hb0 : 0 ≤ b := by positivity
    rw [norm_sub_rev, ← series_eq]
    refine (Complex.exp_bound' (n := k) ?_).trans ?_
    · rw [hn, div_le_iff₀ (by positivity)]
      push_cast
      linarith
    · rw [hn]
      gcongr
  simpa using h3.add h1

theorem exp_I_mul (x : ℝ) : Complex.exp (Complex.I * x) = ⟨Real.cos x, Real.sin x⟩ := by
  rw [mul_comm]
  exact Complex.ext (Complex.exp_ofReal_mul_I_re x) (Complex.exp_ofReal_mul_I_im x)

theorem cosNear_tendsto {f : ℕ → ℚ} {x : ℝ} (h : Tendsto (fun k => (f k : ℝ)) atTop (𝓝 x)) :
    Tendsto (fun k => (cosNear (f k) k : ℝ)) atTop (𝓝 (Real.cos x)) := by
  have := (Complex.continuous_re.tendsto _).comp (trigNear_tendsto h)
  rwa [exp_I_mul] at this

theorem sinNear_tendsto {f : ℕ → ℚ} {x : ℝ} (h : Tendsto (fun k => (f k : ℝ)) atTop (𝓝 x)) :
    Tendsto (fun k => (sinNear (f k) k : ℝ)) atTop (𝓝 (Real.sin x)) := by
  have := (Complex.continuous_im.tendsto _).comp (trigNear_tendsto h)
  rwa [exp_I_mul] at this

theorem digits_summable (d : ℕ → Bool) :
    Summable fun i : ℕ => (if d i then (1 : ℝ) else 0) / 2 ^ (i + 1) := by
  refine Summable.of_nonneg_of_le (fun i => by positivity) (fun i => ?_)
    ((summable_geometric_two).mul_right (1 / 2))
  rw [pow_succ, one_div_pow, div_mul_div_comm, one_mul]
  gcongr
  split <;> norm_num

theorem atomNear_tendsto (n : ℕ) : Tendsto (fun k => (atomNear n k : ℝ)) atTop (𝓝 (atomReal n)) := by
  have h := (digits_summable (Config.atomBit n)).hasSum.tendsto_sum_nat
  refine (h.const_add (Config.atomWhole n : ℝ)).congr fun k => ?_
  simp [atomNear, apply_ite]

/-- Any real is a whole part and binary digits: so an atom stands for ANY real (rule R7, U10). -/
theorem real_digits (x : ℝ) : ∃ (z : ℤ) (d : ℕ → Bool),
    x = z + ∑' i : ℕ, (if d i then (1 : ℝ) else 0) / 2 ^ (i + 1) := by
  refine ⟨⌊x⌋, fun i => decide (Real.digits (Int.fract x) 2 i = 1), ?_⟩
  have h := Real.ofDigits_digits (b := 2) (by norm_num)
    (show Int.fract x ∈ Set.Ico (0 : ℝ) 1 from ⟨Int.fract_nonneg x, Int.fract_lt_one x⟩)
  conv_lhs => rw [← Int.floor_add_fract x, ← h]
  congr 1
  refine tsum_congr fun i => ?_
  rw [Real.ofDigitsTerm, div_eq_mul_inv]
  have : ∀ d : Fin 2, (d : ℕ) * ((2 : ℕ) ^ (i + 1) : ℝ)⁻¹ =
      (if decide (d = 1) = true then (1 : ℝ) else 0) * (2 ^ (i + 1))⁻¹ := by
    intro d
    fin_cases d <;> simp
  exact this _

/-- The approximations of a scalar tend to the real number it stands for (rule R8). -/
theorem Scalar.approx_tendsto : ∀ x : Scalar, Tendsto (fun k => (x.approx k : ℝ)) atTop (𝓝 x.val)
  | .rat q => tendsto_const_nhds
  | .atom n => atomNear_tendsto n
  | .surd a b q => by
    have h := sqrtNear_tendsto (f := fun _ => q) (x := q) tendsto_const_nhds
    simpa [approx, val] using (h.const_mul (b : ℝ)).const_add (a : ℝ)
  | .piMul c => by simpa [approx, val] using piNear_tendsto.const_mul (c : ℝ)
  | .sum x y => by simpa [approx, val] using x.approx_tendsto.add y.approx_tendsto
  | .prod x y => by simpa [approx, val] using x.approx_tendsto.mul y.approx_tendsto
  | .quot x y => by
    have hy := y.approx_tendsto
    by_cases h : limitNonzero y.approx = true
    · have := x.approx_tendsto.div hy ((limitNonzero_iff hy).mp h)
      refine this.congr fun k => ?_
      simp [approx, h]
    · have h0 : y.val = 0 := by
        by_contra hc
        exact h ((limitNonzero_iff hy).mpr hc)
      simp [approx, val, h, h0]
  | .root x => sqrtNear_tendsto x.approx_tendsto
  | .sine x => sinNear_tendsto x.approx_tendsto
  | .cosine x => cosNear_tendsto x.approx_tendsto

end Sys2Proof
end

