-- ==== Sys2Proof/Laws/Scalar.lean ====
section
/-!
SUPPORT. The arithmetic of `Scalar` is the arithmetic of the reals: each operation computes the value
its name says, and every comparison and `floor` is that of the reals (rules R8, R13, R14).
-/

namespace Sys2Proof.Scalar

@[simp] theorem val_rat (q : ℚ) : (rat q).val = q := rfl
@[simp] theorem val_atom (n : Nat) : (atom n).val = atomReal n := rfl
@[simp] theorem val_surd (a b q : ℚ) : (surd a b q).val = a + b * Real.sqrt q := rfl
@[simp] theorem val_piMul (c : ℚ) : (piMul c).val = c * Real.pi := rfl
@[simp] theorem val_sum (x y : Scalar) : (sum x y).val = x.val + y.val := rfl
@[simp] theorem val_prod (x y : Scalar) : (prod x y).val = x.val * y.val := rfl
@[simp] theorem val_quot (x y : Scalar) : (quot x y).val = x.val / y.val := rfl
@[simp] theorem val_root (x : Scalar) : (root x).val = Real.sqrt x.val := rfl
@[simp] theorem val_sine (x : Scalar) : (sine x).val = Real.sin x.val := rfl
@[simp] theorem val_cosine (x : Scalar) : (cosine x).val = Real.cos x.val := rfl

@[simp] theorem val_ofInt (n : Int) : (ofInt n).val = n := by simp [ofInt]
@[simp] theorem val_ofNat (n : Nat) : (ofNat n).val = n := by simp [ofNat]
@[simp] theorem val_zero : zero.val = 0 := by simp [zero]
@[simp] theorem val_one : one.val = 1 := by simp [one]

@[simp] theorem val_timesPi (c : ℚ) : (timesPi c).val = c * Real.pi := by
  unfold timesPi
  split
  · simp [*]
  · rfl

@[simp] theorem val_pi : pi.val = Real.pi := by simp [pi]

@[simp] theorem val_surdOf (a b q : ℚ) : (surdOf a b q).val = a + b * Real.sqrt q := by
  unfold surdOf
  split
  · simp [*]
  · rfl

/-- A rational square root that is found is the square root. -/
theorem ratSqrt?_sound {q r : ℚ} (h : ratSqrt? q = some r) : Real.sqrt q = r := by
  unfold ratSqrt? at h
  simp only at h
  split at h
  · rename_i e
    cases h
    have h0 : (0 : ℝ) ≤ ((isqrt q.num.toNat : ℚ) / (isqrt q.den : ℚ) : ℚ) := by
      push_cast
      positivity
    rw [show (q : ℝ) = (((isqrt q.num.toNat : ℚ) / (isqrt q.den : ℚ) : ℚ) : ℝ) *
      (((isqrt q.num.toNat : ℚ) / (isqrt q.den : ℚ) : ℚ) : ℝ) by exact_mod_cast e.symm]
    exact Real.sqrt_mul_self h0
  · cases h

/-- A square root is rewritten within a field only as a multiple of that field's root. -/
theorem inField_sound {q b q' r : ℚ} (h : inField q b q' = some r) :
    (b : ℝ) * Real.sqrt q' = r * Real.sqrt q := by
  unfold inField at h
  split at h
  · rename_i e
    cases h
    rw [e]
  · split at h
    · rename_i hq
      obtain ⟨t, ht, rfl⟩ := Option.map_eq_some_iff.mp h
      have hq' : (0 : ℝ) < q := by exact_mod_cast hq
      have hs := ratSqrt?_sound ht
      push_cast at hs ⊢
      have e : (q' : ℝ) = q' / q * q := by field_simp
      rw [e, Real.sqrt_mul' _ hq'.le, hs]
      ring
    · cases h

theorem val_of_eq_zero {x : Scalar} (h : x = zero) : x.val = 0 := by simp [h]

@[simp] theorem val_add (x y : Scalar) : (add x y).val = x.val + y.val := by
  unfold add
  split
  · simp
  · simp; ring
  · simp; ring
  · split
    · rename_i h
      have := inField_sound h
      simp only [val_surdOf, val_surd]
      push_cast
      linear_combination -this
    · simp
  · simp; ring
  · split
    · rename_i h; simp [h]
    · split
      · rename_i h; simp [h]
      · rfl

@[simp] theorem val_scale (k : ℚ) (x : Scalar) : (scale k x).val = k * x.val := by
  unfold scale
  split
  · simp
  · simp; ring
  · simp; ring
  · split
    · rename_i h; simp [h]
    · split
      · rename_i h; simp [h]
      · rfl

@[simp] theorem val_mul (x y : Scalar) : (mul x y).val = x.val * y.val := by
  unfold mul
  split
  · simp
  · simp [mul_comm]
  · rename_i a b q a' b' q'
    split
    · rename_i r h
      have e := inField_sound h
      split
      · rename_i hq
        have hs := Real.mul_self_sqrt (Rat.cast_nonneg (K := ℝ).mpr hq)
        simp only [val_surdOf, val_surd]
        push_cast
        rw [e]
        linear_combination (-(b : ℝ) * r) * hs
      · rfl
    · rfl
  · rfl

@[simp] theorem val_neg (x : Scalar) : (neg x).val = -x.val := by simp [neg]

@[simp] theorem val_sub (x y : Scalar) : (sub x y).val = x.val - y.val := by
  unfold sub
  split
  · simp_all
  · simp [sub_eq_add_neg]

@[simp] theorem sub_rat (a b : ℚ) : sub (rat a) (rat b) = rat (a - b) := by
  unfold sub
  split
  · rename_i e
    cases e
    simp [zero]
  · simp only [neg, scale, add]
    congr 1
    ring

@[simp] theorem val_div (x y : Scalar) : (div x y).val = x.val / y.val := by
  unfold div
  split
  · simp only [val_scale, val_rat]; push_cast; ring
  · rename_i a b
    simp only [val_rat, val_piMul]
    push_cast
    rw [mul_div_mul_right _ _ Real.pi_ne_zero]
  · rename_i a b q
    split
    · rfl
    · rename_i h
      push Not at h
      obtain ⟨hq, hd⟩ := h
      have hq' : (0 : ℝ) ≤ q := by exact_mod_cast hq
      have hd' : (a : ℝ) * a - b * b * q ≠ 0 := by exact_mod_cast hd
      have hs := Real.mul_self_sqrt hq'
      have hne : (a : ℝ) + b * Real.sqrt q ≠ 0 := by
        intro h0
        apply hd'
        have : ((a : ℝ) + b * Real.sqrt q) * (a - b * Real.sqrt q) = 0 := by rw [h0]; ring
        linear_combination this + (b : ℝ) * b * hs
      simp only [val_mul, val_surdOf, val_surd]
      push_cast
      refine (congrArg _ ?_).trans (div_eq_mul_inv _ _).symm
      refine (inv_eq_of_mul_eq_one_right ?_).symm
      rw [div_mul_eq_mul_div, ← add_div, mul_div_assoc', div_eq_one_iff_eq hd']
      linear_combination -(b : ℝ) * b * hs
  · split
    · rename_i h; simp [h]
    · rfl

/-- The square root is the real square root (rule R8). -/
@[simp] theorem val_sqrt (x : Scalar) : (sqrt x).val = Real.sqrt x.val := by
  unfold sqrt
  split
  · rename_i q
    split
    · rename_i h
      have : (q : ℝ) ≤ 0 := by exact_mod_cast h
      simp [Real.sqrt_eq_zero_of_nonpos this]
    · split
      · rename_i h
        simp [ratSqrt?_sound h]
      · simp
  · rfl

theorem val_cosPi_reduce (c : ℚ) (n : Int) :
    Real.cos (c * Real.pi) = Real.cos (((c - 2 * n : ℚ) : ℝ) * Real.pi) := by
  push_cast
  rw [show ((c : ℝ) - 2 * n) * Real.pi = c * Real.pi - n * (2 * Real.pi) by ring,
    Real.cos_sub_int_mul_two_pi]

/-- The table of `cosPi` at a reduced argument. -/
theorem cos_reflect (x : ℝ) : Real.cos (2 * Real.pi - x) = Real.cos x := Real.cos_two_pi_sub x

@[simp] theorem val_cosPi (c : ℚ) : (cosPi c).val = Real.cos (c * Real.pi) := by
  rw [val_cosPi_reduce c (c / 2).floor]
  unfold cosPi
  simp only
  set r := c - 2 * ((c / 2).floor : ℚ) with hr
  have e : ∀ t : ℚ, r = t → Real.cos ((r : ℝ) * Real.pi) = Real.cos ((t : ℝ) * Real.pi) := by
    intro t h; rw [h]
  have mirror : ∀ t : ℝ, Real.cos (t * Real.pi) = Real.cos ((2 - t) * Real.pi) := by
    intro t
    rw [show (2 - t) * Real.pi = 2 * Real.pi - t * Real.pi by ring, Real.cos_two_pi_sub]
  have half : ∀ t : ℝ, Real.cos ((1 - t) * Real.pi) = -Real.cos (t * Real.pi) := by
    intro t
    rw [show (1 - t) * Real.pi = Real.pi - t * Real.pi by ring, Real.cos_pi_sub]
  have c3 : Real.cos (1 / 3 * Real.pi) = 1 / 2 := by
    rw [show 1 / 3 * Real.pi = Real.pi / 3 by ring, Real.cos_pi_div_three]
  have c2 : Real.cos (1 / 2 * Real.pi) = 0 := by
    rw [show 1 / 2 * Real.pi = Real.pi / 2 by ring, Real.cos_pi_div_two]
  have c4 : Real.cos (1 / 4 * Real.pi) = Real.sqrt 2 / 2 := by
    rw [show 1 / 4 * Real.pi = Real.pi / 4 by ring, Real.cos_pi_div_four]
  have c6 : Real.cos (1 / 6 * Real.pi) = Real.sqrt 3 / 2 := by
    rw [show 1 / 6 * Real.pi = Real.pi / 6 by ring, Real.cos_pi_div_six]
  split
  · rename_i h; rw [h]; simp
  split
  · rename_i h
    rcases h with h | h <;> rw [e _ h]
    · push_cast; rw [c3]; simp
    · push_cast; rw [mirror, show (2 : ℝ) - 5 / 3 = 1 / 3 by norm_num, c3]; simp
  split
  · rename_i h
    rcases h with h | h <;> rw [e _ h]
    · push_cast; rw [c2]; simp
    · push_cast; rw [mirror, show (2 : ℝ) - 3 / 2 = 1 / 2 by norm_num, c2]; simp
  split
  · rename_i h
    rcases h with h | h <;> rw [e _ h]
    · push_cast; rw [show (2 : ℝ) / 3 = 1 - 1 / 3 by norm_num, half, c3]; simp; norm_num
    · push_cast
      rw [mirror, show (2 : ℝ) - 4 / 3 = 1 - 1 / 3 by norm_num, half, c3]; simp; norm_num
  split
  · rename_i h; rw [h]; simp
  split
  · rename_i h
    rcases h with h | h <;> rw [e _ h]
    · push_cast; rw [c4]; simp; ring
    · push_cast; rw [mirror, show (2 : ℝ) - 7 / 4 = 1 / 4 by norm_num, c4]; simp; ring
  split
  · rename_i h
    rcases h with h | h <;> rw [e _ h]
    · push_cast; rw [show (3 : ℝ) / 4 = 1 - 1 / 4 by norm_num, half, c4]; simp; ring
    · push_cast
      rw [mirror, show (2 : ℝ) - 5 / 4 = 1 - 1 / 4 by norm_num, half, c4]; simp; ring
  split
  · rename_i h
    rcases h with h | h <;> rw [e _ h]
    · push_cast; rw [c6]; simp; ring
    · push_cast; rw [mirror, show (2 : ℝ) - 11 / 6 = 1 / 6 by norm_num, c6]; simp; ring
  split
  · rename_i h
    rcases h with h | h <;> rw [e _ h]
    · push_cast; rw [show (5 : ℝ) / 6 = 1 - 1 / 6 by norm_num, half, c6]; simp; ring
    · push_cast
      rw [mirror, show (2 : ℝ) - 7 / 6 = 1 - 1 / 6 by norm_num, half, c6]; simp; ring
  rfl

/-- The cosine is the real cosine (rule R8). -/
@[simp] theorem val_cos (x : Scalar) : (cos x).val = Real.cos x.val := by
  unfold cos
  split
  · split
    · rename_i h; simp [h]
    · rfl
  · simp
  · rfl

/-- The sine is the real sine (rule R8). -/
@[simp] theorem val_sin (x : Scalar) : (sin x).val = Real.sin x.val := by
  unfold sin
  split
  · split
    · rename_i h; simp [h]
    · rfl
  · rename_i c
    rw [val_cosPi, val_piMul, ← Real.cos_sub_pi_div_two]
    congr 1
    push_cast
    ring
  · rfl

/-! Comparisons. -/

theorem surdPos_iff {a b q : ℚ} (hq : 0 ≤ q) :
    (surdPos a b q = true ↔ (0 : ℝ) < a + b * Real.sqrt q) := by
  have hq' : (0 : ℝ) ≤ q := by exact_mod_cast hq
  have hs := Real.mul_self_sqrt hq'
  have hs0 := Real.sqrt_nonneg (q : ℝ)
  set s := Real.sqrt (q : ℝ) with hsdef
  unfold surdPos
  split
  · rename_i hb
    have hb' : (0 : ℝ) < b := by exact_mod_cast hb
    simp only [Bool.or_eq_true, decide_eq_true_eq]
    constructor
    · rintro (h | h)
      · have h' : (0 : ℝ) < a := by exact_mod_cast h
        positivity
      · have h' : (a : ℝ) * a < b * b * q := by exact_mod_cast h
        rw [← hs] at h'
        have : |(a : ℝ)| < b * s := abs_lt_of_sq_lt_sq (by nlinarith) (by positivity)
        have := neg_abs_le (a : ℝ)
        linarith
    · intro h
      by_contra hc
      push Not at hc
      have h1 : (a : ℝ) ≤ 0 := by exact_mod_cast hc.1
      have h2 : (b : ℝ) * b * q ≤ a * a := by exact_mod_cast hc.2
      rw [← hs] at h2
      have hbs : 0 ≤ (b : ℝ) * s := by positivity
      nlinarith
  · rename_i hb
    have hb' : (b : ℝ) ≤ 0 := by exact_mod_cast not_lt.mp hb
    simp only [Bool.and_eq_true, decide_eq_true_eq]
    have hbs : (b : ℝ) * s ≤ 0 := mul_nonpos_of_nonpos_of_nonneg hb' hs0
    constructor
    · rintro ⟨h1, h2⟩
      have h1' : (0 : ℝ) < a := by exact_mod_cast h1
      have h2' : (b : ℝ) * b * q < a * a := by exact_mod_cast h2
      rw [← hs] at h2'
      nlinarith
    · intro h
      have ha : (0 : ℝ) < a := by linarith
      refine ⟨by exact_mod_cast ha, ?_⟩
      have : (b : ℝ) * b * q < a * a := by rw [← hs]; nlinarith
      exact_mod_cast this

/-- The sign test is that of the real (rule R8). -/
theorem positive_iff (d : Scalar) : positive d = true ↔ 0 < d.val := by
  unfold positive
  split
  · simp
  · split
    · rename_i hq
      exact surdPos_iff hq
    · rename_i a b q hq
      have hq' : (q : ℝ) ≤ 0 := by exact_mod_cast (not_le.mp hq).le
      simp [Real.sqrt_eq_zero_of_nonpos hq']
  · split
    · rename_i h
      exact certainPos_sound h
    · exact limitPositive_iff d.approx_tendsto

/-- `<` is that of the reals (rule R8). -/
theorem lt_iff {x y : Scalar} : lt x y = true ↔ x.val < y.val := by
  unfold lt
  split
  · rename_i e; simp [e]
  · rw [positive_iff, val_sub, sub_pos]

theorem lt_eq (x y : Scalar) : lt x y = decide (x.val < y.val) := by
  rw [Bool.eq_iff_iff, lt_iff, decide_eq_true_iff]

/-- `≤` is that of the reals (rule R8). -/
theorem le_iff {x y : Scalar} : le x y = true ↔ x.val ≤ y.val := by simp [le, lt_eq]

/-- Equality of reals (rule R8). -/
theorem eq_iff {x y : Scalar} : eq x y = true ↔ x.val = y.val := by
  simp only [eq, lt_eq, Bool.and_eq_true, Bool.not_eq_true', decide_eq_false_iff_not, not_lt]
  exact ⟨fun h => le_antisymm h.2 h.1, fun h => ⟨h.ge, h.le⟩⟩

/-- The greater of two reals (rule R167). -/
@[simp] theorem val_max (x y : Scalar) : (x.max y).val = Max.max x.val y.val := by
  simp only [max, lt_eq, decide_eq_true_eq]
  split
  · rename_i h; exact (max_eq_right h.le).symm
  · rename_i h; exact (max_eq_left (not_lt.mp h)).symm

/-- The absolute value is that of the reals (rule R13). -/
@[simp] theorem val_abs (x : Scalar) : x.abs.val = |x.val| := by
  simp only [abs, lt_eq, decide_eq_true_eq, val_zero]
  split
  · rename_i h; rw [val_neg, abs_of_neg h]
  · rename_i h; rw [abs_of_nonneg (not_lt.mp h)]

/-- `sgn` is the sign of the real (rule R14). -/
theorem sgn_eq (x : Scalar) : x.sgn = if 0 < x.val then 1 else if x.val < 0 then -1 else 0 := by
  simp [sgn, lt_eq]

/-- Rationals are compared exactly. -/
@[simp] theorem lt_rat (a b : ℚ) : lt (rat a) (rat b) = decide (a < b) := by
  unfold lt
  split
  · rename_i h
    cases h
    simp
  · simp only [sub_rat, positive, sub_pos]

@[simp] theorem le_rat (a b : ℚ) : le (rat a) (rat b) = decide (a ≤ b) := by
  unfold le
  rw [lt_rat, ← decide_not]
  congr 1
  rw [not_lt]

@[simp] theorem eq_rat (a b : ℚ) : eq (rat a) (rat b) = decide (a = b) := by
  unfold eq
  rw [lt_rat, lt_rat]
  rcases lt_trichotomy a b with h | h | h
  · simp [h, h.ne]
  · simp [h]
  · simp [h, h.ne', h.not_gt]

@[simp] theorem lt_self (x : Scalar) : lt x x = false := by simp [lt]

@[simp] theorem eq_self (x : Scalar) : eq x x = true := by simp [eq]

@[simp] theorem floor_rat (q : ℚ) : floor (rat q) = ⌊q⌋ := rfl

/-- `floor` is that of the reals (rule R13). -/
theorem floor_val (x : Scalar) : floor x = ⌊x.val⌋ := by
  unfold floor
  split
  · rename_i q
    rw [val_rat, Rat.floor_cast]
    rfl
  · split
    · rename_i h
      exact (certainFloor_sound h).symm
    · refine searchInt_eq ?_ fun n h => ?_
      · rw [Bool.and_eq_true, le_iff, lt_iff]
        exact ⟨by simpa using Int.floor_le x.val, by simp⟩
      · rw [Bool.and_eq_true, le_iff, lt_iff] at h
        exact (Int.floor_eq_iff.mpr (by simpa using h)).symm

/-- `ceil` is that of the reals (rule R13). -/
theorem ceil_val (x : Scalar) : ceil x = ⌈x.val⌉ := by simp [ceil, floor_val, Int.floor_neg]

/-- The integer that a real is, if it is one. -/
theorem toInt?_iff {x : Scalar} {n : Int} : x.toInt? = some n ↔ x.val = n := by
  unfold toInt?
  split
  · rename_i q
    constructor
    · intro h
      split at h
      · rename_i hd
        cases h
        rw [val_rat, ← Rat.cast_intCast, Rat.coe_int_num_of_den_eq_one hd]
      · cases h
    · intro h
      obtain rfl : q = (n : ℚ) := by
        have : (q : ℝ) = ((n : ℚ) : ℝ) := by simpa using h
        exact_mod_cast this
      simp
  · constructor
    · intro h
      split at h
      · rename_i he
        cases h
        simpa using eq_iff.mp he
      · cases h
    · intro h
      have hf : x.floor = n := by rw [floor_val, h, Int.floor_intCast]
      rw [hf, if_pos (eq_iff.mpr (by simpa using h))]

/-- `sgn` of a rational (rule R14). -/
theorem sgn_rat (q : ℚ) : sgn (rat q) = if 0 < q then 1 else if q < 0 then -1 else 0 := by
  simp [sgn, zero]

@[simp] theorem val_total (xs : List Scalar) : (total xs).val = (xs.map val).sum := by
  induction xs with
  | nil => simp [total]
  | cons x xs ih => simp [total, ih]

@[simp] theorem val_dot (xs ys : List Scalar) :
    (dot xs ys).val = ((xs.zipWith (fun x y => x.val * y.val) ys).sum) := by
  induction xs generalizing ys with
  | nil => simp [dot]
  | cons x xs ih => cases ys <;> simp [dot, ih]

end Sys2Proof.Scalar

namespace Sys2Proof.Cx

/-- Complex multiplication is that of the complex numbers (rule R141). -/
@[simp] theorem val_mul (z w : Cx) : (z.mul w).val = z.val * w.val := by
  apply Complex.ext <;> simp [Cx.val, Cx.mul]

@[simp] theorem val_normSq (z : Cx) : z.normSq.val = z.re.val * z.re.val + z.im.val * z.im.val := by
  simp [normSq]

/-- The modulus is the modulus of the complex number (rule R13). -/
theorem val_modulus (z : Cx) : z.modulus.val = ‖z.val‖ := by
  simp [modulus, Cx.val, Complex.norm_def, Complex.normSq_apply]

end Sys2Proof.Cx
end

