-- ==== Sys2Proof/Laws/Ops.lean ====
section
/-!
SUPPORT. One lemma for each shared operation: everything it can answer.  Later proofs cite these and do
not unfold the operations.
-/

namespace Sys2Proof.Machine

/-! The rules' own control. -/

@[simp] theorem Res.bind_ok {α β : Type} (a : α) (f : α → Res β) : (Res.ok a).bind f = f a := rfl
@[simp] theorem Res.bind_raise {α β : Type} (c : FCode) (n : Nat) (f : α → Res β) :
    (Res.raise c n).bind f = .raise c n := rfl
@[simp] theorem Res.bind_uninit {α β : Type} (b : Buf) (f : α → Res β) :
    (Res.uninit b).bind f = .uninit b := rfl

/-- A rule that goes on answers a result exactly when both parts do. -/
theorem Res.bind_eq_ok {α β : Type} {r : Res α} {f : α → Res β} {b : β} :
    r.bind f = .ok b ↔ ∃ a, r = .ok a ∧ f a = .ok b := by
  cases r <;> simp

/-- A rule that goes on raises exactly when its first part does, or its second after it. -/
theorem Res.bind_eq_raise {α β : Type} {r : Res α} {f : α → Res β} {c : FCode} {n : Nat} :
    r.bind f = .raise c n ↔ r = .raise c n ∨ ∃ a, r = .ok a ∧ f a = .raise c n := by
  cases r <;> simp

/-- The same for a read of a component never written. -/
theorem Res.bind_eq_uninit {α β : Type} {r : Res α} {f : α → Res β} {b : Buf} :
    r.bind f = .uninit b ↔ r = .uninit b ∨ ∃ a, r = .ok a ∧ f a = .uninit b := by
  cases r <;> simp

@[simp] theorem require_true (f : FCode) (n : Nat) : require true f n = .ok () := rfl
@[simp] theorem require_false (f : FCode) (n : Nat) : require false f n = .raise f n := rfl

theorem require_eq_ok {b : Bool} {f : FCode} {n : Nat} {u : Unit} : require b f n = .ok u ↔ b = true := by
  cases b <;> simp

theorem require_eq_raise {b : Bool} {f c : FCode} {n m : Nat} :
    require b f n = .raise c m ↔ b = false ∧ f = c ∧ n = m := by
  cases b <;> simp

@[simp] theorem require_ne_uninit (b : Bool) (f : FCode) (n : Nat) (m : Buf) :
    require b f n ≠ .uninit m := by
  cases b <;> simp

/-- What the end of an operation answers. -/
theorem finish_eq_next {s t : State} {r : Res State} :
    finish s r = .next t ↔
      (∃ u, r = .ok u ∧ t = complete u) ∨ (∃ f n, r = .raise f n ∧ t = raise f n s) := by
  cases r <;> simp [finish, eq_comm]

/-- When the end of an operation refuses. -/
theorem finish_eq_refused {s : State} {r : Res State} {e : Refusal} :
    finish s r = .refused e ↔ ∃ b, r = .uninit b ∧ e = .uninitialised b := by
  cases r <;> simp [finish, eq_comm]

@[simp] theorem finish_ok (s u : State) : finish s (.ok u) = .next (complete u) := rfl
@[simp] theorem finish_raise (s : State) (f : FCode) (n : Nat) :
    finish s (.raise f n) = .next (raise f n s) := rfl
@[simp] theorem finish_uninit (s : State) (b : Buf) : finish s (.uninit b) = .refused (.uninitialised b) :=
  rfl

/-! Reading a source. -/

theorem lookupCell_below {lo k : Nat} {cs : List (Nat × Scalar)} (hr : risingFrom lo cs = true)
    (hk : k < lo) : lookupCell cs k = none := by
  induction cs generalizing lo with
  | nil => rfl
  | cons c cs ih =>
    obtain ⟨a, v⟩ := c
    simp only [risingFrom, Bool.and_eq_true, decide_eq_true_eq] at hr
    rw [lookupCell_cons, if_neg (by omega)]
    exact ih hr.2 (by omega)

/-- A run of components is read up to the first that has never been written. -/
theorem gather_stop : ∀ (cs : List (Nat × Scalar)) (lo k n : Nat), risingFrom lo cs = true →
    (gather cs k n).length < n → lookupCell cs (k + 2 * (gather cs k n).length) = none := by
  intro cs
  induction cs with
  | nil => intro lo k n _ _; rfl
  | cons c cs ih =>
    obtain ⟨a, v⟩ := c
    intro lo k n hr hl
    simp only [risingFrom, Bool.and_eq_true, decide_eq_true_eq] at hr
    cases n with
    | zero => omega
    | succ n =>
      simp only [gather] at hl ⊢
      by_cases hak : a < k
      · simp only [hak, if_true] at hl ⊢
        rw [lookupCell_cons, if_neg (by omega)]
        exact ih (a + 1) k (n + 1) hr.2 hl
      · by_cases e : a = k
        · subst e
          simp only [lt_irrefl, if_false, if_true, List.length_cons] at hl ⊢
          rw [lookupCell_cons, if_neg (by omega)]
          have := ih (a + 1) (a + 2) n hr.2 (by omega)
          rw [show a + 2 * ((gather cs (a + 2) n).length + 1) =
            a + 2 + 2 * (gather cs (a + 2) n).length by omega]
          exact this
        · simp only [hak, if_false, e, List.length_nil, Nat.mul_zero, Nat.add_zero]
          rw [lookupCell_cons, if_neg e]
          exact lookupCell_below hr.2 (by omega)

theorem compKey_add (i j : Nat) (ax : Axis) : compKey (i + j) ax = compKey i ax + 2 * j := by
  cases ax <;> simp [compKey] <;> omega

theorem risingFrom_of_wf {b : Buffer} {aw : Nat} (h : b.wf aw = true) : risingFrom 0 b.cells = true :=
  ((Buffer.wf_iff b aw).mp h).1

/-- What a run of components reads, element by element. -/
theorem prefixOf_getElem? {s : State} {b : Buf} {ax : Axis} {i0 n j : Nat} (h : (s.buf b).wf s.aw = true)
    (hj : j < (s.prefixOf b ax i0 n).length) :
    (s.prefixOf b ax i0 n)[j]? = s.comp b (i0 + j) ax := by
  rw [State.comp, compKey_add]
  exact gather_eq_lookup _ 0 _ _ (Nat.zero_le _) (risingFrom_of_wf h) j hj

theorem prefixOf_length_le (s : State) (b : Buf) (ax : Axis) (i0 n : Nat) :
    (s.prefixOf b ax i0 n).length ≤ n := gather_length_le _ _ _

/-- A run that stops short stops at a component never written. -/
theorem prefixOf_stop {s : State} {b : Buf} {ax : Axis} {i0 n : Nat} (h : (s.buf b).wf s.aw = true)
    (hl : (s.prefixOf b ax i0 n).length < n) :
    s.comp b (i0 + (s.prefixOf b ax i0 n).length) ax = none := by
  rw [State.comp, compKey_add]
  exact gather_stop _ 0 _ _ (risingFrom_of_wf h) hl

/-- A run of components that holds `xs` reads as `xs`. -/
theorem prefixOf_eq {s : State} {b : Buf} {ax : Axis} {i0 : Nat} {xs : List Scalar}
    (h : (s.buf b).wf s.aw = true) (hx : ∀ j x, xs[j]? = some x → s.comp b (i0 + j) ax = some x) :
    s.prefixOf b ax i0 xs.length = xs := by
  have hlen : (s.prefixOf b ax i0 xs.length).length = xs.length := by
    rcases Nat.lt_or_ge (s.prefixOf b ax i0 xs.length).length xs.length with hl | hl
    · have h1 := prefixOf_stop h hl
      have h2 := hx _ _ (List.getElem?_eq_getElem hl)
      rw [h1] at h2
      cases h2
    · have := prefixOf_length_le s b ax i0 xs.length
      omega
  apply List.ext_getElem?
  intro j
  rcases Nat.lt_or_ge j xs.length with hj | hj
  · rw [prefixOf_getElem? h (by omega), List.getElem?_eq_getElem hj]
    exact hx _ _ (List.getElem?_eq_getElem hj)
  · rw [List.getElem?_eq_none hj, List.getElem?_eq_none (by omega)]

theorem allOf_eq_ok {b : Buf} {n : Nat} {xs ys : List Scalar} :
    allOf b n xs = .ok ys ↔ xs.length = n ∧ ys = xs := by
  unfold allOf
  split
  · simp [*, eq_comm]
  · simp [*]

@[simp] theorem allOf_ne_raise (b : Buf) (n : Nat) (xs : List Scalar) (f : FCode) (m : Nat) :
    allOf b n xs ≠ .raise f m := by
  unfold allOf
  split <;> simp

theorem allOf_eq_uninit {b c : Buf} {n : Nat} {xs : List Scalar} :
    allOf b n xs = .uninit c ↔ xs.length ≠ n ∧ b = c := by
  unfold allOf
  split <;> simp [*]

/-- A slice of a source that answers is what the source holds there. -/
theorem srcSlice_eq_ok {s : State} {b : Buf} {ax : Axis} {i0 n : Nat} {xs : List Scalar}
    (h : (s.buf b).wf s.aw = true) :
    s.srcSlice b ax i0 n = .ok xs ↔
      xs.length = n ∧ ∀ j x, xs[j]? = some x → s.comp b (i0 + j) ax = some x := by
  rw [State.srcSlice, allOf_eq_ok]
  constructor
  · rintro ⟨hl, rfl⟩
    refine ⟨hl, fun j x hj => ?_⟩
    have hj' : j < (s.prefixOf b ax i0 n).length := by
      by_contra hc
      rw [List.getElem?_eq_none (by omega)] at hj
      cases hj
    rw [← prefixOf_getElem? h hj', hj]
  · rintro ⟨rfl, hx⟩
    rw [prefixOf_eq h hx]
    simp

@[simp] theorem srcSlice_ne_raise (s : State) (b : Buf) (ax : Axis) (i n : Nat) (f : FCode) (m : Nat) :
    s.srcSlice b ax i n ≠ .raise f m := allOf_ne_raise _ _ _ _ _

/-- A slice of a source refuses only at a component never written. -/
theorem srcSlice_eq_uninit {s : State} {b c : Buf} {ax : Axis} {i0 n : Nat} (h : (s.buf b).wf s.aw = true)
    (hu : s.srcSlice b ax i0 n = .uninit c) : c = b ∧ ∃ j, j < n ∧ s.comp b (i0 + j) ax = none := by
  rw [State.srcSlice, allOf_eq_uninit] at hu
  have hl : (s.prefixOf b ax i0 n).length < n := by
    have := prefixOf_length_le s b ax i0 n
    omega
  exact ⟨hu.2.symm, _, hl, prefixOf_stop h hl⟩

/-- One component of a source answers exactly the sequence it holds. -/
theorem srcAxis_eq_ok {s : State} {b : Buf} {ax : Axis} {xs : List Scalar} (h : (s.buf b).wf s.aw = true) :
    s.srcAxis b ax = .ok xs ↔ s.HoldsAxis b ax xs := by
  rw [State.srcAxis, srcSlice_eq_ok h, State.HoldsAxis]
  simp [eq_comm]

@[simp] theorem srcAxis_ne_raise (s : State) (b : Buf) (ax : Axis) (f : FCode) (m : Nat) :
    s.srcAxis b ax ≠ .raise f m := allOf_ne_raise _ _ _ _ _

theorem srcAxis_eq_uninit {s : State} {b c : Buf} {ax : Axis} (h : (s.buf b).wf s.aw = true)
    (hu : s.srcAxis b ax = .uninit c) : c = b ∧ ∃ i, i < s.bufLen b ∧ s.comp b i ax = none := by
  obtain ⟨hc, j, hj, hn⟩ := srcSlice_eq_uninit h hu
  exact ⟨hc, j, hj, by simpa using hn⟩

/-- A complex source answers exactly the sequence it holds. -/
theorem srcCx_eq_ok {s : State} {b : Buf} {zs : List Cx} (h : (s.buf b).wf s.aw = true) :
    s.srcCx b = .ok zs ↔ s.HoldsCx b zs := by
  simp only [State.srcCx, Res.bind_eq_ok, srcAxis_eq_ok h, Res.ok.injEq, State.HoldsCx,
    State.HoldsAxis]
  constructor
  · rintro ⟨xs, ⟨hx, hxs⟩, ys, ⟨hy, hys⟩, rfl⟩
    refine ⟨by simp; omega, fun i z hz => ?_⟩
    rw [List.getElem?_zipWith] at hz
    split at hz <;> simp at hz
    rename_i x y h1 h2
    subst hz
    exact ⟨hxs i x h1, hys i y h2⟩
  · rintro ⟨hl, hz⟩
    refine ⟨zs.map Cx.re, ⟨by simpa using hl, fun i x hx => ?_⟩, zs.map Cx.im,
      ⟨by simpa using hl, fun i x hx => ?_⟩, ?_⟩
    · rw [List.getElem?_map, Option.map_eq_some_iff] at hx
      obtain ⟨z, h1, rfl⟩ := hx
      exact (hz i z h1).1
    · rw [List.getElem?_map, Option.map_eq_some_iff] at hx
      obtain ⟨z, h1, rfl⟩ := hx
      exact (hz i z h1).2
    · clear hl hz
      induction zs with
      | nil => rfl
      | cons z zs ih => simp [ih]

@[simp] theorem srcCx_ne_raise (s : State) (b : Buf) (f : FCode) (m : Nat) : s.srcCx b ≠ .raise f m := by
  simp [State.srcCx, Res.bind_eq_raise]

theorem srcCx_eq_uninit {s : State} {b c : Buf} (h : (s.buf b).wf s.aw = true)
    (hu : s.srcCx b = .uninit c) :
    c = b ∧ ∃ i, i < s.bufLen b ∧ (s.comp b i .re = none ∨ s.comp b i .im = none) := by
  simp only [State.srcCx, Res.bind_eq_uninit] at hu
  rcases hu with hu | ⟨xs, _, hu | ⟨ys, _, hu⟩⟩
  · obtain ⟨hc, i, hi, hn⟩ := srcAxis_eq_uninit h hu
    exact ⟨hc, i, hi, .inl hn⟩
  · obtain ⟨hc, i, hi, hn⟩ := srcAxis_eq_uninit h hu
    exact ⟨hc, i, hi, .inr hn⟩
  · cases hu

/-- The real part of a complex source. -/
theorem HoldsCx.axis_re {s : State} {b : Buf} {zs : List Cx} (h : s.HoldsCx b zs) :
    s.HoldsAxis b .re (zs.map Cx.re) := by
  refine ⟨by simpa using h.1, fun i x hx => ?_⟩
  rw [List.getElem?_map, Option.map_eq_some_iff] at hx
  obtain ⟨z, h1, rfl⟩ := hx
  exact (h.2 i z h1).1

/-- The imaginary part of a complex source. -/
theorem HoldsCx.axis_im {s : State} {b : Buf} {zs : List Cx} (h : s.HoldsCx b zs) :
    s.HoldsAxis b .im (zs.map Cx.im) := by
  refine ⟨by simpa using h.1, fun i x hx => ?_⟩
  rw [List.getElem?_map, Option.map_eq_some_iff] at hx
  obtain ⟨z, h1, rfl⟩ := hx
  exact (h.2 i z h1).2

/-- One component of a source, by its index. -/
theorem srcComp_eq_ok {s : State} {b : Buf} {i : Nat} {ax : Axis} {x : Scalar} :
    s.srcComp b i ax = .ok x ↔ s.comp b i ax = some x := by
  unfold State.srcComp
  split <;> simp [*]

@[simp] theorem srcComp_ne_raise (s : State) (b : Buf) (i : Nat) (ax : Axis) (f : FCode) (m : Nat) :
    s.srcComp b i ax ≠ .raise f m := by
  unfold State.srcComp
  split <;> simp

theorem srcComp_eq_uninit {s : State} {b c : Buf} {i : Nat} {ax : Axis} :
    s.srcComp b i ax = .uninit c ↔ s.comp b i ax = none ∧ b = c := by
  unfold State.srcComp
  split <;> simp [*]

/-- A source with a component never written refuses (rule R68; log entry 10). -/
theorem srcAxis_unwritten {s : State} {b : Buf} {ax : Axis} {i : Nat} (h : (s.buf b).wf s.aw = true)
    (hi : i < s.bufLen b) (hn : s.comp b i ax = none) : s.srcAxis b ax = .uninit b := by
  cases e : s.srcAxis b ax with
  | ok xs =>
    have hx := (srcAxis_eq_ok h).mp e
    have := hx.2 i (xs[i]'(by rw [← hx.1]; exact hi)) (by simp)
    rw [hn] at this
    cases this
  | raise f m => exact absurd e (srcAxis_ne_raise _ _ _ _ _)
  | uninit c => rw [(srcAxis_eq_uninit h e).1]

theorem srcCx_unwritten {s : State} {b : Buf} (h : (s.buf b).wf s.aw = true) (hb : ¬ s.Loaded b) :
    s.srcCx b = .uninit b := by
  cases e : s.srcCx b with
  | ok zs =>
    refine absurd (fun i hi => ?_) hb
    have hz := (srcCx_eq_ok h).mp e
    have := hz.2 i (zs[i]'(by rw [← hz.1]; exact hi)) (by simp)
    simp [this.1, this.2]
  | raise f m => exact absurd e (srcCx_ne_raise _ _ _ _)
  | uninit c => rw [(srcCx_eq_uninit h e).1]

/-- A run of components with `xs` and then `x` written reads as they do, and on from there. -/
theorem prefixOf_split {s : State} {b : Buf} {n : Nat} {xs : List Scalar} {x : Scalar}
    (h : (s.buf b).wf s.aw = true) (hlt : xs.length < n)
    (hxs : ∀ j y, xs[j]? = some y → s.comp b j .re = some y) (hx : s.comp b xs.length .re = some x) :
    ∃ zs, s.prefixOf b .re 0 n = xs ++ x :: zs := by
  have hlen : xs.length < (s.prefixOf b .re 0 n).length := by
    by_contra hc
    have hst := prefixOf_stop (n := n) h (ax := .re) (i0 := 0) (by omega)
    rw [Nat.zero_add] at hst
    rcases Nat.lt_or_ge (s.prefixOf b .re 0 n).length xs.length with h' | h'
    · rw [hxs _ _ (List.getElem?_eq_getElem h')] at hst
      cases hst
    · rw [show (s.prefixOf b .re 0 n).length = xs.length by omega, hx] at hst
      cases hst
  refine ⟨(s.prefixOf b .re 0 n).drop (xs.length + 1), List.ext_getElem? fun j => ?_⟩
  rcases Nat.lt_trichotomy j xs.length with hj | rfl | hj
  · rw [prefixOf_getElem? h (by omega), List.getElem?_append_left hj, Nat.zero_add,
      List.getElem?_eq_getElem hj]
    exact hxs _ _ (List.getElem?_eq_getElem hj)
  · rw [prefixOf_getElem? h (by omega), Nat.zero_add, hx]
    simp
  · obtain ⟨e, rfl⟩ : ∃ e, j = xs.length + 1 + e := ⟨j - xs.length - 1, by omega⟩
    rw [List.getElem?_append_right (by omega), show xs.length + 1 + e - xs.length = e + 1 by omega]
    simp

/-! Writing a result. -/

/-- A result of at most `BUFCAP` elements is what its buffer then holds (rules R12, R23). -/
theorem holdsCx_writeCx (s : State) (d : Buf) (zs : List Cx) (h : zs.length ≤ s.bufCap) :
    (s.writeCx d zs).HoldsCx d zs := by
  refine ⟨bufLen_writeElems s d _ (by simpa using h) |>.trans (by simp), fun i z hz => ?_⟩
  obtain ⟨hi, rfl⟩ := List.getElem?_eq_some_iff.mp hz
  exact ⟨comp_writeCx s d zs i .re hi, comp_writeCx s d zs i .im hi⟩

theorem holdsReal_writeReal (s : State) (d : Buf) (xs : List Scalar) (h : xs.length ≤ s.bufCap) :
    (s.writeReal d xs).HoldsReal d xs := holdsCx_writeCx s d _ (by simpa using h)

/-- What a buffer holds depends on that buffer alone. -/
theorem HoldsCx.congr {s t : State} {b : Buf} {zs : List Cx} (h : s.HoldsCx b zs)
    (e : t.buf b = s.buf b) : t.HoldsCx b zs := by
  simpa [State.HoldsCx, State.bufLen, State.comp, e] using h

/-- A buffer that is the same reads the same. -/
theorem SameBuffer.of_buf {s t : State} {n : Buf} (e : t.buf n = s.buf n) : SameBuffer s t n := by
  simp [SameBuffer, State.bufLen, State.comp, e]

end Sys2Proof.Machine
end

