-- ==== Sys2Proof/Laws/Rules.lean ====
section
/-!
SUPPORT. What every operation's rule can answer, said once: a result that keeps the control state and
the soundness of the buffers, a `raise` with a code of rule R263, or a read of a component of a source
that has never been written.
-/

namespace Sys2Proof.Machine

/-- The rule of an operation.  `SRST` has none: its end is `softReset`. -/
def ruleOf (i : Instr) (s : State) : Res State :=
  match i with
  | .nop => .ok s
  | .srst => .ok s
  | .clrf => .ok (clearConds s)
  | .srrc d0 => srrcRule d0 s
  | .interp ax s0 => interpRule ax s0 s
  | .pow4 d0 s0 => pow4Rule d0 s0 s
  | .fest s0 => festRule s0 s
  | .costas d0 d1 d2 s0 s1 => costasRule d0 d1 d2 s0 s1 s
  | .trec ax d0 d1 s0 => trecRule ax d0 d1 s0 s
  | .quant d0 s0 => quantRule d0 s0 s
  | .barker d0 => barkerRule d0 s
  | .xcorr d0 d1 s0 => xcorrRule d0 d1 s0 s
  | .fext d0 s0 s1 s2 => fextRule d0 s0 s1 s2 s
  | .ltr2pam d0 s0 => ltr2pamRule d0 s0 s
  | .pam2ltr d0 s0 => pam2ltrRule d0 s0 s
  | .pam2qam d0 s0 => mapToSymbols .qam4 d0 s0 s
  | .qam2pam d0 s0 => mapToLevels .qam4 d0 s0 s
  | .pam2q42 d0 s0 => mapToSymbols .qam42 d0 s0 s
  | .q422pam d0 s0 => mapToLevels .qam42 d0 s0 s
  | .pam2sym d0 s0 => (modulation s).bind fun m => mapToSymbols m d0 s0 s
  | .sym2pam d0 s0 => (modulation s).bind fun m => mapToLevels m d0 s0 s

/-- Every operation but `SRST` ends as its rule says. -/
theorem exec_eq_finish {i : Instr} (s : State) (h : i ≠ .srst) : exec i s = finish s (ruleOf i s) := by
  cases i <;> first | rfl | exact absurd rfl h

@[simp] theorem exec_srst (s : State) : exec .srst s = .next (softReset s) := rfl

/-- The control state that a result keeps until the operation ends: everything but the condition flags,
the configuration and result registers, and the buffers. -/
structure Keeps (s u : State) : Prop where
  awAbove8 : u.awAbove8 = s.awAbove8
  inFlight : u.inFlight = s.inFlight
  busyReads : u.busyReads = s.busyReads
  done : u.status.done = s.status.done
  fault : u.status.fault = s.status.fault
  fcode : u.status.fcode = s.status.fcode
  ctrl : u.ctrl = s.ctrl
  finfo : u.finfo = s.finfo
  fcmd : u.fcmd = s.fcmd
  epoch : u.epoch = s.epoch
  pending : u.pending = s.pending
  answered : u.answered = s.answered

theorem Keeps.refl (s : State) : Keeps s s := by constructor <;> rfl

theorem Keeps.trans {s u v : State} (h : Keeps s u) (k : Keeps u v) : Keeps s v := by
  constructor
  · rw [k.awAbove8, h.awAbove8]
  · rw [k.inFlight, h.inFlight]
  · rw [k.busyReads, h.busyReads]
  · rw [k.done, h.done]
  · rw [k.fault, h.fault]
  · rw [k.fcode, h.fcode]
  · rw [k.ctrl, h.ctrl]
  · rw [k.finfo, h.finfo]
  · rw [k.fcmd, h.fcmd]
  · rw [k.epoch, h.epoch]
  · rw [k.pending, h.pending]
  · rw [k.answered, h.answered]

theorem keeps_writeElems (s : State) (d : Buf) (es : List Elem) : Keeps s (s.writeElems d es) := by
  constructor <;> rfl

theorem keeps_writeCx (s : State) (d : Buf) (zs : List Cx) : Keeps s (s.writeCx d zs) :=
  keeps_writeElems s d _

theorem keeps_writeReal (s : State) (d : Buf) (xs : List Scalar) : Keeps s (s.writeReal d xs) :=
  keeps_writeCx s d _

theorem keeps_setConds (c : Conds) (s : State) : Keeps s (setConds c s) := by constructor <;> rfl

theorem keeps_clearConds (s : State) : Keeps s (clearConds s) := by constructor <;> rfl

theorem keeps_res (s : State) (r : Results) : Keeps s { s with res := r } := by constructor <;> rfl

theorem keeps_cfg (s : State) (c : Cfg) : Keeps s { s with cfg := c } := by constructor <;> rfl

/-- An element list of at most `BUFCAP` keeps the buffers sound. -/
theorem buffersSound_writeElems {s : State} {d : Buf} {es : List Elem} (h : s.BuffersSound)
    (hl : es.length ≤ s.bufCap) : (s.writeElems d es).BuffersSound := by
  intro n
  by_cases e : n = d
  · subst e
    exact ⟨wf_writeElems s n es hl (h n).1, by rw [bufLen_writeElems s n es hl]; exact hl⟩
  · rw [State.bufLen, buf_writeElems_ne s es e]
    exact h n

theorem buffersSound_writeCx {s : State} {d : Buf} {zs : List Cx} (h : s.BuffersSound)
    (hl : zs.length ≤ s.bufCap) : (s.writeCx d zs).BuffersSound :=
  buffersSound_writeElems h (by simpa using hl)

theorem buffersSound_writeReal {s : State} {d : Buf} {xs : List Scalar} (h : s.BuffersSound)
    (hl : xs.length ≤ s.bufCap) : (s.writeReal d xs).BuffersSound :=
  buffersSound_writeCx h (by simpa using hl)

/-- Soundness of the buffers is a matter of the buffers and `AW` alone. -/
theorem buffersSound_congr {s u : State} (e : u.bufs = s.bufs) (h : s.BuffersSound)
    (ha : u.awAbove8 = s.awAbove8 := by rfl) : u.BuffersSound := by
  intro n
  have := h n
  simpa [State.bufLen, buf_congr e n, State.bufCap, State.aw, ha] using this

/-- What completion makes of a result that keeps the control state, has the flags of `c` set, and leaves
the buffers outside `ds` alone. -/
theorem completesWith_complete {c : Conds} {ds : List Buf} {s u : State} (hk : Keeps s u)
    (hc : u.status = (setConds c s).status) (hb : ∀ n, n ∉ ds → u.buf n = s.buf n) :
    CompletesWith c ds s (complete u) := by
  refine ⟨⟨rfl, rfl, ?_⟩, ⟨?_, ?_, ?_, ?_, ?_, ?_⟩, fun n hn => SameBuffer.of_buf (hb n hn)⟩
  · rw [complete_status, hc]
    rfl
  · rw [complete_aw, State.aw, hk.awAbove8, State.aw]
  · exact hk.ctrl
  · exact hk.finfo
  · exact hk.fcmd
  · exact hk.pending
  · exact hk.answered

theorem setConds_empty_status (s : State) : (setConds {} s).status = s.status := by
  simp [setConds]

/-! Lengths of results. -/

theorem length_runLoop (c : LoopParams) (st : LoopState) (xs : List Cx) :
    (runLoop c st xs).1.length = xs.length := by
  induction xs generalizing st with
  | nil => rfl
  | cons x xs ih => simp [runLoop, ih]

theorem length_mergedElems (s : State) (d : Buf) (ax : Axis) (vs : List Scalar) :
    (mergedElems s d ax vs).length = vs.length := by
  simp [mergedElems]

theorem length_barkerCode {hdr : CmdWord} {c : List Int} (h : barkerCode hdr = some c) :
    c.length = hdr.toNat ∧ c.length ≤ 13 := by
  unfold barkerCode at h
  split at h <;> simp at h <;> subst h <;> simp_all

theorem length_packTables (xs ys : List Scalar) :
    (packTables xs ys).length = max xs.length ys.length := by
  induction xs generalizing ys with
  | nil => simp [packTables]
  | cons x xs ih => cases ys <;> simp [packTables, ih]

theorem length_trimZeros_le (zs : List Cx) : (trimZeros zs).length ≤ zs.length := by
  induction zs with
  | nil => simp [trimZeros]
  | cons z zs ih =>
    simp only [trimZeros]
    split
    · split <;> simp
    · rename_i h
      rw [h] at ih
      simpa using ih

theorem length_scanHits_le (trig : Scalar) (i room : Nat) (cs : List Scalar) :
    (scanHits trig i room cs).list.length ≤ room := by
  induction cs generalizing i room with
  | nil => simp [scanHits]
  | cons c cs ih =>
    simp only [scanHits]
    split
    · split
      · exact ih (i + 1) 0
      · rename_i room
        simpa using ih (i + 1) room
    · exact ih (i + 1) room

theorem length_ltr2pamFrom {i : Nat} {xs ys : List Scalar} (h : ltr2pamFrom i xs = .ok ys) :
    ys.length = 4 * xs.length := by
  induction xs generalizing i ys with
  | nil => simp [ltr2pamFrom] at h; simp [h]
  | cons x xs ih =>
    simp only [ltr2pamFrom] at h
    split at h
    · cases h
    · obtain ⟨rest, h1, h2⟩ := Res.bind_eq_ok.mp h
      cases h2
      simp [levelsOf, ih h1]
      omega

theorem length_pam2ltrFrom : ∀ {i : Nat} {xs ys : List Scalar}, pam2ltrFrom i xs = .ok ys →
    ys.length = xs.length / 4
  | i, a :: b :: c :: d :: rest, ys, h => by
    simp only [pam2ltrFrom, Res.bind_eq_ok] at h
    obtain ⟨_, _, _, _, _, _, _, _, cs, h1, h2⟩ := h
    cases h2
    have := length_pam2ltrFrom h1
    simp only [List.length_cons]
    omega
  | i, [], ys, h => by simp [pam2ltrFrom] at h; simp [h]
  | i, [_], ys, h => by simp [pam2ltrFrom] at h; simp [h]
  | i, [_, _], ys, h => by simp [pam2ltrFrom] at h; simp [h]
  | i, [_, _, _], ys, h => by simp [pam2ltrFrom] at h; simp [h]

/-- The records of the timing loop are as many as its iterations. -/
def TimingState.Counted (st : TimingState) : Prop := st.xs.length = st.n ∧ st.ts.length = st.n

theorem counted_initial (c : Cfg) : (TimingState.initial c).Counted := ⟨rfl, rfl⟩

theorem counted_timingStep {s : State} {b : Buf} {ax : Axis} {st st' : TimingState} (h : st.Counted)
    (hs : timingStep s b ax st = .ok st') : st'.Counted := by
  simp only [timingStep, Res.bind_eq_ok] at hs
  obtain ⟨_, _, _, _, _, _, he⟩ := hs
  cases he
  exact ⟨by simp [h.1], by simp [h.2]⟩

theorem counted_timingLoop {s : State} {b : Buf} {ax : Axis} {fuel : Nat} {st st' : TimingState}
    (h : st.Counted) (hs : timingLoop s b ax fuel st = .ok st') : st'.Counted := by
  induction fuel generalizing st with
  | zero => cases hs; exact h
  | succ n ih =>
    simp only [timingLoop] at hs
    split at hs
    · obtain ⟨st1, h1, h2⟩ := Res.bind_eq_ok.mp hs
      exact ih (counted_timingStep h h1) h2
    · cases hs; exact h

/-! Every result. -/

theorem mapToSymbols_ok {m : Modulation} {d0 s0 : Buf} {s u : State}
    (h : mapToSymbols m d0 s0 s = .ok u) : Keeps s u ∧ (s.BuffersSound → u.BuffersSound) := by
  simp only [mapToSymbols, State.srcRe, Res.bind_eq_ok] at h
  obtain ⟨ps, h1, he⟩ := h
  cases he
  refine ⟨(keeps_writeCx s d0 _).trans (keeps_setConds _ _), fun hb => buffersSound_congr rfl
    (buffersSound_writeCx hb ?_)⟩
  have hl := ((srcAxis_eq_ok (hb s0).1).mp h1).1
  have hc := (hb s0).2
  simp [pam2symSeq]; omega

theorem length_srcSymbols {m : Modulation} {s0 : Buf} {s : State} {zs : List Cx}
    (hb : s.BuffersSound) (h : srcSymbols m s0 s = .ok zs) : zs.length = s.bufLen s0 := by
  cases m with
  | pam4 =>
    simp only [srcSymbols, State.srcRe, Res.bind_eq_ok] at h
    obtain ⟨xs, h1, he⟩ := h
    cases he
    have := ((srcAxis_eq_ok (hb s0).1).mp h1).1
    simpa using this.symm
  | qam4 => exact ((srcCx_eq_ok (hb s0).1).mp h).1.symm
  | qam42 => exact ((srcCx_eq_ok (hb s0).1).mp h).1.symm

theorem mapToLevels_ok {m : Modulation} {d0 s0 : Buf} {s u : State}
    (h : mapToLevels m d0 s0 s = .ok u) : Keeps s u ∧ (s.BuffersSound → u.BuffersSound) := by
  simp only [mapToLevels, Res.bind_eq_ok] at h
  obtain ⟨zs, h1, he⟩ := h
  cases he
  refine ⟨(keeps_writeReal s d0 _).trans (keeps_setConds _ _), fun hb => buffersSound_congr rfl
    (buffersSound_writeReal hb ?_)⟩
  have hl := length_srcSymbols hb h1
  have hc := (hb s0).2
  simp [sym2pamSeq]; omega

/-- A rule's result keeps the control state, and the soundness of the buffers. -/
theorem ruleOf_ok {i : Instr} {s u : State} (h : ruleOf i s = .ok u) :
    Keeps s u ∧ (s.BuffersSound → u.BuffersSound) := by
  cases i with
  | nop => cases h; exact ⟨Keeps.refl s, id⟩
  | srst => cases h; exact ⟨Keeps.refl s, id⟩
  | clrf => cases h; exact ⟨keeps_clearConds s, buffersSound_congr rfl⟩
  | srrc d0 =>
    simp only [ruleOf, srrcRule, Res.bind_eq_ok, require_eq_ok, decide_eq_true_eq] at h
    obtain ⟨_, _, _, hl, he⟩ := h
    cases he
    refine ⟨keeps_writeReal s d0 _, fun hb => buffersSound_writeReal hb ?_⟩
    rw [Nat.mul_assoc] at hl
    simpa [kernel] using hl
  | interp ax s0 =>
    simp only [ruleOf, interpRule, Res.bind_eq_ok] at h
    obtain ⟨_, _, _, _, he⟩ := h
    cases he
    exact ⟨keeps_res s _, buffersSound_congr rfl⟩
  | pow4 d0 s0 =>
    simp only [ruleOf, pow4Rule, Res.bind_eq_ok] at h
    obtain ⟨zs, h1, he⟩ := h
    cases he
    refine ⟨keeps_writeCx s d0 _, fun hb => buffersSound_writeCx hb ?_⟩
    have hl := ((srcCx_eq_ok (hb s0).1).mp h1).1
    have hc := (hb s0).2
    simp only [List.length_map]; omega
  | fest s0 =>
    simp only [ruleOf, festRule, Res.bind_eq_ok] at h
    obtain ⟨_, _, _, _, _, _, he⟩ := h
    cases he
    exact ⟨keeps_cfg s _, buffersSound_congr rfl⟩
  | costas d0 d1 d2 s0 s1 =>
    simp only [ruleOf, costasRule, Res.bind_eq_ok] at h
    obtain ⟨_, _, _, _, xs, h1, hs, _, he⟩ := h
    cases he
    refine ⟨(((keeps_writeCx s d0 _).trans (keeps_writeCx _ d1 _)).trans
      (keeps_writeCx _ d2 _)).trans (keeps_res _ _), fun hb => ?_⟩
    have hl := ((srcCx_eq_ok (hb s0).1).mp h1).1
    have hc := (hb s0).2
    refine buffersSound_congr rfl
      (buffersSound_writeCx (buffersSound_writeCx (buffersSound_writeCx hb ?_) ?_) ?_) <;>
    · simp only [List.length_map, length_runLoop, writeCx_bufCap]
      omega
  | trec ax d0 d1 s0 =>
    simp only [ruleOf, trecRule, Res.bind_eq_ok, require_eq_ok, decide_eq_true_eq] at h
    obtain ⟨_, _, st, h1, _, hn, he⟩ := h
    have hc := counted_timingLoop (counted_initial _) h1
    cases he
    refine ⟨((keeps_writeElems s d0 _).trans (keeps_writeElems _ d1 _)).trans (keeps_res _ _),
      fun hb => buffersSound_congr rfl (buffersSound_writeElems (buffersSound_writeElems hb ?_) ?_)⟩
    · simp only [length_mergedElems, List.length_reverse, hc.1]; exact hn
    · simp only [length_mergedElems, List.length_reverse, hc.2]; exact hn
  | quant d0 s0 =>
    simp only [ruleOf, quantRule, Res.bind_eq_ok] at h
    obtain ⟨_, _, _, _, zs, h1, he⟩ := h
    cases zs with
    | nil => cases he
    | cons z zs =>
      cases he
      refine ⟨(keeps_writeCx s d0 _).trans (keeps_res _ _), fun hb => buffersSound_congr rfl
        (buffersSound_writeCx hb ?_)⟩
      have hl := ((srcCx_eq_ok (hb s0).1).mp h1).1
      have hc := (hb s0).2
      simp only [List.length_map]; omega
  | barker d0 =>
    simp only [ruleOf, barkerRule, Res.bind_eq_ok] at h
    obtain ⟨c, h1, m, _, he⟩ := h
    have hl : c.length ≤ 13 := by
      unfold selectedCode at h1
      split at h1
      · rename_i hc
        cases h1
        exact (length_barkerCode hc).2
      · cases h1
    cases he
    refine ⟨keeps_writeCx s d0 _, fun hb => buffersSound_writeCx hb ?_⟩
    simp only [header, List.length_map]
    exact hl.trans ((bufCap_ge s).trans' (by norm_num))
  | xcorr d0 d1 s0 =>
    simp only [ruleOf, xcorrRule, Res.bind_eq_ok, require_eq_ok, decide_eq_true_eq] at h
    obtain ⟨c, _, m, _, _, hcap, _, _, qr, _, qi, _, he⟩ := h
    cases he
    refine ⟨(((keeps_writeCx s d0 _).trans (keeps_writeCx _ d1 _)).trans (keeps_res _ _)).trans
      (keeps_setConds _ _), fun hb => buffersSound_congr rfl
      (buffersSound_writeCx (buffersSound_writeCx hb ?_) ?_)⟩
    · refine (length_trimZeros_le _).trans ?_
      rw [length_packTables]
      simp only [Hits.indices, List.length_map]
      exact max_le ((length_scanHits_le _ _ _ _).trans hcap) ((length_scanHits_le _ _ _ _).trans hcap)
    · refine (length_trimZeros_le _).trans ?_
      rw [length_packTables]
      simp only [Hits.values, List.length_map]
      exact max_le ((length_scanHits_le _ _ _ _).trans hcap) ((length_scanHits_le _ _ _ _).trans hcap)
  | fext d0 s0 s1 s2 =>
    simp only [ruleOf, fextRule, Res.bind_eq_ok, require_eq_ok, decide_eq_true_eq] at h
    obtain ⟨_, _, m, _, _, _, r, _, _, hl, he⟩ := h
    cases he
    exact ⟨(keeps_writeReal s d0 _).trans (keeps_setConds _ _), fun hb => buffersSound_congr rfl
      (buffersSound_writeReal hb hl)⟩
  | ltr2pam d0 s0 =>
    simp only [ruleOf, ltr2pamRule, Res.bind_eq_ok, require_eq_ok, decide_eq_true_eq] at h
    obtain ⟨_, hl, ls, h1, _, h2, he⟩ := h
    have h3 := length_ltr2pamFrom h1
    have h4 := (allOf_eq_ok.mp h2).1
    cases he
    exact ⟨keeps_writeReal s d0 _, fun hb => buffersSound_writeReal hb (by omega)⟩
  | pam2ltr d0 s0 =>
    simp only [ruleOf, pam2ltrRule, Res.bind_eq_ok] at h
    obtain ⟨_, _, _, h2, cs, h3, he⟩ := h
    have h4 := length_pam2ltrFrom h3
    have h5 := (allOf_eq_ok.mp h2).1
    cases he
    exact ⟨keeps_writeReal s d0 _, fun hb => buffersSound_writeReal hb
      (by have hc := (hb s0).2; omega)⟩
  | pam2qam d0 s0 => exact mapToSymbols_ok h
  | qam2pam d0 s0 => exact mapToLevels_ok h
  | pam2q42 d0 s0 => exact mapToSymbols_ok h
  | q422pam d0 s0 => exact mapToLevels_ok h
  | pam2sym d0 s0 =>
    simp only [ruleOf, Res.bind_eq_ok] at h
    obtain ⟨m, _, h1⟩ := h
    exact mapToSymbols_ok h1
  | sym2pam d0 s0 =>
    simp only [ruleOf, Res.bind_eq_ok] at h
    obtain ⟨m, _, h1⟩ := h
    exact mapToLevels_ok h1

/-! Every `raise`. -/

theorem modulation_raise {s : State} {f : FCode} {n : Nat} (h : modulation s = .raise f n) :
    f = .config := by
  unfold modulation at h
  split at h <;> simp_all

theorem selectedCode_raise {s : State} {f : FCode} {n : Nat} (h : selectedCode s = .raise f n) :
    f = .config := by
  unfold selectedCode at h
  split at h <;> simp_all

theorem interpolate_raise {s : State} {b : Buf} {ax : Axis} {t : Scalar} {k : Nat} {f : FCode} {n : Nat}
    (h : interpolate s b ax t k = .raise f n) : f = .margin ∧ n = k := by
  simp only [interpolate, Res.bind_eq_raise, require_eq_raise, srcSlice_ne_raise, reduceCtorEq,
    and_false, exists_false, or_false] at h
  exact ⟨h.2.1.symm, h.2.2.symm⟩

theorem timingStep_raise {s : State} {b : Buf} {ax : Axis} {st : TimingState} {f : FCode} {n : Nat}
    (h : timingStep s b ax st = .raise f n) : f = .margin ∧ n = st.n := by
  simp only [timingStep, Res.bind_eq_raise, reduceCtorEq, and_false, exists_false, or_false] at h
  rcases h with h | ⟨_, _, h | ⟨_, _, h⟩⟩ <;> exact interpolate_raise h

theorem timingLoop_raise {s : State} {b : Buf} {ax : Axis} {fuel : Nat} {st : TimingState} {f : FCode}
    {n : Nat} (h : timingLoop s b ax fuel st = .raise f n) : f = .margin := by
  induction fuel generalizing st with
  | zero => cases h
  | succ k ih =>
    simp only [timingLoop] at h
    split at h
    · rcases Res.bind_eq_raise.mp h with h | ⟨st', _, h⟩
      · exact (timingStep_raise h).1
      · exact ih h
    · cases h

theorem ltr2pamFrom_raise {i : Nat} {xs : List Scalar} {f : FCode} {n : Nat}
    (h : ltr2pamFrom i xs = .raise f n) : f = .domain := by
  induction xs generalizing i with
  | nil => simp [ltr2pamFrom] at h
  | cons x xs ih =>
    simp only [ltr2pamFrom] at h
    split at h
    · cases h; rfl
    · rcases Res.bind_eq_raise.mp h with h | ⟨_, _, h⟩
      · exact ih h
      · cases h

theorem digitAt_raise {i : Nat} {v : Scalar} {f : FCode} {n : Nat} (h : digitAt i v = .raise f n) :
    f = .domain := by
  unfold digitAt at h
  split at h <;> simp_all

theorem pam2ltrFrom_raise : ∀ {i : Nat} {xs : List Scalar} {f : FCode} {n : Nat},
    pam2ltrFrom i xs = .raise f n → f = .domain
  | i, a :: b :: c :: d :: rest, f, n, h => by
    simp only [pam2ltrFrom, Res.bind_eq_raise, reduceCtorEq, and_false, exists_false, or_false] at h
    rcases h with h | ⟨_, _, h | ⟨_, _, h | ⟨_, _, h | ⟨_, _, h⟩⟩⟩⟩
    · exact digitAt_raise h
    · exact digitAt_raise h
    · exact digitAt_raise h
    · exact digitAt_raise h
    · exact pam2ltrFrom_raise h
  | i, [], f, n, h => by simp [pam2ltrFrom] at h
  | i, [_], f, n, h => by simp [pam2ltrFrom] at h
  | i, [_, _], f, n, h => by simp [pam2ltrFrom] at h
  | i, [_, _, _], f, n, h => by simp [pam2ltrFrom] at h

theorem hitIndex_raise {s : State} {b : Buf} {ax : Axis} {k hit : Nat} {f : FCode} {n : Nat}
    (h : hitIndex s b ax k hit = .raise f n) : f = .domain ∧ n = hit := by
  simp only [hitIndex, Res.bind_eq_raise, srcComp_ne_raise, false_or] at h
  obtain ⟨x, _, h⟩ := h
  split at h
  · split at h <;> simp_all
  · simp_all

theorem sliceBounds_raise {s : State} {a : FextArgs} {ax : Axis} {k : Nat} {f : FCode} {n : Nat}
    (h : sliceBounds s a ax k = .raise f n) : f = .domain ∧ n = k := by
  simp only [sliceBounds, sliceEnd, Res.bind_eq_raise, reduceCtorEq, and_false, exists_false,
    or_false] at h
  rcases h with h | ⟨_, _, h⟩
  · exact hitIndex_raise h
  · split at h
    · rcases Res.bind_eq_raise.mp h with h | ⟨_, _, h⟩
      · exact hitIndex_raise h
      · cases h
    · cases h

@[simp] theorem axisSlice_ne_raise (s : State) (a : FextArgs) (ax : Axis) (k : Nat) (b : Nat × Int)
    (f : FCode) (n : Nat) : axisSlice s a ax k b ≠ .raise f n := by
  simp [axisSlice, Res.bind_eq_raise]

theorem hitSymbols_raise {m : Modulation} {s : State} {a : FextArgs} {k : Nat} {f : FCode} {n : Nat}
    (h : hitSymbols m s a k = .raise f n) : f = .domain ∨ f = .desync := by
  cases m <;>
  · simp only [hitSymbols, Res.bind_eq_raise, require_eq_raise, axisSlice_ne_raise, reduceCtorEq,
      and_false, exists_false, or_false, false_or] at h
    first
    | exact .inl (sliceBounds_raise h).1
    | (rcases h with h | ⟨_, _, h | ⟨_, _, _, _, _, _, _, h, _⟩⟩
       · exact .inl (sliceBounds_raise h).1
       · exact .inl (sliceBounds_raise h).1
       · exact .inr h.symm)

theorem extractFrom_raise {m : Modulation} {s : State} {a : FextArgs} {rem k : Nat} {f : FCode} {n : Nat}
    (h : extractFrom m s a rem k = .raise f n) : f ≠ .none := by
  induction rem generalizing k with
  | zero => cases h
  | succ rem ih =>
    simp only [extractFrom, Res.bind_eq_raise, reduceCtorEq, and_false, exists_false, or_false] at h
    rcases h with h | ⟨_, _, h | ⟨_, _, h⟩⟩
    · rcases hitSymbols_raise h with rfl | rfl <;> decide
    · rw [pam2ltrFrom_raise h]; decide
    · exact ih h

theorem srcSymbols_ne_raise (m : Modulation) (b : Buf) (s : State) (f : FCode) (n : Nat) :
    srcSymbols m b s ≠ .raise f n := by
  cases m <;> simp [srcSymbols, State.srcRe, Res.bind_eq_raise]

theorem corrIm_ne_raise (m : Modulation) (b : Buf) (s : State) (f : FCode) (n : Nat) :
    corrIm m b s ≠ .raise f n := by
  cases m <;> simp [corrIm]

/-- A rule raises only the faults of rule R263. -/
theorem ruleOf_raise {i : Instr} {s : State} {f : FCode} {n : Nat} (h : ruleOf i s = .raise f n) :
    f ≠ .none := by
  cases i with
  | nop => cases h
  | srst => cases h
  | clrf => cases h
  | srrc d0 =>
    simp only [ruleOf, srrcRule, Res.bind_eq_raise, require_eq_raise, reduceCtorEq, and_false,
      exists_false, or_false] at h
    rcases h with ⟨_, rfl, _⟩ | ⟨_, _, _, rfl, _⟩ <;> decide
  | interp ax s0 =>
    simp only [ruleOf, interpRule, Res.bind_eq_raise, require_eq_raise, reduceCtorEq, and_false,
      exists_false, or_false] at h
    rcases h with ⟨_, rfl, _⟩ | ⟨_, _, h⟩
    · decide
    · rw [(interpolate_raise h).1]; decide
  | pow4 d0 s0 =>
    simp [ruleOf, pow4Rule, Res.bind_eq_raise] at h
  | fest s0 =>
    simp only [ruleOf, festRule, Res.bind_eq_raise, require_eq_raise, srcCx_ne_raise, reduceCtorEq,
      and_false, exists_false, or_false] at h
    rcases h with ⟨_, rfl, _⟩ | ⟨_, _, _, rfl, _⟩ <;> decide
  | costas d0 d1 d2 s0 s1 =>
    simp only [ruleOf, costasRule, Res.bind_eq_raise, require_eq_raise, srcCx_ne_raise, State.srcRe,
      srcAxis_ne_raise, reduceCtorEq, and_false, exists_false, or_false] at h
    rcases h with ⟨_, rfl, _⟩ | ⟨_, _, _, rfl, _⟩ <;> decide
  | trec ax d0 d1 s0 =>
    simp only [ruleOf, trecRule, Res.bind_eq_raise, require_eq_raise, reduceCtorEq, and_false,
      exists_false, or_false] at h
    rcases h with ⟨_, rfl, _⟩ | ⟨_, _, h | ⟨_, _, _, rfl, _⟩⟩
    · decide
    · rw [timingLoop_raise h]; decide
    · decide
  | quant d0 s0 =>
    simp only [ruleOf, quantRule, Res.bind_eq_raise, require_eq_raise, srcCx_ne_raise, false_or] at h
    rcases h with ⟨_, rfl, _⟩ | ⟨_, _, ⟨_, rfl, _⟩ | ⟨_, _, zs, _, h⟩⟩
    · decide
    · decide
    · cases zs <;> cases h
      decide
  | barker d0 =>
    simp only [ruleOf, barkerRule, Res.bind_eq_raise, reduceCtorEq, and_false, exists_false,
      or_false] at h
    rcases h with h | ⟨_, _, h⟩
    · rw [selectedCode_raise h]; decide
    · rw [modulation_raise h]; decide
  | xcorr d0 d1 s0 =>
    simp only [ruleOf, xcorrRule, Res.bind_eq_raise, require_eq_raise, srcAxis_ne_raise,
      corrIm_ne_raise, reduceCtorEq, and_false, exists_false, or_false] at h
    rcases h with h | ⟨_, _, h | ⟨_, _, ⟨_, rfl, _⟩ | ⟨_, _, _, rfl, _⟩⟩⟩
    · rw [selectedCode_raise h]; decide
    · rw [modulation_raise h]; decide
    · decide
    · decide
  | fext d0 s0 s1 s2 =>
    simp only [ruleOf, fextRule, Res.bind_eq_raise, require_eq_raise, reduceCtorEq, and_false,
      exists_false, or_false] at h
    rcases h with h | ⟨_, _, h | ⟨_, _, ⟨_, rfl, _⟩ | ⟨_, _, h | ⟨_, _, _, rfl, _⟩⟩⟩⟩
    · rw [selectedCode_raise h]; decide
    · rw [modulation_raise h]; decide
    · decide
    · exact extractFrom_raise h
    · decide
  | ltr2pam d0 s0 =>
    simp only [ruleOf, ltr2pamRule, Res.bind_eq_raise, require_eq_raise, allOf_ne_raise, reduceCtorEq,
      and_false, exists_false, or_false] at h
    rcases h with ⟨_, rfl, _⟩ | ⟨_, _, h⟩
    · decide
    · rw [ltr2pamFrom_raise h]; decide
  | pam2ltr d0 s0 =>
    simp only [ruleOf, pam2ltrRule, Res.bind_eq_raise, allOf_ne_raise, false_or, reduceCtorEq,
      and_false, exists_false, or_false] at h
    rcases h with h | ⟨_, _, _, _, h⟩
    · split at h
      · cases h; decide
      · cases h
    · rw [pam2ltrFrom_raise h]; decide
  | pam2qam d0 s0 => simp [ruleOf, mapToSymbols, State.srcRe, Res.bind_eq_raise] at h
  | pam2q42 d0 s0 => simp [ruleOf, mapToSymbols, State.srcRe, Res.bind_eq_raise] at h
  | qam2pam d0 s0 => simp [ruleOf, mapToLevels, srcSymbols_ne_raise, Res.bind_eq_raise] at h
  | q422pam d0 s0 => simp [ruleOf, mapToLevels, srcSymbols_ne_raise, Res.bind_eq_raise] at h
  | pam2sym d0 s0 =>
    simp only [ruleOf, mapToSymbols, State.srcRe, Res.bind_eq_raise, srcAxis_ne_raise, reduceCtorEq,
      and_false, exists_false, or_false] at h
    rw [modulation_raise h]; decide
  | sym2pam d0 s0 =>
    simp only [ruleOf, mapToLevels, srcSymbols_ne_raise, Res.bind_eq_raise, reduceCtorEq, and_false,
      exists_false, or_false] at h
    rw [modulation_raise h]; decide

/-! Every refusal. -/

@[simp] theorem modulation_ne_uninit (s : State) (b : Buf) : modulation s ≠ .uninit b := by
  unfold modulation
  split <;> simp

@[simp] theorem selectedCode_ne_uninit (s : State) (b : Buf) : selectedCode s ≠ .uninit b := by
  unfold selectedCode
  split <;> simp

@[simp] theorem ltr2pamFrom_ne_uninit (i : Nat) (xs : List Scalar) (b : Buf) :
    ltr2pamFrom i xs ≠ .uninit b := by
  induction xs generalizing i with
  | nil => simp [ltr2pamFrom]
  | cons x xs ih =>
    simp only [ltr2pamFrom]
    split <;> simp [Res.bind_eq_uninit, ih]

@[simp] theorem digitAt_ne_uninit (i : Nat) (v : Scalar) (b : Buf) : digitAt i v ≠ .uninit b := by
  unfold digitAt
  split <;> simp

@[simp] theorem pam2ltrFrom_ne_uninit : ∀ (i : Nat) (xs : List Scalar) (b : Buf),
    pam2ltrFrom i xs ≠ .uninit b
  | i, a :: b :: c :: d :: rest, e => by
    simp [pam2ltrFrom, Res.bind_eq_uninit, pam2ltrFrom_ne_uninit (i + 4) rest]
  | i, [], e => by simp [pam2ltrFrom]
  | i, [_], e => by simp [pam2ltrFrom]
  | i, [_, _], e => by simp [pam2ltrFrom]
  | i, [_, _, _], e => by simp [pam2ltrFrom]

/-- A component of an element within the length that has never been written: the buffer is not loaded. -/
theorem not_loaded {s : State} {b : Buf} {i : Nat} {ax : Axis} (hi : i < s.bufLen b)
    (h : s.comp b i ax = none) : ¬ s.Loaded b := by
  intro hl
  have := hl i hi
  cases ax <;> simp [h] at this

theorem srcAxis_uninit {s : State} {b c : Buf} {ax : Axis} (hb : s.BuffersSound)
    (h : s.srcAxis b ax = .uninit c) : c = b ∧ ¬ s.Loaded b := by
  obtain ⟨hc, i, hi, hn⟩ := srcAxis_eq_uninit (hb b).1 h
  exact ⟨hc, not_loaded hi hn⟩

theorem srcCx_uninit {s : State} {b c : Buf} (hb : s.BuffersSound) (h : s.srcCx b = .uninit c) :
    c = b ∧ ¬ s.Loaded b := by
  obtain ⟨hc, i, hi, hn⟩ := srcCx_eq_uninit (hb b).1 h
  exact ⟨hc, hn.elim (not_loaded hi) (not_loaded hi)⟩

theorem allOf_prefix_uninit {s : State} {b c : Buf} {ax : Axis} {n : Nat} (hb : s.BuffersSound)
    (hn : n ≤ s.bufLen b) (h : allOf b n (s.prefixOf b ax 0 n) = .uninit c) :
    c = b ∧ ¬ s.Loaded b := by
  have hs : s.srcSlice b ax 0 n = .uninit c := h
  obtain ⟨hc, j, hj, hnone⟩ := srcSlice_eq_uninit (hb b).1 hs
  exact ⟨hc, not_loaded (by omega) hnone⟩

theorem interpolate_uninit {s : State} {b c : Buf} {ax : Axis} {t : Scalar} {k : Nat}
    (hb : s.BuffersSound) (h : interpolate s b ax t k = .uninit c) : c = b ∧ ¬ s.Loaded b := by
  simp only [interpolate, Res.bind_eq_uninit, require_ne_uninit, require_eq_ok, windowInside,
    Bool.and_eq_true, decide_eq_true_eq, false_or, reduceCtorEq, and_false, exists_false,
    or_false] at h
  obtain ⟨_, ⟨h1, h2⟩, h⟩ := h
  obtain ⟨hc, j, hj, hn⟩ := srcSlice_eq_uninit (hb b).1 h
  exact ⟨hc, not_loaded (by omega) hn⟩

theorem timingStep_uninit {s : State} {b c : Buf} {ax : Axis} {st : TimingState}
    (hb : s.BuffersSound) (h : timingStep s b ax st = .uninit c) : c = b ∧ ¬ s.Loaded b := by
  simp only [timingStep, Res.bind_eq_uninit, reduceCtorEq, and_false, exists_false, or_false] at h
  rcases h with h | ⟨_, _, h | ⟨_, _, h⟩⟩ <;> exact interpolate_uninit hb h

theorem timingLoop_uninit {s : State} {b c : Buf} {ax : Axis} {fuel : Nat} {st : TimingState}
    (hb : s.BuffersSound) (h : timingLoop s b ax fuel st = .uninit c) : c = b ∧ ¬ s.Loaded b := by
  induction fuel generalizing st with
  | zero => cases h
  | succ k ih =>
    simp only [timingLoop] at h
    split at h
    · rcases Res.bind_eq_uninit.mp h with h | ⟨st', _, h⟩
      · exact timingStep_uninit hb h
      · exact ih h
    · cases h

theorem srcSymbols_uninit {m : Modulation} {b c : Buf} {s : State} (hb : s.BuffersSound)
    (h : srcSymbols m b s = .uninit c) : c = b ∧ ¬ s.Loaded b := by
  cases m with
  | pam4 =>
    simp only [srcSymbols, State.srcRe, Res.bind_eq_uninit, reduceCtorEq, and_false, exists_false,
      or_false] at h
    exact srcAxis_uninit hb h
  | qam4 => exact srcCx_uninit hb h
  | qam42 => exact srcCx_uninit hb h

theorem hitIndex_uninit {s : State} {b c : Buf} {ax : Axis} {k hit : Nat} (hk : k < s.bufLen b)
    (h : hitIndex s b ax k hit = .uninit c) : c = b ∧ ¬ s.Loaded b := by
  simp only [hitIndex, Res.bind_eq_uninit] at h
  rcases h with h | ⟨x, _, h⟩
  · obtain ⟨hn, hc⟩ := srcComp_eq_uninit.mp h
    exact ⟨hc.symm, not_loaded hk hn⟩
  · split at h
    · split at h <;> cases h
    · cases h

theorem sliceBounds_uninit {s : State} {a : FextArgs} {ax : Axis} {k : Nat} {c : Buf}
    (hi : s.bufLen a.idx = a.nHits) (hk : k < a.nHits) (h : sliceBounds s a ax k = .uninit c) :
    c = a.idx ∧ ¬ s.Loaded c := by
  simp only [sliceBounds, sliceEnd, Res.bind_eq_uninit, reduceCtorEq, and_false, exists_false,
    or_false] at h
  rcases h with h | ⟨_, _, h⟩
  · obtain ⟨rfl, hl⟩ := hitIndex_uninit (by omega) h
    exact ⟨rfl, hl⟩
  · split at h
    · rcases Res.bind_eq_uninit.mp h with h | ⟨_, _, h⟩
      · obtain ⟨rfl, hl⟩ := hitIndex_uninit (by omega) h
        exact ⟨rfl, hl⟩
      · cases h
    · cases h

theorem axisSlice_uninit {s : State} {a : FextArgs} {ax : Axis} {k : Nat} {b : Nat × Int} {c : Buf}
    (hb : s.BuffersSound) (hv : s.bufLen a.val = a.nHits) (hk : k < a.nHits)
    (h : axisSlice s a ax k b = .uninit c) : (c = a.q ∨ c = a.val) ∧ ¬ s.Loaded c := by
  simp only [axisSlice, Res.bind_eq_uninit, reduceCtorEq, and_false, exists_false, or_false] at h
  rcases h with h | ⟨v, _, h⟩
  · obtain ⟨hn, rfl⟩ := srcComp_eq_uninit.mp h
    exact ⟨.inr rfl, not_loaded (by omega) hn⟩
  · obtain ⟨rfl, j, hj, hn⟩ := srcSlice_eq_uninit (hb a.q).1 h
    refine ⟨.inl rfl, not_loaded ?_ hn⟩
    simp only [clampTo] at hj ⊢
    omega

theorem hitSymbols_uninit {m : Modulation} {s : State} {a : FextArgs} {k : Nat} {c : Buf}
    (hb : s.BuffersSound) (hi : s.bufLen a.idx = a.nHits) (hv : s.bufLen a.val = a.nHits)
    (hk : k < a.nHits) (h : hitSymbols m s a k = .uninit c) :
    (c = a.q ∨ c = a.idx ∨ c = a.val) ∧ ¬ s.Loaded c := by
  have hs : ∀ {ax b}, axisSlice s a ax k b = .uninit c → (c = a.q ∨ c = a.idx ∨ c = a.val) ∧ ¬ s.Loaded c := by
    intro ax b h
    obtain ⟨hc, hl⟩ := axisSlice_uninit hb hv hk h
    exact ⟨hc.elim .inl fun hc => .inr (.inr hc), hl⟩
  have hbd : ∀ {ax}, sliceBounds s a ax k = .uninit c → (c = a.q ∨ c = a.idx ∨ c = a.val) ∧ ¬ s.Loaded c := by
    intro ax h
    obtain ⟨hc, hl⟩ := sliceBounds_uninit hi hk h
    exact ⟨.inr (.inl hc), hl⟩
  cases m <;>
  · simp only [hitSymbols, Res.bind_eq_uninit, require_ne_uninit, reduceCtorEq, and_false,
      exists_false, or_false] at h
    first
    | exact h.elim hbd fun ⟨_, _, h⟩ => hs h
    | (rcases h with h | ⟨_, _, h | ⟨_, _, h | ⟨_, _, h⟩⟩⟩
       · exact hbd h
       · exact hbd h
       · exact hs h
       · exact hs h)

theorem extractFrom_uninit {m : Modulation} {s : State} {a : FextArgs} {rem k : Nat} {c : Buf}
    (hb : s.BuffersSound) (hi : s.bufLen a.idx = a.nHits) (hv : s.bufLen a.val = a.nHits)
    (hk : k + rem ≤ a.nHits) (h : extractFrom m s a rem k = .uninit c) :
    (c = a.q ∨ c = a.idx ∨ c = a.val) ∧ ¬ s.Loaded c := by
  induction rem generalizing k with
  | zero => cases h
  | succ rem ih =>
    simp only [extractFrom, Res.bind_eq_uninit, pam2ltrFrom_ne_uninit, false_or, reduceCtorEq,
      and_false, exists_false, or_false] at h
    rcases h with h | ⟨_, _, _, _, h⟩
    · exact hitSymbols_uninit hb hi hv (by omega) h
    · exact ih (by omega) h

/-- A rule refuses only a source a component of which has never been written (rule R68). -/
theorem ruleOf_uninit {i : Instr} {s : State} {b : Buf} (hb : s.BuffersSound)
    (h : ruleOf i s = .uninit b) : b ∈ i.sources ∧ ¬ s.Loaded b := by
  cases i with
  | nop => cases h
  | srst => cases h
  | clrf => cases h
  | srrc d0 => simp [ruleOf, srrcRule, Res.bind_eq_uninit] at h
  | interp ax s0 =>
    simp only [ruleOf, interpRule, Res.bind_eq_uninit, require_ne_uninit, false_or, reduceCtorEq,
      and_false, exists_false, or_false] at h
    obtain ⟨_, _, h⟩ := h
    obtain ⟨rfl, hl⟩ := interpolate_uninit hb h
    exact ⟨by simp [Instr.sources], hl⟩
  | pow4 d0 s0 =>
    simp only [ruleOf, pow4Rule, Res.bind_eq_uninit, reduceCtorEq, and_false, exists_false,
      or_false] at h
    obtain ⟨rfl, hl⟩ := srcCx_uninit hb h
    exact ⟨by simp [Instr.sources], hl⟩
  | fest s0 =>
    simp only [ruleOf, festRule, Res.bind_eq_uninit, require_ne_uninit, false_or, reduceCtorEq,
      and_false, exists_false, or_false] at h
    obtain ⟨_, _, _, _, h⟩ := h
    obtain ⟨rfl, hl⟩ := srcCx_uninit hb h
    exact ⟨by simp [Instr.sources], hl⟩
  | costas d0 d1 d2 s0 s1 =>
    simp only [ruleOf, costasRule, State.srcRe, Res.bind_eq_uninit, require_ne_uninit, false_or,
      reduceCtorEq, and_false, exists_false, or_false] at h
    obtain ⟨_, _, _, _, h | ⟨_, _, h⟩⟩ := h
    · obtain ⟨rfl, hl⟩ := srcCx_uninit hb h
      exact ⟨by simp [Instr.sources], hl⟩
    · obtain ⟨rfl, hl⟩ := srcAxis_uninit hb h
      exact ⟨by simp [Instr.sources], hl⟩
  | trec ax d0 d1 s0 =>
    simp only [ruleOf, trecRule, Res.bind_eq_uninit, require_ne_uninit, false_or, reduceCtorEq,
      and_false, exists_false, or_false] at h
    obtain ⟨_, _, h⟩ := h
    obtain ⟨rfl, hl⟩ := timingLoop_uninit hb h
    exact ⟨by simp [Instr.sources], hl⟩
  | quant d0 s0 =>
    simp only [ruleOf, quantRule, Res.bind_eq_uninit, require_ne_uninit, false_or] at h
    obtain ⟨_, _, _, _, h | ⟨zs, _, h⟩⟩ := h
    · obtain ⟨rfl, hl⟩ := srcCx_uninit hb h
      exact ⟨by simp [Instr.sources], hl⟩
    · cases zs <;> cases h
  | barker d0 => simp [ruleOf, barkerRule, Res.bind_eq_uninit] at h
  | xcorr d0 d1 s0 =>
    simp only [ruleOf, xcorrRule, Res.bind_eq_uninit, require_ne_uninit, selectedCode_ne_uninit,
      modulation_ne_uninit, false_or, reduceCtorEq, and_false, exists_false, or_false] at h
    obtain ⟨_, _, m, _, _, _, _, _, h | ⟨_, _, h⟩⟩ := h
    · obtain ⟨rfl, hl⟩ := srcAxis_uninit hb h
      exact ⟨by simp [Instr.sources], hl⟩
    · cases m with
      | pam4 => cases h
      | qam4 =>
        obtain ⟨rfl, hl⟩ := srcAxis_uninit hb h
        exact ⟨by simp [Instr.sources], hl⟩
      | qam42 =>
        obtain ⟨rfl, hl⟩ := srcAxis_uninit hb h
        exact ⟨by simp [Instr.sources], hl⟩
  | fext d0 s0 s1 s2 =>
    simp only [ruleOf, fextRule, Res.bind_eq_uninit, require_ne_uninit, require_eq_ok,
      decide_eq_true_eq, selectedCode_ne_uninit, modulation_ne_uninit, false_or, reduceCtorEq,
      and_false, exists_false, or_false] at h
    obtain ⟨_, _, m, _, _, hv, h⟩ := h
    have := extractFrom_uninit hb rfl hv (by simp) h
    exact ⟨by simpa [Instr.sources] using this.1, this.2⟩
  | ltr2pam d0 s0 =>
    simp only [ruleOf, ltr2pamRule, Res.bind_eq_uninit, require_ne_uninit, ltr2pamFrom_ne_uninit,
      false_or, reduceCtorEq, and_false, exists_false, or_false] at h
    obtain ⟨_, _, _, _, h⟩ := h
    obtain ⟨rfl, hl⟩ := allOf_prefix_uninit hb le_rfl h
    exact ⟨by simp [Instr.sources], hl⟩
  | pam2ltr d0 s0 =>
    simp only [ruleOf, pam2ltrRule, Res.bind_eq_uninit, pam2ltrFrom_ne_uninit, reduceCtorEq,
      and_false, exists_false, or_false] at h
    rcases h with h | ⟨_, _, h⟩
    · split at h <;> cases h
    · obtain ⟨rfl, hl⟩ := allOf_prefix_uninit hb (by omega) h
      exact ⟨by simp [Instr.sources], hl⟩
  | pam2qam d0 s0 =>
    simp only [ruleOf, mapToSymbols, State.srcRe, Res.bind_eq_uninit, reduceCtorEq, and_false,
      exists_false, or_false] at h
    obtain ⟨rfl, hl⟩ := srcAxis_uninit hb h
    exact ⟨by simp [Instr.sources], hl⟩
  | pam2q42 d0 s0 =>
    simp only [ruleOf, mapToSymbols, State.srcRe, Res.bind_eq_uninit, reduceCtorEq, and_false,
      exists_false, or_false] at h
    obtain ⟨rfl, hl⟩ := srcAxis_uninit hb h
    exact ⟨by simp [Instr.sources], hl⟩
  | pam2sym d0 s0 =>
    simp only [ruleOf, mapToSymbols, State.srcRe, Res.bind_eq_uninit, modulation_ne_uninit, false_or,
      reduceCtorEq, and_false, exists_false, or_false] at h
    obtain ⟨_, _, h⟩ := h
    obtain ⟨rfl, hl⟩ := srcAxis_uninit hb h
    exact ⟨by simp [Instr.sources], hl⟩
  | qam2pam d0 s0 =>
    simp only [ruleOf, mapToLevels, Res.bind_eq_uninit, reduceCtorEq, and_false, exists_false,
      or_false] at h
    obtain ⟨rfl, hl⟩ := srcSymbols_uninit hb h
    exact ⟨by simp [Instr.sources], hl⟩
  | q422pam d0 s0 =>
    simp only [ruleOf, mapToLevels, Res.bind_eq_uninit, reduceCtorEq, and_false, exists_false,
      or_false] at h
    obtain ⟨rfl, hl⟩ := srcSymbols_uninit hb h
    exact ⟨by simp [Instr.sources], hl⟩
  | sym2pam d0 s0 =>
    simp only [ruleOf, mapToLevels, Res.bind_eq_uninit, modulation_ne_uninit, false_or, reduceCtorEq,
      and_false, exists_false, or_false] at h
    obtain ⟨_, _, h⟩ := h
    obtain ⟨rfl, hl⟩ := srcSymbols_uninit hb h
    exact ⟨by simp [Instr.sources], hl⟩

end Sys2Proof.Machine
end

