-- ==== Sys2Proof/Laws/Legal.lean ====
section
/-!
SUPPORT. What the tests of the configuration registers answer on legal registers (rule R264), and how a
test that fails ends an operation.
-/

namespace Sys2Proof.Machine

/-- The absolute value of a rational (rule R13). -/
@[simp] theorem abs_rat (c : ℚ) : (Scalar.rat c).abs = .rat |c| := by
  simp only [Scalar.abs, Scalar.zero, Scalar.lt_rat, Scalar.neg, Scalar.scale]
  by_cases h : c < 0
  · simp [h, abs_of_neg h]
  · simp [h, abs_of_nonneg (not_lt.mp h)]

/-- Legal amplitudes pass their test. -/
theorem alphabet_of_legal {a b : Scalar} (h : LegalAlphabet a b) : (Scalar.zero.lt a && a.le b) = true := by
  simpa [Scalar.lt_iff, Scalar.le_iff] using h

/-- A positive register passes its test. -/
theorem zero_lt_of_pos {x : Scalar} (h : 0 < x.val) : Scalar.zero.lt x = true := by
  simpa [Scalar.lt_iff] using h

/-- A legal `P` and `BETA` pass their test. -/
theorem pulseConfigLegal_of_legal {c : Cfg} (hp : c.p ≠ 0#32) (hb : LegalBeta c.beta) :
    pulseConfigLegal c = true := by
  simpa [pulseConfigLegal, Scalar.le_iff, hp] using hb

/-- A register that is not zero is positive as a number. -/
theorem toNat_pos {p : CmdWord} (hp : p ≠ 0#32) : 0 < p.toNat := by
  rcases Nat.eq_zero_or_pos p.toNat with h | h
  · exact absurd (BitVec.eq_of_toNat_eq (by simpa using h)) hp
  · exact h

/-- `HDR` selects a code, or none (rules R191, R264). -/
theorem barkerCode_cases (h : CmdWord) : (h = 7#32 ∨ h = 11#32 ∨ h = 13#32) ∨ barkerCode h = none := by
  by_cases h1 : h = 7#32
  · exact .inl (.inl h1)
  by_cases h2 : h = 11#32
  · exact .inl (.inr (.inl h2))
  by_cases h3 : h = 13#32
  · exact .inl (.inr (.inr h3))
  right
  unfold barkerCode
  split
  · rename_i e; exact absurd (BitVec.eq_of_toNat_eq (by simpa using e)) h3
  · rename_i e; exact absurd (BitVec.eq_of_toNat_eq (by simpa using e)) h2
  · rename_i e; exact absurd (BitVec.eq_of_toNat_eq (by simpa using e)) h1
  · rfl

/-- A reserved `MOD` selects no modulation (rule R34). -/
theorem modulationOf_reserved {h : CmdWord} (hm : 3 ≤ h.toNat) : modulationOf h = none := by
  unfold modulationOf
  split <;> first | omega | rfl

/-- With legal `HDR` and `MOD` a code and a modulation are selected, and the header is the one the spec
lists (rules R191, R192, R264). -/
theorem frame_of_legal {s : State} (h : LegalFrame s.cfg) :
    ∃ c m, selectedCode s = .ok c ∧ modulation s = .ok m ∧
      (m = .qam4 ∧ s.cfg.modType.toNat = 0 ∨ m = .qam42 ∧ s.cfg.modType.toNat = 1 ∨
        m = .pam4 ∧ s.cfg.modType.toNat = 2) ∧ c ≠ [] ∧
      header m c = (specChips s.cfg.hdr).map fun b => ratCx (specHeaderSymbol s.cfg.modType.toNat b) := by
  obtain ⟨h1, h2⟩ := h
  have hm : s.cfg.modType = 0#32 ∨ s.cfg.modType = 1#32 ∨ s.cfg.modType = 2#32 := by
    have : s.cfg.modType.toNat = 0 ∨ s.cfg.modType.toNat = 1 ∨ s.cfg.modType.toNat = 2 := by omega
    rcases this with e | e | e
    · exact .inl (BitVec.eq_of_toNat_eq (by simpa using e))
    · exact .inr (.inl (BitVec.eq_of_toNat_eq (by simpa using e)))
    · exact .inr (.inr (BitVec.eq_of_toNat_eq (by simpa using e)))
  rcases h1 with e | e | e <;> rcases hm with e' | e' | e' <;>
  refine ⟨_, _, by simp only [selectedCode, barkerCode, e]; rfl,
    by simp only [modulation, modulationOf, e']; rfl, ?_, ?_, ?_⟩ <;>
  (try rw [e']) <;> (try rw [e]) <;> decide +kernel

/-- The length of the pulse kernel (rule R123). -/
theorem kernel_length (l p : ℕ) (b o : Scalar) : (kernel l p b o).length = 2 * l * p + 1 := by
  simp [kernel, Nat.mul_assoc]

/-- An interpolation whose window is inside the buffer, on samples that are written (rule R126). -/
theorem interpolate_inside {s : State} (hs : s.BuffersSound) {ax : Axis} {s0 : Buf} {xs : List Scalar}
    {t : Scalar} {k l : ℕ} (hl : l = s.lNat * s.pNat) (h1 : 0 ≤ t.floor - l)
    (h2 : t.floor + l + 1 ≤ s.bufLen s0) (hx : xs.length = 2 * l + 1)
    (hc : ∀ i x, xs[i]? = some x → s.comp s0 ((t.floor - l).toNat + i) ax = some x) :
    interpolate s s0 ax t k =
      .ok (Scalar.dot xs (kernel s.lNat s.pNat s.cfg.beta (t.sub (.ofInt t.floor))).reverse) := by
  subst hl
  have hsl := (srcSlice_eq_ok (n := 2 * (s.lNat * s.pNat) + 1) (hs s0).1).mpr ⟨hx, hc⟩
  simp only [interpolate, windowInside, h1, h2, decide_true, Bool.and_self, require_true, Res.bind_ok, hsl]

/-- An interpolation whose window leaves the buffer (rule R265). -/
theorem interpolate_outside {s : State} {ax : Axis} {s0 : Buf} {t : Scalar} {k : ℕ}
    (h : t.floor - (s.lNat * s.pNat : ℕ) < 0 ∨
      (s.bufLen s0 : ℤ) < t.floor + (s.lNat * s.pNat : ℕ) + 1) :
    interpolate s s0 ax t k = .raise .margin k := by
  have : windowInside t.floor (s.lNat * s.pNat) (s.bufLen s0) = false := by
    simp only [windowInside, Bool.and_eq_false_iff, decide_eq_false_iff_not]
    omega
  simp [interpolate, this]

/-- What a fault records (rule R262). -/
theorem faultsWith_raise (f : FCode) (n : ℕ) (s : State) : FaultsWith f n s (raise f n s) :=
  ⟨rfl, rfl, rfl, rfl, rfl, rfl, rfl, rfl, rfl, rfl, rfl, rfl⟩

/-- A rule that raises ends its operation in that fault (rule R262). -/
theorem exec_raise {i : Instr} {s : State} {f : FCode} {n : ℕ} (hi : i ≠ .srst)
    (h : ruleOf i s = .raise f n) : exec i s = .next (raise f n s) := by
  rw [exec_eq_finish s hi, h]
  rfl

/-- A rule that has a result ends its operation in completion (rule R261). -/
theorem exec_ok {i : Instr} {s u : State} (hi : i ≠ .srst) (h : ruleOf i s = .ok u) :
    exec i s = .next (complete u) := by
  rw [exec_eq_finish s hi, h]
  rfl

end Sys2Proof.Machine
end

