-- ==== Sys2Proof/Laws/Mapper.lean ====
section
/-!
SUPPORT. The mapper on rational data: what its functions compute, in the terms of
`Sys2Proof/Safety.lean`.
-/

namespace Sys2Proof.Machine

/-- A natural is the integer it is. -/
@[simp] theorem toInt?_ofNat (n : ℕ) : (Scalar.ofNat n).toInt? = some (n : ℤ) := by
  simp [Scalar.ofNat, Scalar.toInt?]

/-- The digit of a rational level (rule R223). -/
theorem digitOf_rat (q : ℚ) : digitOf (.rat q) =
    if q = -3 then some 0 else if q = -1 then some 1 else if q = 1 then some 2
    else if q = 3 then some 3 else none := by
  simp [digitOf, Scalar.ofInt, Scalar.eq_rat]

/-- One of the four levels has its digit, and is the level of it (rules R221, R223). -/
theorem digitOf_mem {q : ℚ} (h : q ∈ ([-3, -1, 1, 3] : List ℚ)) :
    ∃ d : ℕ, d ≤ 3 ∧ digitOf (.rat q) = some d ∧ (q + 3) / 2 = d ∧ levelOf d = .rat q := by
  simp only [List.mem_cons, List.not_mem_nil, or_false] at h
  rcases h with rfl | rfl | rfl | rfl
  · exact ⟨0, by omega, by norm_num [digitOf_rat], by norm_num, by norm_num [levelOf, Scalar.ofInt]⟩
  · exact ⟨1, by omega, by norm_num [digitOf_rat], by norm_num, by norm_num [levelOf, Scalar.ofInt]⟩
  · exact ⟨2, by omega, by norm_num [digitOf_rat], by norm_num, by norm_num [levelOf, Scalar.ofInt]⟩
  · exact ⟨3, by omega, by norm_num [digitOf_rat], by norm_num, by norm_num [levelOf, Scalar.ofInt]⟩

/-- Any other rational has no digit (rule R224). -/
theorem digitOf_not_mem {q : ℚ} (h : q ∉ ([-3, -1, 1, 3] : List ℚ)) : digitOf (.rat q) = none := by
  simp only [List.mem_cons, List.not_mem_nil, or_false, not_or] at h
  simp [digitOf_rat, h]

/-- The digit of a level is that of its value (rules R7, R223). -/
theorem digitOf_congr {x y : Scalar} (h : x.val = y.val) : digitOf x = digitOf y := by
  simp [digitOf, Scalar.eq_iff, h]

/-- The digits of the four levels, for any real (rule R223). -/
theorem digitOf_eq_none {x : Scalar} :
    digitOf x = none ↔ ∀ l ∈ ([-3, -1, 1, 3] : List ℤ), x.val ≠ l := by
  simp only [digitOf, Scalar.eq_iff, Scalar.val_ofInt]
  split_ifs <;> simp_all

/-- `pam2ltr` of valid levels (rule R223). -/
theorem pam2ltrFrom_eq : ∀ (i : ℕ) (ls : List ℚ), (∀ l ∈ ls, l ∈ ([-3, -1, 1, 3] : List ℚ)) →
    pam2ltrFrom i (ls.map Scalar.rat) = .ok ((specCodes ls).map Scalar.rat)
  | i, a :: b :: c :: d :: rest, h => by
    obtain ⟨da, _, ha, ea, _⟩ := digitOf_mem (h a (by simp))
    obtain ⟨db, _, hb, eb, _⟩ := digitOf_mem (h b (by simp))
    obtain ⟨dc, _, hc, ec, _⟩ := digitOf_mem (h c (by simp))
    obtain ⟨dd, _, hd, ed, _⟩ := digitOf_mem (h d (by simp))
    have ih := pam2ltrFrom_eq (i + 4) rest (fun l hl => h l (by simp [hl]))
    simp only [List.map_cons, pam2ltrFrom, digitAt, ha, hb, hc, hd, Res.bind_ok, ih]
    have e : (rest.length + 1 + 1 + 1 + 1) / 4 = rest.length / 4 + 1 := by omega
    simp only [specCodes, List.length_cons, e, List.range_succ_eq_map, List.map_cons, List.map_map]
    congr 1
    · simp only [Scalar.ofNat]
      congr 1
      simp only [Nat.mul_zero, Nat.zero_add, List.getD_cons_zero, List.getD_cons_succ, ea, eb, ec, ed]
      push_cast
      ring_nf
  | i, [], _ => by simp [pam2ltrFrom, specCodes]
  | i, [_], _ => by simp [pam2ltrFrom, specCodes]
  | i, [_, _], _ => by simp [pam2ltrFrom, specCodes]
  | i, [_, _, _], _ => by simp [pam2ltrFrom, specCodes]

/-- A natural up to 255 is a character code (rule R221). -/
theorem charCode_nat {x : Scalar} {c : ℕ} (h : x.toInt? = some (c : ℤ)) (hc : c ≤ 255) :
    charCode? x = some c := by
  simp only [charCode?, h]
  rw [if_pos (by omega)]
  simp

/-- What is no character code (rule R222). -/
theorem charCode_eq_none {x : Scalar} (h : ∀ c : ℕ, c ≤ 255 → x.val ≠ c) : charCode? x = none := by
  unfold charCode?
  split
  · rename_i n hn
    rw [Scalar.toInt?_iff] at hn
    rw [if_neg]
    rintro ⟨h0, h1⟩
    obtain ⟨c, rfl⟩ := Int.eq_ofNat_of_zero_le h0
    exact h c (by exact_mod_cast h1) (by simpa using hn)
  · rfl

/-- The level of a digit is `2*d - 3` (rule R221). -/
theorem levelOf_eq (d : ℕ) : levelOf d = .rat (2 * (d : ℚ) - 3) := by
  simp only [levelOf, Scalar.ofInt]
  congr 1
  push_cast
  ring

/-- The levels of a character code (rule R221). -/
theorem levelsOf_eq (c : ℕ) : levelsOf c = (specLevels c).map Scalar.rat := by
  simp only [levelsOf, specLevels, levelOf_eq, List.map_cons, List.map_nil]

/-- `ltr2pam` of character codes (rule R221). -/
theorem ltr2pamFrom_eq : ∀ (i : ℕ) (xs : List Scalar) (cs : List ℕ),
    xs.map Scalar.toInt? = cs.map (fun c : ℕ => some (c : ℤ)) → (∀ c ∈ cs, c ≤ 255) →
    ltr2pamFrom i xs = .ok ((cs.flatMap specLevels).map Scalar.rat)
  | i, [], [], _, _ => rfl
  | i, x :: xs, c :: cs, h, hc => by
    simp only [List.map_cons, List.cons.injEq] at h
    simp only [ltr2pamFrom, charCode_nat h.1 (hc c (by simp)),
      ltr2pamFrom_eq (i + 1) xs cs h.2 (fun c hc' => hc c (by simp [hc'])), Res.bind_ok,
      levelsOf_eq, List.flatMap_cons, List.map_append]

/-- Decoding the levels of a code gives the code (rules R221, R223). -/
theorem specCodes_append_levels (c : ℕ) (hc : c ≤ 255) (ls : List ℚ) :
    specCodes (specLevels c ++ ls) = (c : ℚ) :: specCodes ls := by
  have e : (specLevels c ++ ls).length / 4 = ls.length / 4 + 1 := by simp [specLevels]; omega
  simp only [specCodes, e, List.range_succ_eq_map, List.map_cons, List.map_map]
  congr 1
  · simp [specLevels]
    have : c / 64 % 4 * 64 + c / 16 % 4 * 16 + c / 4 % 4 * 4 + c % 4 = c := by omega
    have h2 := congrArg (fun n : ℕ => (n : ℚ)) this
    push_cast at h2
    linarith

/-- Every level of a code is one of the four. -/
theorem specLevels_mem (c : ℕ) : ∀ l ∈ specLevels c, l ∈ ([-3, -1, 1, 3] : List ℚ) := by
  have key : ∀ d : ℕ, d < 4 → 2 * (d : ℚ) - 3 ∈ ([-3, -1, 1, 3] : List ℚ) := by
    intro d hd
    interval_cases d <;> norm_num
  intro l hl
  simp only [specLevels, List.mem_cons, List.not_mem_nil, or_false] at hl
  rcases hl with rfl | rfl | rfl | rfl <;> exact key _ (by omega)

/-- Decoding the levels of a sequence of codes gives the codes. -/
theorem specCodes_flatMap (cs : List ℕ) (h : ∀ c ∈ cs, c ≤ 255) :
    specCodes (cs.flatMap specLevels) = cs.map (fun c : ℕ => (c : ℚ)) := by
  induction cs with
  | nil => rfl
  | cons c cs ih =>
    rw [List.flatMap_cons, specCodes_append_levels c (h c (by simp)), ih (fun c hc => h c (by simp [hc]))]
    rfl

/-- The levels of a code put together from its digits. -/
theorem specLevels_code {a b c d : ℕ} (ha : a ≤ 3) (hb : b ≤ 3) (hc : c ≤ 3) (hd : d ≤ 3) :
    specLevels (64 * a + 16 * b + 4 * c + d) =
      [2 * (a : ℚ) - 3, 2 * (b : ℚ) - 3, 2 * (c : ℚ) - 3, 2 * (d : ℚ) - 3] := by
  have e1 : (64 * a + 16 * b + 4 * c + d) / 64 % 4 = a := by omega
  have e2 : (64 * a + 16 * b + 4 * c + d) / 16 % 4 = b := by omega
  have e3 : (64 * a + 16 * b + 4 * c + d) / 4 % 4 = c := by omega
  have e4 : (64 * a + 16 * b + 4 * c + d) % 4 = d := by omega
  rw [specLevels, e1, e2, e3, e4]

/-- Valid levels in full groups of four are the levels of codes. -/
theorem exists_codes : ∀ ls : List ℚ, (∀ l ∈ ls, l ∈ ([-3, -1, 1, 3] : List ℚ)) → ls.length % 4 = 0 →
    ∃ cs : List ℕ, (∀ c ∈ cs, c ≤ 255) ∧ cs.flatMap specLevels = ls
  | [], _, _ => ⟨[], by simp, rfl⟩
  | a :: b :: c :: d :: rest, h, hl => by
    obtain ⟨da, la, _, ea, _⟩ := digitOf_mem (h a (by simp))
    obtain ⟨db, lb, _, eb, _⟩ := digitOf_mem (h b (by simp))
    obtain ⟨dc, lc, _, ec, _⟩ := digitOf_mem (h c (by simp))
    obtain ⟨dd, ld, _, ed, _⟩ := digitOf_mem (h d (by simp))
    obtain ⟨cs, hcs, hf⟩ := exists_codes rest (fun l hl => h l (by simp [hl])) (by simp at hl; omega)
    refine ⟨(64 * da + 16 * db + 4 * dc + dd) :: cs, ?_, ?_⟩
    · intro x hx
      rcases List.mem_cons.mp hx with rfl | hx
      · omega
      · exact hcs x hx
    · rw [List.flatMap_cons, hf, specLevels_code la lb lc ld, ← ea, ← eb, ← ec, ← ed]
      simp only [List.cons_append, List.nil_append]
      congr 1
      · ring
      congr 1
      · ring
      congr 1
      · ring
      congr 1
      · ring
  | [_], _, hl => by simp at hl
  | [_, _], _, hl => by simp at hl
  | [_, _, _], _, hl => by simp at hl

/-! The lookups. -/

/-- The number of a modulation in `MOD` (rule R34). -/
theorem modulationOf_cases {m : CmdWord} (h : m.toNat ≤ 2) :
    (m.toNat = 0 ∧ modulationOf m = some .qam4) ∨ (m.toNat = 1 ∧ modulationOf m = some .qam42) ∨
      (m.toNat = 2 ∧ modulationOf m = some .pam4) := by
  have : m.toNat = 0 ∨ m.toNat = 1 ∨ m.toNat = 2 := by omega
  rcases this with e | e | e <;> simp [modulationOf, e]

/-- `pam2sym` of a rational level, `4QAM` (rule R225). -/
theorem pam2symOne_qam4 (p : ℚ) : (pam2symOne .qam4 (.rat p)).out = ratCx (specPoint 0 p) := by
  simp only [pam2symOne, digitOf_rat, specPoint]
  split_ifs <;> simp_all [pointOf, ratCx, Cx.ofInts, Scalar.ofInt]

/-- `pam2sym` of a rational level, `QAM4_2` (rule R227). -/
theorem pam2symOne_qam42 (p : ℚ) : (pam2symOne .qam42 (.rat p)).out = ratCx (specPoint 1 p) := by
  simp only [pam2symOne, digitOf_rat, specPoint]
  split_ifs <;> simp_all [pointOf, ratCx, Cx.ofInts, Scalar.ofInt]

/-- `pam2sym` of a rational level, `4PAM` (rule R229). -/
theorem pam2symOne_pam4 (p : ℚ) : (pam2symOne .pam4 (.rat p)).out = ratCx (specPoint 2 p) := by
  simp only [pam2symOne, digitOf_rat, specPoint]
  split_ifs <;> simp_all [pointOf, ratCx, Cx.ofInts, Scalar.ofInt]

/-- `pam2sym` flags a rational level exactly where it is none of the four (rule R233). -/
theorem pam2symOne_unrec (m : Modulation) (p : ℚ) :
    (pam2symOne m (.rat p)).unrec = true ↔ p ∉ ([-3, -1, 1, 3] : List ℚ) := by
  by_cases h : p ∈ ([-3, -1, 1, 3] : List ℚ)
  · obtain ⟨d, _, hd, _⟩ := digitOf_mem h
    simp [pam2symOne, hd, h]
  · simp only [pam2symOne, digitOf_not_mem h]
    simpa using h

/-- Two rational complex values are equal exactly as pairs. -/
theorem eq_ratCx (p q : ℚ × ℚ) : (ratCx p).eq (ratCx q) = decide (p = q) := by
  simp only [Cx.eq, ratCx, Scalar.eq_rat, Prod.ext_iff, Bool.decide_and]

/-- `sym2pam` of a rational symbol, `4QAM` and `QAM4_2` (rules R226, R228, R233). -/
theorem sym2pamOne_complex {m : Modulation} {n : ℕ} (h : (m = .qam4 ∧ n = 0) ∨ (m = .qam42 ∧ n = 1))
    (z : ℚ × ℚ) :
    (sym2pamOne m (ratCx z)).out = .rat (specLevel n z) ∧
      ((sym2pamOne m (ratCx z)).unrec = true ↔ ¬ specKnown n z) := by
  have hp : ∀ d : ℕ, d ≤ 3 → pointOf m d = ratCx (specPoint n (2 * (d : ℚ) - 3)) := by
    intro d hd
    rcases h with ⟨rfl, rfl⟩ | ⟨rfl, rfl⟩ <;> interval_cases d <;> decide +kernel
  have hm : ∀ d : ℕ, d ≤ 3 → matchesPoint m (ratCx z) d = decide (z = specPoint n (2 * (d : ℚ) - 3)) := by
    intro d hd
    rw [← eq_ratCx, ← hp d hd]
    rcases h with ⟨rfl, rfl⟩ | ⟨rfl, rfl⟩ <;> rfl
  have h0 := hm 0 (by omega)
  have h1 := hm 1 (by omega)
  have h2 := hm 2 (by omega)
  have h3 := hm 3 (by omega)
  norm_num at h0 h1 h2 h3
  have hn : n ≠ 2 := by rcases h with ⟨_, rfl⟩ | ⟨_, rfl⟩ <;> decide
  simp only [sym2pamOne, h0, h1, h2, h3, specLevel, specKnown, hn, if_false, decide_eq_true_eq]
  split_ifs <;> simp_all [Scalar.ofInt]

/-- `sym2pam` of a rational symbol, `4PAM` (rules R230, R233): the imaginary component takes no part. -/
theorem sym2pamOne_real (x : ℚ) (y : Scalar) (w : ℚ) :
    (sym2pamOne .pam4 ⟨.rat x, y⟩).out = .rat (specLevel 2 (x, w)) ∧
      ((sym2pamOne .pam4 ⟨.rat x, y⟩).unrec = true ↔ ¬ specKnown 2 (x, w)) := by
  have hm : ∀ d : ℕ, d ≤ 3 → matchesPoint .pam4 ⟨.rat x, y⟩ d = decide (x = 2 * (d : ℚ) - 3) := by
    intro d hd
    simp only [matchesPoint]
    interval_cases d <;> norm_num [pointOf, Cx.ofInts, Scalar.ofInt, Scalar.eq_rat]
  have h0 := hm 0 (by omega)
  have h1 := hm 1 (by omega)
  have h2 := hm 2 (by omega)
  have h3 := hm 3 (by omega)
  norm_num at h0 h1 h2 h3
  simp only [sym2pamOne, h0, h1, h2, h3, specLevel, specKnown, if_true, decide_eq_true_eq]
  split_ifs <;> simp_all [Scalar.ofInt]

/-- `sym2pam` looks at the values of a symbol alone, for `4PAM` at its real one (rule R230). -/
theorem sym2pamOne_congr {m : Modulation} {z w : Cx} (hr : z.re.val = w.re.val)
    (hi : m ≠ .pam4 → z.im.val = w.im.val) : sym2pamOne m z = sym2pamOne m w := by
  have : ∀ d, matchesPoint m z d = matchesPoint m w d := fun d => by
    rw [Bool.eq_iff_iff]
    cases m <;> simp_all [matchesPoint, Cx.eq, Scalar.eq_iff]
  simp only [sym2pamOne, this]

/-- A symbol with a component that is no rational goes to the catch-all (rule R233). -/
theorem sym2pamOne_irrational {m : Modulation} {z : Cx}
    (h : ∀ q : ℚ × ℚ, z.re.val = q.1 → ¬ (m ≠ .pam4 → z.im.val = q.2)) :
    sym2pamOne m z = ⟨.rat 3, true⟩ := by
  have : ∀ d, matchesPoint m z d = false := fun d => by
    obtain ⟨q, hq⟩ : ∃ q : ℚ × ℚ, pointOf m d = ratCx q := by
      unfold pointOf
      split <;> split <;> exact ⟨(_, _), rfl⟩
    rw [← Bool.not_eq_true]
    intro hm
    refine h q ?_ fun hp => ?_
    · cases m <;> simp [matchesPoint, Cx.eq, Scalar.eq_iff, hq, ratCx] at hm <;>
        first | exact hm | exact hm.1
    · cases m <;> simp [matchesPoint, Cx.eq, Scalar.eq_iff, hq, ratCx] at hm hp ⊢ <;> exact hm.2
  simp [sym2pamOne, this, Scalar.ofInt]

/-- A level of a symbol is one of the four. -/
theorem specLevel_mem (n : ℕ) (z : ℚ × ℚ) : specLevel n z ∈ ([-3, -1, 1, 3] : List ℚ) := by
  unfold specLevel
  split_ifs <;> simp

end Sys2Proof.Machine
end

