-- ==== Sys2Proof/Laws/Correlator.lean ====
section
/-!
SUPPORT. The correlator on rational data, in the terms of `Sys2Proof/Safety.lean`: the correlation, the
scan for hits, and the packed lists.
-/

namespace Sys2Proof.Machine

theorem slidingDots_eq (v : List Scalar) : ∀ (n : ℕ) (a : List Scalar),
    slidingDots v n a = (List.range n).map fun i => Scalar.dot (a.drop i) v
  | 0, _ => rfl
  | n + 1, a => by
    rw [slidingDots, slidingDots_eq v n a.tail, List.range_succ_eq_map]
    simp

/-- The sum of the products of two rational sequences. -/
theorem dot_rat : ∀ a v : List ℚ, v.length ≤ a.length →
    Scalar.dot (a.map Scalar.rat) (v.map Scalar.rat) =
      .rat (((List.range v.length).map fun n => a.getD n 0 * v.getD n 0).sum)
  | _, [], _ => by simp [Scalar.dot, Scalar.zero]
  | [], _ :: _, h => absurd h (by simp)
  | x :: a, y :: v, h => by
    have ih := dot_rat a v (by simpa using h)
    simp only [List.map_cons, Scalar.dot, ih, List.length_cons, List.range_succ_eq_map, List.map_map,
      List.sum_cons]
    simp [Scalar.mul, Scalar.scale, Scalar.add, Function.comp_def]

/-- A sequence padded with zeros on both sides is the sequence that is zero outside its range. -/
theorem padded_getD (a : List ℚ) (m i n : ℕ) :
    (List.replicate m (0 : ℚ) ++ a ++ List.replicate m 0).getD (i + n) 0 = atIndex a ((i : ℤ) - m + n) := by
  unfold atIndex
  rw [List.getD_eq_getElem?_getD, List.append_assoc]
  split
  · rename_i hc
    rw [List.getElem?_append_right (by simp; omega), List.length_replicate]
    have : ((i : ℤ) - m + n).toNat = i + n - m := by omega
    rw [this]
    by_cases h2 : i + n - m < a.length
    · rw [List.getElem?_append_left h2]
      simp
    · rw [List.getElem?_append_right (by omega)]
      simp [List.getElem?_replicate, List.getElem?_eq_none (not_lt.mp h2)]
      split <;> simp
  · rw [List.getElem?_append_left (by simp; omega)]
    simp [List.getElem?_replicate]
    split <;> simp

/-- The full correlation of rational sequences (rule R195). -/
theorem correlate_rat (a v : List ℚ) (hv : v ≠ []) :
    correlate (a.map Scalar.rat) (v.map Scalar.rat) =
      ((List.range (a.length + v.length - 1)).map (specCorrelation a v)).map Scalar.rat := by
  have hM : 0 < v.length := List.length_pos_iff.mpr hv
  rw [correlate, slidingDots_eq]
  simp only [List.length_map, List.map_map]
  apply List.map_congr_left
  intro i hi
  simp at hi
  have e : List.replicate (v.length - 1) Scalar.zero ++ a.map Scalar.rat ++
      List.replicate (v.length - 1) Scalar.zero =
      (List.replicate (v.length - 1) (0 : ℚ) ++ a ++ List.replicate (v.length - 1) 0).map Scalar.rat := by
    simp [Scalar.zero]
  rw [e, ← List.map_drop, dot_rat _ _ (by simp; omega)]
  simp only [Function.comp, specCorrelation]
  congr 2
  apply List.map_congr_left
  intro n hn
  simp at hn
  have : (List.drop i (List.replicate (v.length - 1) (0 : ℚ) ++ a ++
      List.replicate (v.length - 1) 0)).getD n 0 =
      (List.replicate (v.length - 1) (0 : ℚ) ++ a ++ List.replicate (v.length - 1) 0).getD (i + n) 0 := by
    simp
  rw [this, padded_getD a (v.length - 1) i n]
  congr 2
  push_cast [Nat.cast_sub (show 1 ≤ v.length by omega)]
  ring

/-- The lags from `i` on, `n` of them, at which `f` meets the trigger. -/
def lagsFrom (trig : ℚ) (f : ℕ → ℚ) (i n : ℕ) : List ℕ :=
  (List.range' i n).filter fun i => decide (trig ≤ |f i|)

/-- The scan of a rational correlation from lag `i` on (rule R196). -/
theorem scanHits_rat (trig : ℚ) (f : ℕ → ℚ) : ∀ n i room : ℕ,
    scanHits (.rat trig) i room ((List.range' i n).map fun j => Scalar.rat (f j)) =
      ⟨((lagsFrom trig f i n).take room).map fun j => (j, .rat (f j)),
        decide (room < (lagsFrom trig f i n).length)⟩
  | 0, i, room => by simp [scanHits, lagsFrom]
  | n + 1, i, room => by
    have ih := scanHits_rat trig f n (i + 1)
    rw [List.range'_succ, List.map_cons]
    simp only [scanHits, abs_rat, Scalar.le_rat, decide_eq_true_eq]
    by_cases h : trig ≤ |f i|
    · rw [if_pos h]
      have hl : lagsFrom trig f i (n + 1) = i :: lagsFrom trig f (i + 1) n := by
        simp [lagsFrom, List.range'_succ, h]
      rw [hl]
      cases room <;> simp [ih]
    · rw [if_neg h]
      have hl : lagsFrom trig f i (n + 1) = lagsFrom trig f (i + 1) n := by
        simp [lagsFrom, List.range'_succ, h]
      rw [hl, ih]

/-- The hits of one axis on rational data (rules R195 to R197). -/
theorem scanHits_correlate (a v : List ℚ) (hv : v ≠ []) (trig : ℚ) (cap : ℕ) :
    scanHits (.rat trig) 0 cap (correlate (a.map Scalar.rat) (v.map Scalar.rat)) =
      ⟨(specHits a v trig cap).map fun p => (p.1, .rat p.2),
        decide (cap < (specAllHits a v trig).length)⟩ := by
  rw [correlate_rat a v hv, List.map_map, List.range_eq_range']
  have := scanHits_rat trig (specCorrelation a v) (a.length + v.length - 1) 0 cap
  have e : lagsFrom trig (specCorrelation a v) 0 (a.length + v.length - 1) = specAllHits a v trig := by
    simp [lagsFrom, specAllHits, List.range_eq_range']
  rw [e] at this
  simpa [specHits, Function.comp_def] using this

/-- An entry of two rational tables side by side (rule R198). -/
theorem packTables_getElem : ∀ (xs ys : List ℚ) (k : ℕ), k < max xs.length ys.length →
    (packTables (xs.map Scalar.rat) (ys.map Scalar.rat))[k]? = some (ratCx (xs.getD k 0, ys.getD k 0))
  | [], ys, k, h => by
    simp at h
    simp [packTables, h, ratCx, Scalar.zero]
  | x :: xs, ys, 0, _ => by cases ys <;> simp [packTables, ratCx, Scalar.zero]
  | x :: xs, ys, k + 1, h => by
    have := packTables_getElem xs ys.tail k (by simp at h ⊢; omega)
    simp only [List.map_cons, packTables, List.getElem?_cons_succ, ← List.map_tail, this]
    cases ys <;> simp

/-- Two rational tables side by side (rule R198). -/
theorem packTables_rat (xs ys : List ℚ) : packTables (xs.map Scalar.rat) (ys.map Scalar.rat) =
    ((List.range (max xs.length ys.length)).map fun k => (xs.getD k 0, ys.getD k 0)).map ratCx := by
  apply List.ext_getElem?
  intro k
  by_cases h : k < max xs.length ys.length
  · rw [packTables_getElem xs ys k h]
    simp only [List.getElem?_map, List.getElem?_range h, Option.map_some]
  · rw [List.getElem?_eq_none (by rw [length_packTables]; simpa using h),
      List.getElem?_eq_none (by simpa using h)]

/-- A rational sequence without its trailing zero-pairs (rule R198). -/
theorem trimZeros_rat (zs : List (ℚ × ℚ)) :
    ∃ n ≤ zs.length, trimZeros (zs.map ratCx) = (zs.take n).map ratCx ∧
      (∀ k, n ≤ k → zs.getD k 0 = 0) ∧ ∀ m, (∀ k, m ≤ k → zs.getD k 0 = 0) → n ≤ m := by
  induction zs with
  | nil => exact ⟨0, by simp, by simp [trimZeros], by simp, by simp⟩
  | cons z zs ih =>
    obtain ⟨n, h0, h1, h2, h3⟩ := ih
    simp only [List.map_cons, trimZeros, h1]
    have hz0 : (ratCx z).eq ⟨Scalar.zero, Scalar.zero⟩ = decide (z = 0) := eq_ratCx z 0
    cases n with
    | zero =>
      simp only [List.take_zero, List.map_nil, hz0, decide_eq_true_eq]
      by_cases hz : z = 0
      · refine ⟨0, by simp, by simp [hz], ?_, by simp⟩
        intro k _
        cases k with
        | zero => simpa using hz
        | succ k => simpa using h2 k (by omega)
      · refine ⟨1, by simp, by simp [hz], ?_, ?_⟩
        · intro k hk
          obtain ⟨k, rfl⟩ : ∃ j, k = j + 1 := ⟨k - 1, by omega⟩
          simpa using h2 k (by omega)
        · intro m hm
          by_contra hc
          have := hm 0 (by omega)
          simp at this
          exact hz this
    | succ n =>
      obtain ⟨y, ys, rfl⟩ : ∃ y ys, zs = y :: ys := by
        cases zs with
        | nil => simp at h0
        | cons y ys => exact ⟨y, ys, rfl⟩
      refine ⟨n + 2, by simp at h0 ⊢; omega, by simp, ?_, ?_⟩
      · intro k hk
        obtain ⟨k, rfl⟩ : ∃ j, k = j + 1 := ⟨k - 1, by omega⟩
        simpa using h2 k (by omega)
      · intro m hm
        cases m with
        | zero =>
          have := h3 0 (fun k _ => by simpa using hm (k + 1) (by omega))
          omega
        | succ m =>
          have := h3 m (fun k hk => by simpa using hm (k + 1) (by omega))
          omega

/-- A packed and trimmed pair of tables as its buffer holds it (rule R198). -/
theorem holdsTrimmed_of_write {s t : State} {d : Buf} {xs ys : List ℚ}
    (h : max xs.length ys.length ≤ s.bufCap)
    (ht : t.buf d = (s.writeCx d (trimZeros (packTables (xs.map Scalar.rat) (ys.map Scalar.rat)))).buf d) :
    HoldsTrimmed t d (fun k => xs.getD k 0) (fun k => ys.getD k 0) := by
  obtain ⟨n, h0, h1, h2, h3⟩ :=
    trimZeros_rat ((List.range (max xs.length ys.length)).map fun k => (xs.getD k 0, ys.getD k 0))
  rw [← packTables_rat] at h1
  have hg : ∀ k, ((List.range (max xs.length ys.length)).map fun k => (xs.getD k 0, ys.getD k 0)).getD k 0 =
      (xs.getD k 0, ys.getD k 0) := by
    intro k
    by_cases hk : k < max xs.length ys.length
    · simp only [List.getD_eq_getElem?_getD, List.getElem?_map, List.getElem?_range hk]
      rfl
    · have hk' : xs.length ≤ k ∧ ys.length ≤ k := by simpa using not_lt.mp hk
      rw [List.getD_eq_default _ _ (by simpa using hk'), List.getD_eq_default _ _ hk'.1,
        List.getD_eq_default _ _ hk'.2]
      rfl
  simp only [hg] at h2 h3
  rw [h1] at ht
  simp only [List.length_map, List.length_range] at h0
  have hw := HoldsCx.congr (holdsCx_writeCx s d (((((List.range (max xs.length ys.length)).map
    fun k => (xs.getD k 0, ys.getD k 0))).take n).map ratCx) (by simp; omega)) ht
  have hlen : t.bufLen d = n := by
    rw [hw.1]
    simp
    omega
  refine ⟨?_, ?_, ?_⟩
  · intro k hk
    rw [hlen] at hk
    exact hw.2 k (ratCx (xs.getD k 0, ys.getD k 0)) (by
      rw [List.getElem?_map, List.getElem?_take, if_pos hk, List.getElem?_map,
        List.getElem?_range (by omega)]
      rfl)
  · intro k hk
    have := h2 k (by omega)
    exact ⟨congrArg Prod.fst this, congrArg Prod.snd this⟩
  · intro m hm
    rw [hlen]
    exact h3 m fun k hk => Prod.ext (hm k hk).1 (hm k hk).2

end Sys2Proof.Machine
end

