-- ==== Sys2Proof/Laws/Format.lean ====
section
/-!
SUPPORT. The fields of a word of format `C` (rule R90): each reads what was put in, and a word is its
fields put together.
-/

namespace Sys2Proof

section
variable (op : BitVec 8) (d0 d1 d2 s0 s1 s2 : BitVec 3) (ax : BitVec 1)

/-- Field `op` of a word of format `C`. -/
theorem fieldOp_formatC : fieldOp (formatC op d0 d1 d2 s0 s1 s2 ax) = op := by
  apply BitVec.eq_of_getLsbD_eq
  intro i hi
  simp only [fieldOp, formatC, BitVec.getLsbD_extractLsb', hi, decide_true, Bool.true_and, BitVec.getLsbD_append]
  interval_cases i <;> rfl

/-- The bits of field `d0`. -/
theorem bits_d0 : (formatC op d0 d1 d2 s0 s1 s2 ax).extractLsb' 21 3 = d0 := by
  apply BitVec.eq_of_getLsbD_eq
  intro i hi
  simp only [formatC, BitVec.getLsbD_extractLsb', hi, decide_true, Bool.true_and, BitVec.getLsbD_append]
  interval_cases i <;> rfl

/-- The bits of field `d1`. -/
theorem bits_d1 : (formatC op d0 d1 d2 s0 s1 s2 ax).extractLsb' 18 3 = d1 := by
  apply BitVec.eq_of_getLsbD_eq
  intro i hi
  simp only [formatC, BitVec.getLsbD_extractLsb', hi, decide_true, Bool.true_and, BitVec.getLsbD_append]
  interval_cases i <;> rfl

/-- The bits of field `d2`. -/
theorem bits_d2 : (formatC op d0 d1 d2 s0 s1 s2 ax).extractLsb' 15 3 = d2 := by
  apply BitVec.eq_of_getLsbD_eq
  intro i hi
  simp only [formatC, BitVec.getLsbD_extractLsb', hi, decide_true, Bool.true_and, BitVec.getLsbD_append]
  interval_cases i <;> rfl

/-- The bits of field `s0`. -/
theorem bits_s0 : (formatC op d0 d1 d2 s0 s1 s2 ax).extractLsb' 12 3 = s0 := by
  apply BitVec.eq_of_getLsbD_eq
  intro i hi
  simp only [formatC, BitVec.getLsbD_extractLsb', hi, decide_true, Bool.true_and, BitVec.getLsbD_append]
  interval_cases i <;> rfl

/-- The bits of field `s1`. -/
theorem bits_s1 : (formatC op d0 d1 d2 s0 s1 s2 ax).extractLsb' 9 3 = s1 := by
  apply BitVec.eq_of_getLsbD_eq
  intro i hi
  simp only [formatC, BitVec.getLsbD_extractLsb', hi, decide_true, Bool.true_and, BitVec.getLsbD_append]
  interval_cases i <;> rfl

/-- The bits of field `s2`. -/
theorem bits_s2 : (formatC op d0 d1 d2 s0 s1 s2 ax).extractLsb' 6 3 = s2 := by
  apply BitVec.eq_of_getLsbD_eq
  intro i hi
  simp only [formatC, BitVec.getLsbD_extractLsb', hi, decide_true, Bool.true_and, BitVec.getLsbD_append]
  interval_cases i <;> rfl

/-- The bit of field `ax`. -/
theorem bit_ax : (formatC op d0 d1 d2 s0 s1 s2 ax).getLsbD 0 = ax.getLsbD 0 := by
  simp only [formatC, BitVec.getLsbD_append]
  rfl

end

/-- A buffer field that holds a buffer's bits names that buffer (rule R91). -/
theorem bufField_of_bits {w : CmdWord} {lo : Nat} {b : Buf} (h : w.extractLsb' lo 3 = bufBits b) :
    bufField w lo = b := by
  rw [bufField, h]
  rfl

/-- The bits of a buffer field are those of the buffer it names. -/
theorem bufBits_bufField (w : CmdWord) (lo : Nat) : bufBits (bufField w lo) = w.extractLsb' lo 3 := rfl

/-- The axis of a word whose bit `ax` is that of an axis (rule R92). -/
theorem fieldAx_of_bit {w : CmdWord} {ax : Axis} (h : w.getLsbD 0 = (axisBit ax).getLsbD 0) :
    fieldAx w = ax := by
  rw [fieldAx, h]
  cases ax <;> rfl

/-- The bit `ax` of a word is that of the axis it names. -/
theorem axisBit_fieldAx (w : CmdWord) : axisBit (fieldAx w) = w.extractLsb' 0 1 := by
  apply BitVec.eq_of_getLsbD_eq
  intro i hi
  obtain rfl : i = 0 := by omega
  rw [BitVec.getLsbD_extractLsb', fieldAx]
  cases h : w.getLsbD 0 <;> simp [axisBit]

/-- A word is its fields put together (rule R90). -/
theorem word_eq_fields (w : CmdWord) :
    w = fieldOp w ++ w.extractLsb' 21 3 ++ w.extractLsb' 18 3 ++ w.extractLsb' 15 3 ++
      w.extractLsb' 12 3 ++ w.extractLsb' 9 3 ++ w.extractLsb' 6 3 ++ w.extractLsb' 1 5 ++
      w.extractLsb' 0 1 := by
  apply BitVec.eq_of_getLsbD_eq
  intro i hi
  simp only [fieldOp, BitVec.getLsbD_append, BitVec.getLsbD_extractLsb']
  interval_cases i <;> simp

/-- The opcode of an operation names that operation (rule R94). -/
theorem opcodeOf_opcodeBits (o : Opcode) : opcodeOf (opcodeBits o) = some o := by
  cases o <;> rfl

/-- A value of `op` that names an operation is its opcode (rule R94). -/
theorem opcodeBits_of_opcodeOf {b : BitVec 8} {o : Opcode} (h : opcodeOf b = some o) :
    b = opcodeBits o := by
  unfold opcodeOf at h
  split at h <;> cases h <;> (apply BitVec.eq_of_toNat_eq; assumption)

/-- Two words put together from parts of the same widths are equal exactly part by part. -/
theorem append_inj {n m : ℕ} {a b : BitVec n} {c d : BitVec m} (h : a ++ c = b ++ d) : a = b ∧ c = d := by
  constructor
  · apply BitVec.eq_of_getLsbD_eq
    intro i hi
    have := congrArg (fun v => v.getLsbD (m + i)) h
    simpa [BitVec.getLsbD_append] using this
  · apply BitVec.eq_of_getLsbD_eq
    intro i hi
    have := congrArg (fun v => v.getLsbD i) h
    simpa [BitVec.getLsbD_append, hi] using this

/-- A mask acts on each field of a word. -/
theorem fields_and (a A : BitVec 8) (b c d e f g B C D E F G : BitVec 3) (k K : BitVec 5) (l L : BitVec 1) :
    (a ++ b ++ c ++ d ++ e ++ f ++ g ++ k ++ l) &&& (A ++ B ++ C ++ D ++ E ++ F ++ G ++ K ++ L) =
      (a &&& A) ++ (b &&& B) ++ (c &&& C) ++ (d &&& D) ++ (e &&& E) ++ (f &&& F) ++ (g &&& G) ++
        (k &&& K) ++ (l &&& L) := by
  simp only [BitVec.and_append]

/-- What a word's fields are where it meets a mask that keeps `op` and `rsv` and the masked fields match
zero (rule R96). -/
theorem fields_of_mask {w : CmdWord} {op : BitVec 8} {m0 m1 m2 n0 n1 n2 : BitVec 3} {ma : BitVec 1}
    (h : w &&& (0xFF#8 ++ m0 ++ m1 ++ m2 ++ n0 ++ n1 ++ n2 ++ 0x1F#5 ++ ma : BitVec 32) =
      (op ++ 0#3 ++ 0#3 ++ 0#3 ++ 0#3 ++ 0#3 ++ 0#3 ++ 0#5 ++ 0#1 : BitVec 32)) :
    fieldOp w = op ∧ w.extractLsb' 21 3 &&& m0 = 0#3 ∧ w.extractLsb' 18 3 &&& m1 = 0#3 ∧
      w.extractLsb' 15 3 &&& m2 = 0#3 ∧ w.extractLsb' 12 3 &&& n0 = 0#3 ∧
      w.extractLsb' 9 3 &&& n1 = 0#3 ∧ w.extractLsb' 6 3 &&& n2 = 0#3 ∧ w.extractLsb' 1 5 = 0#5 ∧
      w.extractLsb' 0 1 &&& ma = 0#1 := by
  rw [word_eq_fields w] at h
  obtain ⟨h, e8⟩ := append_inj ((fields_and _ _ _ _ _ _ _ _ _ _ _ _ _ _ _ _ _ _).symm.trans h)
  obtain ⟨h, e7⟩ := append_inj h
  obtain ⟨h, e6⟩ := append_inj h
  obtain ⟨h, e5⟩ := append_inj h
  obtain ⟨h, e4⟩ := append_inj h
  obtain ⟨h, e3⟩ := append_inj h
  obtain ⟨h, e2⟩ := append_inj h
  obtain ⟨e0, e1⟩ := append_inj h
  have a : fieldOp w &&& 0xFF#8 = fieldOp w := BitVec.and_allOnes
  have b : w.extractLsb' 1 5 &&& 0x1F#5 = w.extractLsb' 1 5 := BitVec.and_allOnes
  rw [a] at e0
  rw [b] at e7
  exact ⟨e0, e1, e2, e3, e4, e5, e6, e7, e8⟩

end Sys2Proof
end

