-- ==== Sys2Proof/Laws/Frames.lean ====
section
/-!
SUPPORT. The frame extractor on rational data, in the terms of
`Sys2Proof/Safety.lean`.
-/

namespace Sys2Proof.Machine

/-- The slice by its clamped bounds (rule R206). -/
theorem slice_eq (xs : List ℚ) (start stop : ℤ) :
    specSlice xs start stop =
      (xs.drop (clampTo xs.length start)).take (clampTo xs.length stop - clampTo xs.length start) := by
  apply List.ext_getElem?
  intro j
  have hf : ∀ (n : ℕ), (List.range n).filter (fun i : ℕ => decide (start ≤ (i : ℤ) ∧ (i : ℤ) < stop)) =
      (List.range (clampTo n stop - clampTo n start)).map (fun i => clampTo n start + i) := by
    intro n
    induction n with
    | zero => simp [clampTo]
    | succ n ih =>
      rw [List.range_succ, List.filter_append, ih]
      by_cases h : start ≤ (n : ℤ) ∧ (n : ℤ) < stop
      · have e1 : clampTo (n + 1) start = clampTo n start := by simp only [clampTo]; omega
        have e2 : clampTo (n + 1) stop - clampTo (n+1) start = (clampTo n stop - clampTo n start) + 1 := by
          simp only [clampTo]; omega
        have e3 : clampTo n start + (clampTo n stop - clampTo n start) = n := by simp only [clampTo]; omega
        rw [e2, List.range_succ, List.map_append, e1]
        simp [h, e3]
      · have e2 : (List.range (clampTo (n + 1) stop - clampTo (n+1) start)).map (fun i => clampTo (n+1) start + i) = (List.range (clampTo n stop - clampTo n start)).map (fun i => clampTo n start + i) := by
          by_cases h0 : stop ≤ start ∨ stop ≤ 0
          · have a : clampTo (n+1) stop - clampTo (n+1) start = 0 := by simp only [clampTo]; omega
            have b : clampTo n stop - clampTo n start = 0 := by simp only [clampTo]; omega
            rw [a, b]; rfl
          · by_cases h1 : start ≤ n
            · have : stop ≤ n := by omega
              have a : clampTo (n+1) stop = clampTo n stop := by simp only [clampTo]; omega
              have b : clampTo (n+1) start = clampTo n start := by simp only [clampTo]; omega
              rw [a, b]
            · have a : clampTo (n+1) stop - clampTo (n+1) start = 0 := by simp only [clampTo]; omega
              have b : clampTo n stop - clampTo n start = 0 := by simp only [clampTo]; omega
              rw [a, b]; rfl
        rw [e2]
        simp [h]
  rw [specSlice, hf, List.map_map]
  by_cases hj : j < clampTo xs.length stop - clampTo xs.length start
  · have hlt : clampTo xs.length start + j < xs.length := by
      simp only [clampTo] at hj ⊢; omega
    rw [List.getElem?_map, List.getElem?_range hj, List.getElem?_take, if_pos hj, List.getElem?_drop]
    simp [hlt]
  · rw [List.getElem?_eq_none (by simpa using Nat.not_lt.mp hj), List.getElem?_take, if_neg hj]

/-- A slice of a rational source. -/
theorem srcSlice_rat {s : State} {b : Buf} {ax : Axis} {xs : List ℚ} (hb : s.BuffersSound)
    (h : s.HoldsAxis b ax (xs.map Scalar.rat)) {lo hi : ℕ} (hh : hi ≤ xs.length) :
    s.srcSlice b ax lo (hi - lo) = .ok (((xs.drop lo).take (hi - lo)).map Scalar.rat) := by
  rw [srcSlice_eq_ok (hb b).1]
  refine ⟨?_, fun j x hx => ?_⟩
  · simp; omega
  · rw [List.getElem?_map, List.getElem?_take] at hx
    split at hx
    · rw [List.getElem?_drop, ← List.getElem?_map] at hx
      exact h.2 _ _ hx
    · simp at hx

/-- A hit index that is a natural (rule R205). -/
theorem hitIndex_nat {s : State} {b : Buf} {ax : Axis} {k hit n : ℕ}
    (h : s.comp b k ax = some (.ofNat n)) : hitIndex s b ax k hit = .ok n := by
  simp [hitIndex, srcComp_eq_ok.mpr h]

/-- A hit index that is none raises `DOMAIN` with the hit being extracted (rules R205, R268). -/
theorem hitIndex_bad {s : State} {b : Buf} {ax : Axis} {k hit : ℕ} (h : s.BadIndex b k ax) :
    hitIndex s b ax k hit = .raise .domain hit := by
  obtain ⟨x, hc, hx⟩ := h
  simp only [hitIndex, srcComp_eq_ok.mpr hc, Res.bind_ok]
  split
  · rename_i n hn
    rw [if_neg]
    intro h0
    obtain ⟨m, rfl⟩ := Int.eq_ofNat_of_zero_le h0
    exact hx m (by simpa using Scalar.toInt?_iff.mp hn)
  · rfl

/-- What the extractor reads of the hit lists for hit `k` on one axis (rule R205). -/
structure HitAt (s : State) (a : FextArgs) (ax : Axis) (idx : List ℕ) (vs : List ℚ) (k : ℕ) : Prop where
  index : s.comp a.idx k ax = some (.ofNat (idx.getD k 0))
  value : s.comp a.val k ax = some (.rat (vs.getD k 0))
  last : k + 1 < a.nHits ↔ k + 1 < idx.length
  next : k + 1 < idx.length → s.comp a.idx (k + 1) ax = some (.ofNat (idx.getD (k + 1) 0))

/-- Whole hit lists hold every hit. -/
theorem hitAt_of_holds {s : State} {a : FextArgs} {ax : Axis} {vs : List ℚ} {idx : List ℕ} {k : ℕ}
    (hi : s.HoldsAxis a.idx ax (idx.map Scalar.ofNat)) (hv : s.HoldsAxis a.val ax (vs.map Scalar.rat))
    (hn : a.nHits = idx.length) (hvl : vs.length = idx.length) (hk : k < idx.length) :
    HitAt s a ax idx vs k :=
  ⟨hi.2 k _ (by simp [hk]), hv.2 k _ (by simp [hvl, hk]), by rw [hn],
    fun h => hi.2 (k + 1) _ (by simp [h])⟩

/-- The bounds and the sign-corrected slice of one axis on rational data (rules R205 to R207). -/
theorem axisSlice_rat {s : State} {a : FextArgs} {ax : Axis} {xs vs : List ℚ} {idx : List ℕ} {k : ℕ}
    (hb : s.BuffersSound) (hx : s.HoldsAxis a.q ax (xs.map Scalar.rat)) (hk : HitAt s a ax idx vs k) :
    ∃ b, sliceBounds s a ax k = .ok b ∧
      axisSlice s a ax k b = .ok ((specAxisSlice xs idx vs a.hdr a.flen k).map Scalar.rat) := by
  refine ⟨(idx.getD k 0 + 1, if k + 1 < idx.length then (idx.getD (k + 1) 0 : ℤ) - a.hdr + 1
    else ((idx.getD k 0 + 1 : ℕ) : ℤ) + a.flen - a.hdr), ?_, ?_⟩
  · simp only [sliceBounds, hitIndex_nat hk.index, Res.bind_ok, sliceEnd, hk.last]
    split
    · rename_i h
      simp only [hitIndex_nat (hk.next h), Res.bind_ok]
    · rfl
  · have hxl : s.bufLen a.q = xs.length := by simpa using hx.1
    simp only [axisSlice, srcComp_eq_ok.mpr hk.value, Res.bind_ok, hxl]
    rw [srcSlice_rat hb hx (by simp only [clampTo]; omega), Res.bind_ok]
    congr 1
    simp only [specAxisSlice, slice_eq, List.map_map]
    have : ((idx.getD k 0 + 1 : ℕ) : ℤ) = (idx.getD k 0 : ℤ) + 1 := by push_cast; rfl
    rw [this]
    apply List.map_congr_left
    intro x _
    simp [Scalar.scale, Scalar.sgn_rat, ratSign]

/-- Two rational sequences side by side. -/
theorem zip_map_rat (xs ys : List ℚ) : (xs.map Scalar.rat).zipWith Cx.mk (ys.map Scalar.rat) =
    (xs.zip ys).map ratCx := by
  induction xs generalizing ys with
  | nil => rfl
  | cons x xs ih => cases ys <;> simp [ih, ratCx]

/-- The symbols of a hit on rational data, or `DESYNC` (rule R208). -/
theorem hitSymbols_at {m : Modulation} {s : State} {a : FextArgs} {xr xi vr vi : List ℚ} {ir ii : List ℕ} {k : ℕ}
    (hm : m ≠ .pam4) (hb : s.BuffersSound)
    (hxr : s.HoldsAxis a.q .re (xr.map Scalar.rat)) (hxi : s.HoldsAxis a.q .im (xi.map Scalar.rat))
    (hr : HitAt s a .re ir vr k) (hi : HitAt s a .im ii vi k) :
    hitSymbols m s a k =
      if (specAxisSlice xr ir vr a.hdr a.flen k).length = (specAxisSlice xi ii vi a.hdr a.flen k).length then
        .ok (((specAxisSlice xr ir vr a.hdr a.flen k).zip (specAxisSlice xi ii vi a.hdr a.flen k)).map ratCx)
      else .raise .desync k := by
  obtain ⟨br, e1, e2⟩ := axisSlice_rat hb hxr hr
  obtain ⟨bi, e3, e4⟩ := axisSlice_rat hb hxi hi
  cases m with
  | pam4 => exact absurd rfl hm
  | qam4 | qam42 =>
    simp only [hitSymbols, e1, e2, e3, e4, Res.bind_ok, List.length_map]
    split
    · rename_i h
      simp only [require, h, decide_true, if_true, Res.bind_ok, zip_map_rat]
    · rename_i h
      simp [require, h]

theorem hitSymbols_rat {m : Modulation} {s : State} {a : FextArgs} {xr xi vr vi : List ℚ} {ir ii : List ℕ} {k : ℕ}
    (hm : m ≠ .pam4) (hb : s.BuffersSound)
    (hxr : s.HoldsAxis a.q .re (xr.map Scalar.rat)) (hxi : s.HoldsAxis a.q .im (xi.map Scalar.rat))
    (hir : s.HoldsAxis a.idx .re (ir.map Scalar.ofNat)) (hii : s.HoldsAxis a.idx .im (ii.map Scalar.ofNat))
    (hvr : s.HoldsAxis a.val .re (vr.map Scalar.rat)) (hvi : s.HoldsAxis a.val .im (vi.map Scalar.rat))
    (hn : a.nHits = ir.length) (hvl : vr.length = ir.length) (hk : k < ir.length) :
    hitSymbols m s a k =
      if (specAxisSlice xr ir vr a.hdr a.flen k).length = (specAxisSlice xi ii vi a.hdr a.flen k).length then
        .ok (((specAxisSlice xr ir vr a.hdr a.flen k).zip (specAxisSlice xi ii vi a.hdr a.flen k)).map ratCx)
      else .raise .desync k := by
  have h1 : ii.length = ir.length := by
    have a1 := hir.1; have a2 := hii.1; simp at a1 a2; omega
  have h2 : vi.length = ir.length := by
    have a1 := hvr.1; have a2 := hvi.1; simp at a1 a2; omega
  exact hitSymbols_at hm hb hxr hxi (hitAt_of_holds hir hvr hn hvl hk)
    (hitAt_of_holds hii hvi (hn.trans h1.symm) (h2.trans h1.symm) (h1 ▸ hk))

/-- The symbols of a hit for `4PAM` on rational data (rule R208). -/
theorem hitSymbols_pam4_at {s : State} {a : FextArgs} {xr vr : List ℚ} {ir : List ℕ} {k : ℕ}
    (hb : s.BuffersSound) (hxr : s.HoldsAxis a.q .re (xr.map Scalar.rat)) (hr : HitAt s a .re ir vr k) :
    hitSymbols .pam4 s a k =
      .ok ((specAxisSlice xr ir vr a.hdr a.flen k).map fun x => ratCx (x, 0)) := by
  obtain ⟨br, e1, e2⟩ := axisSlice_rat hb hxr hr
  simp [hitSymbols, e1, e2, Function.comp_def, Cx.ofReal, ratCx, Scalar.zero]

theorem hitSymbols_pam4_rat {s : State} {a : FextArgs} {xr vr : List ℚ} {ir : List ℕ} {k : ℕ}
    (hb : s.BuffersSound) (hxr : s.HoldsAxis a.q .re (xr.map Scalar.rat))
    (hir : s.HoldsAxis a.idx .re (ir.map Scalar.ofNat)) (hvr : s.HoldsAxis a.val .re (vr.map Scalar.rat))
    (hn : a.nHits = ir.length) (hvl : vr.length = ir.length) (hk : k < ir.length) :
    hitSymbols .pam4 s a k =
      .ok ((specAxisSlice xr ir vr a.hdr a.flen k).map fun x => ratCx (x, 0)) :=
  hitSymbols_pam4_at hb hxr (hitAt_of_holds hir hvr hn hvl hk)

/-- The demapped levels of symbols, and whether one is unrecognised, from the lookup of one symbol. -/
theorem demap_rat {m : Modulation} {n : ℕ} {zs : List (ℚ × ℚ)}
    (h : ∀ z ∈ zs, (sym2pamOne m (ratCx z)).out = .rat (specLevel n z) ∧
      ((sym2pamOne m (ratCx z)).unrec = true ↔ ¬ specKnown n z)) :
    (sym2pamSeq m (zs.map ratCx)).map Looked.out = (zs.map (specLevel n)).map Scalar.rat ∧
      (anyUnrec (sym2pamSeq m (zs.map ratCx)) = true ↔ ∃ z ∈ zs, ¬ specKnown n z) := by
  constructor
  · simp only [sym2pamSeq, List.map_map]
    exact List.map_congr_left fun z hz => (h z hz).1
  · simp only [anyUnrec, sym2pamSeq, List.map_map, List.any_eq_true, List.mem_map, Function.comp]
    constructor
    · rintro ⟨_, ⟨z, hz, rfl⟩, hu⟩
      exact ⟨z, hz, (h z hz).2.mp hu⟩
    · rintro ⟨z, hz, hu⟩
      exact ⟨_, ⟨z, hz, rfl⟩, (h z hz).2.mpr hu⟩

/-- The character codes of the hits from `k` on, from the symbols of each hit (rules R209, R210). -/
theorem extractFrom_rat {m : Modulation} {n : ℕ} {s : State} {a : FextArgs} {zs : ℕ → List (ℚ × ℚ)}
    (hlook : ∀ j, ∀ z ∈ zs j, (sym2pamOne m (ratCx z)).out = .rat (specLevel n z) ∧
      ((sym2pamOne m (ratCx z)).unrec = true ↔ ¬ specKnown n z)) :
    ∀ rem k : ℕ, (∀ j, k ≤ j → j < k + rem → hitSymbols m s a j = .ok ((zs j).map ratCx)) →
    ∃ u : Bool, extractFrom m s a rem k =
        .ok ⟨((List.range' k rem).flatMap fun j => specCodes ((zs j).map (specLevel n))).map Scalar.rat, u⟩ ∧
      (u = true ↔ ∃ j, k ≤ j ∧ j < k + rem ∧ ∃ z ∈ zs j, ¬ specKnown n z)
  | 0, k, _ => ⟨false, by simp [extractFrom], by simp; omega⟩
  | rem + 1, k, h => by
    obtain ⟨u, hu, hiff⟩ := extractFrom_rat hlook rem (k + 1) fun j h1 h2 => h j (by omega) (by omega)
    obtain ⟨hd, hun⟩ := demap_rat (hlook k)
    refine ⟨anyUnrec (sym2pamSeq m ((zs k).map ratCx)) || u, ?_, ?_⟩
    · have hm : ∀ l ∈ (zs k).map (specLevel n), l ∈ ([-3, -1, 1, 3] : List ℚ) := by
        intro l hl
        obtain ⟨z, _, rfl⟩ := List.mem_map.mp hl
        exact specLevel_mem n z
      simp only [extractFrom, h k le_rfl (by omega), Res.bind_ok, hd, pam2ltrFrom_eq 0 _ hm, hu,
        List.range'_succ, List.flatMap_cons, List.map_append]
    · rw [Bool.or_eq_true, hun, hiff]
      constructor
      · rintro (hz | ⟨j, h1, h2, hz⟩)
        · exact ⟨k, le_rfl, by omega, hz⟩
        · exact ⟨j, by omega, by omega, hz⟩
      · rintro ⟨j, h1, h2, hz⟩
        by_cases e : j = k
        · exact .inl (e ▸ hz)
        · exact .inr ⟨j, by omega, by omega, hz⟩

/-- An extraction comes to the first hit that raises (rules R205, R208): the hits before it have symbols. -/
theorem extractFrom_stops {m : Modulation} {n : ℕ} {s : State} {a : FextArgs} {zs : ℕ → List (ℚ × ℚ)}
    {f : FCode} {i k : ℕ}
    (hlook : ∀ j, ∀ z ∈ zs j, (sym2pamOne m (ratCx z)).out = .rat (specLevel n z) ∧
      ((sym2pamOne m (ratCx z)).unrec = true ↔ ¬ specKnown n z))
    (hk : hitSymbols m s a k = .raise f i) :
    ∀ d j rem : ℕ, j + d = k → k < j + rem → (∀ l, j ≤ l → l < k → hitSymbols m s a l = .ok ((zs l).map ratCx)) →
      extractFrom m s a rem j = .raise f i
  | 0, j, rem, hd, hr, _ => by
    obtain ⟨rem, rfl⟩ : ∃ r, rem = r + 1 := ⟨rem - 1, by omega⟩
    obtain rfl : j = k := by omega
    simp only [extractFrom, hk, Res.bind_raise]
  | d + 1, j, rem, hd, hr, h => by
    obtain ⟨rem, rfl⟩ : ∃ r, rem = r + 1 := ⟨rem - 1, by omega⟩
    have hm : ∀ l ∈ (zs j).map (specLevel n), l ∈ ([-3, -1, 1, 3] : List ℚ) := by
      intro l hl
      obtain ⟨z, _, rfl⟩ := List.mem_map.mp hl
      exact specLevel_mem n z
    simp only [extractFrom, h j le_rfl (by omega), Res.bind_ok, (demap_rat (hlook j)).1,
      pam2ltrFrom_eq 0 _ hm, extractFrom_stops hlook hk d (j + 1) rem (by omega) (by omega)
        (fun l h1 h2 => h l (by omega) h2), Res.bind_raise]

end Sys2Proof.Machine
end

