-- ==== Sys2Proof/Laws/Loops.lean ====
section
/-!
SUPPORT. The two recovery loops: the timing loop iteration by iteration, and the carrier loop sample by sample.
-/

namespace Sys2Proof.Machine

/-! The timing loop. -/

/-- The product of zero and any scalar. -/
@[simp] theorem scale_zero (x : Scalar) : Scalar.scale 0 x = .zero := by
  cases x <;> simp [Scalar.scale, Scalar.zero, Scalar.surdOf, Scalar.timesPi]

/-- The iteration count (rule R170). -/
theorem iterationCount_eq (c : Cfg) (len : ℕ) :
    iterationCount c len = ⌈((len : ℝ) - c.tmHi.val - max c.tinit.val c.tmLo.val) / c.p.toNat⌉.toNat := by
  simp [iterationCount, timingEnd, Scalar.ceil_val]

/-- An iteration number is below the count exactly where the guard holds (rule R170). -/
theorem lt_count {x y p : ℝ} (hp : 0 < p) {k : ℕ} : k < ⌈(x - y) / p⌉.toNat ↔ y + k * p < x := by
  rw [Int.lt_toNat, Int.lt_ceil, lt_div_iff₀ hp]
  push_cast
  constructor <;> intro h <;> linarith

/-- The guard of the loop (rule R169). -/
theorem guard_iff {c : Cfg} {t : Scalar} {len : ℕ} :
    t.lt (timingEnd c len) = true ↔ t.val < len - c.tmHi.val := by
  simp [Scalar.lt_iff, timingEnd]

/-- The TimingState after `k` iterations with the given times, `tau`s and samples. -/
def timingAt (tnow tau cur : ℕ → Scalar) (k : ℕ) : TimingState :=
  ⟨tnow k, tau k, k, ((List.range k).map cur).reverse, ((List.range k).map fun j => tau (j + 1)).reverse⟩

/-- The loop starts at iteration 0 (rule R167). -/
theorem initial_eq_timingAt {c : Cfg} {tnow tau cur : ℕ → Scalar} (h0 : tnow 0 = c.tinit.max c.tmLo)
    (h1 : tau 0 = .zero) : TimingState.initial c = timingAt tnow tau cur 0 := by
  simp [TimingState.initial, timingAt, h0, h1]

/-- One iteration, from its three probes (rule R169). -/
theorem timingStep_at {s : State} {s0 : Buf} {ax : Axis} {tnow tau cur late early : ℕ → Scalar} {k : ℕ}
    (h1 : interpolate s s0 ax ((tnow k).add (tau k)) k = .ok (cur k))
    (h2 : interpolate s s0 ax (((tnow k).add (tau k)).add s.cfg.delta) k = .ok (late k))
    (h3 : interpolate s s0 ax (((tnow k).add (tau k)).sub s.cfg.delta) k = .ok (early k))
    (h4 : tnow (k + 1) = (tnow k).add (.ofNat s.pNat))
    (h5 : tau (k + 1) = (tau k).add ((s.cfg.muT.mul ((late k).sub (early k))).mul (cur k))) :
    timingStep s s0 ax (timingAt tnow tau cur k) = .ok (timingAt tnow tau cur (k + 1)) := by
  simp only [timingStep, timingAt, h1, h2, h3, Res.bind_ok]
  simp [List.range_succ, h4, h5]

/-- The next `j` iterations. -/
theorem timingLoop_run {s : State} {s0 : Buf} {ax : Axis} (tnow tau cur : ℕ → Scalar) :
    ∀ j fuel k : ℕ, (∀ i, k ≤ i → i < k + j →
      (tnow i).lt (timingEnd s.cfg (s.bufLen s0)) = true ∧
        timingStep s s0 ax (timingAt tnow tau cur i) = .ok (timingAt tnow tau cur (i + 1))) →
    timingLoop s s0 ax (j + fuel) (timingAt tnow tau cur k) =
      timingLoop s s0 ax fuel (timingAt tnow tau cur (k + j))
  | 0, fuel, k, _ => by simp
  | j + 1, fuel, k, h => by
    obtain ⟨h1, h2⟩ := h k le_rfl (by omega)
    rw [show j + 1 + fuel = (j + fuel) + 1 by omega]
    simp only [timingLoop]
    rw [show (timingAt tnow tau cur k).tnow = tnow k from rfl, h1, if_pos rfl, h2, Res.bind_ok,
      timingLoop_run tnow tau cur j fuel (k + 1) (fun i a b => h i (by omega) (by omega))]
    congr 2
    omega

/-- The times of a run (rule R169). -/
theorem tnow_val {p n : ℕ} {tnow : ℕ → Scalar} (hs : ∀ k < n, tnow (k + 1) = (tnow k).add (.ofNat p)) :
    ∀ k ≤ n, (tnow k).val = (tnow 0).val + k * p
  | 0, _ => by simp
  | k + 1, hk => by
    rw [hs k (by omega), Scalar.val_add, tnow_val hs k (by omega), Scalar.val_ofNat]
    push_cast
    ring

/-- A run from its first iteration on (rules R169, R170): `n` iterations whose probes are inside. -/
theorem timingLoop_from {s : State} {s0 : Buf} {ax : Axis} {n fuel : ℕ} {tnow tau cur late early : ℕ → Scalar}
    (h0 : tnow 0 = s.cfg.tinit.max s.cfg.tmLo) (h1 : tau 0 = .zero)
    (hst : ∀ j < n, interpolate s s0 ax ((tnow j).add (tau j)) j = .ok (cur j) ∧
      interpolate s s0 ax (((tnow j).add (tau j)).add s.cfg.delta) j = .ok (late j) ∧
      interpolate s s0 ax (((tnow j).add (tau j)).sub s.cfg.delta) j = .ok (early j) ∧
      tnow (j + 1) = (tnow j).add (.ofNat s.pNat) ∧
      tau (j + 1) = (tau j).add ((s.cfg.muT.mul ((late j).sub (early j))).mul (cur j)))
    (hn : ∀ i < n, max s.cfg.tinit.val s.cfg.tmLo.val + i * s.cfg.p.toNat < s.bufLen s0 - s.cfg.tmHi.val) :
    (∀ i ≤ n, (tnow i).val = max s.cfg.tinit.val s.cfg.tmLo.val + i * s.cfg.p.toNat) ∧
      timingLoop s s0 ax (n + fuel) (TimingState.initial s.cfg) =
        timingLoop s s0 ax fuel (timingAt tnow tau cur n) := by
  have ht : ∀ i ≤ n, (tnow i).val = max s.cfg.tinit.val s.cfg.tmLo.val + i * s.cfg.p.toNat := fun i hi => by
    rw [tnow_val (p := s.pNat) (n := n) (fun k hk => (hst k hk).2.2.2.1) i hi, h0, Scalar.val_max]
    rfl
  refine ⟨ht, ?_⟩
  rw [initial_eq_timingAt (tau := tau) (cur := cur) h0 h1, timingLoop_run tnow tau cur n fuel 0]
  · simp
  · intro i _ hi
    obtain ⟨a, b, c, d, e⟩ := hst i (by omega)
    exact ⟨by rw [guard_iff, ht i (by omega)]; exact hn i (by omega), timingStep_at a b c d e⟩

/-- What an element of a merged destination holds (rule R172). -/
theorem comp_mergedElems {s u : State} {d : Buf} {ax other : Axis} (ho : other ≠ ax) {vs : List Scalar}
    {k : ℕ} {x : Scalar} (hk : vs[k]? = some x) :
    (u.writeElems d (mergedElems s d ax vs)).comp d k ax = some x ∧
      (u.writeElems d (mergedElems s d ax vs)).comp d k other =
        if k < s.bufLen d then s.comp d k other else some .zero := by
  obtain ⟨hl, rfl⟩ := List.getElem?_eq_some_iff.mp hk
  have hl' : k < (mergedElems s d ax vs).length := by simpa [mergedElems] using hl
  rw [comp_writeElems _ _ _ _ _ hl', comp_writeElems _ _ _ _ _ hl']
  have : (mergedElems s d ax vs)[k] = mergedElem s d ax k vs[k] := by simp [mergedElems]
  rw [this]
  cases ax <;> cases other <;> simp_all [mergedElem]

/-! The carrier loop. -/

/-- The LoopState before sample `k`. -/
def loopAt (c : LoopParams) (st : LoopState) (xs : List Cx) (k : ℕ) : LoopState :=
  (xs.take k).foldl (fun s x => loopStep c s x.re) st

/-- The outputs of the run and its last `theta`, sample by sample (rules R153 to R155). -/
theorem runLoop_at (c : LoopParams) (xs : List Cx) : ∀ st,
    (∀ (k : ℕ) x, xs[k]? = some x → (runLoop c st xs).1[k]? = some (carrierOut c (loopAt c st xs k) x)) ∧
      (runLoop c st xs).2 = (loopAt c st xs xs.length).theta := by
  induction xs with
  | nil => intro st; simp [runLoop, loopAt]
  | cons x xs ih =>
    intro st
    obtain ⟨h1, h2⟩ := ih (loopStep c st x.re)
    refine ⟨?_, by simpa [runLoop, loopAt] using h2⟩
    intro k y hy
    cases k with
    | zero =>
      simp at hy
      subst hy
      simp [runLoop, loopAt]
    | succ k =>
      simp at hy
      simpa [runLoop, loopAt] using h1 k y hy

theorem loopAt_succ (c : LoopParams) (st : LoopState) (xs : List Cx) (k : ℕ) (h : k < xs.length) :
    loopAt c st xs (k + 1) = loopStep c (loopAt c st xs k) (xs.getD k ⟨.zero, .zero⟩).re := by
  unfold loopAt
  rw [List.take_succ_eq_append_getElem h, List.foldl_append]
  simp [h]

/-- The mixer product of branch `m` at sample `j` of a run (rule R153). -/
def mixed (c : LoopParams) (st : LoopState) (xs : List Cx) (m : ℕ) (j : ℕ) : Scalar :=
  mixer (xs.getD j ⟨.zero, .zero⟩).re (oscPhase c (loopAt c st xs j)) m

theorem pushDelay_drop {zs : List Scalar} {k : ℕ} (u : Scalar) (h : k + 1 ≤ zs.length) :
    pushDelay (zs.drop k) u = (zs ++ [u]).drop (k + 1) := by
  rw [pushDelay, List.tail_drop, List.drop_append_of_le_length h]

/-- A delay line holds the last `q` mixer products, zeros before the first (rules R152, R153). -/
def delayLine (c : LoopParams) (q : ℕ) (xs : List Cx) (m k : ℕ) : List Scalar :=
  (List.replicate q Scalar.zero ++ (List.range k).map (mixed c (.initial q) xs m)).drop k

/-- The LoopState before sample `k` of a run (rules R152, R153). -/
theorem loopAt_lines (c : LoopParams) (xs : List Cx) (q : ℕ) (hq : 0 < q) : ∀ k, k ≤ xs.length →
    (loopAt c (.initial q) xs k).k = k ∧ (loopAt c (.initial q) xs k).z0 = delayLine c q xs 0 k ∧
      (loopAt c (.initial q) xs k).z1 = delayLine c q xs 1 k ∧
      (loopAt c (.initial q) xs k).z2 = delayLine c q xs 2 k ∧
      (loopAt c (.initial q) xs k).z3 = delayLine c q xs 3 k
  | 0, _ => by simp [loopAt, LoopState.initial, delayLine]
  | k + 1, h => by
    obtain ⟨h0, h1, h2, h3, h4⟩ := loopAt_lines c xs q hq k (by omega)
    simp only [delayLine] at h1 h2 h3 h4
    simp only [loopAt_succ _ _ _ _ (show k < xs.length by omega), loopStep, h0, h1, h2, h3, h4, true_and,
      delayLine, List.range_succ, List.map_append, List.map_cons, List.map_nil, ← List.append_assoc]
    refine ⟨?_, ?_, ?_, ?_⟩ <;> rw [pushDelay_drop _ (by simp; omega)] <;> rfl

/-- The output of a branch is the FIR sum of the taps over the mixer products so far (rules R153,
R154). -/
theorem branchOut_val (h : List Scalar) (c : LoopParams) (xs : List Cx) (m k : ℕ) :
    (branchOut h (delayLine c h.length xs m (k + 1))).val =
      ∑ q ∈ Finset.range h.length,
        if q ≤ k then (h.getD q .zero).val * (mixed c (.initial h.length) xs m (k - q)).val else 0 := by
  rw [branchOut, delayLine, Scalar.val_dot, ← Finset.sum_range_reflect, Finset.sum_range, ← List.sum_ofFn]
  congr 1
  apply List.ext_getElem
  · simp
  · intro j h1 h2
    simp at h1 h2
    have hj : j < h.length := by omega
    simp only [List.getElem_zipWith, List.getElem_reverse, List.getElem_drop, List.getElem_ofFn]
    rw [List.getElem_append]
    by_cases hc : k + 1 + j < h.length
    · rw [dif_pos (by simpa using hc), if_neg (by omega)]
      simp
    · rw [dif_neg (by simpa using hc), if_pos (by omega)]
      simp only [List.getElem_map, List.getElem_range, List.length_replicate]
      rw [List.getD_eq_getElem _ _ (by omega)]
      congr 2
      congr 1
      omega

end Sys2Proof.Machine
end

