-- ==== Sys2Proof/Laws/Numeric.lean ====
section
/-!
SUPPORT. The pulse, the spectrum and the quantizer over the reals: what their functions compute, in the
terms of `Sys2Proof/Machine/Reals.lean` and `Sys2Proof/Safety.lean`.
-/

namespace Sys2Proof.Machine

/-! The pulse. -/

/-- The roll-off in use (rule R121). -/
@[simp] theorem effectiveBeta_val (b : Scalar) : (effectiveBeta b).val = realBeta b.val := by
  simp only [effectiveBeta, realBeta, Scalar.eq_iff, Scalar.val_zero]
  split <;> rfl

/-- The regular branch of the pulse formula is even (rules R121, R125). -/
theorem regular_even (t b p : ℝ) :
    (Real.sin (Real.pi * |t| * (1 - b)) + 4 * (b * |t|) * Real.cos (Real.pi * |t| * (1 + b))) /
        (Real.pi * |t| * (1 - 4 * (b * |t|) * (4 * (b * |t|)))) / p =
      (Real.sin (Real.pi * t * (1 - b)) + 4 * b * t * Real.cos (Real.pi * t * (1 + b))) /
        (Real.pi * t * (1 - (4 * b * t) ^ 2)) / p := by
  rcases abs_choice t with h | h <;> rw [h]
  · congr 2 <;> ring
  · rw [show Real.pi * -t * (1 - b) = -(Real.pi * t * (1 - b)) by ring,
      show Real.pi * -t * (1 + b) = -(Real.pi * t * (1 + b)) by ring, Real.sin_neg, Real.cos_neg]
    congr 1
    rw [← neg_div_neg_eq]
    congr 1 <;> ring

/-- The pulse is the one of rules R121 and R122. -/
theorem pulse_val (t b : Scalar) (p : ℕ) : (pulse t b p).val = realPulse t.val b.val p := by
  simp only [pulse, realPulse, ← effectiveBeta_val, Scalar.eq_iff, Scalar.val_zero, Scalar.val_one,
    Scalar.val_abs, Scalar.val_scale, Scalar.val_mul, Rat.cast_ofNat, ← mul_assoc]
  split
  · simp [pulseCentre]
  · split
    · simp [pulseEdge]
    · simp only [pulseRegular, Scalar.val_abs, Scalar.val_div, Scalar.val_add, Scalar.val_sin,
        Scalar.val_mul, Scalar.val_pi, Scalar.val_sub, Scalar.val_one, Scalar.val_scale, Scalar.val_cos,
        Scalar.val_sqrt, Scalar.val_ofNat, Rat.cast_ofNat]
      exact regular_even _ _ _

/-- A tap of the kernel (rule R123). -/
theorem kernelTap_val (l p : ℕ) (b o : Scalar) (m : ℕ) :
    (kernelTap l p b o m).val = realPulse (((m : ℝ) - (l * p : ℕ) + o.val) / p) b.val p := by
  simp [kernelTap, pulse_val]

/-! The spectrum. -/

theorem totalCx_val (zs : List Cx) : (totalCx zs).val = (zs.map Cx.val).sum := by
  induction zs with
  | nil =>
    simp [totalCx, Cx.val]
    rfl
  | cons z zs ih =>
    rw [List.map_cons, List.sum_cons, ← ih]
    apply Complex.ext <;> simp [totalCx, Cx.val]

/-- A term of the transform (rule R142). -/
theorem dftTerm_val (len : ℕ) (k : ℤ) (n : ℕ) (z : Cx) :
    (dftTerm len k n z).val = z.val * Complex.exp (-(2 * Real.pi * k * n / len) * Complex.I) := by
  unfold dftTerm
  rw [Cx.val_mul]
  congr 1
  have e : -(2 * (Real.pi : ℂ) * k * n / len) * Complex.I =
      ((-(2 * Real.pi * k * n / len) : ℝ) : ℂ) * Complex.I := by
    push_cast
    ring
  have h : ((2 * (k : ℚ) * n / len : ℚ) : ℝ) * Real.pi = 2 * Real.pi * k * n / len := by
    push_cast
    ring
  rw [e, Complex.exp_mul_I, ← Complex.ofReal_cos, ← Complex.ofReal_sin, Real.cos_neg, Real.sin_neg]
  apply Complex.ext
  · simp only [Cx.val, Scalar.val_cos, Scalar.val_timesPi, h]
    simp [-Complex.ofReal_cos, -Complex.ofReal_sin]
  · simp only [Cx.val, Scalar.val_neg, Scalar.val_sin, Scalar.val_timesPi, h]
    simp [-Complex.ofReal_cos, -Complex.ofReal_sin]

/-- A bin of the spectrum is the transform of rule R142. -/
theorem dftBin_val (zs : List Cx) (k : ℤ) : (dftBin zs k).val = realDft (zs.map Cx.val) k := by
  unfold dftBin realDft
  rw [totalCx_val]
  simp only [List.length_map, List.map_map]
  rw [Finset.sum_range, ← List.sum_ofFn]
  congr 1
  apply List.ext_getElem
  · simp
  · intro i h1 h2
    simp [dftTerm_val]

/-- An element of the spectrum is the square of a magnitude (rule R142). -/
theorem spectrumSq_val {zs : List Cx} {j : ℕ} (hj : j < zs.length) :
    ∃ y, (spectrumSq zs)[j]? = some y ∧
      y.val = ‖realDft (zs.map Cx.val) ((j : ℤ) - (zs.length / 2 : ℕ))‖ ^ 2 := by
  refine ⟨(dftBin zs (binOf zs.length j)).normSq, by simp [spectrumSq, hj], ?_⟩
  rw [Cx.val_normSq, ← dftBin_val, ← Complex.normSq_eq_norm_sq, Complex.normSq_apply]
  rfl

theorem peakFrom_lt (xs : List Scalar) (i b : ℕ) (v : Scalar) (n : ℕ) (hb : b < n)
    (hi : i + xs.length ≤ n) : peakFrom xs i b v < n := by
  induction xs generalizing i b v with
  | nil => exact hb
  | cons x xs ih =>
    simp only [peakFrom]
    simp at hi
    split
    · exact ih _ _ _ (by omega) (by omega)
    · exact ih _ _ _ hb (by omega)

/-- The scan for the peak after a prefix whose best is known (rule R143). -/
theorem peakFrom_spec {L : List Scalar} :
    ∀ (pre xs : List Scalar) (b : ℕ) (v : Scalar), L = pre ++ xs → L[b]? = some v → b < pre.length →
      (∀ (j : ℕ) y, pre[j]? = some y → y.val ≤ v.val) →
      (∀ (j : ℕ) y, j < b → pre[j]? = some y → y.val < v.val) →
      ∃ w, L[peakFrom xs pre.length b v]? = some w ∧ (∀ (j : ℕ) y, L[j]? = some y → y.val ≤ w.val) ∧
        ∀ (j : ℕ) y, j < peakFrom xs pre.length b v → L[j]? = some y → y.val < w.val := by
  intro pre xs
  induction xs generalizing pre with
  | nil =>
    intro b v hL hb hbl h1 h2
    simp at hL
    subst hL
    exact ⟨v, hb, h1, h2⟩
  | cons x xs ih =>
    intro b v hL hb hbl h1 h2
    have key : ∀ b' v', L[b']? = some v' → b' < pre.length + 1 →
        (∀ (j : ℕ) y, (pre ++ [x])[j]? = some y → y.val ≤ v'.val) →
        (∀ (j : ℕ) y, j < b' → (pre ++ [x])[j]? = some y → y.val < v'.val) →
        ∃ w, L[peakFrom xs (pre.length + 1) b' v']? = some w ∧
          (∀ (j : ℕ) y, L[j]? = some y → y.val ≤ w.val) ∧
          ∀ (j : ℕ) y, j < peakFrom xs (pre.length + 1) b' v' → L[j]? = some y → y.val < w.val := by
      intro b' v' e1 e2 e3 e4
      have := ih (pre ++ [x]) b' v' (by simp [hL]) e1 (by simpa using e2) e3 e4
      simpa using this
    have last : ∀ (j : ℕ) (y : Scalar) (m : ℝ), (∀ (j : ℕ) y, pre[j]? = some y → y.val ≤ m) → x.val ≤ m →
        (pre ++ [x])[j]? = some y → y.val ≤ m := by
      intro j y m hp hxm hy
      rcases List.mem_append.mp (List.mem_of_getElem? hy) with h | h
      · obtain ⟨i, hi⟩ := List.mem_iff_getElem?.mp h
        exact hp i y hi
      · rw [List.mem_singleton.mp h]
        exact hxm
    simp only [peakFrom]
    split
    · rename_i hlt
      rw [Scalar.lt_iff] at hlt
      apply key
      · rw [hL]
        simp
      · omega
      · exact fun j y hy => last j y _ (fun j y hy => (h1 j y hy).trans hlt.le) le_rfl hy
      · intro j y hj hy
        rw [List.getElem?_append_left hj] at hy
        exact (h1 j y hy).trans_lt hlt
    · rename_i hlt
      rw [Scalar.lt_iff, not_lt] at hlt
      apply key b v hb (by omega)
      · exact fun j y hy => last j y _ h1 hlt hy
      · intro j y hj hy
        rw [List.getElem?_append_left (by omega)] at hy
        exact h2 j y hj hy

/-- The peak of a spectrum is the first of its greatest entries (rule R143). -/
theorem peakIndex_spec {L : List Scalar} (h : L ≠ []) :
    ∃ w, L[peakIndex L]? = some w ∧ (∀ (j : ℕ) y, L[j]? = some y → y.val ≤ w.val) ∧
      ∀ (j : ℕ) y, j < peakIndex L → L[j]? = some y → y.val < w.val := by
  cases L with
  | nil => exact absurd rfl h
  | cons x xs =>
    refine peakFrom_spec (L := x :: xs) [x] xs 0 x rfl rfl (by simp) (fun j y hy => ?_) (by omega)
    cases j with
    | zero => simpa using Eq.ge (congrArg Scalar.val (by simpa using hy))
    | succ j => simp at hy

/-! The quantizer. -/

theorem cxMin_mem (m : Cx) (zs : List Cx) : cxMin m zs ∈ m :: zs := by
  induction zs generalizing m with
  | nil => simp [cxMin]
  | cons z zs ih =>
    simp only [cxMin]
    split
    · have := ih z
      simp at this ⊢
      tauto
    · have := ih m
      simp at this ⊢
      tauto

theorem cxMax_mem (m : Cx) (zs : List Cx) : cxMax m zs ∈ m :: zs := by
  induction zs generalizing m with
  | nil => simp [cxMax]
  | cons z zs ih =>
    simp only [cxMax]
    split
    · have := ih z
      simp at this ⊢
      tauto
    · have := ih m
      simp at this ⊢
      tauto

/-- The threshold (rule R183). -/
theorem threshold_val (a b : Cx) : (threshold a b).val = (‖a.val‖ + ‖b.val‖) / 4 := by
  simp [threshold, Cx.val_modulus]

/-- The order of complex values (rule R182). -/
theorem cxLt_iff {z w : Cx} : cxLt z w = true ↔ ¬ cxLexLe w z := by
  simp only [cxLt, Bool.or_eq_true, Bool.and_eq_true, Scalar.lt_iff, Scalar.eq_iff, cxLexLe, not_or,
    not_and, not_lt, not_le]
  constructor
  · rintro (h | ⟨h, h'⟩)
    · exact ⟨h.le, fun e => absurd e h.ne'⟩
    · exact ⟨h.le, fun _ => h'⟩
  · rintro ⟨h, h'⟩
    rcases h.lt_or_eq with h | h
    · exact .inl h
    · exact .inr ⟨h, h' h.symm⟩

theorem cxLexLe_refl (z : Cx) : cxLexLe z z := .inr ⟨rfl, le_rfl⟩

theorem cxLexLe_of_not {z w : Cx} : ¬ cxLexLe z w → cxLexLe w z := by
  unfold cxLexLe
  push Not
  rintro ⟨h, h'⟩
  rcases h.lt_or_eq with h | h
  · exact .inl h
  · exact .inr ⟨h, (h' h.symm).le⟩

theorem cxLexLe_trans {z w u : Cx} : cxLexLe z w → cxLexLe w u → cxLexLe z u := by
  unfold cxLexLe
  rintro (h | ⟨h, h'⟩) (k | ⟨k, k'⟩)
  · exact .inl (h.trans k)
  · exact .inl (k ▸ h)
  · exact .inl (h ▸ k)
  · exact .inr ⟨h.trans k, h'.trans k'⟩

theorem cxLexLe_rat {p q : ℚ × ℚ} : cxLexLe (ratCx p) (ratCx q) ↔ lexLe p q := by
  simp [cxLexLe, lexLe, ratCx]

/-- The least symbol is below all of them (rule R182). -/
theorem cxMin_le (m : Cx) (zs : List Cx) : ∀ z ∈ m :: zs, cxLexLe (cxMin m zs) z := by
  induction zs generalizing m with
  | nil => simp [cxMin, cxLexLe_refl]
  | cons w zs ih =>
    simp only [cxMin, List.forall_mem_cons]
    split
    · rename_i h
      have hw := List.forall_mem_cons.mp (ih w)
      exact ⟨cxLexLe_trans hw.1 (cxLexLe_of_not (cxLt_iff.mp h)), hw⟩
    · rename_i h
      rw [cxLt_iff, not_not] at h
      have hm := List.forall_mem_cons.mp (ih m)
      exact ⟨hm.1, cxLexLe_trans hm.1 h, hm.2⟩

/-- The greatest symbol is above all of them (rule R182). -/
theorem le_cxMax (m : Cx) (zs : List Cx) : ∀ z ∈ m :: zs, cxLexLe z (cxMax m zs) := by
  induction zs generalizing m with
  | nil => simp [cxMax, cxLexLe_refl]
  | cons w zs ih =>
    simp only [cxMax, List.forall_mem_cons]
    split
    · rename_i h
      have hw := List.forall_mem_cons.mp (ih w)
      exact ⟨cxLexLe_trans (cxLexLe_of_not (cxLt_iff.mp h)) hw.1, hw⟩
    · rename_i h
      rw [cxLt_iff, not_not] at h
      have hm := List.forall_mem_cons.mp (ih m)
      exact ⟨hm.1, cxLexLe_trans h hm.1, hm.2⟩

/-- The least of rational symbols (rule R182). -/
theorem cxMin_rat (m : ℚ × ℚ) (qs : List (ℚ × ℚ)) :
    ∃ lo ∈ m :: qs, cxMin (ratCx m) (qs.map ratCx) = ratCx lo ∧ ∀ q ∈ m :: qs, lexLe lo q := by
  obtain ⟨lo, h1, h2⟩ := List.mem_map.mp
    (show _ ∈ (m :: qs).map ratCx from cxMin_mem (ratCx m) (qs.map ratCx))
  refine ⟨lo, h1, h2.symm, fun q hq => cxLexLe_rat.mp ?_⟩
  rw [h2]
  exact cxMin_le _ _ _ (show _ ∈ (m :: qs).map ratCx from List.mem_map_of_mem hq)

/-- The greatest of rational symbols (rule R182). -/
theorem cxMax_rat (m : ℚ × ℚ) (qs : List (ℚ × ℚ)) :
    ∃ hi ∈ m :: qs, cxMax (ratCx m) (qs.map ratCx) = ratCx hi ∧ ∀ q ∈ m :: qs, lexLe q hi := by
  obtain ⟨hi, h1, h2⟩ := List.mem_map.mp
    (show _ ∈ (m :: qs).map ratCx from cxMax_mem (ratCx m) (qs.map ratCx))
  refine ⟨hi, h1, h2.symm, fun q hq => cxLexLe_rat.mp ?_⟩
  rw [h2]
  exact le_cxMax _ _ _ (show _ ∈ (m :: qs).map ratCx from List.mem_map_of_mem hq)

/-- The test without a square root is the test of the squares (rule R184; log entry 12). -/
theorem belowSurds_iff {r a b : ℚ} (ha : 0 ≤ a) (hb : 0 ≤ b) :
    belowSurds r a b = true ↔ (r : ℝ) < ((Real.sqrt a + Real.sqrt b) / 4) ^ 2 := by
  have hsa := Real.sq_sqrt (show (0 : ℝ) ≤ a by exact_mod_cast ha)
  have hsb := Real.sq_sqrt (show (0 : ℝ) ≤ b by exact_mod_cast hb)
  have h0 := Real.sqrt_nonneg (a : ℝ)
  have h1 := Real.sqrt_nonneg (b : ℝ)
  set x := Real.sqrt (a : ℝ)
  set y := Real.sqrt (b : ℝ)
  have e : (r : ℝ) < ((x + y) / 4) ^ 2 ↔ ((16 * r - a - b : ℚ) : ℝ) < 2 * (x * y) := by
    push_cast
    constructor <;> intro h <;> nlinarith
  rw [e]
  simp only [belowSurds, Bool.or_eq_true, decide_eq_true_eq]
  set c := 16 * r - a - b
  have hxy : 0 ≤ x * y := by positivity
  have hq : (4 : ℝ) * a * b = (2 * (x * y)) ^ 2 := by
    rw [← hsa, ← hsb]
    ring
  constructor
  · rintro (h | h)
    · have : (c : ℝ) < 0 := by exact_mod_cast h
      linarith
    · have : (c : ℝ) * c < 4 * a * b := by exact_mod_cast h
      rw [hq] at this
      by_contra hn
      push Not at hn
      nlinarith
  · intro h
    by_cases hc0 : c < 0
    · exact .inl hc0
    · right
      have : (0 : ℝ) ≤ c := by exact_mod_cast not_lt.mp hc0
      have : (c : ℝ) * c < 4 * a * b := by
        rw [hq]
        nlinarith
      exact_mod_cast this

/-- The squared modulus of a rational symbol. -/
theorem normSq_rat (q : ℚ × ℚ) : (ratCx q).normSq = .rat (q.1 ^ 2 + q.2 ^ 2) := by
  simp [Cx.normSq, ratCx, Scalar.mul, Scalar.scale, Scalar.add]
  ring

/-- The ring decision (rule R184). -/
theorem innerRing_iff {lo hi z : Cx} :
    innerRing lo hi z = true ↔ ‖z.val‖ ^ 2 < (threshold lo hi).val ^ 2 := by
  have hn : ∀ w : Cx, ‖w.val‖ ^ 2 = w.normSq.val := fun w => by
    rw [← Complex.normSq_eq_norm_sq, Complex.normSq_apply]
    simp [Cx.normSq, Cx.val]
  unfold innerRing
  split
  · rename_i r a b hr ha hb
    have hr' := hn z
    have ha' := hn lo
    have hb' := hn hi
    rw [hr, Scalar.val_rat] at hr'
    rw [ha, Scalar.val_rat] at ha'
    rw [hb, Scalar.val_rat] at hb'
    have h0 : (0 : ℝ) ≤ a := ha' ▸ sq_nonneg _
    have h1 : (0 : ℝ) ≤ b := hb' ▸ sq_nonneg _
    rw [belowSurds_iff (by exact_mod_cast h0) (by exact_mod_cast h1), threshold_val, hr', ← ha', ← hb',
      Real.sqrt_sq (norm_nonneg _), Real.sqrt_sq (norm_nonneg _)]
  · rw [Scalar.lt_iff, Scalar.val_mul, ← hn z, sq (threshold lo hi).val]

end Sys2Proof.Machine
end

