-- ==== Sys2Proof/Laws/PerInstr.lean ====
section
/-!
SUPPORT. Facts about every instruction as syntax, one lemma for each constructor of `Instr`.
-/

namespace Sys2Proof.Laws.EncodeMatch

/-- The encoding of an instruction meets the mask and match of its operation (rules R95, R96): its
opcode stands in `op`, and every field the operation does not use is 0. -/
def Statement (i : Instr) : Prop := encode i &&& opcodeMask i.opcode = opcodeMatch i.opcode

/-- A mask over a word of format `C` acts on each of its fields. -/
theorem formatC_and (op : BitVec 8) (d0 d1 d2 s0 s1 s2 m0 m1 m2 n0 n1 n2 : BitVec 3)
    (ax ma : BitVec 1) :
    formatC op d0 d1 d2 s0 s1 s2 ax &&&
        (0xFF#8 ++ m0 ++ m1 ++ m2 ++ n0 ++ n1 ++ n2 ++ 0x1F#5 ++ ma : BitVec 32) =
      formatC op (d0 &&& m0) (d1 &&& m1) (d2 &&& m2) (s0 &&& n0) (s1 &&& n1) (s2 &&& n2)
        (ax &&& ma) := by
  have h : op &&& 0xFF#8 = op := BitVec.and_allOnes
  have e : (op ++ d0 ++ d1 ++ d2 ++ s0 ++ s1 ++ s2 ++ 0#5 ++ ax) &&&
      (0xFF#8 ++ m0 ++ m1 ++ m2 ++ n0 ++ n1 ++ n2 ++ 0x1F#5 ++ ma) =
      op ++ (d0 &&& m0) ++ (d1 &&& m1) ++ (d2 &&& m2) ++ (s0 &&& n0) ++ (s1 &&& n1) ++
        (s2 &&& n2) ++ 0#5 ++ (ax &&& ma) := by
    simp only [BitVec.and_append, h, BitVec.zero_and]
  exact e

/-- A word of format `C` meets a mask that frees the fields it uses, where the match of the operation is
its opcode over zeros. -/
theorem formatC_match (o : Opcode) (d0 d1 d2 s0 s1 s2 m0 m1 m2 n0 n1 n2 : BitVec 3)
    (ax ma : BitVec 1)
    (hm : opcodeMask o = (0xFF#8 ++ m0 ++ m1 ++ m2 ++ n0 ++ n1 ++ n2 ++ 0x1F#5 ++ ma : BitVec 32))
    (h0 : d0 &&& m0 = 0#3) (h1 : d1 &&& m1 = 0#3) (h2 : d2 &&& m2 = 0#3) (h3 : s0 &&& n0 = 0#3)
    (h4 : s1 &&& n1 = 0#3) (h5 : s2 &&& n2 = 0#3) (ha : ax &&& ma = 0#1) :
    formatC (opcodeBits o) d0 d1 d2 s0 s1 s2 ax &&& opcodeMask o = opcodeMatch o := by
  rw [hm, formatC_and, h0, h1, h2, h3, h4, h5, ha]
  cases o <;> rfl

/-- A word whose operands are those of two buffers meets the mask that both leave free. -/
theorem wordD0S0_match (o : Opcode) (h : opcodeMask o = 0xFF1F8FFF#32) (d0 s0 : Buf) :
    wordD0S0 o d0 s0 &&& opcodeMask o = opcodeMatch o := by
  refine formatC_match o _ _ _ _ _ _ 0#3 7#3 7#3 0#3 7#3 7#3 _ 1#1 (h.trans rfl) ?_ rfl rfl ?_ rfl rfl rfl <;>
  exact BitVec.and_zero

theorem nop : Statement .nop := by
  unfold Statement
  decide

theorem srst : Statement .srst := by
  unfold Statement
  decide

theorem clrf : Statement .clrf := by
  unfold Statement
  decide

theorem srrc (d0 : Buf) : Statement (.srrc d0) :=
  formatC_match .SRRC _ _ _ _ _ _ 0#3 7#3 7#3 7#3 7#3 7#3 _ 1#1 rfl
    BitVec.and_zero rfl rfl rfl rfl rfl rfl

theorem interp (ax : Axis) (s0 : Buf) : Statement (.interp ax s0) :=
  formatC_match .INTERP _ _ _ _ _ _ 7#3 7#3 7#3 0#3 7#3 7#3 _ 0#1 rfl
    rfl rfl rfl BitVec.and_zero rfl rfl BitVec.and_zero

theorem pow4 (d0 s0 : Buf) : Statement (.pow4 d0 s0) :=
  wordD0S0_match _ rfl d0 s0

theorem fest (s0 : Buf) : Statement (.fest s0) :=
  formatC_match .FEST _ _ _ _ _ _ 7#3 7#3 7#3 0#3 7#3 7#3 _ 1#1 rfl
    rfl rfl rfl BitVec.and_zero rfl rfl rfl

theorem costas (d0 d1 d2 s0 s1 : Buf) : Statement (.costas d0 d1 d2 s0 s1) :=
  formatC_match .COSTAS _ _ _ _ _ _ 0#3 0#3 0#3 0#3 0#3 7#3 _ 1#1 rfl
    BitVec.and_zero BitVec.and_zero BitVec.and_zero BitVec.and_zero BitVec.and_zero rfl rfl

theorem trec (ax : Axis) (d0 d1 s0 : Buf) : Statement (.trec ax d0 d1 s0) :=
  formatC_match .TREC _ _ _ _ _ _ 0#3 0#3 7#3 0#3 7#3 7#3 _ 0#1 rfl
    BitVec.and_zero BitVec.and_zero rfl BitVec.and_zero rfl rfl BitVec.and_zero

theorem quant (d0 s0 : Buf) : Statement (.quant d0 s0) :=
  wordD0S0_match _ rfl d0 s0

theorem barker (d0 : Buf) : Statement (.barker d0) :=
  formatC_match .BARKER _ _ _ _ _ _ 0#3 7#3 7#3 7#3 7#3 7#3 _ 1#1 rfl
    BitVec.and_zero rfl rfl rfl rfl rfl rfl

theorem xcorr (d0 d1 s0 : Buf) : Statement (.xcorr d0 d1 s0) :=
  formatC_match .XCORR _ _ _ _ _ _ 0#3 0#3 7#3 0#3 7#3 7#3 _ 1#1 rfl
    BitVec.and_zero BitVec.and_zero rfl BitVec.and_zero rfl rfl rfl

theorem fext (d0 s0 s1 s2 : Buf) : Statement (.fext d0 s0 s1 s2) :=
  formatC_match .FEXT _ _ _ _ _ _ 0#3 7#3 7#3 0#3 0#3 0#3 _ 1#1 rfl
    BitVec.and_zero rfl rfl BitVec.and_zero BitVec.and_zero BitVec.and_zero rfl

theorem ltr2pam (d0 s0 : Buf) : Statement (.ltr2pam d0 s0) :=
  wordD0S0_match _ rfl d0 s0

theorem pam2ltr (d0 s0 : Buf) : Statement (.pam2ltr d0 s0) :=
  wordD0S0_match _ rfl d0 s0

theorem pam2qam (d0 s0 : Buf) : Statement (.pam2qam d0 s0) :=
  wordD0S0_match _ rfl d0 s0

theorem qam2pam (d0 s0 : Buf) : Statement (.qam2pam d0 s0) :=
  wordD0S0_match _ rfl d0 s0

theorem pam2q42 (d0 s0 : Buf) : Statement (.pam2q42 d0 s0) :=
  wordD0S0_match _ rfl d0 s0

theorem q422pam (d0 s0 : Buf) : Statement (.q422pam d0 s0) :=
  wordD0S0_match _ rfl d0 s0

theorem pam2sym (d0 s0 : Buf) : Statement (.pam2sym d0 s0) :=
  wordD0S0_match _ rfl d0 s0

theorem sym2pam (d0 s0 : Buf) : Statement (.sym2pam d0 s0) :=
  wordD0S0_match _ rfl d0 s0

end Sys2Proof.Laws.EncodeMatch
end

