-- ==== Sys2Proof/Laws/Step.lean ====
section
/-!
SUPPORT. What a step of the block can do, said once: how an operation ends, which host access comes
first, and what a host access changes.
-/

namespace Sys2Proof.Machine

/-- How an operation ends: `SRST` in its reset, any other as its rule says. -/
theorem exec_cases {i : Instr} {s t : State} (h : exec i s = .next t) :
    (i = .srst ∧ t = softReset s) ∨
    (i ≠ .srst ∧ ∃ u, ruleOf i s = .ok u ∧ t = complete u) ∨
    (i ≠ .srst ∧ ∃ f n, ruleOf i s = .raise f n ∧ t = raise f n s) := by
  by_cases hi : i = .srst
  · subst hi
    cases h
    exact .inl ⟨rfl, rfl⟩
  · rw [exec_eq_finish s hi] at h
    rcases finish_eq_next.mp h with hu | hr
    · exact .inr (.inl ⟨hi, hu⟩)
    · exact .inr (.inr ⟨hi, hr⟩)

/-- How an accepted word ends. -/
theorem runWord_cases {w : CmdWord} {s t : State} (h : runWord w s = .next t) :
    (∃ i, decode w = .instr i ∧ exec i s = .next t) ∨
    (decode w = .illegalOpcode ∧ t = raise .illegalOpcode 0 s) ∨
    (decode w = .illegalField ∧ t = raise .illegalField 0 s) := by
  unfold runWord at h
  split at h
  · rename_i hd
    cases h
    exact .inr (.inl ⟨hd, rfl⟩)
  · rename_i hd
    cases h
    exact .inr (.inr ⟨hd, rfl⟩)
  · rename_i i hd
    exact .inl ⟨i, hd, h⟩

theorem decode_srstWord : decode srstWord = .instr .srst := by decide

@[simp] theorem runWord_srstWord (s : State) : runWord srstWord s = .next (softReset s) := by
  unfold runWord
  rw [decode_srstWord]
  rfl

/-- The host accesses that can come before the end of an operation (rules R74, R290). -/
theorem accessWhileBusy_some {s : State} {x : HostAccess} (h : accessWhileBusy s = some x) :
    s.busyReads ≠ 0 ∧ ∃ rest, s.pending = x :: rest ∧
      (x = .reset ∨ ∃ a, x = .read a ∧ (a = 0x02 ∨ a = 0x00)) := by
  unfold accessWhileBusy at h
  split at h
  · cases h
  · rename_i hb
    refine ⟨hb, ?_⟩
    split at h
    · rename_i a rest hp
      split at h
      · rename_i hc
        cases h
        exact ⟨rest, hp, .inr ⟨a, rfl, by simpa [completesWhileBusy] using hc⟩⟩
      · cases h
    · rename_i rest hp
      cases h
      exact ⟨rest, hp, .inl rfl⟩
    · cases h
    · cases h

/-- What one step can do. -/
theorem step_cases {s t : State} (h : step s = .next t) :
    (∃ w x rest, s.inFlight = some w ∧ s.busyReads ≠ 0 ∧ s.pending = x :: rest ∧
      (x = .reset ∨ ∃ a, x = .read a ∧ (a = 0x02 ∨ a = 0x00)) ∧
      t = takeAccess x { s with pending := rest, busyReads := s.busyReads - 1 }) ∨
    (∃ w, s.inFlight = some w ∧ accessWhileBusy s = none ∧ runWord w s = .next t) ∨
    (s.inFlight = none ∧ s.pending = [] ∧ t = s) ∨
    (∃ x rest, s.inFlight = none ∧ s.pending = x :: rest ∧
      t = takeAccess x { s with pending := rest }) := by
  unfold step at h
  split at h
  · rename_i w hw
    unfold busyStep at h
    split at h
    · rename_i x hx
      obtain ⟨hb, rest, hp, hx'⟩ := accessWhileBusy_some hx
      cases h
      exact .inl ⟨w, x, rest, hw, hb, hp, hx', by rw [hp, List.tail_cons]⟩
    · rename_i hn
      exact .inr (.inl ⟨w, hw, hn, h⟩)
  · rename_i hn
    cases h
    unfold idleStep
    split
    · rename_i hp
      exact .inr (.inr (.inl ⟨hn, hp, rfl⟩))
    · rename_i x rest hp
      exact .inr (.inr (.inr ⟨x, rest, hn, hp, rfl⟩))

/-- A step of an idle block takes the oldest host access (rule R73). -/
theorem step_access {s : State} {x : HostAccess} {rest : List HostAccess} (h : s.inFlight = none)
    (hp : s.pending = x :: rest) : step s = .next (takeAccess x { s with pending := rest }) := by
  simp only [step, h, idleStep, hp]

/-- An idle block without a host access stays idle (rule R293). -/
theorem step_quiet {s : State} (h : s.inFlight = none) (hp : s.pending = []) : step s = .next s := by
  simp only [step, h, idleStep, hp]

/-! The address map. -/

/-- The register page is the same for every `AW` (rules R38, R39). -/
theorem target_page (s : State) {a : Nat} (h : a ≤ 0xFF) : target s.aw a = target 16 a := by
  have hw : ¬ windowStart s.aw ≤ a := by
    rw [windowStart_aw]
    have := bufCap_ge s
    omega
  have h16 : ¬ windowStart 16 ≤ a := by
    have : windowStart 16 = 0x100000 := by decide
    omega
  simp only [target, hw, h16, false_and, if_false]

/-- A read of an address of the page that names a register (rules R26 to R37). -/
theorem memRead_reg (s : State) {a : Nat} {r : Reg} (h : a ≤ 0xFF) (hr : target 16 a = .reg r) :
    memRead s a = readReg s r := by
  rw [memRead, target_page s h, hr]

/-- A write of an address of the page that names a register (rules R26 to R37). -/
theorem memWrite_reg (s : State) {a : Nat} {r : Reg} (w : PortWord) (h : a ≤ 0xFF)
    (hr : target 16 a = .reg r) : memWrite s a w = writeReg s r w := by
  rw [memWrite, target_page s h, hr]

/-- Outside the page and the window there is nothing (rule R63). -/
theorem target_beyond (s : State) {a : Nat} (h : 0xFF < a)
    (hw : ¬ (2 ^ (s.aw + 4) ≤ a ∧ a < 2 ^ (s.aw + 5))) : target s.aw a = .unmapped := by
  have h2 : 2 * windowStart s.aw = 2 ^ (s.aw + 5) := by
    rw [windowStart, Nat.pow_succ 2 (s.aw + 4), Nat.mul_comm]
  unfold target
  rw [if_neg (by rw [h2]; exact hw), if_neg (by simp only [lenBase]; omega)]
  have : regAt a = none := by
    unfold regAt
    split <;> first | rfl | omega
  rw [this]

/-- Two addresses never name one thing (rules R38, R39, R64). -/
theorem target_injective {w a b : Nat} {t : Target} (ha : target w a = t) (hb : target w b = t)
    (ht : t ≠ .unmapped) : a = b := by
  subst ha
  have hW : windowStart w = 8 * compCount w := by
    simp only [windowStart, compCount, pow_succ]
    ring
  unfold target at hb ht
  split at ht <;> split at hb
  · rename_i h1 h2
    injection hb with e1 e2
    simp only [Fin.ofNat, Fin.mk.injEq] at e1
    have hc : 0 < compCount w := Nat.two_pow_pos _
    have l1 : 8 ≤ a / compCount w := by rw [Nat.le_div_iff_mul_le hc]; omega
    have l2 : 8 ≤ b / compCount w := by rw [Nat.le_div_iff_mul_le hc]; omega
    have u1 : a / compCount w < 16 := by rw [Nat.div_lt_iff_lt_mul hc]; omega
    have u2 : b / compCount w < 16 := by rw [Nat.div_lt_iff_lt_mul hc]; omega
    have : a / compCount w = b / compCount w := by omega
    rw [← Nat.div_add_mod a (compCount w), ← Nat.div_add_mod b (compCount w), this, e2]
  · rename_i h1 h2
    split at hb
    · cases hb
    · split at hb <;> cases hb
  · rename_i h1 h2
    split at hb
    · cases hb
    · split at hb <;> cases hb
  · rename_i h1 h2
    split at ht <;> split at hb
    · rename_i h3 h4
      injection hb with e
      simp only [Fin.ofNat, Fin.mk.injEq, lenBase] at *
      omega
    · rename_i h3 h4
      split at hb <;> cases hb
    · rename_i h3 h4
      split at hb <;> cases hb
    · rename_i h3 h4
      clear h1 h2 h3 h4
      cases hx : regAt a with
      | none => simp [hx] at ht
      | some r =>
        cases hy : regAt b with
        | none => simp [hx, hy] at hb
        | some r' =>
          simp only [hx, hy, Target.reg.injEq] at hb
          subst hb
          unfold regAt at hx hy
          split at hx <;> cases hx <;> (split at hy <;> first | rfl | cases hy)

/-- An address that names a register is one of the page (rules R26 to R37). -/
theorem regAt_of_target {w a : Nat} {r : Reg} (h : target w a = .reg r) : regAt a = some r := by
  unfold target at h
  split at h
  · cases h
  · split at h
    · cases h
    · split at h
      · rename_i hr
        cases h
        exact hr
      · cases h

/-- The address of a component in the window (rule R64). -/
theorem target_cell (s : State) (n : Buf) (ax : Axis) {i : Nat} (h : i < s.bufCap) :
    target s.aw (windowBase s.aw n + compKey i ax) = .cell n (compKey i ax) := by
  have hn := n.isLt
  have hk : compKey i ax < 2 * s.bufCap := by cases ax <;> simp only [compKey] <;> omega
  have hb : windowBase s.aw n = (8 + n.val) * (2 * s.bufCap) := by
    simp only [windowBase, State.bufCap, pow_succ]
    ring
  have hp := bufCap_pos s
  have hlo : 8 * (2 * s.bufCap) ≤ (8 + n.val) * (2 * s.bufCap) := Nat.mul_le_mul_right _ (by omega)
  have hhi : (8 + n.val) * (2 * s.bufCap) ≤ 15 * (2 * s.bufCap) := Nat.mul_le_mul_right _ (by omega)
  unfold target
  rw [if_pos (by rw [windowStart_aw, hb]; omega), compCount_aw, hb, Nat.add_comm,
    Nat.add_mul_mod_self_right, Nat.mod_eq_of_lt hk, Nat.add_mul_div_right _ _ (by omega),
    Nat.div_eq_of_lt hk]
  congr 1
  ext
  simp only [Fin.ofNat]
  omega

/-- What a host write can do: offer a command, write `CTRL`, a configuration register, a length, a
component, or nothing. -/
theorem memWrite_cases (s : State) (a : Nat) (w : PortWord) :
    memWrite s a w = offerCommand w.toInt s ∨
    memWrite s a w = { s with ctrl := w.toInt &&& 0x3#32 } ∨
    (∃ c, memWrite s a w = { s with cfg := c }) ∨
    (∃ n : Buf, memWrite s a w = writeLen s n w.toInt) ∨
    (∃ (n : Buf) (k : Nat), k < compCount s.aw ∧ memWrite s a w = writeCell s n k w.toNum) ∨
    memWrite s a w = s := by
  unfold memWrite
  split
  · rename_i r _
    cases r <;>
      first
      | exact .inl rfl
      | exact .inr (.inl rfl)
      | exact .inr (.inr (.inl ⟨_, rfl⟩))
  · rename_i n _
    exact .inr (.inr (.inr (.inl ⟨n, rfl⟩)))
  · rename_i n k hk
    refine .inr (.inr (.inr (.inr (.inl ⟨n, k, ?_, rfl⟩))))
    unfold target at hk
    split at hk
    · cases hk
      exact Nat.mod_lt _ (Nat.two_pow_pos _)
    · split at hk
      · cases hk
      · split at hk <;> cases hk
  · exact .inr (.inr (.inr (.inr (.inr rfl))))

/-- What an offered command changes (rules R113, R260). -/
theorem offerCommand_cases (w : CmdWord) (s : State) :
    (s.status.fault = true ∧ w ≠ srstWord ∧ offerCommand w s = s) ∨
    ((s.status.fault = false ∨ w = srstWord) ∧
      offerCommand w s = { s with
        inFlight := some w
        busyReads := Config.opTime s.epoch
        status := { s.status with done := false } }) := by
  unfold offerCommand
  split
  · rename_i h
    simp only [Bool.and_eq_true, decide_eq_true_eq] at h
    exact .inl ⟨h.1, h.2, rfl⟩
  · rename_i h
    refine .inr ⟨?_, rfl⟩
    simp only [Bool.and_eq_true, decide_eq_true_eq, not_and_or, Bool.not_eq_true, not_not] at h
    exact h

/-- A length that is written stays within `BUFCAP`, and the cells stay as they are (rule R38). -/
theorem buffersSound_writeLen {s : State} {n : Buf} {v : CmdWord} (h : s.BuffersSound) :
    (writeLen s n v).BuffersSound := by
  unfold writeLen
  split
  · rename_i hv
    intro m
    by_cases e : m = n
    · subst e
      rw [State.bufLen, buf_setBuf_same]
      exact ⟨(h m).1, hv⟩
    · rw [State.bufLen, buf_setBuf_ne s _ e]
      exact h m
  · exact h

/-- A component that is written keeps the canonical form (rule R66). -/
theorem buffersSound_writeCell {s : State} {n : Buf} {k : Nat} {v : Scalar} (hk : k < compCount s.aw)
    (h : s.BuffersSound) : (writeCell s n k v).BuffersSound := by
  intro m
  unfold writeCell
  by_cases e : m = n
  · subst e
    rw [State.bufLen, buf_setBuf_same]
    exact ⟨wf_setCell v hk (h m).1, (h m).2⟩
  · rw [State.bufLen, buf_setBuf_ne s _ e]
    exact h m

end Sys2Proof.Machine
end

