-- ==== Sys2Proof/Tests/Slice0.lean ====
section
/-!
SUPPORT. Tests on small states, from the vectors of `95_test_vectors.md`, and a witness for the
hypotheses of every statement that has some.
-/

namespace Sys2Proof.Tests

open Sys2Proof.Machine

-- One theorem at a time: many kernel evaluations side by side would each hold a thread.
set_option Elab.async false

/-! Helpers. -/

/-- A state with a buffer loaded by the host. -/
def loadBuf (n : Buf) (zs : List (ℚ × ℚ)) (s : State) : State :=
  s.setBuf n { len := BitVec.ofNat 32 zs.length, cells := packCells 0 (zs.map fun q => .ofCx (ratCx q)) }

/-- A real sequence as pairs. -/
def reals (xs : List ℚ) : List (ℚ × ℚ) := xs.map fun x => (x, 0)

/-- The reset state with the configuration registers set. -/
def withCfg (c : Cfg) : State := { State.reset with cfg := c }

/-- The state an operation answers; the reset state where it answers none. -/
def after (o : Host.Outcome State Fault Refusal) : State :=
  match o with
  | .next t => t
  | .fault _ => State.reset
  | .refused _ => State.reset

/-- What component `ax` of a buffer holds. -/
def axisOf (s : State) (n : Buf) (ax : Axis) : List (Option Scalar) :=
  (List.range (s.bufLen n)).map fun i => s.comp n i ax

/-- Rational components. -/
def rats (xs : List ℚ) : List (Option Scalar) := xs.map fun x => some (.rat x)

/-- A scalar lies strictly between two rationals, by its certain bounds. -/
def between (lo hi : ℚ) (x : Scalar) : Bool :=
  decide ((x.sub (.rat lo)).certainPos = some true) && decide ((x.sub (.rat hi)).certainPos = some false)

/-- A component lies strictly between two rationals. -/
def compBetween (lo hi : ℚ) (x : Option Scalar) : Bool :=
  match x with
  | some v => between lo hi v
  | none => false

/-- Legal values of the configuration registers that the tests share. -/
def cfgBase : Cfg :=
  { Cfg.reset with
    p := 2#32, l := 1#32, hdr := 7#32, modType := 1#32, flen := 11#32
    beta := .rat (1 / 2), fs := .rat 8, muC := .rat 1, muT := .rat (1 / 2), delta := .rat (1 / 2)
    tinit := .rat 4, tmLo := .rat 3, tmHi := .rat 4, trig := .rat 60, amin := .rat 1, amax := .rat 3
    tq := .rat 4 }

/-- The reset state with those registers. -/
def base : State := withCfg cfgBase

/-! WellFormed: each check refuses an ill-formed term (rule R98). -/

theorem test_costas_d0_d1_ill_formed : (Instr.costas 1 1 2 0 0).wellFormed = false := by decide
theorem test_costas_d0_d2_ill_formed : (Instr.costas 1 2 1 0 0).wellFormed = false := by decide
theorem test_costas_d1_d2_ill_formed : (Instr.costas 0 7 7 0 0).wellFormed = false := by decide
theorem test_trec_ill_formed : (Instr.trec .re 1 1 0).wellFormed = false := by decide
theorem test_xcorr_ill_formed : (Instr.xcorr 0 0 0).wellFormed = false := by decide
theorem test_source_may_be_destination :
    (Instr.quant 0 0).wellFormed = true ∧ (Instr.costas 0 1 2 0 0).wellFormed = true := by decide

/-! Decoding: the words of V30, one at least for each constructor, then V31 and V32. -/

theorem test_decode_system :
    decode 0x00000000#32 = .instr .nop ∧ decode 0x01000000#32 = .instr .srst ∧
    decode 0x02000000#32 = .instr .clrf := by decide

theorem test_decode_pulse :
    decode 0x10000000#32 = .instr (.srrc 0) ∧ decode 0x11001000#32 = .instr (.interp .re 1) ∧
    decode 0x11001001#32 = .instr (.interp .im 1) := by decide

theorem test_decode_frequency :
    decode 0x18602000#32 = .instr (.pow4 3 2) ∧ decode 0x19003000#32 = .instr (.fest 3) := by decide

theorem test_decode_loops :
    decode 0x204E0200#32 = .instr (.costas 2 3 4 0 1) ∧
    decode 0x28280000#32 = .instr (.trec .re 1 2 0) ∧
    decode 0x28B82001#32 = .instr (.trec .im 5 6 2) := by decide

theorem test_decode_quantizer :
    decode 0x30200000#32 = .instr (.quant 1 0) ∧ decode 0x30000000#32 = .instr (.quant 0 0) := by decide

theorem test_decode_frame :
    decode 0x38600000#32 = .instr (.barker 3) ∧ decode 0x394C1000#32 = .instr (.xcorr 2 3 1) ∧
    decode 0x3A8014C0#32 = .instr (.fext 4 1 2 3) := by decide

theorem test_decode_mapper_codes :
    decode 0x40200000#32 = .instr (.ltr2pam 1 0) ∧ decode 0x41001000#32 = .instr (.pam2ltr 0 1) := by decide

theorem test_decode_mapper_points :
    decode 0x42401000#32 = .instr (.pam2qam 2 1) ∧ decode 0x43202000#32 = .instr (.qam2pam 1 2) ∧
    decode 0x44401000#32 = .instr (.pam2q42 2 1) ∧ decode 0x45202000#32 = .instr (.q422pam 1 2) ∧
    decode 0x46401000#32 = .instr (.pam2sym 2 1) ∧ decode 0x47202000#32 = .instr (.sym2pam 1 2) := by
  decide

theorem test_decode_illegal_opcode :
    decode 0x03000000#32 = .illegalOpcode ∧ decode 0xFF000000#32 = .illegalOpcode ∧
    decode 0x12000000#32 = .illegalOpcode ∧ decode 0x48000000#32 = .illegalOpcode ∧
    decode 0x3B000000#32 = .illegalOpcode := by decide

theorem test_decode_illegal_field :
    decode 0x30240000#32 = .illegalField ∧ decode 0x00000001#32 = .illegalField ∧
    decode 0x30200002#32 = .illegalField ∧ decode 0x30200001#32 = .illegalField ∧
    decode 0x28240000#32 = .illegalField ∧ decode 0x20000000#32 = .illegalField ∧
    decode 0x39000000#32 = .illegalField := by decide

/-! One step of each operation. -/

/-- V35, `NOP`: `DONE` is set, and `irq` follows where `CTRL` lets it. -/
theorem test_nop_sets_done :
    statusWord (after (exec .nop base)) = 0x00000002#32 ∧
    (after (exec .nop { base with ctrl := 1#32 })).irq = true ∧
    (after (exec .nop base)).irq = false := by decide

/-- V34, `SRST`: `STATUS` is 0, `HITCAP` 80, the lengths 0, the elements as they were. -/
theorem test_srst_clears_fault :
    let t := after (exec .srst (loadBuf 0 [(5, 6)]
      { base with status := { Status.reset with fault := true, fcode := .config } }))
    statusWord t = 0#32 ∧ t.cfg.hitcap = 80#32 ∧ t.bufLen 0 = 0 ∧ t.comp 0 0 .im = some (.rat 6) := by
  decide +kernel

/-- V34, `CLRF`: the condition flags are cleared. -/
theorem test_clrf_clears_conditions :
    statusWord (after (exec .clrf
      { base with status := { Status.reset with done := true, hitovf := true, unrec := true } })) =
      0x00000002#32 := by decide

/-- V34, P4: a command is dropped while a fault stands, `SRST` is not. -/
theorem test_dropped_while_faulted :
    let s := { base with status := { Status.reset with fault := true, fcode := .config } }
    offerCommand 0x02000000#32 s = s ∧ (offerCommand 0x01000000#32 s).inFlight = some 0x01000000#32 := by
  decide +kernel

/-- V31: an undefined opcode faults, and the step records it. -/
theorem test_illegal_opcode_step :
    let t := after (step (State.reset.withFetchWord 32 0x03000000))
    statusWord t = 0x00000104#32 ∧ t.finfo = 0#32 ∧ t.fcmd = 0x03000000#32 := by decide

/-- V32: a nonzero unused field faults. -/
theorem test_illegal_field_step :
    let t := after (step (State.reset.withFetchWord 32 0x30240000))
    statusWord t = 0x00000204#32 ∧ t.fcmd = 0x30240000#32 := by decide

/-- V33: directly after reset `SRRC`, `QUANT`, `BARKER` and `FEST` fault `CONFIG`. -/
theorem test_config_after_reset :
    ∀ i ∈ [Instr.srrc 0, .quant 1 0, .barker 0, .fest 0],
      statusWord (after (exec i State.reset)) = 0x00000304#32 := by decide +kernel

/-- V33: with `FS = 1`, `FEST` of an empty buffer faults `EMPTY`. -/
theorem test_fest_empty :
    statusWord (after (exec (.fest 0) (withCfg { Cfg.reset with fs := .rat 1 }))) = 0x00000504#32 := by
  decide +kernel

/-- V1: the kernel of `L=2, P=2, BETA=0.5`: its centre, the removable singularity, its last tap. -/
theorem test_srrc_taps :
    let t := after (exec (.srrc 0) (withCfg { cfgBase with l := 2#32 }))
    t.bufLen 0 = 9 ∧ compBetween 0.803711548671 0.803711548673 (t.comp 0 4 .re) ∧
    compBetween 0.409154943091 0.409154943093 (t.comp 0 3 .re) ∧
    compBetween 0.0300105438718 0.0300105438720 (t.comp 0 8 .re) := by decide +kernel

/-- V1c: a kernel with an offset is not symmetric. -/
theorem test_srrc_offset :
    let t := after (exec (.srrc 0)
      (withCfg { cfgBase with l := 2#32, beta := .rat (3 / 10), toff := .rat (1 / 4) }))
    compBetween 0.0115984051942 0.0115984051944 (t.comp 0 0 .re) ∧
    compBetween 0.0552793580061 0.0552793580063 (t.comp 0 8 .re) := by decide +kernel

/-- V4: a unit sample interpolated beside its centre is the pulse there. -/
theorem test_interp_unit :
    let t := after (exec (.interp .im 1) (loadBuf 1
      [(0, 0), (0, 0), (0, 0), (0, 0), (0, 1), (0, 0), (0, 0), (0, 0), (0, 0)]
      (withCfg { cfgBase with l := 2#32, tq := .rat (17 / 4) })))
    between 0.773950751192 0.773950751194 t.res.ival := by decide +kernel

/-- V5: the window leaves the buffer. -/
theorem test_interp_margin :
    statusWord (after (exec (.interp .re 1) (loadBuf 1 (reals [0, 0, 0, 0, 1, 0, 0, 0, 0])
      (withCfg { cfgBase with l := 2#32, tq := .rat 5 })))) = 0x00000404#32 := by decide +kernel

/-- V7: fourth powers, in place. -/
theorem test_pow4_values :
    let t := after (exec (.pow4 1 1) (loadBuf 1 [(1, 1), (0, 2), (1, 2)] base))
    axisOf t 1 .re = rats [-4, 16, -7] ∧ axisOf t 1 .im = rats [0, 0, -24] := by decide +kernel

/-- V6 (c): of two equal peaks the first in scan order wins. -/
theorem test_fest_tie :
    (after (exec (.fest 2) (loadBuf 2 (reals [1, 0, -1, 0, 1, 0, -1, 0]) base))).cfg.f0 =
      .rat (-1 / 2) := by decide +kernel

/-- V6 (d): five zeros, `FS = 10`. -/
theorem test_fest_zeros :
    (after (exec (.fest 2) (loadBuf 2 (reals [0, 0, 0, 0, 0])
      (withCfg { cfgBase with fs := .rat 10 })))).cfg.f0 = .rat (-1) := by decide +kernel

/-- V8: a real signal on the loop's fixed point. -/
theorem test_costas_fixed_point :
    let t := after (exec (.costas 2 3 4 0 1) (loadBuf 0 (reals [1, 1]) (loadBuf 1 (reals [1])
      (withCfg { cfgBase with fs := .rat 1 }))))
    axisOf t 2 .re = rats [1, 1] ∧ axisOf t 4 .im = rats [1, 1] ∧ t.res.theta = .rat 0 := by
  decide +kernel

/-- V8b, its first two samples: the phase moves once two branches see the signal. -/
theorem test_costas_theta :
    let t := after (exec (.costas 2 3 4 0 1)
      (loadBuf 0 [(1, 1 / 2), (1 / 2, -1)] (loadBuf 1 (reals [1 / 2, 1 / 4])
        (withCfg { cfgBase with f0 := .rat (1 / 8), fs := .rat 1, muC := .rat 2 }))))
    compBetween (-0.353553390594) (-0.353553390593) (t.comp 2 1 .re) ∧
    between 0.0113836467279 0.0113836467281 t.res.theta := by decide +kernel

/-- V10: three iterations; the other component of the destinations is 0. -/
theorem test_trec_three :
    let t := after (exec (.trec .re 1 2 0)
      (loadBuf 0 (reals [0, 0, 0, 0, 1, 0, 0, 0, 0, 0, 0, 0, 0]) base))
    t.res.nsym = 3#32 ∧ t.res.tnow = .rat 10 ∧ t.bufLen 2 = 3 ∧ t.comp 1 2 .im = some (.rat 0) ∧
    compBetween 0.8037115486 0.8037115488 (t.comp 1 0 .re) := by decide +kernel

/-- V11: the first probe leaves the buffer. -/
theorem test_trec_margin :
    let t := after (exec (.trec .re 1 2 0)
      (loadBuf 0 (reals [1, 1, 1, 1, 1, 1, 1, 1]) (withCfg
        { cfgBase with l := 2#32, tinit := .rat 0, tmLo := .rat 2, tmHi := .rat 1 })))
    statusWord t = 0x00000404#32 ∧ t.finfo = 0#32 ∧ t.bufLen 1 = 0 := by decide +kernel

/-- V15: a symbol exactly at the threshold goes to the outer ring; `sgn(0) = 0`. -/
theorem test_quant_boundary :
    let t := after (exec (.quant 1 0) (loadBuf 0
      [(-3, -4), (3, 4), (3 / 2, 2), (3 / 2, 19 / 10), (0, 5 / 2), (0, 0)] base))
    axisOf t 1 .re = rats [-3, 3, 3, 1, 0, 0] ∧ axisOf t 1 .im = rats [-3, 3, 3, 1, 3, 0] ∧
    t.res.thresh = .rat (5 / 2) := by decide +kernel

/-- V14: the extremes are those of the real part first. -/
theorem test_quant_threshold :
    let t := after (exec (.quant 1 0) (loadBuf 0
      [(29 / 10, 32 / 10), (-31 / 10, -28 / 10), (9 / 10, -12 / 10), (-11 / 10, 8 / 10)] base))
    axisOf t 1 .re = rats [3, -3, 1, -1] ∧ between 2.12397107278 2.12397107280 t.res.thresh := by
  decide +kernel

/-- V13: the header of length 7 for `4QAM`. -/
theorem test_barker_seven :
    let t := after (exec (.barker 3) (withCfg { cfgBase with modType := 0#32 }))
    axisOf t 3 .im = rats [11 / 10, 11 / 10, 11 / 10, -11 / 10, -11 / 10, 11 / 10, -11 / 10] := by
  decide +kernel

/-- The stream of V16: `header(7,1)` and the letter `H`. -/
def streamH : List (ℚ × ℚ) :=
  [(3, 3), (3, 3), (3, 3), (-3, -3), (-3, -3), (3, 3), (-3, -3), (-1, -1), (-3, -3), (1, 1), (-3, -3)]

/-- V16: one hit on each axis. -/
theorem test_xcorr_one_hit :
    let t := after (exec (.xcorr 2 3 1) (loadBuf 1 streamH base))
    axisOf t 2 .re = rats [6] ∧ axisOf t 3 .im = rats [63] ∧ t.res.nhr = 1#32 ∧
    statusWord t = 0x00000002#32 := by decide +kernel

/-- V18: the one recorded hit at lag 0 is trimmed away, and `HITOVF` is set. -/
theorem test_xcorr_full_table :
    let t := after (exec (.xcorr 2 3 1) (loadBuf 1 streamH
      (withCfg { cfgBase with trig := .rat 9, hitcap := 1#32 })))
    t.bufLen 2 = 0 ∧ axisOf t 3 .re = rats [-9] ∧ statusWord t = 0x00020002#32 := by decide +kernel

/-- V20: a 180 degree slip of the real axis is undone. -/
theorem test_fext_slip :
    let t := after (exec (.fext 4 1 2 3) (loadBuf 1 (streamH.map fun z => (-z.1, z.2))
      (loadBuf 2 [(6, 6)] (loadBuf 3 [(-63, 63)] base))))
    axisOf t 4 .re = rats [72] ∧ statusWord t = 0x00000002#32 := by decide +kernel

/-- V20d: a hit index that is no natural number. -/
theorem test_fext_domain :
    statusWord (after (exec (.fext 4 1 2 3) (loadBuf 1 streamH
      (loadBuf 2 [(13 / 2, 6)] (loadBuf 3 [(63, 63)] base))))) = 0x00000704#32 := by decide +kernel

/-- V22: the levels of `[72, 0, 255]`. -/
theorem test_ltr2pam_levels :
    axisOf (after (exec (.ltr2pam 1 0) (loadBuf 0 (reals [72, 0, 255]) base))) 1 .re =
      rats [-1, -3, 1, -3, -3, -3, -3, -3, 3, 3, 3, 3] := by decide +kernel

/-- V22: the second element is no character code. -/
theorem test_ltr2pam_domain :
    let t := after (exec (.ltr2pam 1 0) (loadBuf 0 (reals [72, 256]) base))
    statusWord t = 0x00000704#32 ∧ t.finfo = 1#32 := by decide +kernel

/-- V22: nine levels give two codes; the odd level is ignored. -/
theorem test_pam2ltr_codes :
    axisOf (after (exec (.pam2ltr 0 1)
      (loadBuf 1 (reals [-1, -3, 1, -3, -1, -3, -3, -1, 3]) base))) 0 .re = rats [72, 65] := by
  decide +kernel

/-- V22: the third level is none of the four. -/
theorem test_pam2ltr_domain :
    (after (exec (.pam2ltr 0 1) (loadBuf 1 (reals [-1, -3, 2, -3]) base))).finfo = 2#32 := by
  decide +kernel

/-- V23: the four levels as `4QAM`, and back. -/
theorem test_pam2qam_points :
    let t := after (exec (.pam2qam 2 1) (loadBuf 1 (reals [-3, -1, 1, 3]) base))
    axisOf t 2 .re = rats [-1, -1, 1, 1] ∧ axisOf t 2 .im = rats [-1, 1, -1, 1] := by decide +kernel

theorem test_qam2pam_levels :
    let t := after (exec (.qam2pam 1 2) (loadBuf 2 [(-1, -1), (-1, 1), (1, -1), (1, 1)] base))
    axisOf t 1 .re = rats [-3, -1, 1, 3] ∧ t.status.unrec = false := by decide +kernel

/-- V23: the four levels as `QAM4_2`, and back. -/
theorem test_pam2q42_points :
    let t := after (exec (.pam2q42 2 1) (loadBuf 1 (reals [-3, -1, 1, 3]) base))
    axisOf t 2 .re = rats [-3, -1, 1, 3] ∧ axisOf t 2 .im = rats [-3, -1, 1, 3] := by decide +kernel

theorem test_q422pam_levels :
    let t := after (exec (.q422pam 1 2) (loadBuf 2 [(-3, -3), (-1, -1), (1, 1), (3, 3)] base))
    axisOf t 1 .re = rats [-3, -1, 1, 3] ∧ t.status.unrec = false := by decide +kernel

/-- V24, `MOD = 1`: the catch-all sets `UNREC`. -/
theorem test_pam2sym_catch_all :
    let t := after (exec (.pam2sym 2 1) (loadBuf 1 (reals [-1, -3, 1, 3, 5]) base))
    axisOf t 2 .im = rats [-1, -3, 1, 3, 3] ∧ t.status.unrec = true := by decide +kernel

/-- V24, `MOD = 2`: the imaginary component takes no part. -/
theorem test_sym2pam_real_axis :
    let t := after (exec (.sym2pam 1 2) (loadBuf 2 [(-3, 5), (1, 0), (2, 0)]
      (withCfg { cfgBase with modType := 2#32 })))
    axisOf t 1 .re = rats [-3, 1, 3] ∧ t.status.unrec = true := by decide +kernel

/-- A result may not be read before it is written: an operation on a component never written refuses
(rule R68). -/
theorem test_unwritten_refused :
    exec (.pow4 1 0) (base.setBuf 0 { len := 1#32, cells := [(0, .rat 1)] }) =
      .refused (.uninitialised 0) := rfl

/-! Exact arithmetic where certain bounds decide nothing (rules R8, R13, R14, R143). -/

/-- `sqrt 2 * sqrt 3 * sqrt 6` as the arithmetic holds it: a product, not a number. -/
def rootProduct : Scalar := (Scalar.prod (.root (.rat 2)) (.root (.rat 3))).prod (.root (.rat 6))

theorem rootProduct_val : rootProduct.val = 6 := by
  have h : Real.sqrt 2 * Real.sqrt 3 = Real.sqrt 6 := by
    rw [← Real.sqrt_mul (by norm_num)]
    norm_num
  simp [rootProduct, h]

/-- R13: `floor` and `ceil` of it are 6. -/
theorem test_floor_of_product : rootProduct.floor = 6 ∧ rootProduct.ceil = 6 := by
  rw [Scalar.floor_val, Scalar.ceil_val, rootProduct_val]
  norm_num

/-- R14: the sign of a difference that is 0 is 0. -/
theorem test_sgn_of_difference : (Scalar.sum rootProduct (.rat (-6))).sgn = 0 := by
  simp [Scalar.sgn_eq, rootProduct_val]

/-- One sample of five: every bin of its spectrum has magnitude 1. -/
def fiveCx : List Cx := (reals [0, 1, 0, 0, 0]).map ratCx

theorem fiveCx_bin (k : ℤ) : ‖realDft (fiveCx.map Cx.val) k‖ = 1 := by
  have : fiveCx.map Cx.val = [0, 1, 0, 0, 0] := by simp [fiveCx, reals, ratCx, Cx.val, Complex.ext_iff]
  rw [this]
  simp only [realDft, List.length_cons, List.length_nil, Finset.sum_range_succ, Finset.sum_range_zero]
  simp
  rw [show -(2 * (Real.pi : ℂ) * k / 5 * Complex.I) = ((-(2 * Real.pi * k / 5) : ℝ) : ℂ) * Complex.I by
    push_cast
    ring]
  exact Complex.norm_exp_ofReal_mul_I _

theorem fiveCx_peak : peakIndex (spectrumSq fiveCx) = 0 := by
  obtain ⟨w, hw, -, h⟩ := peakIndex_spec (L := spectrumSq fiveCx) (by simp [spectrumSq, fiveCx, reals])
  by_contra hne
  have hlt : peakIndex (spectrumSq fiveCx) < fiveCx.length := by
    simpa [spectrumSq] using (List.getElem?_eq_some_iff.mp hw).1
  obtain ⟨y, e1, e2⟩ := spectrumSq_val (zs := fiveCx) (j := 0) (by simp [fiveCx, reals])
  obtain ⟨u, e3, e4⟩ := spectrumSq_val hlt
  rw [hw, Option.some.injEq] at e3
  subst e3
  have := h 0 y (by omega) e1
  rw [e2, e4, fiveCx_bin, fiveCx_bin] at this
  exact lt_irrefl _ this

/-- R143, R144: five equal magnitudes, not all of them rational data; the first bin is the peak. -/
theorem test_fest_irrational_tie :
    (after (exec (.fest 2) (loadBuf 2 (reals [0, 1, 0, 0, 0]) base))).cfg.f0.val = -2 * 8 / (4 * 5) := by
  have h1 : Scalar.zero.lt (loadBuf 2 (reals [0, 1, 0, 0, 0]) base).cfg.fs = true := by decide +kernel
  have h2 : (loadBuf 2 (reals [0, 1, 0, 0, 0]) base).bufLen 2 ≠ 0 := by decide +kernel
  have h3 : (loadBuf 2 (reals [0, 1, 0, 0, 0]) base).srcCx 2 = .ok fiveCx := by decide +kernel
  rw [exec_ok (by simp) (by simp only [ruleOf, festRule, h1, h2, h3, require_true, Res.bind_ok, ne_eq,
    not_false_eq_true, decide_true]; rfl)]
  show (festValue fiveCx (.rat 8)).val = _
  have hl : fiveCx.length = 5 := rfl
  simp only [festValue, fiveCx_peak, binOf, hl]
  norm_num

/-! Witnesses: for every statement with hypotheses, concrete values that meet all of them together. -/

theorem legalBeta_rat {q : ℚ} (h0 : 0 ≤ q) (h1 : q ≤ 1) : LegalBeta (.rat q) :=
  ⟨by simpa using (by exact_mod_cast h0 : (0 : ℝ) ≤ q), by simpa using (by exact_mod_cast h1 : (q : ℝ) ≤ 1)⟩

theorem positive_rat {q : ℚ} (h : 0 < q) : 0 < (Scalar.rat q).val := by
  simpa using (by exact_mod_cast h : (0 : ℝ) < q)

theorem legalAlphabet_rat {a b : ℚ} (h : 0 < a) (h' : a ≤ b) : LegalAlphabet (.rat a) (.rat b) :=
  ⟨positive_rat h, by simpa using (by exact_mod_cast h' : (a : ℝ) ≤ b)⟩

theorem base_legal : LegalBeta base.cfg.beta ∧ 0 < base.cfg.fs.val ∧
    LegalAlphabet base.cfg.amin base.cfg.amax ∧ LegalFrame base.cfg :=
  ⟨legalBeta_rat (by norm_num) (by norm_num), positive_rat (by norm_num),
    legalAlphabet_rat (by norm_num) (by norm_num), by decide +kernel⟩

/-- A buffer in canonical form holds what its read gives. -/
theorem holdsAxis_of_src {s : State} {b : Buf} {ax : Axis} {xs : List Scalar}
    (h : (s.buf b).wf s.aw = true) (e : s.srcAxis b ax = .ok xs) : s.HoldsAxis b ax xs :=
  (srcAxis_eq_ok h).mp e

theorem holdsCx_of_src {s : State} {b : Buf} {zs : List Cx}
    (h : (s.buf b).wf s.aw = true) (e : s.srcCx b = .ok zs) : s.HoldsCx b zs := (srcCx_eq_ok h).mp e

/-- The same state in the smallest block rule R6 admits, `AW = 8`. -/
def small (s : State) : State := { s with awAbove8 := 0 }

/-- The value of a result. -/
def valueOf (r : Res Scalar) : Scalar :=
  match r with
  | .ok x => x
  | .raise _ _ => .zero
  | .uninit _ => .zero

/-- A state in which a fault stands. -/
def faulted : State :=
  { base with
    status := { Status.reset with fault := true, fcode := .margin }
    finfo := 16#32, fcmd := 0x28280000#32 }

/-- A state with a word in progress, time for `k` reads, and accesses pending. -/
def running (w : CmdWord) (k : Nat) (ps : List HostAccess) : State :=
  { base with inFlight := some w, busyReads := k, pending := ps }

theorem witness_DecodeEncode :
    (Instr.costas 0 7 1 7 7).wellFormed = true ∧ (Instr.trec .im 7 0 7).wellFormed = true := by decide

theorem witness_DecodedWordIsItsEncoding : decode 0x20FF0200#32 = .illegalField ∧
    decode 0x20000000#32 = .illegalField ∧ decode 0x201D7E00#32 = .instr (.costas 0 7 2 7 7) := by decide

theorem witness_UndefinedOpcodeFaults :
    let s := running 0xFF000000#32 3 [.write 1 (.bits 0)]
    s.inFlight = some 0xFF000000#32 ∧ accessWhileBusy s = none ∧
    (0x03#8 ∉ [0x00#8, 0x01#8, 0x02#8] ∧
      ∀ op ∈ [0x03#8, 0x48#8, 0xFF#8], op ∉
        [0x00#8, 0x01#8, 0x02#8, 0x10#8, 0x11#8, 0x18#8, 0x19#8, 0x20#8, 0x28#8, 0x30#8, 0x38#8, 0x39#8,
          0x3A#8, 0x40#8, 0x41#8, 0x42#8, 0x43#8, 0x44#8, 0x45#8, 0x46#8, 0x47#8]) := by
  decide +kernel

/-- No instruction encodes to a word that meets no mask. -/
theorem encode_ne_of_mask {w : CmdWord} (h : ∀ o : Opcode, w &&& opcodeMask o ≠ opcodeMatch o) (i : Instr) :
    encode i ≠ w := by
  rintro rfl
  refine h i.opcode ?_
  cases i
  · exact Laws.EncodeMatch.nop
  · exact Laws.EncodeMatch.srst
  · exact Laws.EncodeMatch.clrf
  · exact Laws.EncodeMatch.srrc _
  · exact Laws.EncodeMatch.interp _ _
  · exact Laws.EncodeMatch.pow4 _ _
  · exact Laws.EncodeMatch.fest _
  · exact Laws.EncodeMatch.costas _ _ _ _ _
  · exact Laws.EncodeMatch.trec _ _ _ _
  · exact Laws.EncodeMatch.quant _ _
  · exact Laws.EncodeMatch.barker _
  · exact Laws.EncodeMatch.xcorr _ _ _
  · exact Laws.EncodeMatch.fext _ _ _ _
  · exact Laws.EncodeMatch.ltr2pam _ _
  · exact Laws.EncodeMatch.pam2ltr _ _
  · exact Laws.EncodeMatch.pam2qam _ _
  · exact Laws.EncodeMatch.qam2pam _ _
  · exact Laws.EncodeMatch.pam2q42 _ _
  · exact Laws.EncodeMatch.q422pam _ _
  · exact Laws.EncodeMatch.pam2sym _ _
  · exact Laws.EncodeMatch.sym2pam _ _

/-- An unused buffer field, `rsv` and an unused `ax`, each with a word of that kind in progress. -/
theorem witness_IllegalFieldFaults :
    (∀ w ∈ [0x30240000#32, 0x30200002#32, 0x30200001#32],
      (running w 0 []).inFlight = some w ∧ accessWhileBusy (running w 0 []) = none ∧
      w.extractLsb' 24 8 = opcodeBits .QUANT ∧ ∀ i, i.wellFormed = true → encode i ≠ w) ∧
    0x30200002#32 &&& 0x3E#32 ≠ 0#32 := by
  refine ⟨?_, by decide⟩
  intro w hw
  simp only [List.mem_cons, List.not_mem_nil, or_false] at hw
  refine ⟨rfl, rfl, ?_, fun i _ => encode_ne_of_mask ?_ i⟩ <;>
  rcases hw with rfl | rfl | rfl
  all_goals first
    | decide
    | (intro o; cases o <;> decide)

theorem witness_StepRunsDecodedInstruction :
    (let s := running 0x18602000#32 0 [.read 0x02]
     s.inFlight = some 0x18602000#32 ∧ decode 0x18602000#32 = .instr (.pow4 3 2) ∧
       accessWhileBusy s = none) ∧
    accessWhileBusy (running 0x18602000#32 1 [.read 0x02]) = some (.read 0x02) ∧
    accessWhileBusy (running 0x18602000#32 1 [.reset]) = some .reset ∧
    decodeTableWord 32 0x3A8014C0 = some (.fext 4 1 2 3) ∧ State.reset.inFlight = none ∧
    State.reset.pending = [] ∧
    (let s := { base with pending := [.write 0x10 (.bits 4#64), .read 0x10] }
     s.inFlight = none ∧ s.pending = .write 0x10 (.bits 4#64) :: [.read 0x10]) := by decide

theorem witness_StepKeepsInvariant :
    base.Inv ∧ faulted.Inv ∧ (small base).Inv ∧ (running 0x00000000#32 0 []).Inv ∧
    step (running 0x00000000#32 0 []) = .next (complete (running 0x00000000#32 0 [])) :=
  ⟨by decide +kernel, by decide +kernel, by decide +kernel, by decide +kernel, rfl⟩

theorem witness_HardwareResetAbandons :
    let s := { base with pending := [.reset] }
    let u := running 0x20000000#32 1 [.reset, .read 0x02]
    (s.pending = .reset :: [] ∧ s.inFlight = none) ∧
    (u.pending = .reset :: [.read 0x02] ∧ u.busyReads ≠ 0) := by decide

theorem witness_CommandAcceptance :
    let w : PortWord := .bits 0xFFFFFFFF01000000#64
    let v : PortWord := .bits 0#64
    (faulted.inFlight = none ∧ { faulted with pending := [.write 0x01 v] }.pending = [.write 0x01 v] ∧
      faulted.status.fault = true ∧ v.toInt ≠ 0x01000000#32) ∧
    w.toInt = 0x01000000#32 ∧ base.status.fault = false ∧
    ∀ k, accessWhileBusy { faulted with inFlight := some 0x01000000#32, busyReads := k } = none := by
  refine ⟨by decide, by decide, by decide, fun k => ?_⟩
  cases k <;> rfl

theorem witness_FaultsArePrecise :
    (State.reset.status.fault = false ∧ ∃ t, exec (.srrc 0) State.reset = .next t ∧ t.status.fault = true) ∧
    (faulted.Inv ∧ faulted.status.fault = true ∧ step faulted = .next faulted) :=
  ⟨⟨rfl, raise .config 0 State.reset, rfl, rfl⟩, by decide +kernel, rfl, rfl⟩

theorem witness_CompletionSetsDone :
    exec .clrf base = .next (complete (clearConds base)) ∧
    (complete (clearConds base)).status.fault = false := ⟨rfl, rfl⟩

theorem witness_StatusReadWhileBusy :
    let s := running 0x10000000#32 1 [.read 0x02]
    s.Inv ∧ s.inFlight.isSome = true ∧ s.busyReads = 0 + 1 ∧ s.pending = .read 0x02 :: [] := by
  decide +kernel

/-- A read that completes, a reset, and a write that is held while the operation ends. -/
theorem witness_OtherAccessesAreHeld :
    (∃ t, step (running 0x00000000#32 1 [.read 0x00]) = .next t ∧ t.pending = []) ∧
    (∃ t, step (running 0x00000000#32 1 [.reset]) = .next t ∧ t.inFlight = none) ∧
    ∃ t, step (running 0x00000000#32 1 [.write 0x02 (.bits 0)]) = .next t ∧
      t.pending = [.write 0x02 (.bits 0)] :=
  ⟨⟨_, rfl, rfl⟩, ⟨_, rfl, rfl⟩, ⟨_, rfl, rfl⟩⟩

theorem witness_StatusWordAndIrq : base.ctrl = 0#32 ∧ base.status.fault = false := by decide

theorem witness_FaultClearedOnlyByReset :
    (∃ t, step { faulted with inFlight := some 0x01000000#32 } = .next t ∧ t.status.fault = false) ∧
    ∃ t, step { faulted with pending := [.reset] } = .next t ∧ t.status.fault = false :=
  ⟨⟨_, rfl, rfl⟩, ⟨_, rfl, rfl⟩⟩

/-- A step that sets each flag, and one that keeps a flag that stands. -/
theorem witness_ConditionFlagsSticky :
    (after (step (base.withFetchWord 32 0x3A8014C0))).status.nosync = true ∧
    (after (step ((loadBuf 1 streamH (withCfg { cfgBase with trig := .rat 9, hitcap := 1#32 })).withFetchWord
      32 0x394C1000))).status.hitovf = true ∧
    (after (step ((loadBuf 1 (streamH.map fun z => (z.1, 0)) base).withFetchWord
      32 0x394C1000))).status.desync = true ∧
    (after (step ((loadBuf 1 [(0, 0)] base).withFetchWord 32 0x42401000))).status.unrec = true := by
  decide +kernel

theorem witness_ConditionFlagsNeverRead :
    (∃ t, exec .nop base = .next t) ∧
    exec (.pow4 1 0) (base.setBuf 0 { len := 1#32, cells := [] }) = .refused (.uninitialised 0) :=
  ⟨⟨_, rfl⟩, rfl⟩

theorem witness_OperationsEndUnlessUnwritten :
    (base.setBuf 0 { len := 1#32, cells := [] }).Inv ∧ (loadBuf 0 streamH base).Inv := by decide +kernel

/-- An element with no component written, and one with its imaginary component missing; a signal with
taps, and taps with a signal; a source of four of which the last is missing; and the same for `MOD = 2`. -/
theorem witness_UnwrittenSourceIsRefused :
    (let s := base.setBuf 0 { len := 1#32, cells := [] }
     s.Inv ∧ ¬ s.Loaded 0 ∧ ¬ (base.setBuf 0 { len := 1#32, cells := [(0, .rat 5)] }).Loaded 0 ∧
     s.cfg.modType.toNat ≤ 1 ∧ 0 < s.cfg.fs.val ∧ s.bufLen 0 ≠ 0 ∧
     LegalAlphabet s.cfg.amin s.cfg.amax ∧ LegalFrame s.cfg ∧ s.cfg.hitcap.toNat ≤ s.bufCap ∧
     0 < s.bufLen 0 ∧ s.comp 0 0 .re = none ∧ s.Loaded 3 ∧ 4 * s.bufLen 0 ≤ s.bufCap) ∧
    (let s := base.setBuf 0 { len := 4#32, cells := [(0, .rat (-1)), (2, .rat 3), (4, .rat 1)] }
     s.Inv ∧ 3 < 4 * (s.bufLen 0 / 4) ∧ s.comp 0 3 .re = none ∧
     ∀ j < 3, ∃ x, s.comp 0 j .re = some x ∧ ∃ l ∈ ([-3, -1, 1, 3] : List ℤ), x.val = l) ∧
    (let s := (withCfg { cfgBase with modType := 2#32 }).setBuf 0 { len := 1#32, cells := [] }
     s.cfg.modType.toNat = 2 ∧ LegalFrame s.cfg ∧ s.cfg.hitcap.toNat ≤ s.bufCap ∧ s.comp 0 0 .re = none) := by
  refine ⟨⟨by decide +kernel, fun h => ?_, fun h => ?_, by decide, base_legal.2.1, by decide +kernel,
    base_legal.2.2.1, by decide, by decide +kernel, by decide +kernel, by decide +kernel, ?_,
    by decide +kernel⟩, ⟨by decide +kernel, by decide +kernel, by decide +kernel, fun j hj => ?_⟩,
    by decide, by decide, by decide +kernel, by decide +kernel⟩
  · exact absurd (h 0 (by decide +kernel)).1 (by decide +kernel)
  · exact absurd (h 0 (by decide +kernel)).2 (by decide +kernel)
  · decide +kernel
  · interval_cases j
    · exact ⟨.rat (-1), by decide +kernel, -1, by decide, by simp⟩
    · exact ⟨.rat 3, by decide +kernel, 3, by decide, by simp⟩
    · exact ⟨.rat 1, by decide +kernel, 1, by decide, by simp⟩

theorem witness_ReadsHaveNoSideEffect :
    base.inFlight = none ∧ { base with pending := [.read 0x40] }.pending = .read 0x40 :: [] := by decide

/-- The two ends of every gap of the page, and of the space outside page and window, for two `AW`. -/
theorem witness_UnmappedAddresses :
    (∀ a ∈ [0x06, 0x0F, 0x16, 0x1F, 0x2E, 0x2F, 0x38, 0x3F, 0x48, 0xFF],
      a ≤ 0xFF ∧ ¬ a ≤ 0x05 ∧ ¬ (0x10 ≤ a ∧ a ≤ 0x15) ∧ ¬ (0x20 ≤ a ∧ a ≤ 0x2D) ∧
        ¬ (0x30 ≤ a ∧ a ≤ 0x37) ∧ ¬ (0x40 ≤ a ∧ a ≤ 0x47)) ∧
    (∀ a ∈ [0x100, 0xFFFFF, 0x200000], 0xFF < a ∧ ¬ (2 ^ (base.aw + 4) ≤ a ∧ a < 2 ^ (base.aw + 5))) ∧
    ∀ a ∈ [0x100, 0xFFF, 0x2000],
      0xFF < a ∧ ¬ (2 ^ ((small base).aw + 4) ≤ a ∧ a < 2 ^ ((small base).aw + 5)) := by decide +kernel

/-- The last component of the last buffer, within the length and written, for two `AW`. -/
theorem witness_WindowWriteThenRead :
    (let s := base.setBuf 7 { len := 65536#32, cells := [(131071, .rat 5)] }
     (65535 < 2 ^ s.aw ∧
       0x1FFFFF = 2 ^ (s.aw + 4) + (7 : Buf).val * 2 ^ (s.aw + 1) + 2 * 65535 + 1) ∧
     65535 < s.bufLen 7 ∧ s.comp 7 65535 .im = some (.rat 5)) ∧
    255 < 2 ^ (small base).aw ∧
      0x1FFF = 2 ^ ((small base).aw + 4) + (7 : Buf).val * 2 ^ ((small base).aw + 1) + 2 * 255 + 1 := by
  decide +kernel

theorem witness_LengthRegisterWrite :
    (PortWord.bits 0xFFFFFFFF00010000#64).toInt.toNat ≤ base.bufCap ∧
    base.bufCap < (PortWord.bits 0x00010001#64).toInt.toNat ∧
    (PortWord.bits 0x100#64).toInt.toNat ≤ (small base).bufCap ∧
    (small base).bufCap < (PortWord.bits 0x101#64).toInt.toNat := by decide +kernel

/-- Neighbours of the tables of rules R32, R33, R35 and R37, told apart by their addresses. -/
theorem test_register_map :
    let s := { base with finfo := 1#32, fcmd := 2#32, res := { base.res with tau := .rat 3, tnow := .rat 4 } }
    let t := memWrite (memWrite s 0x10 (.bits 5#64)) 0x2D (.num (.rat 6))
    memRead s 0x04 = .bits 1#64 ∧ memRead s 0x05 = .bits 2#64 ∧ memRead s 0x33 = .num (.rat 3) ∧
    memRead s 0x34 = .num (.rat 4) ∧ t.cfg.p = 5#32 ∧ t.cfg.l = base.cfg.l ∧ t.cfg.tq = .rat 6 ∧
    t.cfg.amax = base.cfg.amax := by decide +kernel

theorem witness_RegisterWriteIsLocal :
    (0x10 ≤ 0x10 ∧ 0x15 ≤ 0x15 ∧ 0x20 ≤ 0x2D ∧ 0x2D ≤ 0x2D) ∧
    (0x03 ≠ 0x01 ∧ ¬ (0x40 ≤ 0x03 ∧ 0x03 ≤ 0x47) ∧ 0x40 ≠ 0x03) ∧
    (0x100001 ≠ 0x01 ∧ ¬ (0x40 ≤ 0x100001 ∧ 0x100001 ≤ 0x47) ∧ 0x100000 ≠ 0x100001) := by decide

theorem witness_NopCompletes : faulted.status.fault = true ∧
    (0x00000001#32).extractLsb' 24 8 = 0x00#8 ∧ 0x00000001#32 ≠ 0x00000000#32 := by decide

theorem witness_SrstCompletes :
    (0x01800000#32).extractLsb' 24 8 = 0x01#8 ∧ 0x01800000#32 ≠ 0x01000000#32 := by decide

theorem witness_ClrfCompletes : faulted.status.fault = true ∧
    (0x02000040#32).extractLsb' 24 8 = 0x02#8 ∧ 0x02000040#32 ≠ 0x02000000#32 := by decide

/-- Each test of rule R264, just outside its legal set. -/
theorem witness_ConfigTraps :
    ((Instr.srrc 0).opcode ∈ [.SRRC, .INTERP, .TREC] ∧ State.reset.cfg.p = 0#32) ∧
    (withCfg { cfgBase with beta := .rat (-1 / 10) }).cfg.beta.val < 0 ∧
    1 < (withCfg { cfgBase with beta := .rat (3 / 2) }).cfg.beta.val ∧
    ((Instr.fest 0).opcode ∈ [.FEST, .COSTAS] ∧ State.reset.cfg.fs.val ≤ 0) ∧
    ((Instr.quant 0 0).opcode = .QUANT ∧ State.reset.cfg.amin.val ≤ 0) ∧
    (let s := withCfg { cfgBase with amin := .rat 3, amax := .rat 1 }
     s.cfg.amax.val < s.cfg.amin.val) ∧
    ((Instr.barker 0).opcode ∈ [.BARKER, .XCORR, .FEXT] ∧
      (12#32 ≠ 7#32 ∧ 12#32 ≠ 11#32 ∧ 12#32 ≠ 13#32)) ∧
    ((Instr.sym2pam 0 0).opcode ∈ [.BARKER, .XCORR, .FEXT, .PAM2SYM, .SYM2PAM] ∧ 3 ≤ (3#32).toNat) ∧
    ((Instr.xcorr 0 1 2).opcode = .XCORR ∧ base.bufCap < (65537#32).toNat ∧
      (small base).bufCap < (257#32).toNat) := by
  refine ⟨by decide, ?_, ?_, ⟨by decide, ?_⟩, ⟨rfl, ?_⟩, ?_, by decide, by decide, by decide +kernel⟩ <;>
  norm_num [withCfg, State.reset, Cfg.reset]

/-- The iterations of rule R167 on a state and an axis, their times and the `tau`s. -/
def trecIter (s : State) (ax : Axis) : ℕ → Scalar × Scalar
  | 0 => (s.cfg.tinit.max s.cfg.tmLo, .zero)
  | k + 1 =>
    let r := trecIter s ax k
    let x := r.1.add r.2
    (r.1.add (.ofNat s.pNat), r.2.add ((s.cfg.muT.mul
      ((valueOf (interpolate s 0 ax (x.add s.cfg.delta) k)).sub
        (valueOf (interpolate s 0 ax (x.sub s.cfg.delta) k)))).mul (valueOf (interpolate s 0 ax x k))))

/-- The time of the current probe of an iteration. -/
def probe (s : State) (ax : Axis) (k : ℕ) : Scalar := (trecIter s ax k).1.add (trecIter s ax k).2

/-- The three probes of iteration `k` are inside the buffer `B[0]`. -/
def ProbesInside (s : State) (ax : Axis) (k : ℕ) : Prop :=
  interpolate s 0 ax (probe s ax k) k = .ok (valueOf (interpolate s 0 ax (probe s ax k) k)) ∧
  interpolate s 0 ax ((probe s ax k).add s.cfg.delta) k =
    .ok (valueOf (interpolate s 0 ax ((probe s ax k).add s.cfg.delta) k)) ∧
  interpolate s 0 ax ((probe s ax k).sub s.cfg.delta) k =
    .ok (valueOf (interpolate s 0 ax ((probe s ax k).sub s.cfg.delta) k))

/-- What the statements on `TREC` ask of each iteration. -/
theorem trecIter_steps {s : State} {ax : Axis} {n : ℕ} (h : ∀ j < n, ProbesInside s ax j) :
    ∀ j < n, ∃ cur late early,
      interpolate s 0 ax ((trecIter s ax j).1.add (trecIter s ax j).2) j = .ok cur ∧
      interpolate s 0 ax (((trecIter s ax j).1.add (trecIter s ax j).2).add s.cfg.delta) j = .ok late ∧
      interpolate s 0 ax (((trecIter s ax j).1.add (trecIter s ax j).2).sub s.cfg.delta) j = .ok early ∧
      (trecIter s ax (j + 1)).1 = (trecIter s ax j).1.add (.ofNat s.pNat) ∧
      (trecIter s ax (j + 1)).2 =
        (trecIter s ax j).2.add ((s.cfg.muT.mul (late.sub early)).mul cur) := fun j hj =>
  ⟨_, _, _, (h j hj).1, (h j hj).2.1, (h j hj).2.2, rfl, rfl⟩

/-- A window leaves the buffer by the floor of its time. -/
theorem leaves_of_floor {s : State} {b : Buf} {t : Scalar} {y : ℝ} (hy : t.val = y)
    (h : t.floor - (s.lNat * s.pNat : ℕ) < 0 ∨ (s.bufLen b : ℤ) < t.floor + (s.lNat * s.pNat : ℕ) + 1) :
    s.LeavesBuffer b y := by
  rwa [Scalar.floor_val, hy] at h

/-- Six samples; windows of five around `t0`. -/
def marginState (mu t : ℚ) : State :=
  loadBuf 0 (reals [1, 1, 1, 1, 1, 1])
    (withCfg { cfgBase with muT := .rat mu, tinit := .rat t, tmLo := .rat 0, tmHi := .rat 0 })

/-- `INTERP` below and above the buffer; `TREC` at the current probe of its second iteration, at the late
one and at the early one of its first. -/
theorem witness_MarginTraps :
    (base.cfg.p ≠ 0#32 ∧ LegalBeta base.cfg.beta) ∧
    (marginState 0 3).LeavesBuffer 0 (Scalar.rat (199 / 100)).val ∧
    (marginState 0 3).LeavesBuffer 0 (Scalar.rat 4).val ∧
    (let s := marginState 0 3
     (∀ j < 1, ProbesInside s .re j) ∧
     max s.cfg.tinit.val s.cfg.tmLo.val + (1 : ℕ) * s.cfg.p.toNat < s.bufLen 0 - s.cfg.tmHi.val ∧
     s.LeavesBuffer 0 ((trecIter s .re 1).1.val + (trecIter s .re 1).2.val)) ∧
    (let s := marginState 0 (7 / 2)
     max s.cfg.tinit.val s.cfg.tmLo.val + (0 : ℕ) * s.cfg.p.toNat < s.bufLen 0 - s.cfg.tmHi.val ∧
     interpolate s 0 .re (probe s .re 0) 0 = .ok (valueOf (interpolate s 0 .re (probe s .re 0) 0)) ∧
     s.LeavesBuffer 0 ((trecIter s .re 0).1.val + (trecIter s .re 0).2.val + s.cfg.delta.val)) ∧
    (let s := marginState 0 2
     max s.cfg.tinit.val s.cfg.tmLo.val + (0 : ℕ) * s.cfg.p.toNat < s.bufLen 0 - s.cfg.tmHi.val ∧
     interpolate s 0 .re (probe s .re 0) 0 = .ok (valueOf (interpolate s 0 .re (probe s .re 0) 0)) ∧
     interpolate s 0 .re ((probe s .re 0).add s.cfg.delta) 0 =
       .ok (valueOf (interpolate s 0 .re ((probe s .re 0).add s.cfg.delta) 0)) ∧
     s.LeavesBuffer 0 ((trecIter s .re 0).1.val + (trecIter s .re 0).2.val - s.cfg.delta.val)) := by
  have hl : ∀ mu t, (marginState mu t).bufLen 0 = 6 := fun mu t => rfl
  refine ⟨⟨by decide, base_legal.1⟩, leaves_of_floor rfl (by decide +kernel),
    leaves_of_floor rfl (by decide +kernel), ⟨?_, ?_, ?_⟩, ⟨?_, by decide +kernel, ?_⟩,
    ⟨?_, by decide +kernel, by decide +kernel, ?_⟩⟩
  · intro j hj
    obtain rfl : j = 0 := by omega
    exact ⟨by decide +kernel, by decide +kernel, by decide +kernel⟩
  · rw [hl]
    norm_num [marginState, loadBuf, withCfg, cfgBase, State.setBuf]
  · exact leaves_of_floor (t := probe (marginState 0 3) .re 1) (by simp [probe]) (by decide +kernel)
  · rw [hl]
    norm_num [marginState, loadBuf, withCfg, cfgBase, State.setBuf]
  · exact leaves_of_floor (t := (probe (marginState 0 (7 / 2)) .re 0).add (marginState 0 (7 / 2)).cfg.delta) (by simp [probe])
      (by decide +kernel)
  · rw [hl]
    norm_num [marginState, loadBuf, withCfg, cfgBase, State.setBuf]
  · exact leaves_of_floor (t := (probe (marginState 0 2) .re 0).sub (marginState 0 2).cfg.delta) (by simp [probe])
      (by decide +kernel)

/-- A block with `AW = 8` whose timing loop does not move: each iteration takes 1 from `tau` while `P = 1`
is added to the time, so that 257 iterations run on three samples. -/
def stillState : State :=
  small (loadBuf 0 (reals [0, 1, 1]) (withCfg
    { cfgBase with
      p := 1#32, l := 0#32, beta := .rat 1, delta := .rat 1, tinit := .rat 1, tmLo := .rat 1
      tmHi := .rat (-255), muT := (Scalar.rat (-1 / 16)).prod (.prod .pi .pi) }))

theorem still_inv : stillState.Inv := by decide +kernel

/-- A probe of it at 0, 1 or 2: `4/pi` times the sample. -/
theorem still_probe {t : Scalar} {k : ℕ} (n : ℕ) (hn : n < 3) (ht : t.val = n) :
    ∃ x, interpolate stillState 0 .re t k = .ok x ∧ x.val = ([0, 1, 1] : List ℝ).getD n 0 * (4 / Real.pi) := by
  have hfl : t.floor = n := by rw [Scalar.floor_val, ht]; simp
  have hlen : stillState.bufLen 0 = 3 := rfl
  obtain ⟨x, hx, hv⟩ : ∃ x, stillState.comp 0 n .re = some x ∧ x.val = ([0, 1, 1] : List ℝ).getD n 0 := by
    interval_cases n
    · exact ⟨.rat 0, by decide +kernel, by simp⟩
    · exact ⟨.rat 1, by decide +kernel, by simp⟩
    · exact ⟨.rat 1, by decide +kernel, by simp⟩
  have hin := interpolate_inside (s := stillState) (ax := .re) (s0 := 0) (xs := [x]) (t := t) (k := k) (l := 0)
    still_inv.1 rfl (by rw [hfl]; omega) (by rw [hfl, hlen]; omega) rfl (fun i y hy => by
      cases i with
      | zero => simp at hy; subst hy; simpa [hfl] using hx
      | succ i => simp at hy)
  refine ⟨_, hin, ?_⟩
  have hk : (kernelTap 0 1 (.rat 1) (t.sub (.ofInt t.floor)) 0).val = 4 / Real.pi := by
    rw [kernelTap_val]
    simp [hfl, ht, realPulse, realBeta]
  rw [Scalar.val_dot]
  show (([x].zipWith (fun a b => a.val * b.val)
    (kernel 0 1 (.rat 1) (t.sub (.ofInt t.floor))).reverse)).sum = _
  simp [kernel, hk, hv]

/-- Where its three probes stand, and what they read. -/
theorem still_probes {k : ℕ} (h1 : (trecIter stillState .re k).1.val = 1 + k)
    (h2 : (trecIter stillState .re k).2.val = -k) : ProbesInside stillState .re k ∧
      (valueOf (interpolate stillState 0 .re (probe stillState .re k) k)).val = 4 / Real.pi ∧
      (valueOf (interpolate stillState 0 .re ((probe stillState .re k).add stillState.cfg.delta) k)).val =
        4 / Real.pi ∧
      (valueOf (interpolate stillState 0 .re ((probe stillState .re k).sub stillState.cfg.delta) k)).val = 0 := by
  have hp : (probe stillState .re k).val = 1 := by simp [probe, h1, h2]
  have hd : stillState.cfg.delta.val = 1 := by
    rw [show stillState.cfg.delta = .rat 1 from rfl]
    simp
  obtain ⟨x, e1, v1⟩ := still_probe (t := probe stillState .re k) (k := k) 1 (by omega) (by simp [hp])
  obtain ⟨y, e2, v2⟩ := still_probe (t := (probe stillState .re k).add stillState.cfg.delta) (k := k) 2
    (by omega) (by rw [Scalar.val_add, hp, hd]; norm_num)
  obtain ⟨z, e3, v3⟩ := still_probe (t := (probe stillState .re k).sub stillState.cfg.delta) (k := k) 0
    (by omega) (by rw [Scalar.val_sub, hp, hd]; norm_num)
  refine ⟨⟨by rw [e1]; rfl, by rw [e2]; rfl, by rw [e3]; rfl⟩, ?_, ?_, ?_⟩
  · rw [e1]; simpa [valueOf] using v1
  · rw [e2]; simpa [valueOf] using v2
  · rw [e3]; simpa [valueOf] using v3

/-- Its probes stand still at 1, 2 and 0, and `tau` falls by 1 in each iteration. -/
theorem still_iter (k : ℕ) : (trecIter stillState .re k).1.val = 1 + k ∧
    (trecIter stillState .re k).2.val = -k := by
  induction k with
  | zero =>
    constructor
    · show (Scalar.max (.rat 1) (.rat 1)).val = _
      simp
    · simp [trecIter]
  | succ k ih =>
    obtain ⟨hin, v1, v2, v3⟩ := still_probes ih.1 ih.2
    constructor
    · show ((trecIter stillState .re k).1.add (.ofNat 1)).val = _
      rw [Scalar.val_add, ih.1]
      push_cast
      simp
      ring
    · show ((trecIter stillState .re k).2.add _).val = _
      rw [Scalar.val_add, Scalar.val_mul, Scalar.val_mul, Scalar.val_sub, ih.2]
      erw [v1, v2, v3]
      rw [show stillState.cfg.muT = (Scalar.rat (-1 / 16)).prod (.prod .pi .pi) from rfl]
      have := Real.pi_ne_zero
      push_cast
      simp
      field_simp
      ring

/-- A block with `AW = 8`, a stream of 256 symbols and ten hits whose slices take 248 of them five times:
310 character codes. -/
def longState (m : CmdWord) : State :=
  small (loadBuf 1 (List.replicate 256 (1, 1))
    (loadBuf 2 ((List.replicate 5 [(0, 0), (255, 255)]).flatten)
      (loadBuf 3 (List.replicate 10 (1, 1)) (withCfg { cfgBase with modType := m }))))

/-- The hit indices of it. -/
def longIndices : List ℕ := (List.replicate 5 [0, 255]).flatten

theorem witness_EmptyAndOverflowTraps :
    (0 < base.cfg.fs.val ∧ LegalAlphabet base.cfg.amin base.cfg.amax ∧ LegalFrame base.cfg) ∧
    base.bufLen 5 = 0 ∧ base.cfg.hitcap.toNat ≤ base.bufCap ∧
    (LegalBeta (.rat 0) ∧ 1#32 ≠ 0#32 ∧ base.bufCap < 2 * (32768#32).toNat * (1#32).toNat + 1) ∧
    base.bufCap < 4 * (base.setBuf 0 { len := 16385#32, cells := [] }).bufLen 0 :=
  ⟨⟨base_legal.2.1, base_legal.2.2.1, base_legal.2.2.2⟩, by decide, by decide +kernel,
    ⟨legalBeta_rat le_rfl (by norm_num), by decide, by decide +kernel⟩, by decide +kernel⟩

/-- `TREC` with one iteration more than `BUFCAP`. -/
theorem witness_TrecOverflows :
    let s := stillState
    s.cfg.p ≠ 0#32 ∧ LegalBeta s.cfg.beta ∧
    257 = ⌈((s.bufLen 0 : ℝ) - s.cfg.tmHi.val - max s.cfg.tinit.val s.cfg.tmLo.val) /
      s.cfg.p.toNat⌉.toNat ∧ s.bufCap < 257 ∧
    (trecIter s .re 0).1 = s.cfg.tinit.max s.cfg.tmLo ∧ (trecIter s .re 0).2 = .zero ∧
    ∀ j < 257, ProbesInside s .re j := by
  refine ⟨by decide, legalBeta_rat (by norm_num) le_rfl, ?_, by decide +kernel, rfl, rfl,
    fun j _ => (still_probes (still_iter j).1 (still_iter j).2).1⟩
  rw [← iterationCount_eq]
  decide +kernel

/-- `FEXT` with more than `BUFCAP` codes, on both axes and on the real one. -/
theorem witness_FextOverflows :
    (let s := longState 1#32
     let xs : List ℚ := List.replicate 256 1
     let vs : List ℚ := List.replicate 10 1
     let sl (k : ℕ) := specAxisSlice xs longIndices vs s.cfg.hdr.toNat s.cfg.flen.toNat k
     s.Inv ∧ LegalFrame s.cfg ∧ s.cfg.modType.toNat ≠ 2 ∧ vs.length = longIndices.length ∧
     s.bufCap < ((List.range longIndices.length).flatMap fun k =>
       specCodes (((sl k).zip (sl k)).map (specLevel s.cfg.modType.toNat))).length ∧
     s.HoldsAxis 1 .re (xs.map Scalar.rat) ∧ s.HoldsAxis 1 .im (xs.map Scalar.rat) ∧
     s.HoldsAxis 2 .re (longIndices.map Scalar.ofNat) ∧ s.HoldsAxis 2 .im (longIndices.map Scalar.ofNat) ∧
     s.HoldsAxis 3 .re (vs.map Scalar.rat) ∧ s.HoldsAxis 3 .im (vs.map Scalar.rat)) ∧
    (let s := longState 2#32
     let xs : List ℚ := List.replicate 256 1
     let vs : List ℚ := List.replicate 10 1
     s.Inv ∧ LegalFrame s.cfg ∧ s.cfg.modType.toNat = 2 ∧ vs.length = longIndices.length ∧
     s.bufCap < ((List.range longIndices.length).flatMap fun k =>
       specCodes ((specAxisSlice xs longIndices vs s.cfg.hdr.toNat s.cfg.flen.toNat k).map
         fun x => specLevel 2 (x, 0))).length ∧
     s.HoldsAxis 1 .re (xs.map Scalar.rat) ∧ s.HoldsAxis 2 .re (longIndices.map Scalar.ofNat) ∧
     s.HoldsAxis 3 .re (vs.map Scalar.rat)) := by
  refine ⟨⟨by decide +kernel, by decide, by decide, by decide, by decide +kernel, ?_, ?_, ?_, ?_, ?_, ?_⟩,
    by decide +kernel, by decide, by decide, by decide, by decide +kernel, ?_, ?_, ?_⟩ <;>
  exact holdsAxis_of_src (by decide +kernel) (by decide +kernel)

/-- The second code is 256, the first the greatest there is; the third level is 2. -/
theorem witness_CharacterDomainTraps :
    (let s := loadBuf 0 (reals [255, 256]) base
     s.Inv ∧ ([.rat 255] : List Scalar).length < s.bufLen 0 ∧ 4 * s.bufLen 0 ≤ s.bufCap ∧
     s.comp 0 0 .re = some (.rat 255) ∧ s.comp 0 1 .re = some (.rat 256)) ∧
    ((Scalar.rat 255).val = (255 : ℕ) ∧ ∀ c : ℕ, c ≤ 255 → (Scalar.rat 256).val ≠ c) ∧
    (let s := loadBuf 0 (reals [-1, -3, 2, -3]) base
     s.Inv ∧ 2 < 4 * (s.bufLen 0 / 4) ∧ s.comp 0 0 .re = some (.rat (-1)) ∧
     s.comp 0 1 .re = some (.rat (-3)) ∧ s.comp 0 2 .re = some (.rat 2)) ∧
    (Scalar.rat (-1)).val = (-1 : ℤ) ∧ (Scalar.rat (-3)).val = (-3 : ℤ) ∧
    ∀ l ∈ ([-3, -1, 1, 3] : List ℤ), (Scalar.rat 2).val ≠ l := by
  refine ⟨by decide +kernel, ⟨by simp, fun c hc h => ?_⟩, by decide +kernel, by simp, by simp, ?_⟩
  · rw [Scalar.val_rat] at h
    have : 256 = c := by exact_mod_cast h
    omega
  · norm_num

/-! Witnesses, continued: the operations on data. -/

/-- What a window of a buffer holds, from what it reads as. -/
theorem window_of_range {s : State} {b : Buf} {ax : Axis} {xs : List Scalar} {o : ℕ}
    (h : ∀ i < xs.length, s.comp b (o + i) ax = xs[i]?) :
    ∀ i x, xs[i]? = some x → s.comp b (o + i) ax = some x := by
  intro i x hx
  obtain ⟨hi, -⟩ := List.getElem?_eq_some_iff.mp hx
  rw [h i hi, hx]

/-- The hit lists of two axes, and the stream of V16, on which the slices of the one hit differ. -/
theorem witness_FextDesyncTraps :
    (LegalFrame base.cfg ∧ (loadBuf 2 [(6, 6)] base).bufLen 3 ≠ (loadBuf 2 [(6, 6)] base).bufLen 2) ∧
    (let s := loadBuf 1 streamH (loadBuf 2 [(6, 8)] (loadBuf 3 [(63, 63)] base))
     s.Inv ∧ LegalFrame s.cfg ∧ s.cfg.modType.toNat ≠ 2 ∧
     s.HoldsAxis 1 .re ((streamH.map Prod.fst).map Scalar.rat) ∧
     s.HoldsAxis 1 .im ((streamH.map Prod.snd).map Scalar.rat) ∧
     s.HoldsAxis 2 .re ([6].map Scalar.ofNat) ∧ s.HoldsAxis 2 .im ([8].map Scalar.ofNat) ∧
     s.HoldsAxis 3 .re ([63].map Scalar.rat) ∧ s.HoldsAxis 3 .im ([63].map Scalar.rat) ∧
     (specAxisSlice (streamH.map Prod.fst) [6] [63] s.cfg.hdr.toNat s.cfg.flen.toNat 0).length ≠
       (specAxisSlice (streamH.map Prod.snd) [8] [63] s.cfg.hdr.toNat s.cfg.flen.toNat 0).length) := by
  refine ⟨by decide +kernel, by decide +kernel, by decide +kernel, by decide +kernel, ?_, ?_, ?_, ?_, ?_, ?_,
    by decide +kernel⟩ <;> exact holdsAxis_of_src (by decide +kernel) (by decide +kernel)

/-- A rational that is no natural number. -/
theorem bad_of_rat {q : ℚ} (h : q.den ≠ 1 ∨ q < 0) (n : ℕ) : (Scalar.rat q).val ≠ n := by
  rw [Scalar.val_rat]
  intro e
  have e' : q = n := by exact_mod_cast e
  rcases h with h | h
  · exact h (by rw [e']; rfl)
  · rw [e'] at h
    exact absurd h (by simp)

/-- V16's stream with three hits, the last at the given indices. -/
def hitState (re im : ℚ) : State :=
  loadBuf 1 streamH (loadBuf 2 [(0, 0), (8, 8), (re, im)]
    (loadBuf 3 [(63, 63), (63, 63), (63, 63)] base))

theorem hitState_lists (re im : ℚ) (ax : Axis) :
    (∀ j y, [0, 8][j]? = some y → (hitState re im).comp 2 j ax = some (.ofNat y)) ∧
    ∀ j y, ([63, 63] : List ℚ)[j]? = some y → (hitState re im).comp 3 j ax = some (.rat y) := by
  constructor <;> intro j y h <;> have hj := (List.getElem?_eq_some_iff.mp h).1 <;>
  simp only [List.length_cons, List.length_nil] at hj <;>
  interval_cases j <;> simp at h <;> subst h <;> cases ax <;> rfl

/-- `DOMAIN` at the hit's own index, of either axis, and at the next one, of either axis: a half, and -1. -/
theorem witness_FextDomain :
    (let s := loadBuf 2 [(13 / 2, 6), (8, 8)] (loadBuf 3 [(63, 63), (63, 63)] base)
     LegalFrame s.cfg ∧ s.bufLen 3 = s.bufLen 2 ∧ s.bufLen 2 ≠ 0 ∧ s.BadIndex 2 0 .re) ∧
    (let s := loadBuf 2 [(6, -1), (8, 8)] (loadBuf 3 [(63, 63), (63, 63)] base)
     LegalFrame s.cfg ∧ s.bufLen 3 = s.bufLen 2 ∧ s.bufLen 2 ≠ 0 ∧ s.cfg.modType.toNat ≠ 2 ∧
     (s.comp 2 0 .re).isSome = true ∧ (s.comp 2 1 .re).isSome = true ∧ s.BadIndex 2 0 .im) ∧
    (∀ s ∈ [hitState (-1) 10, hitState 10 (17 / 2)],
     let xr := streamH.map Prod.fst
     let xi := streamH.map Prod.snd
     s.Inv ∧ LegalFrame s.cfg ∧ s.bufLen 3 = s.bufLen 2 ∧ 1 + 1 < s.bufLen 2 ∧ s.cfg.modType.toNat ≠ 2 ∧
     s.srcAxis 1 .re = .ok (xr.map Scalar.rat) ∧ s.srcAxis 1 .im = .ok (xi.map Scalar.rat) ∧
     (s.buf 1).wf s.aw = true ∧
     (∀ j < 1, (specAxisSlice xr [0, 8] [63, 63] s.cfg.hdr.toNat s.cfg.flen.toNat j).length =
       (specAxisSlice xi [0, 8] [63, 63] s.cfg.hdr.toNat s.cfg.flen.toNat j).length) ∧
     (s.comp 2 (1 + 1) .re).isSome = true) ∧
    (hitState (-1) 10).BadIndex 2 (1 + 1) .re ∧ (hitState 10 (17 / 2)).BadIndex 2 (1 + 1) .im := by
  refine ⟨⟨by decide, by decide +kernel, by decide +kernel, .rat (13 / 2), by decide +kernel,
      bad_of_rat (.inl (by decide +kernel))⟩,
    ⟨by decide, by decide +kernel, by decide +kernel, by decide, by decide +kernel, by decide +kernel,
      .rat (-1), by decide +kernel, bad_of_rat (.inr (by norm_num))⟩,
    by decide +kernel, ⟨.rat (-1), by decide +kernel, bad_of_rat (.inr (by norm_num))⟩,
    ⟨.rat (17 / 2), by decide +kernel, bad_of_rat (.inl (by decide +kernel))⟩⟩

/-- The longest kernel there is for `P = 1`, and the two ends of the legal roll-offs. -/
theorem witness_SrrcCompletes :
    let s := withCfg { cfgBase with p := 1#32, l := 32767#32, beta := .rat 0 }
    (s.cfg.p ≠ 0#32 ∧ LegalBeta s.cfg.beta ∧ 2 * s.cfg.l.toNat * s.cfg.p.toNat + 1 ≤ s.bufCap) ∧
    LegalBeta (.rat 1) :=
  ⟨⟨by decide, legalBeta_rat le_rfl (by norm_num), by decide +kernel⟩, legalBeta_rat (by norm_num) le_rfl⟩

theorem witness_KernelTapValues :
    (1 ≤ 1 ∧ LegalBeta (.rat 0) ∧ 2 ≤ 2 * 1 * 1) ∧ (1 ≤ 2 ∧ LegalBeta (.rat 1) ∧ 0 ≤ 2 * 0 * 2) :=
  ⟨⟨le_rfl, legalBeta_rat le_rfl (by norm_num), le_rfl⟩, by norm_num, legalBeta_rat (by norm_num) le_rfl,
    by norm_num⟩

theorem witness_PulseSymmetry :
    (1 ≤ 1 ∧ LegalBeta (.rat 0) ∧ 2 ≤ 2 * 1 * 1) ∧ (1 ≤ 2 ∧ LegalBeta (.rat 1) ∧ 0 ≤ 2 * 0 * 2) ∧
    Scalar.zero.val = 0 :=
  ⟨witness_KernelTapValues.1, witness_KernelTapValues.2, by simp⟩

/-- The window is the whole buffer. -/
theorem witness_InterpCompletes :
    let s := loadBuf 0 (reals [1, 2, 3, 4, 5]) (withCfg { cfgBase with tq := .rat (5 / 2) })
    let xs := ([1, 2, 3, 4, 5] : List ℚ).map Scalar.rat
    s.Inv ∧ s.cfg.p ≠ 0#32 ∧ LegalBeta s.cfg.beta ∧ 2 = ⌊s.cfg.tq.val⌋ ∧
    2 = s.cfg.l.toNat * s.cfg.p.toNat ∧ (0 : ℤ) ≤ 2 - (2 : ℕ) ∧ (2 : ℤ) + (2 : ℕ) + 1 ≤ s.bufLen 0 ∧
    xs.length = 2 * 2 + 1 ∧ ∀ i x, xs[i]? = some x → s.comp 0 (((2 : ℤ) - (2 : ℕ)).toNat + i) .re = some x :=
  ⟨by decide +kernel, by decide, base_legal.1, by rw [← Scalar.floor_val]; decide +kernel, by decide,
    by decide, by decide +kernel, by decide, window_of_range (by decide +kernel)⟩

/-- A roll-off of 0, and a time with no fraction. -/
theorem witness_InterpIsPulseTrain :
    let s := loadBuf 0 (reals [1, 2, 3, 4, 5]) (withCfg { cfgBase with tq := .rat 2, beta := .rat 0 })
    let xs := ([1, 2, 3, 4, 5] : List ℚ).map Scalar.rat
    s.Inv ∧ s.cfg.p ≠ 0#32 ∧ LegalBeta s.cfg.beta ∧ 2 = ⌊s.cfg.tq.val⌋ ∧
    2 = s.cfg.l.toNat * s.cfg.p.toNat ∧ (0 : ℤ) ≤ 2 - (2 : ℕ) ∧ (2 : ℤ) + (2 : ℕ) + 1 ≤ s.bufLen 0 ∧
    xs.length = 2 * 2 + 1 ∧ ∀ i x, xs[i]? = some x → s.comp 0 (((2 : ℤ) - (2 : ℕ)).toNat + i) .re = some x :=
  ⟨by decide +kernel, by decide, legalBeta_rat le_rfl (by norm_num),
    by rw [← Scalar.floor_val]; decide +kernel, by decide, by decide, by decide +kernel, by decide,
    window_of_range (by decide +kernel)⟩

/-- A loaded and an empty source. -/
theorem witness_Pow4Completes :
    ((loadBuf 0 [(1, 1), (0, 2)] base).Inv ∧
      (loadBuf 0 [(1, 1), (0, 2)] base).HoldsCx 0 ([(1, 1), (0, 2)].map ratCx)) ∧
    base.Inv ∧ base.HoldsCx 0 [] :=
  ⟨⟨by decide +kernel, holdsCx_of_src (by decide +kernel) (by decide +kernel)⟩, by decide +kernel,
    holdsCx_of_src (by decide +kernel) (by decide +kernel)⟩

/-- A spectrum with one peak, and one whose five entries are equal. -/
theorem witness_FestFindsPeak :
    (let s := loadBuf 0 [(1, 0), (0, 1), (-1, 0), (0, -1)] base
     let zs := ([(1, 0), (0, 1), (-1, 0), (0, -1)] : List (ℚ × ℚ)).map ratCx
     s.Inv ∧ 0 < s.cfg.fs.val ∧ s.HoldsCx 0 zs ∧ zs ≠ []) ∧
    (let s := loadBuf 0 (reals [0, 1, 0, 0, 0]) base
     s.Inv ∧ s.HoldsCx 0 ((reals [0, 1, 0, 0, 0]).map ratCx)) :=
  ⟨⟨by decide +kernel, base_legal.2.1, holdsCx_of_src (by decide +kernel) (by decide +kernel), by decide⟩,
    by decide +kernel, holdsCx_of_src (by decide +kernel) (by decide +kernel)⟩

theorem witness_CostasRunsLoop :
    let s := loadBuf 0 [(1, 1 / 2), (1 / 2, -1)] (loadBuf 1 (reals [1 / 2, 1 / 4]) base)
    s.Inv ∧ (2 : Buf) ≠ 3 ∧ (2 : Buf) ≠ 4 ∧ (3 : Buf) ≠ 4 ∧ 0 < s.cfg.fs.val ∧
    s.HoldsCx 0 ([(1, 1 / 2), (1 / 2, -1)].map ratCx) ∧
    s.HoldsAxis 1 .re ([1 / 2, 1 / 4].map Scalar.rat) ∧ ([1 / 2, 1 / 4].map Scalar.rat) ≠ [] :=
  ⟨by decide +kernel, by decide, by decide, by decide, base_legal.2.1,
    holdsCx_of_src (by decide +kernel) (by decide +kernel),
    holdsAxis_of_src (by decide +kernel) (by decide +kernel), by decide⟩

/-- The state of V10: `tnow` and `tau` after each iteration of its loop. -/
def trecState : State := loadBuf 0 (reals [0, 0, 0, 0, 1, 0, 0, 0, 0, 0, 0, 0, 0]) base

/-- V10, three iterations with `MU_T = 1/2`; and a buffer too short for one. -/
theorem witness_TrecRunsLoop :
    (let s := trecState
     s.Inv ∧ Axis.im ≠ .re ∧ (1 : Buf) ≠ 2 ∧ s.cfg.p ≠ 0#32 ∧ LegalBeta s.cfg.beta ∧
     3 = ⌈((s.bufLen 0 : ℝ) - s.cfg.tmHi.val - max s.cfg.tinit.val s.cfg.tmLo.val) /
       s.cfg.p.toNat⌉.toNat ∧ 3 ≤ s.bufCap ∧
     (trecIter s .re 0).1 = s.cfg.tinit.max s.cfg.tmLo ∧ (trecIter s .re 0).2 = .zero ∧
     ∀ k < 3, ProbesInside s .re k) ∧
    0 = ⌈((base.bufLen 0 : ℝ) - base.cfg.tmHi.val - max base.cfg.tinit.val base.cfg.tmLo.val) /
      base.cfg.p.toNat⌉.toNat := by
  refine ⟨⟨by decide +kernel, by decide, by decide, by decide, base_legal.1, ?_,
    by decide +kernel, rfl, rfl, fun k hk => ⟨?_, ?_, ?_⟩⟩, ?_⟩
  · rw [← iterationCount_eq]
    decide +kernel
  · revert k
    decide +kernel
  · revert k
    decide +kernel
  · revert k
    decide +kernel
  · rw [← iterationCount_eq]
    decide +kernel

/-- Margins exactly as wide as they must be, with three iterations; and an empty source. -/
theorem witness_TrecResamples :
    let c := { cfgBase with muT := .rat 0, tmLo := .rat (5 / 2), tmHi := .rat (7 / 2) }
    let s := loadBuf 0 (reals [0, 0, 0, 0, 1, 0, 0, 0, 0, 0, 0, 0, 0]) (withCfg c)
    let u := withCfg c
    (s.Inv ∧ (1 : Buf) ≠ 2 ∧ s.cfg.p ≠ 0#32 ∧ LegalBeta s.cfg.beta ∧ s.cfg.muT.val = 0 ∧
     (s.lNat * s.pNat : ℕ) + |s.cfg.delta.val| ≤ s.cfg.tmLo.val ∧
     (s.lNat * s.pNat : ℕ) + 1 + |s.cfg.delta.val| ≤ s.cfg.tmHi.val ∧
     (∀ i < s.bufLen 0, (s.comp 0 i .re).isSome = true) ∧
     3 = ⌈((s.bufLen 0 : ℝ) - s.cfg.tmHi.val - max s.cfg.tinit.val s.cfg.tmLo.val) /
       s.cfg.p.toNat⌉.toNat) ∧
    0 = ⌈((u.bufLen 0 : ℝ) - u.cfg.tmHi.val - max u.cfg.tinit.val u.cfg.tmLo.val) /
      u.cfg.p.toNat⌉.toNat := by
  intro c s u
  have hlp : s.lNat * s.pNat = 2 := rfl
  have hd : s.cfg.delta = .rat (1 / 2) := rfl
  have hlo : s.cfg.tmLo = .rat (5 / 2) := rfl
  have hhi : s.cfg.tmHi = .rat (7 / 2) := rfl
  refine ⟨⟨by decide +kernel, by decide, by decide, base_legal.1, by simp [s, c, loadBuf, withCfg, State.setBuf],
    ?_, ?_, by decide +kernel, ?_⟩, ?_⟩
  · rw [hlp, hd, hlo]
    norm_num [abs_of_pos]
  · rw [hlp, hd, hhi]
    norm_num [abs_of_pos]
  · rw [← iterationCount_eq]
    decide +kernel
  · rw [← iterationCount_eq]
    decide +kernel

theorem witness_QuantCompletes :
    let s := loadBuf 0 [(1, -2)] base
    s.Inv ∧ LegalAlphabet s.cfg.amin s.cfg.amax ∧ s.HoldsCx 0 ([(1, -2)].map ratCx) ∧
    [(1, -2)].map ratCx ≠ [] :=
  ⟨by decide +kernel, base_legal.2.2.1, holdsCx_of_src (by decide +kernel) (by decide +kernel), by decide⟩

/-- V15, with a symbol on the threshold; and a ring that is one. -/
theorem witness_QuantRingDecision :
    let qs : List (ℚ × ℚ) := [(-3, -4), (3, 4), (3 / 2, 2), (0, 5 / 2)]
    let s := loadBuf 0 qs base
    s.Inv ∧ s.cfg.amin = .rat 1 ∧ s.cfg.amax = .rat 3 ∧ (0 : ℚ) < 1 ∧ (1 : ℚ) ≤ 3 ∧
    s.HoldsCx 0 (qs.map ratCx) ∧ qs ≠ [] :=
  ⟨by decide +kernel, rfl, rfl, by norm_num, by norm_num,
    holdsCx_of_src (by decide +kernel) (by decide +kernel), by decide⟩

theorem witness_BarkerHeader :
    LegalFrame base.cfg ∧ LegalFrame { cfgBase with hdr := 11#32, modType := 2#32 } ∧
    LegalFrame { cfgBase with hdr := 13#32, modType := 0#32 } := by decide

/-- The stream of V16 in `QAM4_2`, and its real axis alone in `4PAM`. -/
theorem witness_XcorrCompletes :
    (let s := loadBuf 1 streamH base
     s.Inv ∧ (2 : Buf) ≠ 3 ∧ LegalFrame s.cfg ∧ s.cfg.hitcap.toNat ≤ s.bufCap ∧
     s.HoldsAxis 1 .re ((streamH.map Prod.fst).map Scalar.rat) ∧
     (streamH.map Prod.fst).map Scalar.rat ≠ [] ∧
     s.HoldsAxis 1 .im ((streamH.map Prod.snd).map Scalar.rat)) ∧
    (let s := (withCfg { cfgBase with modType := 2#32, hitcap := 65536#32 }).setBuf 1
       { len := 1#32, cells := [(0, .rat 5)] }
     s.Inv ∧ LegalFrame s.cfg ∧ s.cfg.hitcap.toNat ≤ s.bufCap ∧ s.HoldsAxis 1 .re ([5].map Scalar.rat) ∧
     ¬ s.cfg.modType.toNat ≠ 2) := by
  refine ⟨⟨by decide +kernel, by decide, by decide, by decide, ?_, by decide, ?_⟩, by decide +kernel,
    by decide, by decide, ?_, by decide⟩ <;> exact holdsAxis_of_src (by decide +kernel) (by decide +kernel)

/-- The stream of V16 with one hit on each axis, and V18's trigger, whose table is full at the first. -/
theorem witness_XcorrRecordsHits :
    (let s := loadBuf 1 streamH base
     let xs := streamH.map Prod.fst
     let hd := (specChips s.cfg.hdr).map fun b => (specHeaderSymbol s.cfg.modType.toNat b).1
     let hd' := (specChips s.cfg.hdr).map fun b => (specHeaderSymbol s.cfg.modType.toNat b).2
     s.Inv ∧ (2 : Buf) ≠ 3 ∧ LegalFrame s.cfg ∧ s.cfg.hitcap.toNat ≤ s.bufCap ∧ s.cfg.trig = .rat 60 ∧
     xs ≠ [] ∧ (streamH.map Prod.snd).length = xs.length ∧ s.HoldsAxis 1 .re (xs.map Scalar.rat) ∧
     s.HoldsAxis 1 .im ((streamH.map Prod.snd).map Scalar.rat) ∧
     [(6, 63)] = specHits xs hd 60 s.cfg.hitcap.toNat ∧
     [(6, 63)] = specHits (streamH.map Prod.snd) hd' 60 s.cfg.hitcap.toNat ∧
     1 = (specAllHits xs hd 60).length ∧ 1 = (specAllHits (streamH.map Prod.snd) hd' 60).length ∧
     [(0, -9)] = specHits xs hd 9 1 ∧ 1 < (specAllHits xs hd 9).length) := by
  refine ⟨by decide +kernel, by decide, by decide, by decide, rfl, by decide, by decide, ?_, ?_,
    by decide +kernel, by decide +kernel, by decide +kernel, by decide +kernel, by decide +kernel,
    by decide +kernel⟩ <;> exact holdsAxis_of_src (by decide +kernel) (by decide +kernel)

theorem witness_FextWithoutHits :
    LegalFrame base.cfg ∧ base.bufLen 2 = 0 ∧ base.bufLen 3 = 0 := by decide +kernel

/-- V20: the hits and the stream, the real axis inverted. -/
def slipState : State :=
  loadBuf 1 (streamH.map fun z => (-z.1, z.2)) (loadBuf 2 [(6, 6)] (loadBuf 3 [(-63, 63)] base))

/-- V16's state with its hits, the block of V20 without the slip. -/
def frameState : State := loadBuf 1 streamH (loadBuf 2 [(6, 6)] (loadBuf 3 [(63, 63)] base))

theorem witness_FextExtracts :
    let s := slipState
    let xr := streamH.map fun z => -z.1
    let xi := streamH.map Prod.snd
    let sr (k : ℕ) := specAxisSlice xr [6] [-63] s.cfg.hdr.toNat s.cfg.flen.toNat k
    let si (k : ℕ) := specAxisSlice xi [6] [63] s.cfg.hdr.toNat s.cfg.flen.toNat k
    s.Inv ∧ LegalFrame s.cfg ∧ s.cfg.modType.toNat ≠ 2 ∧ [(-63 : ℚ)].length = [6].length ∧
    (∀ k < 1, (sr k).length = (si k).length) ∧
    [72] = (List.range 1).flatMap (fun k =>
      specCodes (((sr k).zip (si k)).map (specLevel s.cfg.modType.toNat))) ∧ [72].length ≤ s.bufCap ∧
    s.HoldsAxis 1 .re (xr.map Scalar.rat) ∧ s.HoldsAxis 1 .im (xi.map Scalar.rat) ∧
    s.HoldsAxis 2 .re ([6].map Scalar.ofNat) ∧ s.HoldsAxis 2 .im ([6].map Scalar.ofNat) ∧
    s.HoldsAxis 3 .re ([-63].map Scalar.rat) ∧ s.HoldsAxis 3 .im ([63].map Scalar.rat) := by
  refine ⟨by decide +kernel, by decide, by decide, rfl, by decide +kernel, by decide +kernel, by decide,
    ?_, ?_, ?_, ?_, ?_, ?_⟩ <;> exact holdsAxis_of_src (by decide +kernel) (by decide +kernel)

/-- The real axis of V16's stream in `4PAM`. -/
theorem witness_FextExtractsRealAxis :
    let s := loadBuf 1 streamH (loadBuf 2 [(6, 6)] (loadBuf 3 [(63, 63)]
      (withCfg { cfgBase with modType := 2#32 })))
    let xr := streamH.map Prod.fst
    let sr (k : ℕ) := specAxisSlice xr [6] [63] s.cfg.hdr.toNat s.cfg.flen.toNat k
    s.Inv ∧ LegalFrame s.cfg ∧ s.cfg.modType.toNat = 2 ∧ [(63 : ℚ)].length = [6].length ∧
    [72] = (List.range 1).flatMap (fun k => specCodes ((sr k).map fun x => specLevel 2 (x, 0))) ∧
    [72].length ≤ s.bufCap ∧ s.HoldsAxis 1 .re (xr.map Scalar.rat) ∧
    s.HoldsAxis 2 .re ([6].map Scalar.ofNat) ∧ s.HoldsAxis 3 .re ([63].map Scalar.rat) := by
  refine ⟨by decide +kernel, by decide, by decide, rfl, by decide +kernel, by decide,
    ?_, ?_, ?_⟩ <;> exact holdsAxis_of_src (by decide +kernel) (by decide +kernel)

theorem witness_AxisInversionUndone :
    let s := frameState
    let s' := slipState
    let xr := streamH.map Prod.fst
    let xi := streamH.map Prod.snd
    let sr (k : ℕ) := specAxisSlice xr [6] [63] s.cfg.hdr.toNat s.cfg.flen.toNat k
    let si (k : ℕ) := specAxisSlice xi [6] [63] s.cfg.hdr.toNat s.cfg.flen.toNat k
    s.Inv ∧ s'.Inv ∧ LegalFrame s.cfg ∧ s.cfg.modType.toNat ≠ 2 ∧ s'.aw = s.aw ∧ s'.cfg.hdr = s.cfg.hdr ∧
    s'.cfg.modType = s.cfg.modType ∧ s'.cfg.flen = s.cfg.flen ∧ (-1 : ℚ) ∈ ([1, -1] : List ℚ) ∧
    (1 : ℚ) ∈ ([1, -1] : List ℚ) ∧ [(63 : ℚ)].length = [6].length ∧
    (∀ k < 1, (sr k).length = (si k).length) ∧
    ((List.range 1).map fun k => (sr k).length / 4).sum ≤ s.bufCap ∧
    s.HoldsAxis 1 .re (xr.map Scalar.rat) ∧ s.HoldsAxis 1 .im (xi.map Scalar.rat) ∧
    s.HoldsAxis 2 .re ([6].map Scalar.ofNat) ∧ s.HoldsAxis 2 .im ([6].map Scalar.ofNat) ∧
    s.HoldsAxis 3 .re ([63].map Scalar.rat) ∧ s.HoldsAxis 3 .im ([63].map Scalar.rat) ∧
    s'.HoldsAxis 1 .re (xr.map fun x => Scalar.rat (-1 * x)) ∧
    s'.HoldsAxis 1 .im (xi.map fun x => Scalar.rat (1 * x)) ∧
    s'.HoldsAxis 2 .re ([6].map Scalar.ofNat) ∧ s'.HoldsAxis 2 .im ([6].map Scalar.ofNat) ∧
    s'.HoldsAxis 3 .re ([63].map fun v => Scalar.rat (-1 * v)) ∧
    s'.HoldsAxis 3 .im ([63].map fun v => Scalar.rat (1 * v)) := by
  refine ⟨by decide +kernel, by decide +kernel, by decide, by decide, rfl, rfl, rfl, rfl, by decide, by decide,
    rfl, by decide +kernel, by decide +kernel, ?_, ?_, ?_, ?_, ?_, ?_, ?_, ?_, ?_, ?_, ?_, ?_⟩ <;>
  exact holdsAxis_of_src (by decide +kernel) (by decide +kernel)

/-- The least and the greatest character code. -/
theorem witness_Ltr2pamCompletes :
    let s := loadBuf 0 (reals [0, 255]) base
    let xs := ([0, 255] : List ℚ).map Scalar.rat
    s.Inv ∧ s.HoldsAxis 0 .re xs ∧ xs.map Scalar.val = [0, 255].map (fun c : ℕ => (c : ℝ)) ∧
    (∀ c ∈ [0, 255], c ≤ 255) ∧ 4 * xs.length ≤ s.bufCap :=
  ⟨by decide +kernel, holdsAxis_of_src (by decide +kernel) (by decide +kernel), by simp, by decide,
    by decide +kernel⟩

/-- Six levels, of which the last was never written: one code. -/
theorem witness_Pam2ltrCompletes :
    let s := base.setBuf 0 { len := 6#32, cells := [(0, .rat (-1)), (2, .rat (-3)), (4, .rat 1), (6, .rat 3)] }
    let ls : List ℚ := [-1, -3, 1, 3]
    s.Inv ∧ ls.length = 4 * (s.bufLen 0 / 4) ∧ (∀ l ∈ ls, l ∈ ([-3, -1, 1, 3] : List ℚ)) ∧
    ∀ i l, ls[i]? = some l → s.comp 0 i .re = some (.rat l) := by
  refine ⟨by decide +kernel, by decide +kernel, by decide, fun i l h => ?_⟩
  have := window_of_range (s := base.setBuf 0 { len := 6#32, cells := [(0, .rat (-1)), (2, .rat (-3)), (4, .rat 1), (6, .rat 3)] })
    (b := 0) (ax := .re) (xs := ([-1, -3, 1, 3] : List ℚ).map Scalar.rat) (o := 0) (by decide +kernel) i (.rat l)
    (by rw [List.getElem?_map, h]; rfl)
  rwa [Nat.zero_add] at this

/-- Every one of the three forms, on the four levels and one that is none of them. -/
theorem witness_LevelsToSymbols :
    let s := loadBuf 0 (reals [-3, -1, 1, 3, 5]) (withCfg { cfgBase with modType := 2#32 })
    s.Inv ∧ s.HoldsAxis 0 .re ([-3, -1, 1, 3, 5].map Scalar.rat) ∧
    (Instr.pam2sym 1 0 = .pam2sym 1 0 ∧ 2 = s.cfg.modType.toNat ∧ 2 ≤ 2) :=
  ⟨by decide +kernel, holdsAxis_of_src (by decide +kernel) (by decide +kernel), rfl, by decide, le_rfl⟩

/-- A point and a symbol that is none, with both components; and a real axis alone. -/
theorem witness_SymbolsToLevels :
    (let s := loadBuf 0 [(3, 3), (3, 1)] base
     let zs := [(3, 3), (3, 1)].map ratCx
     s.Inv ∧ (Instr.sym2pam 1 0 = .sym2pam 1 0 ∧ 1 = s.cfg.modType.toNat ∧ 1 ≤ 2) ∧
     s.HoldsAxis 0 .re (zs.map Cx.re) ∧ s.HoldsAxis 0 .im (zs.map Cx.im)) ∧
    (let s := (withCfg { cfgBase with modType := 2#32 }).setBuf 0 { len := 1#32, cells := [(0, .rat 3)] }
     s.Inv ∧ 2 = s.cfg.modType.toNat ∧ s.HoldsAxis 0 .re ([ratCx (3, 0)].map Cx.re)) := by
  refine ⟨⟨by decide +kernel, by decide, ?_, ?_⟩, by decide +kernel, by decide, ?_⟩ <;>
  exact holdsAxis_of_src (by decide +kernel) (by decide +kernel)

theorem witness_MapperRoundTrip :
    (∀ c ∈ [0, 255], c ≤ 255) ∧ (-3 : ℚ) ∈ ([-3, -1, 1, 3] : List ℚ) ∧
    (∀ l ∈ ([3, -3, 1, -1] : List ℚ), l ∈ ([-3, -1, 1, 3] : List ℚ)) ∧ ([3, -3, 1, -1] : List ℚ).length % 4 = 0 := by
  decide

end Sys2Proof.Tests
end

/-!
PROOF. Every step keeps the invariant of the block: one lemma for each way a state can change (the end of
an operation, a reset, a host access), put together along `step_cases`.
-/

namespace Sys2Proof.Machine

/-! The end of an operation. -/

/-- A result that completes in an unfaulted block meets the invariant (rule R261). -/
theorem inv_complete {s u : State} (h : s.Inv) (hf : s.status.fault = false) (hk : Keeps s u)
    (hb : u.BuffersSound) : (complete u).Inv := by
  obtain ⟨-, hctrl, hrec, -, -, -⟩ := h
  have hfu : u.status.fault = false := hk.fault.trans hf
  refine ⟨buffersSound_congr rfl hb, ?_, ?_, fun _ => ⟨rfl, hfu⟩, fun _ => .inl rfl, fun _ => rfl⟩
  · rw [State.CtrlSound, complete_ctrl, hk.ctrl]
    exact hctrl
  · simp only [State.FaultRecordSound, complete_status, complete_finfo, complete_fcmd, hfu, hk.fcode,
      hk.finfo, hk.fcmd, hf] at hrec ⊢
    exact hrec

/-- A `raise` of one of the faults of rule R263 meets the invariant: acceptance has cleared `DONE`
(rules R260, R262). -/
theorem inv_raise {s : State} {f : FCode} (info : Nat) (h : s.Inv) (hd : s.status.done = false)
    (hf : f ≠ .none) : (raise f info s).Inv := by
  obtain ⟨hbuf, hctrl, -, -, -, -⟩ := h
  refine ⟨buffersSound_congr rfl hbuf, hctrl, hf, fun hdone => ?_, fun _ => .inl rfl, fun _ => rfl⟩
  rw [raise_status, hd] at hdone
  cases hdone

/-! The two resets. -/

/-- Registers at their reset values in an idle block meet the invariant, whatever sound buffers hold. -/
theorem inv_softReset {s : State} (hb : s.BuffersSound) : (softReset s).Inv := by
  refine ⟨fun n => ⟨?_, ?_⟩, BitVec.zero_and, ⟨rfl, rfl, rfl⟩, nofun, nofun, fun _ => rfl⟩
  · rw [buf_softReset]
    exact (hb n).1
  · rw [State.bufLen, buf_softReset]
    exact Nat.zero_le _

theorem inv_hardReset (s : State) : (hardReset s).Inv := by
  refine ⟨fun n => ?_, BitVec.zero_and, ⟨rfl, rfl, rfl⟩, nofun, nofun, fun _ => rfl⟩
  rw [State.bufLen, buf_hardReset]
  exact ⟨wf_reset _, Nat.zero_le _⟩

/-! The accesses of the host. -/

/-- While a fault stands only `SRST` is accepted, and acceptance clears `DONE` (rules R113, R260). -/
theorem inv_offerCommand {s : State} (w : CmdWord) (h : s.Inv) : (offerCommand w s).Inv := by
  rcases offerCommand_cases w s with ⟨-, -, e⟩ | ⟨hw, e⟩ <;> rw [e]
  · exact h
  · obtain ⟨hbuf, hctrl, hrec, -, -, -⟩ := h
    refine ⟨buffersSound_congr rfl hbuf, hctrl, hrec, nofun, fun hf => ?_, nofun⟩
    rcases hw with hw | rfl
    · exact absurd (hf.symm.trans hw) (by decide)
    · exact .inr rfl

/-- The two bits that `CTRL` keeps of a word leave its reserved bits 0 (rule R31). -/
theorem ctrl_reserved_zero (v : CmdWord) : v &&& 0x3#32 &&& 0xFFFFFFFC#32 = 0#32 := by
  rw [BitVec.and_assoc, show 0x3#32 &&& 0xFFFFFFFC#32 = 0#32 from rfl, BitVec.and_zero]

/-- Replacing the buffers by sound ones keeps the invariant. -/
theorem inv_of_bufs {s : State} (bs : Vector Buffer 8) (h : s.Inv)
    (hb : State.BuffersSound { s with bufs := bs }) : State.Inv { s with bufs := bs } :=
  ⟨hb, h.2⟩

/-- A write of a length changes the buffers alone (rule R38). -/
theorem writeLen_eq_bufs (s : State) (n : Buf) (v : CmdWord) :
    ∃ bs, writeLen s n v = { s with bufs := bs } := by
  unfold writeLen
  split
  · exact ⟨_, rfl⟩
  · exact ⟨s.bufs, rfl⟩

theorem inv_writeLen {s : State} (n : Buf) (v : CmdWord) (h : s.Inv) : (writeLen s n v).Inv := by
  have hb : (writeLen s n v).BuffersSound := buffersSound_writeLen h.1
  obtain ⟨bs, e⟩ := writeLen_eq_bufs s n v
  rw [e] at hb ⊢
  exact inv_of_bufs bs h hb

/-- A host write keeps the invariant (rules R31, R33, R38, R66, R113). -/
theorem inv_memWrite {s : State} (a : Nat) (w : PortWord) (h : s.Inv) : (memWrite s a w).Inv := by
  rcases memWrite_cases s a w with e | e | ⟨c, e⟩ | ⟨n, e⟩ | ⟨n, k, hk, e⟩ | e <;> rw [e]
  · exact inv_offerCommand _ h
  · obtain ⟨hbuf, -, hrest⟩ := h
    exact ⟨buffersSound_congr rfl hbuf, ctrl_reserved_zero _, hrest⟩
  · exact h
  · exact inv_writeLen _ _ h
  · exact inv_of_bufs _ h (buffersSound_writeCell hk h.1)
  · exact h

/-- A host access keeps the invariant (rules R73, R290). -/
theorem inv_takeAccess {s : State} (x : HostAccess) (h : s.Inv) : (takeAccess x s).Inv := by
  cases x with
  | read a => exact h
  | write a w => exact inv_memWrite a w h
  | reset => exact inv_hardReset s

/-- The invariant does not depend on the accesses that wait, nor on how long the operation in progress
still takes. -/
theorem inv_accessTaken {s : State} (ps : List HostAccess) (h : s.Inv) :
    State.Inv { s with pending := ps, busyReads := s.busyReads - 1 } := by
  obtain ⟨hbuf, hctrl, hrec, hdone, hfaulted, hidle⟩ := h
  refine ⟨hbuf, hctrl, hrec, hdone, hfaulted, fun hi => ?_⟩
  rw [hidle hi]

/-! One step. -/

/-- `DONE` is 0 while an operation is in progress (rule R260). -/
theorem done_eq_false_of_inFlight {w : CmdWord} {s : State} (h : s.DoneSound) (hw : s.inFlight = some w) :
    s.status.done = false := by
  cases hd : s.status.done with
  | false => rfl
  | true =>
    obtain ⟨hn, -⟩ := h hd
    rw [hw] at hn
    cases hn

/-- No fault stands while anything but `SRST` is in progress (rules R113, R273). -/
theorem fault_eq_false_of_inFlight {w : CmdWord} {s : State} (h : s.FaultedSound)
    (hw : s.inFlight = some w) (hne : w ≠ srstWord) : s.status.fault = false := by
  cases hf : s.status.fault with
  | false => rfl
  | true =>
    rcases h hf with hn | hs
    · rw [hw] at hn
      cases hn
    · exact absurd (Option.some.inj (hw.symm.trans hs)) hne

/-- The end of an operation keeps the invariant: nothing but `SRST` runs under a fault, and every other
operation completes or raises in an unfaulted block with `DONE` clear. -/
theorem inv_runWord {w : CmdWord} {s t : State} (h : s.Inv) (hw : s.inFlight = some w)
    (ht : runWord w s = .next t) : t.Inv := by
  have ⟨hbuf, _, _, hdone, hfaulted, _⟩ := h
  have hd : s.status.done = false := done_eq_false_of_inFlight hdone hw
  rcases runWord_cases ht with ⟨i, hi, he⟩ | ⟨-, rfl⟩ | ⟨-, rfl⟩
  · rcases exec_cases he with ⟨-, rfl⟩ | ⟨hne, u, hu, rfl⟩ | ⟨-, f, n, hr, rfl⟩
    · exact inv_softReset hbuf
    · have hws : w ≠ srstWord := by
        rintro rfl
        exact hne (Decoded.instr.inj (decode_srstWord.symm.trans hi)).symm
      obtain ⟨hk, hb⟩ := ruleOf_ok hu
      exact inv_complete h (fault_eq_false_of_inFlight hfaulted hw hws) hk (hb hbuf)
    · exact inv_raise n h hd (ruleOf_raise hr)
  · exact inv_raise 0 h hd (by decide)
  · exact inv_raise 0 h hd (by decide)

theorem inv_step {s t : State} (h : s.Inv) (ht : step s = .next t) : t.Inv := by
  rcases step_cases ht with ⟨w, x, rest, -, -, -, -, rfl⟩ | ⟨w, hw, -, hrun⟩ | ⟨-, -, rfl⟩ |
    ⟨x, rest, -, -, rfl⟩
  · exact inv_takeAccess x (inv_accessTaken rest h)
  · exact inv_runWord h hw hrun
  · exact h
  · exact inv_takeAccess x (s := { s with pending := rest }) h

/-! `AW` belongs to the block (rule R6). -/

theorem aw_writeLen (s : State) (n : Buf) (v : CmdWord) : (writeLen s n v).aw = s.aw := by
  obtain ⟨bs, e⟩ := writeLen_eq_bufs s n v
  rw [e]
  rfl

theorem aw_offerCommand (w : CmdWord) (s : State) : (offerCommand w s).aw = s.aw := by
  rcases offerCommand_cases w s with ⟨-, -, e⟩ | ⟨-, e⟩ <;> rw [e]
  rfl

theorem aw_memWrite (s : State) (a : Nat) (w : PortWord) : (memWrite s a w).aw = s.aw := by
  rcases memWrite_cases s a w with e | e | ⟨c, e⟩ | ⟨n, e⟩ | ⟨n, k, -, e⟩ | e <;> rw [e]
  · exact aw_offerCommand _ _
  · rfl
  · rfl
  · exact aw_writeLen _ _ _
  · rfl

theorem aw_takeAccess (x : HostAccess) (s : State) : (takeAccess x s).aw = s.aw := by
  cases x with
  | read a => rfl
  | write a w => exact aw_memWrite s a w
  | reset => rfl

theorem aw_runWord {w : CmdWord} {s t : State} (h : runWord w s = .next t) : t.aw = s.aw := by
  rcases runWord_cases h with ⟨i, -, he⟩ | ⟨-, rfl⟩ | ⟨-, rfl⟩
  · rcases exec_cases he with ⟨-, rfl⟩ | ⟨-, u, hu, rfl⟩ | ⟨-, f, n, -, rfl⟩
    · rfl
    · rw [complete_aw, State.aw, (ruleOf_ok hu).1.awAbove8, State.aw]
    · rfl
  · rfl
  · rfl

theorem aw_step {s t : State} (h : step s = .next t) : t.aw = s.aw := by
  rcases step_cases h with ⟨w, x, rest, -, -, -, -, rfl⟩ | ⟨w, -, -, hrun⟩ | ⟨-, -, rfl⟩ |
    ⟨x, rest, -, -, rfl⟩
  · exact aw_takeAccess x _
  · exact aw_runWord hrun
  · rfl
  · exact aw_takeAccess x _

/-- Settles O10, along the cases of one step. -/
theorem stepKeepsInvariant : Obligations.StepKeepsInvariant :=
  fun _ _ h ht => ⟨inv_step h ht, aw_step ht⟩

end Sys2Proof.Machine

/-!
PROOF. The arithmetic is that of the real numbers, from the lemma about each operation.
-/

namespace Sys2Proof

/-- `sgn` is the sign of the real (rule R14). -/
theorem Scalar.sgn_val (x : Scalar) : (x.sgn : ℝ) = Real.sign x.val := by
  rw [Scalar.sgn_eq]
  rcases lt_trichotomy x.val 0 with h | h | h
  · simp [h, h.not_gt, Real.sign_of_neg h]
  · simp [h]
  · simp [h, Real.sign_of_pos h]

/-- Complex values are equal where both components are (rule R8). -/
theorem Cx.eq_iff {z w : Cx} : z.eq w = true ↔ z.val = w.val := by
  simp [Cx.eq, Cx.val, Scalar.eq_iff]

/-- Settles O60, operation by operation. -/
theorem arithmeticIsExact : Obligations.ArithmeticIsExact :=
  ⟨fun x y => ⟨Scalar.val_add x y, Scalar.val_sub x y, Scalar.val_mul x y, Scalar.val_div x y,
      Scalar.val_neg x, Scalar.val_sqrt x, Scalar.val_sin x, Scalar.val_cos x, Scalar.val_pi⟩,
    fun x y => ⟨Scalar.lt_iff, Scalar.le_iff, Scalar.eq_iff, Scalar.val_max x y⟩,
    fun x => ⟨Scalar.floor_val x, Scalar.ceil_val x, Scalar.val_abs x, Scalar.sgn_val x,
      fun _ => Scalar.toInt?_iff⟩,
    fun z w => ⟨Cx.val_mul z w, Cx.val_modulus z, Cx.eq_iff⟩⟩

end Sys2Proof

/-!
PROOF. `QUANT` over all reals: which result its rule comes to, and the point that it decides for a symbol.
-/

namespace Sys2Proof.Machine

/-- The registers are legal and the source is there: the rule goes on with the sequence it holds
(rules R185, R264, R266). -/
theorem quantRule_eq {s : State} {d0 s0 : Buf} {zs : List Cx} (hb : s.BuffersSound)
    (hl : LegalAlphabet s.cfg.amin s.cfg.amax) (hz : s.HoldsCx s0 zs) (hne : zs ≠ []) :
    quantRule d0 s0 s = quantSeq d0 s zs := by
  have htest : (Scalar.zero.lt s.cfg.amin && s.cfg.amin.le s.cfg.amax) = true := by
    rw [Bool.and_eq_true, Scalar.lt_iff, Scalar.le_iff, Scalar.val_zero]
    exact hl
  have hlen : s.bufLen s0 ≠ 0 := by
    rw [hz.1]
    exact fun h => hne (List.eq_nil_of_length_eq_zero h)
  rw [quantRule, htest, decide_eq_true hlen, (srcCx_eq_ok (hb s0).1).mpr hz]
  rfl

/-- The ring that a symbol is put on: the inner one strictly below the threshold (rule R184). -/
def ringOf (lo hi : Cx) (amin amax : Scalar) (z : Cx) : Scalar :=
  if innerRing lo hi z then amin else amax

theorem ringOf_inner {lo hi z : Cx} (amin amax : Scalar)
    (h : ‖z.val‖ ^ 2 < (threshold lo hi).val ^ 2) : ringOf lo hi amin amax z = amin := by
  rw [ringOf, if_pos (innerRing_iff.mpr h)]

theorem ringOf_outer {lo hi z : Cx} (amin amax : Scalar)
    (h : (threshold lo hi).val ^ 2 ≤ ‖z.val‖ ^ 2) : ringOf lo hi amin amax z = amax := by
  rw [ringOf, if_neg fun hb => (innerRing_iff.mp hb).not_ge h]

/-- The decision of rule R184: the sign of each axis on the ring of the symbol. -/
theorem quantize_val (lo hi : Cx) (amin amax : Scalar) (z : Cx) :
    (quantize lo hi amin amax z).re.val = Real.sign z.re.val * (ringOf lo hi amin amax z).val ∧
      (quantize lo hi amin amax z).im.val = Real.sign z.im.val * (ringOf lo hi amin amax z).val := by
  simp [quantize, ringOf, Scalar.sgn_val]

/-- The state in which `QUANT` completes, before completion. -/
def quantDone (s : State) (d0 : Buf) (ws : List Cx) (v : Scalar) : State :=
  { s.writeCx d0 ws with res := { s.res with thresh := v } }

theorem quantSeq_cons (d0 : Buf) (s : State) (z : Cx) (zs : List Cx) :
    quantSeq d0 s (z :: zs) = .ok (quantDone s d0
      ((z :: zs).map (quantize (cxMin z zs) (cxMax z zs) s.cfg.amin s.cfg.amax))
      (threshold (cxMin z zs) (cxMax z zs))) := rfl

/-- Nothing but `B[d0]` and `THRESH` changes (rule R185). -/
theorem quantDone_frame (s : State) (d0 : Buf) (ws : List Cx) (v : Scalar) :
    CompletesWith {} [d0] s (complete (quantDone s d0 ws v)) := by
  refine completesWith_complete ((keeps_writeCx s d0 ws).trans (keeps_res _ _))
    (setConds_empty_status s).symm fun n hn => ?_
  exact buf_writeCx_ne s ws (by simpa using hn)

/-- Settles O46: the extremes are those of `cxMin` and `cxMax`, the ring that of `innerRing`. -/
theorem quantCompletes : Obligations.QuantCompletes := by
  intro s d0 s0 zs hinv hlegal hz hne
  obtain ⟨hbuf, -⟩ := hinv
  have hcap : zs.length ≤ s.bufCap := hz.1 ▸ (hbuf s0).2
  have hrule : quantRule d0 s0 s = quantSeq d0 s zs := quantRule_eq hbuf hlegal hz hne
  cases zs with
  | nil => exact absurd rfl hne
  | cons z zs =>
    set lo := cxMin z zs
    set hi := cxMax z zs
    set ws := (z :: zs).map (quantize lo hi s.cfg.amin s.cfg.amax) with hws
    have hexec : exec (.quant d0 s0) s = .next (complete (quantDone s d0 ws (threshold lo hi))) := by
      rw [exec_eq_finish s (by simp), ruleOf, hrule, quantSeq_cons, finish_ok]
    have hholds : (s.writeCx d0 ws).HoldsCx d0 ws := holdsCx_writeCx s d0 ws (by simpa [ws] using hcap)
    refine ⟨_, ws, threshold lo hi, lo, cxMin_mem z zs, hi, cxMax_mem z zs, hexec,
      quantDone_frame s d0 ws _, rfl, rfl, HoldsCx.congr hholds rfl, List.length_map _,
      fun u hu => ⟨cxMin_le z zs u hu, le_cxMax z zs u hu⟩, threshold_val lo hi, fun i u w hu hw => ?_⟩
    obtain rfl : quantize lo hi s.cfg.amin s.cfg.amax u = w := by
      rw [hws, List.getElem?_map, hu] at hw
      exact Option.some.inj hw
    exact ⟨(ringOf lo hi s.cfg.amin s.cfg.amax u).val, fun h => congrArg _ (ringOf_inner _ _ h),
      fun h => congrArg _ (ringOf_outer _ _ h), quantize_val ..⟩

end Sys2Proof.Machine

/-!
PROOF. The condition flags: how a step changes them, and that no operation reads them.
-/

namespace Sys2Proof.Machine

/-! The four condition flags. -/

/-- The four condition flags of a state (rule R26). -/
def State.conds (s : State) : Conds :=
  { nosync := s.status.nosync, hitovf := s.status.hitovf, desync := s.status.desync, unrec := s.status.unrec }

/-- The operations that the spec names for `UNREC` (rules R26, R233). -/
abbrev unrecOpcodes : List Opcode := [.FEXT, .PAM2QAM, .QAM2PAM, .PAM2Q42, .Q422PAM, .PAM2SYM, .SYM2PAM]

/-- The flags raised are among those that the spec names for the operation (rules R26, R271). -/
structure Conds.AllowedFor (k : Conds) (o : Opcode) : Prop where
  nosync : k.nosync = true → o = .FEXT
  hitovf : k.hitovf = true → o = .XCORR
  desync : k.desync = true → o = .XCORR
  unrec : k.unrec = true → o ∈ unrecOpcodes

theorem allowedFor_none (o : Opcode) : Conds.AllowedFor {} o := by constructor <;> simp

theorem allowedFor_unrec {o : Opcode} (b : Bool) (ho : o ∈ unrecOpcodes) :
    Conds.AllowedFor { unrec := b } o := by
  constructor <;> simp [ho]

theorem allowedFor_fext (a b : Bool) : Conds.AllowedFor { nosync := a, unrec := b } .FEXT := by
  constructor <;> simp

theorem allowedFor_xcorr (a b : Bool) : Conds.AllowedFor { hitovf := a, desync := b } .XCORR := by
  constructor <;> simp

/-- The flags of `u` are those of `s` with some raised that the spec names for `o`. -/
def RaisesFor (o : Opcode) (s u : State) : Prop :=
  ∃ k : Conds, k.AllowedFor o ∧ u.conds = (setConds k s).conds

/-- A result with the status of before raises no flag. -/
theorem raisesFor_of_status {s u : State} (o : Opcode) (h : u.status = s.status) : RaisesFor o s u :=
  ⟨{}, allowedFor_none o, by simp [State.conds, h]⟩

theorem mapToSymbols_raisesFor {m : Modulation} {d0 s0 : Buf} {s u : State} {o : Opcode}
    (ho : o ∈ unrecOpcodes)
    (h : mapToSymbols m d0 s0 s = .ok u) : RaisesFor o s u := by
  simp only [mapToSymbols, Res.bind_eq_ok] at h
  obtain ⟨ps, -, he⟩ := h
  cases he
  exact ⟨_, allowedFor_unrec _ ho, rfl⟩

theorem mapToLevels_raisesFor {m : Modulation} {d0 s0 : Buf} {s u : State} {o : Opcode}
    (ho : o ∈ unrecOpcodes)
    (h : mapToLevels m d0 s0 s = .ok u) : RaisesFor o s u := by
  simp only [mapToLevels, Res.bind_eq_ok] at h
  obtain ⟨zs, -, he⟩ := h
  cases he
  exact ⟨_, allowedFor_unrec _ ho, rfl⟩

/-- Every rule but that of `CLRF` keeps the flags and raises at most those the spec names for it. -/
theorem ruleOf_raisesFor {i : Instr} {s u : State} (hi : i ≠ .clrf) (h : ruleOf i s = .ok u) :
    RaisesFor i.opcode s u := by
  cases i with
  | clrf => exact absurd rfl hi
  | nop => cases h; exact raisesFor_of_status _ rfl
  | srst => cases h; exact raisesFor_of_status _ rfl
  | srrc d0 =>
    simp only [ruleOf, srrcRule, Res.bind_eq_ok] at h
    obtain ⟨_, _, _, _, he⟩ := h
    cases he
    exact raisesFor_of_status _ rfl
  | interp ax s0 =>
    simp only [ruleOf, interpRule, Res.bind_eq_ok] at h
    obtain ⟨_, _, _, _, he⟩ := h
    cases he
    exact raisesFor_of_status _ rfl
  | pow4 d0 s0 =>
    simp only [ruleOf, pow4Rule, Res.bind_eq_ok] at h
    obtain ⟨_, _, he⟩ := h
    cases he
    exact raisesFor_of_status _ rfl
  | fest s0 =>
    simp only [ruleOf, festRule, Res.bind_eq_ok] at h
    obtain ⟨_, _, _, _, _, _, he⟩ := h
    cases he
    exact raisesFor_of_status _ rfl
  | costas d0 d1 d2 s0 s1 =>
    simp only [ruleOf, costasRule, Res.bind_eq_ok] at h
    obtain ⟨_, _, _, _, _, _, _, _, he⟩ := h
    cases he
    exact raisesFor_of_status _ rfl
  | trec ax d0 d1 s0 =>
    simp only [ruleOf, trecRule, Res.bind_eq_ok] at h
    obtain ⟨_, _, _, _, _, _, he⟩ := h
    cases he
    exact raisesFor_of_status _ rfl
  | quant d0 s0 =>
    simp only [ruleOf, quantRule, Res.bind_eq_ok] at h
    obtain ⟨_, _, _, _, zs, _, he⟩ := h
    cases zs <;> cases he
    exact raisesFor_of_status _ rfl
  | barker d0 =>
    simp only [ruleOf, barkerRule, Res.bind_eq_ok] at h
    obtain ⟨_, _, _, _, he⟩ := h
    cases he
    exact raisesFor_of_status _ rfl
  | xcorr d0 d1 s0 =>
    simp only [ruleOf, xcorrRule, Res.bind_eq_ok] at h
    obtain ⟨_, _, _, _, _, _, _, _, _, _, _, _, he⟩ := h
    cases he
    exact ⟨_, allowedFor_xcorr _ _, rfl⟩
  | fext d0 s0 s1 s2 =>
    simp only [ruleOf, fextRule, Res.bind_eq_ok] at h
    obtain ⟨_, _, _, _, _, _, _, _, _, _, he⟩ := h
    cases he
    exact ⟨_, allowedFor_fext _ _, rfl⟩
  | ltr2pam d0 s0 =>
    simp only [ruleOf, ltr2pamRule, Res.bind_eq_ok] at h
    obtain ⟨_, _, _, _, _, _, he⟩ := h
    cases he
    exact raisesFor_of_status _ rfl
  | pam2ltr d0 s0 =>
    simp only [ruleOf, pam2ltrRule, Res.bind_eq_ok] at h
    obtain ⟨_, _, _, _, _, _, he⟩ := h
    cases he
    exact raisesFor_of_status _ rfl
  | pam2qam d0 s0 => exact mapToSymbols_raisesFor (o := .PAM2QAM) (by decide) h
  | qam2pam d0 s0 => exact mapToLevels_raisesFor (o := .QAM2PAM) (by decide) h
  | pam2q42 d0 s0 => exact mapToSymbols_raisesFor (o := .PAM2Q42) (by decide) h
  | q422pam d0 s0 => exact mapToLevels_raisesFor (o := .Q422PAM) (by decide) h
  | pam2sym d0 s0 =>
    obtain ⟨m, _, hm⟩ := Res.bind_eq_ok.mp h
    exact mapToSymbols_raisesFor (o := .PAM2SYM) (by decide) hm
  | sym2pam d0 s0 =>
    obtain ⟨m, _, hm⟩ := Res.bind_eq_ok.mp h
    exact mapToLevels_raisesFor (o := .SYM2PAM) (by decide) hm

/-! The flags over one step. -/

/-- How the end of an operation changes the flags: `CLRF` and `SRST` clear them, every other operation
raises at most those the spec names for it. -/
theorem exec_conds {i : Instr} {s t : State} (h : exec i s = .next t) :
    ((i = .clrf ∨ i = .srst) ∧ t.conds = {}) ∨ RaisesFor i.opcode s t := by
  rcases exec_cases h with ⟨rfl, rfl⟩ | ⟨-, u, hu, rfl⟩ | ⟨-, f, n, -, rfl⟩
  · exact .inl ⟨.inr rfl, rfl⟩
  · by_cases hi : i = .clrf
    · subst hi
      cases hu
      exact .inl ⟨.inl rfl, rfl⟩
    · obtain ⟨k, hk, e⟩ := ruleOf_raisesFor hi hu
      exact .inr ⟨k, hk, e⟩
  · exact .inr ⟨{}, allowedFor_none _, by simp [State.conds]⟩

theorem conds_offerCommand (w : CmdWord) (s : State) : (offerCommand w s).conds = s.conds := by
  rcases offerCommand_cases w s with ⟨-, -, e⟩ | ⟨-, e⟩ <;> rw [e]
  rfl

/-- No host write changes a condition flag. -/
theorem conds_memWrite (s : State) (a : Nat) (w : PortWord) : (memWrite s a w).conds = s.conds := by
  rcases memWrite_cases s a w with e | e | ⟨c, e⟩ | ⟨n, e⟩ | ⟨n, k, -, e⟩ | e <;> rw [e]
  · exact conds_offerCommand _ _
  · rfl
  · rfl
  · obtain ⟨bs, e⟩ := writeLen_eq_bufs s n w.toInt
    rw [e]
    rfl
  · rfl

/-- A host access leaves the flags as they are, but for the hardware reset, which clears them. -/
theorem conds_takeAccess (x : HostAccess) (s : State) :
    (x = .reset ∧ (takeAccess x s).conds = {}) ∨ (takeAccess x s).conds = s.conds := by
  cases x with
  | read a => exact .inr rfl
  | write a w => exact .inr (conds_memWrite s a w)
  | reset => exact .inl ⟨rfl, rfl⟩

/-- An operation whose fields are all unused is spelt by its match alone (rule R96). -/
theorem eq_opcodeMatch_of_decode {w : CmdWord} {i : Instr} (h : decode w = .instr i)
    (hm : opcodeMask i.opcode = 0xFFFFFFFF#32) : w = opcodeMatch i.opcode := by
  unfold decode at h
  split at h
  · cases h
  · rename_i o _
    split at h
    · rename_i hw
      split at h <;> cases h
      have ho : (operandsOf o w).opcode = o := by cases o <;> rfl
      rw [ho] at hm ⊢
      rw [hm] at hw
      exact BitVec.and_allOnes.symm.trans hw
    · cases h

/-- How one step changes the flags: `CLRF`, `SRST` and hardware reset clear them, an operation that ends
raises at most those the spec names for it, and nothing else touches them. -/
theorem step_conds {s t : State} (h : step s = .next t) :
    ((s.inFlight = some 0x02000000#32 ∨ s.inFlight = some 0x01000000#32 ∨
        ∃ rest, s.pending = .reset :: rest) ∧ t.conds = {}) ∨
    t.conds = s.conds ∨
    ∃ w i, s.inFlight = some w ∧ decode w = .instr i ∧ RaisesFor i.opcode s t := by
  rcases step_cases h with ⟨w, x, rest, -, -, hp, -, rfl⟩ | ⟨w, hw, -, hrun⟩ | ⟨-, -, rfl⟩ |
    ⟨x, rest, -, hp, rfl⟩
  · rcases conds_takeAccess x { s with pending := rest, busyReads := s.busyReads - 1 } with ⟨rfl, e⟩ | e
    · exact .inl ⟨.inr (.inr ⟨rest, hp⟩), e⟩
    · exact .inr (.inl e)
  · rcases runWord_cases hrun with ⟨i, hi, he⟩ | ⟨-, rfl⟩ | ⟨-, rfl⟩
    · rcases exec_conds he with ⟨rfl | rfl, e⟩ | hr
      · exact .inl ⟨.inl (hw.trans (congrArg some (eq_opcodeMatch_of_decode hi rfl))), e⟩
      · exact .inl ⟨.inr (.inl (hw.trans (congrArg some (eq_opcodeMatch_of_decode hi rfl)))), e⟩
      · exact .inr (.inr ⟨w, i, hw, hi, hr⟩)
    · exact .inr (.inl rfl)
    · exact .inr (.inl rfl)
  · exact .inr (.inl rfl)
  · rcases conds_takeAccess x { s with pending := rest } with ⟨rfl, e⟩ | e
    · exact .inl ⟨.inr (.inr ⟨rest, hp⟩), e⟩
    · exact .inr (.inl e)

theorem fext_of_opcode {i : Instr} (h : i.opcode = .FEXT) : ∃ d0 s0 s1 s2, i = .fext d0 s0 s1 s2 := by
  cases i <;> cases h
  exact ⟨_, _, _, _, rfl⟩

theorem xcorr_of_opcode {i : Instr} (h : i.opcode = .XCORR) : ∃ d0 d1 s0, i = .xcorr d0 d1 s0 := by
  cases i <;> cases h
  exact ⟨_, _, _, rfl⟩

/-- Settles O19, along the ways in which one step changes the flags. -/
theorem conditionFlagsSticky : Obligations.ConditionFlagsSticky := by
  intro s t h
  rcases step_conds h with ⟨hcl, e⟩ | e | ⟨w, i, hw, hi, k, hk, e⟩
  · obtain ⟨en, eh, ed, eu⟩ := Conds.mk.inj e
    refine ⟨.inl hcl, fun hn => ?_, fun hh => ?_, fun hd => ?_, fun hu => ?_⟩
    · simp [en] at hn
    · simp [eh] at hh
    · simp [ed] at hd
    · simp [eu] at hu
  · obtain ⟨en, eh, ed, eu⟩ := Conds.mk.inj e
    rw [en, eh, ed, eu]
    exact ⟨.inr ⟨id, id, id, id⟩, .inl, .inl, .inl, .inl⟩
  · obtain ⟨en, eh, ed, eu⟩ := Conds.mk.inj e
    simp only [setConds_nosync, setConds_hitovf, setConds_desync, setConds_unrec] at en eh ed eu
    simp only [en, eh, ed, eu, Bool.or_eq_true]
    refine ⟨.inr ⟨.inl, .inl, .inl, .inl⟩, .imp_right fun hn => ?_, .imp_right fun hh => ?_,
      .imp_right fun hd => ?_, .imp_right fun hu => ⟨w, i, hw, hi, hk.unrec hu⟩⟩
    · obtain ⟨d0, s0, s1, s2, rfl⟩ := fext_of_opcode (hk.nosync hn)
      exact ⟨w, d0, s0, s1, s2, hw, hi⟩
    · obtain ⟨d0, d1, s0, rfl⟩ := xcorr_of_opcode (hk.hitovf hh)
      exact ⟨w, d0, d1, s0, hw, hi⟩
    · obtain ⟨d0, d1, s0, rfl⟩ := xcorr_of_opcode (hk.desync hd)
      exact ⟨w, d0, d1, s0, hw, hi⟩

/-! What an operation reads. -/

/-- What a rule comes to, but for the condition flags of its result. -/
def Res.forgetConds (r : Res State) : Res State := r.bind fun u => .ok (clearConds u)

/-- The flags are forgotten at the end of the last part of a rule. -/
theorem forgetConds_bind {α : Type} (r : Res α) (f : α → Res State) :
    (r.bind f).forgetConds = r.bind fun a => (f a).forgetConds := by
  cases r <;> rfl

/-- The timing loop reads no flag. -/
theorem timingLoop_withConds (c : Conds) (s : State) (b : Buf) (ax : Axis) (fuel : Nat)
    (st : TimingState) : timingLoop (withConds c s) b ax fuel st = timingLoop s b ax fuel st := by
  induction fuel generalizing st with
  | zero => rfl
  | succ n ih =>
    simp only [timingLoop, funext ih]
    rfl

/-- The extraction of the hits reads no flag. -/
theorem extractFrom_withConds (m : Modulation) (c : Conds) (s : State) (a : FextArgs) (rem k : Nat) :
    extractFrom m (withConds c s) a rem k = extractFrom m s a rem k := by
  induction rem generalizing k with
  | zero => rfl
  | succ n ih =>
    simp only [extractFrom, ih]
    rfl

theorem quantSeq_withConds (c : Conds) (s : State) (d0 : Buf) (zs : List Cx) :
    (quantSeq d0 (withConds c s) zs).forgetConds = (quantSeq d0 s zs).forgetConds := by
  cases zs <;> rfl

theorem mapToSymbols_withConds (m : Modulation) (d0 s0 : Buf) (c : Conds) (s : State) :
    (mapToSymbols m d0 s0 (withConds c s)).forgetConds = (mapToSymbols m d0 s0 s).forgetConds := by
  simp only [mapToSymbols, forgetConds_bind]
  rfl

theorem mapToLevels_withConds (m : Modulation) (d0 s0 : Buf) (c : Conds) (s : State) :
    (mapToLevels m d0 s0 (withConds c s)).forgetConds = (mapToLevels m d0 s0 s).forgetConds := by
  simp only [mapToLevels, forgetConds_bind]
  rfl

/-- A rule comes to the same whatever the flags, but for the flags of its result: its reads go to the
registers and the buffers, so that with the flags forgotten at its end the two sides are one term. -/
theorem ruleOf_withConds (i : Instr) (c : Conds) (s : State) :
    (ruleOf i (withConds c s)).forgetConds = (ruleOf i s).forgetConds := by
  cases i with
  | nop => rfl
  | srst => rfl
  | clrf => rfl
  | srrc d0 => simp only [ruleOf, srrcRule, forgetConds_bind]; rfl
  | interp ax s0 => simp only [ruleOf, interpRule, forgetConds_bind]; rfl
  | pow4 d0 s0 => simp only [ruleOf, pow4Rule, forgetConds_bind]; rfl
  | fest s0 => simp only [ruleOf, festRule, forgetConds_bind]; rfl
  | costas d0 d1 d2 s0 s1 => simp only [ruleOf, costasRule, forgetConds_bind]; rfl
  | trec ax d0 d1 s0 =>
    simp only [ruleOf, trecRule, forgetConds_bind, timingLoop_withConds]
    rfl
  | quant d0 s0 =>
    simp only [ruleOf, quantRule, forgetConds_bind, quantSeq_withConds]
    rfl
  | barker d0 => simp only [ruleOf, barkerRule, forgetConds_bind]; rfl
  | xcorr d0 d1 s0 => simp only [ruleOf, xcorrRule, forgetConds_bind]; rfl
  | fext d0 s0 s1 s2 =>
    simp only [ruleOf, fextRule, forgetConds_bind, extractFrom_withConds]
    rfl
  | ltr2pam d0 s0 => simp only [ruleOf, ltr2pamRule, forgetConds_bind]; rfl
  | pam2ltr d0 s0 => simp only [ruleOf, pam2ltrRule, forgetConds_bind]; rfl
  | pam2qam d0 s0 => exact mapToSymbols_withConds _ _ _ _ _
  | qam2pam d0 s0 => exact mapToLevels_withConds _ _ _ _ _
  | pam2q42 d0 s0 => exact mapToSymbols_withConds _ _ _ _ _
  | q422pam d0 s0 => exact mapToLevels_withConds _ _ _ _ _
  | pam2sym d0 s0 =>
    simp only [ruleOf, forgetConds_bind, mapToSymbols_withConds]
    rfl
  | sym2pam d0 s0 =>
    simp only [ruleOf, forgetConds_bind, mapToLevels_withConds]
    rfl

theorem forgetConds_eq_ok {r : Res State} {u : State} :
    r.forgetConds = .ok u ↔ ∃ v, r = .ok v ∧ clearConds v = u := by
  simp [Res.forgetConds, Res.bind_eq_ok]

theorem forgetConds_eq_raise {r : Res State} {f : FCode} {n : Nat} :
    r.forgetConds = .raise f n ↔ r = .raise f n := by
  simp [Res.forgetConds, Res.bind_eq_raise]

theorem forgetConds_eq_uninit {r : Res State} {b : Buf} : r.forgetConds = .uninit b ↔ r = .uninit b := by
  simp [Res.forgetConds, Res.bind_eq_uninit]

/-- Completion does not depend on the flags. -/
theorem clearConds_complete (s : State) : clearConds (complete s) = complete (clearConds s) := rfl

/-- Settles O20: with its flags forgotten an operation's rule comes to one end for all flags. -/
theorem conditionFlagsNeverRead : Obligations.ConditionFlagsNeverRead := by
  intro i s c
  have hrule := ruleOf_withConds i c s
  constructor
  · intro t ht
    rcases exec_cases ht with ⟨rfl, rfl⟩ | ⟨hi, u, hu, rfl⟩ | ⟨hi, f, n, hr, rfl⟩
    · exact ⟨_, rfl, rfl⟩
    · obtain ⟨v, hv, e⟩ := forgetConds_eq_ok.mp (hrule.trans (forgetConds_eq_ok.mpr ⟨u, hu, rfl⟩))
      refine ⟨complete v, exec_ok hi hv, ?_⟩
      rw [clearConds_complete, e, clearConds_complete]
    · have hr' := forgetConds_eq_raise.mp (hrule.trans (forgetConds_eq_raise.mpr hr))
      exact ⟨_, exec_raise hi hr', rfl⟩
  · intro r hr
    by_cases hi : i = .srst
    · subst hi
      cases hr
    · rw [exec_eq_finish _ hi] at hr ⊢
      obtain ⟨b, hb, rfl⟩ := finish_eq_refused.mp hr
      have hb' := forgetConds_eq_uninit.mp (hrule.trans (forgetConds_eq_uninit.mpr hb))
      exact finish_eq_refused.mpr ⟨b, hb', rfl⟩

end Sys2Proof.Machine

/-!
PROOF. The host port: what each address of the page names, and what a write leaves at every other address.
-/

namespace Sys2Proof.Machine

/-! What an address names. -/

/-- No register stands in the holes of the page (rule R39). -/
theorem regAt_eq_none {a : Nat} (h0 : ¬ a ≤ 0x05) (h1 : ¬ (0x10 ≤ a ∧ a ≤ 0x15))
    (h2 : ¬ (0x20 ≤ a ∧ a ≤ 0x2D)) (h3 : ¬ (0x30 ≤ a ∧ a ≤ 0x37)) : regAt a = none := by
  unfold regAt
  split <;> first | rfl | omega

/-- An address of the page outside `LEN` names the register that stands there, or nothing (rule R39). -/
theorem target_of_page (s : State) {a : Nat} (h : a ≤ 0xFF) (hl : ¬ (0x40 ≤ a ∧ a ≤ 0x47)) :
    target s.aw a = (regAt a).elim .unmapped .reg := by
  have hw : ¬ windowStart s.aw ≤ a := by
    rw [windowStart_aw]
    have := bufCap_ge s
    omega
  rw [target, if_neg fun hc => hw hc.1, if_neg (by simp only [lenBase]; omega)]
  cases regAt a <;> rfl

/-- The eight length registers (rule R38). -/
theorem target_len (s : State) (n : Buf) : target s.aw (0x40 + n.val) = .len n := by
  have hn := n.isLt
  rw [target_page s (by omega)]
  revert n
  decide

theorem page_of_target_len {w a : Nat} {n : Buf} (h : target w a = .len n) : 0x40 ≤ a ∧ a ≤ 0x47 := by
  unfold target at h
  split at h
  · cases h
  · split at h
    · rename_i hl
      simp only [lenBase] at hl
      omega
    · split at h <;> cases h

/-- A write of an address of the page outside `LEN` writes the register that stands there. -/
theorem memWrite_of_page (s : State) {a : Nat} (w : PortWord) (h : a < 0x40) :
    memWrite s a w = (regAt a).elim s fun r => writeReg s r w := by
  rw [memWrite, target_of_page s (by omega) (by omega)]
  cases regAt a <;> rfl

/-- A read of an address of the page outside `LEN` reads the register that stands there. -/
theorem memRead_of_page (s : State) {a : Nat} (h : a < 0x40) :
    memRead s a = (regAt a).elim (.bits 0#64) (readReg s) := by
  rw [memRead, target_of_page s (by omega) (by omega)]
  cases regAt a <;> rfl

/-! Unmapped addresses. -/

/-- Where nothing is mapped a read returns 0 and a write is ignored (rules R39, R63). -/
theorem unmapped_inert {s : State} {a : Nat} (w : PortWord) (h : target s.aw a = .unmapped) :
    memRead s a = .bits 0#64 ∧ memWrite s a w = s := by
  rw [memRead, memWrite, h]
  exact ⟨rfl, rfl⟩

/-- Settles O24: neither a hole of the page nor an address beyond page and window names anything. -/
theorem unmappedAddresses : Obligations.UnmappedAddresses := by
  rintro s a w (⟨h, h0, h1, h2, h3, h4⟩ | ⟨h, hw⟩)
  · refine unmapped_inert w ?_
    rw [target_of_page s h h4, regAt_eq_none h0 h1 h2 h3]
    rfl
  · exact unmapped_inert w (target_beyond s h hw)

/-! The length registers. -/

theorem writeLen_of_le {s : State} (n : Buf) {v : CmdWord} (h : v.toNat ≤ s.bufCap) :
    writeLen s n v = s.setBuf n { s.buf n with len := v } := if_pos h

theorem writeLen_of_gt {s : State} (n : Buf) {v : CmdWord} (h : s.bufCap < v.toNat) :
    writeLen s n v = s := if_neg h.not_ge

/-- Replacing the length of a buffer changes no element. -/
theorem comp_setLen (s : State) (n m : Buf) (v : CmdWord) (i : Nat) (ax : Axis) :
    (s.setBuf n { s.buf n with len := v }).comp m i ax = s.comp m i ax := by
  by_cases e : m = n
  · subst e
    rw [State.comp, buf_setBuf_same, State.comp]
  · rw [State.comp, buf_setBuf_ne s _ e, State.comp]

/-- Settles O26: a write of `LEN[n]` is a write of that length, or nothing. -/
theorem lengthRegisterWrite : Obligations.LengthRegisterWrite := by
  intro s n w
  have hwrite : memWrite s (0x40 + n.val) w = writeLen s n w.toInt := by rw [memWrite, target_len]
  refine ⟨by rw [memRead, target_len]; rfl, fun h => ?_, fun h => hwrite.trans (writeLen_of_gt n h)⟩
  rw [hwrite, writeLen_of_le n h]
  refine ⟨by rw [State.bufLen, buf_setBuf_same], fun m hm => ?_,
    fun m i ax => comp_setLen s n m w.toInt i ax, rfl⟩
  rw [State.bufLen, buf_setBuf_ne s _ hm, State.bufLen]

/-! A write changes what no other address reads as. -/

/-- A write of a register other than `CMD` changes at most the configuration and `CTRL`. -/
theorem writeReg_eq_cfg_ctrl (s : State) {r : Reg} (w : PortWord) (h : r ≠ .cmd) :
    ∃ c x, writeReg s r w = { s with cfg := c, ctrl := x } := by
  cases r <;> first | exact ⟨_, _, rfl⟩ | exact absurd rfl h

/-- No register reads from what is written of another, `CMD` apart: the table of registers against
itself, each pair by computation. -/
theorem readReg_writeReg_ne (s : State) {r q : Reg} (w : PortWord) (hr : r ≠ .cmd) (hq : q ≠ r) :
    readReg (writeReg s r w) q = readReg s q := by
  cases r <;>
    first
    | rfl
    | exact absurd rfl hr
    | cases q <;> first | rfl | exact absurd rfl hq

theorem memRead_writeReg_ne {s : State} {r : Reg} (w : PortWord) {b : Nat} (hr : r ≠ .cmd)
    (hb : target s.aw b ≠ .reg r) : memRead (writeReg s r w) b = memRead s b := by
  obtain ⟨c, x, e⟩ := writeReg_eq_cfg_ctrl s w hr
  have haw : (writeReg s r w).aw = s.aw := by rw [e]; rfl
  rw [memRead, haw, memRead]
  cases ht : target s.aw b with
  | reg q => exact readReg_writeReg_ne s w hr fun hq => hb (by rw [ht, hq])
  | len n => rw [e]; rfl
  | cell n k => rw [e]; rfl
  | unmapped => rfl

/-- No register reads from a buffer. -/
theorem readReg_setBuf (s : State) (n : Buf) (b : Buffer) (r : Reg) :
    readReg (s.setBuf n b) r = readReg s r := by
  cases r <;> rfl

theorem len_writeCell (s : State) (n m : Buf) (k : Nat) (v : Scalar) :
    ((writeCell s n k v).buf m).len = (s.buf m).len := by
  by_cases e : m = n
  · subst e
    rw [writeCell, buf_setBuf_same]
  · rw [writeCell, buf_setBuf_ne s _ e]

/-- Every component but the one written reads as before (rule R66). -/
theorem lookupCell_writeCell_ne (s : State) {n m : Buf} {k j : Nat} (v : Scalar)
    (h : ¬ (m = n ∧ j = k)) :
    lookupCell ((writeCell s n k v).buf m).cells j = lookupCell (s.buf m).cells j := by
  by_cases e : m = n
  · subst e
    rw [writeCell, buf_setBuf_same]
    exact lookupCell_setCell_ne _ v fun hj => h ⟨rfl, hj⟩
  · rw [writeCell, buf_setBuf_ne s _ e]

theorem memRead_writeCell_ne {s : State} {n : Buf} {k : Nat} (v : Scalar) {b : Nat}
    (hb : target s.aw b ≠ .cell n k) : memRead (writeCell s n k v) b = memRead s b := by
  have haw : (writeCell s n k v).aw = s.aw := rfl
  rw [memRead, haw, memRead]
  cases ht : target s.aw b with
  | reg r => exact readReg_setBuf s n _ r
  | len m => exact congrArg intWord (len_writeCell s n m k v)
  | cell m j =>
    have hcell := lookupCell_writeCell_ne s v (n := n) (k := k) (m := m) (j := j)
      (by rintro ⟨rfl, rfl⟩; exact hb ht)
    have hlen : (writeCell s n k v).bufLen m = s.bufLen m :=
      congrArg BitVec.toNat (len_writeCell s n m k v)
    simp only [readCell, hcell, hlen]
    rfl
  | unmapped => rfl

/-- A write of any address but `CMD` and `LEN` changes what no other address reads as. -/
theorem memRead_memWrite_ne (s : State) (w : PortWord) {a b : Nat} (ha : a ≠ 0x01)
    (hl : ¬ (0x40 ≤ a ∧ a ≤ 0x47)) (hb : b ≠ a) : memRead (memWrite s a w) b = memRead s b := by
  have hdistinct : ∀ t, target s.aw a = t → t ≠ .unmapped → target s.aw b ≠ t :=
    fun t hta ht htb => hb (target_injective htb hta ht)
  cases hta : target s.aw a with
  | reg r =>
    have hr : r ≠ .cmd := by
      rintro rfl
      exact ha (target_injective hta (target_of_page s (by omega) (by omega)) nofun)
    rw [memWrite, hta]
    exact memRead_writeReg_ne w hr (hdistinct _ hta nofun)
  | len n => exact absurd (page_of_target_len hta) hl
  | cell n k =>
    rw [memWrite, hta]
    exact memRead_writeCell_ne _ (hdistinct _ hta nofun)
  | unmapped => rw [memWrite, hta]

/-- Settles O27: the table of the registers, read off the address map. -/
theorem registerWriteIsLocal : Obligations.RegisterWriteIsLocal := by
  refine ⟨fun _ => rfl, fun _ => rfl, fun s w => ⟨?_, memWrite_of_page s w (by omega), ?_, ?_, ?_, ?_, ?_,
    memRead_of_page s (by omega), memRead_of_page s (by omega), ?_, fun a b => memRead_memWrite_ne s w⟩⟩
  · simp only [List.forall_mem_cons, List.not_mem_nil, IsEmpty.forall_iff, implies_true, and_true]
    and_intros <;> exact memWrite_of_page s w (by omega)
  · simp only [List.forall_mem_cons, List.not_mem_nil, IsEmpty.forall_iff, implies_true, and_true]
    and_intros <;> exact memRead_of_page s (by omega)
  · simp only [List.forall_mem_cons, List.not_mem_nil, IsEmpty.forall_iff, implies_true, and_true]
    and_intros <;> exact memRead_of_page s (by omega)
  · intro a h1 h2
    rw [memWrite_of_page s w (by omega), memRead_of_page _ (by omega)]
    interval_cases a <;> rfl
  · intro a h1 h2
    rw [memWrite_of_page s w (by omega), memRead_of_page _ (by omega)]
    interval_cases a <;> rfl
  · rw [memWrite_of_page s w (by omega), memRead_of_page _ (by omega)]
    rfl
  · simp only [List.forall_mem_cons, List.not_mem_nil, IsEmpty.forall_iff, implies_true, and_true]
    and_intros <;> exact memWrite_of_page s w (by omega)

end Sys2Proof.Machine

/-!
PROOF. A step, the state after a reset, and `STATUS` as a word.
-/

namespace Sys2Proof.Machine

/-! A step runs the decoded instruction. -/

theorem wellFormed_of_decode {w : CmdWord} {i : Instr} (h : decode w = .instr i) :
    i.wellFormed = true := by
  unfold decode at h
  split at h
  · cases h
  · split at h
    · split at h
      · rename_i hwf
        cases h
        exact hwf
      · cases h
    · cases h

theorem runWord_of_decode {w : CmdWord} {i : Instr} (s : State) (h : decode w = .instr i) :
    runWord w s = exec i s := by
  simp only [runWord, h]

/-- A step of a busy block that no host access comes before is the end of its operation (rule R103). -/
theorem step_busy {s : State} {w : CmdWord} {i : Instr} (hw : s.inFlight = some w)
    (hi : decode w = .instr i) (ha : accessWhileBusy s = none) : step s = exec i s := by
  simp only [step, hw, busyStep, ha]
  exact runWord_of_decode s hi

/-- A host access that comes before the end takes effect instead (rules R74, R290). -/
theorem step_busy_access {s : State} {w : CmdWord} {x : HostAccess} (hw : s.inFlight = some w)
    (ha : accessWhileBusy s = some x) :
    step s = .next
      (takeAccess x { s with pending := s.pending.tail, busyReads := s.busyReads - 1 }) := by
  simp only [step, hw, busyStep, ha]

theorem decode_of_decodeTableWord {n w : Nat} {i : Instr} (h : decodeTableWord n w = some i) :
    decode (BitVec.ofNat 32 (w % 2 ^ n)) = .instr i := by
  unfold decodeTableWord at h
  split at h
  · rename_i hd
    rw [hd, Option.some.inj h]
  · cases h
  · cases h

theorem step_idle {s : State} (h : s.inFlight = none) : step s = .next (idleStep s) := by
  simp only [step, h]

/-- Settles O7: one clause for each of the ways a step goes. -/
theorem stepRunsDecodedInstruction : Obligations.StepRunsDecodedInstruction :=
  ⟨fun _ _ _ hw hi => ⟨wellFormed_of_decode hi, step_busy hw hi, fun _ => step_busy_access hw⟩,
    fun _ _ _ h => step_busy rfl (decode_of_decodeTableWord h) rfl,
    fun _ => step_idle,
    fun _ _ _ _ => step_access,
    fun _ => step_quiet⟩

/-! Reset. -/

/-- `STATUS` reads 0 in an idle block whose status fields are at reset (rules R26, R54). -/
theorem statusWord_reset {t : State} (hs : t.status = .reset) (hi : t.inFlight = none) :
    statusWord t = 0#32 := by
  simp only [statusWord, State.busy, hs, hi]
  decide

/-- A state whose parts have their reset values has every register at its reset value (rule R54). -/
theorem registersReset_of_parts {t : State} (hs : t.status = .reset) (hi : t.inFlight = none)
    (hc : t.ctrl = 0#32) (hn : t.finfo = 0#32) (hf : t.fcmd = 0#32) (hcfg : t.cfg = .reset)
    (hres : t.res = .reset) (hl : ∀ n, (t.buf n).len = 0#32) : RegistersReset t := by
  refine ⟨statusWord_reset hs hi, hi, hc, hn, hf, ?_, ?_, ?_, fun n => by rw [State.bufLen, hl]; rfl⟩
  · rw [hcfg]
    and_intros <;> rfl
  · rw [hcfg]
    and_intros <;> rfl
  · rw [hres]
    and_intros <;> rfl

theorem registersReset_reset : RegistersReset State.reset :=
  registersReset_of_parts rfl rfl rfl rfl rfl rfl rfl fun n => by rw [buf_reset]; rfl

theorem registersReset_hardReset (s : State) : RegistersReset (hardReset s) :=
  registersReset_of_parts rfl rfl rfl rfl rfl rfl rfl fun n => by rw [buf_hardReset]; rfl

theorem registersReset_softReset (s : State) : RegistersReset (softReset s) :=
  registersReset_of_parts rfl rfl rfl rfl rfl rfl rfl fun n => by rw [buf_softReset]

/-- Hardware reset leaves every element unspecified (rule R290; log entry 23). -/
theorem comp_hardReset (s : State) (n : Buf) (i : Nat) (ax : Axis) : (hardReset s).comp n i ax = none := by
  rw [State.comp, buf_hardReset]
  rfl

/-- `SRST` keeps every element (rule R112). -/
theorem comp_softReset (s : State) (n : Buf) (i : Nat) (ax : Axis) :
    (softReset s).comp n i ax = s.comp n i ax := by
  rw [State.comp, buf_softReset, State.comp]

namespace Reset

/-- Settles O8, for each kind of reset. -/
theorem resetRegisters : Obligations.ResetRegisters :=
  ⟨registersReset_reset, fun s => ⟨registersReset_hardReset s, registersReset_softReset s,
    fun n i ax => ⟨comp_hardReset s n i ax, comp_softReset s n i ax⟩⟩⟩

end Reset

/-- Settles O9: the buffers are empty, the registers at reset, and nothing is in progress. -/
theorem invariantAtReset : Obligations.InvariantAtReset := by
  refine ⟨fun n => ?_, BitVec.zero_and, ⟨rfl, rfl, rfl⟩, nofun, nofun, fun _ => rfl⟩
  rw [State.bufLen, buf_reset]
  exact ⟨wf_reset _, Nat.zero_le _⟩

/-! `STATUS` and the interrupt line. -/

theorem getLsbD_bit (b : Bool) : (bit b).getLsbD 0 = b := by cases b <;> rfl

/-- The bits of `STATUS` are the fields it is put together from (rule R26). -/
theorem statusWord_bits (s : State) :
    (statusWord s).getLsbD 0 = s.inFlight.isSome ∧ (statusWord s).getLsbD 1 = s.status.done ∧
    (statusWord s).getLsbD 2 = s.status.fault ∧ (statusWord s).getLsbD 16 = s.status.nosync ∧
    (statusWord s).getLsbD 17 = s.status.hitovf ∧ (statusWord s).getLsbD 18 = s.status.desync ∧
    (statusWord s).getLsbD 19 = s.status.unrec := by
  simp only [statusWord, BitVec.getLsbD_append]
  exact ⟨getLsbD_bit _, getLsbD_bit _, getLsbD_bit _, getLsbD_bit _, getLsbD_bit _, getLsbD_bit _,
    getLsbD_bit _⟩

/-- Bits 7:3 of `STATUS` read as zero (rule R26). -/
theorem statusWord_reserved_low (s : State) : (statusWord s).extractLsb' 3 5 = 0#5 := by
  apply BitVec.eq_of_getLsbD_eq
  intro i hi
  simp only [statusWord, BitVec.getLsbD_extractLsb', BitVec.getLsbD_append]
  interval_cases i <;> rfl

/-- Bits 15:8 of `STATUS` are the number of the fault code (rules R26, R263). -/
theorem statusWord_fcode (s : State) : (statusWord s).extractLsb' 8 8 = s.status.fcode.code := by
  apply BitVec.eq_of_getLsbD_eq
  intro i hi
  simp only [statusWord, BitVec.getLsbD_extractLsb', BitVec.getLsbD_append, hi, decide_true,
    Bool.true_and]
  interval_cases i <;> rfl

/-- Bits 31:20 of `STATUS` read as zero (rule R26). -/
theorem statusWord_reserved_high (s : State) : (statusWord s).extractLsb' 20 12 = 0#12 := by
  apply BitVec.eq_of_getLsbD_eq
  intro i hi
  simp only [statusWord, BitVec.getLsbD_extractLsb', BitVec.getLsbD_append]
  interval_cases i <;> rfl

/-- The line is 0 while no enable of `CTRL` is set (rule R272). -/
theorem irq_of_ctrl_zero {s : State} (h : s.ctrl = 0#32) : s.irq = false := by
  simp [State.irq, h]

/-- The line is 0 after an acceptance in an unfaulted block, which clears `DONE` (rules R260, R272). -/
theorem irq_offerCommand (w : CmdWord) {s : State} (h : s.status.fault = false) :
    (offerCommand w s).irq = false := by
  rcases offerCommand_cases w s with ⟨hf, -, -⟩ | ⟨-, e⟩
  · exact absurd (h.symm.trans hf) (by decide)
  · simp [e, State.irq, h]

/-- Settles O17, field by field. -/
theorem statusWordAndIrq : Obligations.StatusWordAndIrq := by
  intro s
  obtain ⟨hbusy, hdone, hfault, hnosync, hhitovf, hdesync, hunrec⟩ := statusWord_bits s
  refine ⟨hbusy, hdone, hfault, statusWord_reserved_low s, ?_, hnosync, hhitovf, hdesync, hunrec,
    statusWord_reserved_high s, by rw [hdone, hfault, State.irq], irq_of_ctrl_zero,
    fun w => irq_offerCommand w⟩
  rw [statusWord_fcode]
  cases s.status.fcode <;> rfl

end Sys2Proof.Machine

/-!
PROOF. The accesses of the host over one step: reads have no side effect, what is held while an operation
is in progress, and the buffer window.
-/

namespace Sys2Proof.Machine

/-! Reads. -/

/-- No register reads from the host's side, nor from how long the operation in progress still takes. -/
theorem readReg_hostSide (s : State) (k : Nat) (ps : List HostAccess) (as : List (Nat × PortWord))
    (r : Reg) : readReg { s with busyReads := k, pending := ps, answered := as } r = readReg s r := by
  cases r <;> rfl

/-- What an address reads as does not depend on the host's side, nor on how long the operation in progress
still takes (rule R71). -/
theorem memRead_hostSide (s : State) (k : Nat) (ps : List HostAccess) (as : List (Nat × PortWord))
    (a : Nat) : memRead { s with busyReads := k, pending := ps, answered := as } a = memRead s a := by
  have haw : State.aw { s with busyReads := k, pending := ps, answered := as } = s.aw := rfl
  rw [memRead, haw, memRead]
  cases target s.aw a with
  | reg r => exact readReg_hostSide s k ps as r
  | len n => rfl
  | cell n j => rfl
  | unmapped => rfl

/-- A read that completes changes nothing but the host's side, and gives the host the word of the state
before (rules R71, R75). -/
theorem takeAccess_read (s : State) (k : Nat) (ps : List HostAccess) (a : Nat) :
    takeAccess (.read a) { s with busyReads := k, pending := ps } =
      { s with busyReads := k, pending := ps, answered := (a, memRead s a) :: s.answered } := by
  rw [takeAccess, answer, memRead_hostSide]

/-- Settles O23: a read of an idle block changes the host's side alone, which no address reads from. -/
theorem readsHaveNoSideEffect : Obligations.ReadsHaveNoSideEffect := fun s a rest hi hp =>
  ⟨_, (step_access hi hp).trans (congrArg Host.Outcome.next (takeAccess_read s s.busyReads rest a)), rfl,
    memRead_hostSide s s.busyReads rest _⟩

/-! While an operation is in progress. -/

/-- A read of `STATUS` or `ID` comes before the end of an operation that still takes time (rule R74). -/
theorem accessWhileBusy_read {s : State} {a : Nat} {rest : List HostAccess} (hb : s.busyReads ≠ 0)
    (hp : s.pending = .read a :: rest) (ha : completesWhileBusy a = true) :
    accessWhileBusy s = some (.read a) := by
  simp only [accessWhileBusy, hb, hp, ha, if_false, if_true]

/-- Settles O15: the word is `STATUS` of before, where `BUSY` is 1 and acceptance has cleared `DONE`. -/
theorem statusReadWhileBusy : Obligations.StatusReadWhileBusy := by
  intro s k rest hinv hbusy hk hp
  obtain ⟨-, -, -, hdone, -, -⟩ := hinv
  obtain ⟨w, hw⟩ := Option.isSome_iff_exists.mp hbusy
  have hfirst : accessWhileBusy s = some (.read 0x02) := accessWhileBusy_read (hk ▸ k.succ_ne_zero) hp rfl
  have hread : memRead s 0x02 = .bits ((statusWord s).setWidth 64) := memRead_of_page s (a := 0x02) (by omega)
  obtain ⟨b0, b1, b2, b16, b17, b18, b19⟩ := statusWord_bits s
  refine ⟨_, statusWord s, step_busy_access hw hfirst, ?_, b0.trans hbusy,
    b1.trans (done_eq_false_of_inFlight hdone hw), b2, statusWord_fcode s, b16, b17, b18, b19⟩
  rw [hp, hk, List.tail_cons, Nat.add_sub_cancel, takeAccess_read, hread]

/-- An operation that ends leaves the block idle and the host's side as it was (rules R74, R261, R262). -/
theorem exec_hostSide {i : Instr} {s t : State} (h : exec i s = .next t) :
    t.inFlight = none ∧ t.pending = s.pending ∧ t.answered = s.answered := by
  rcases exec_cases h with ⟨-, rfl⟩ | ⟨-, u, hu, rfl⟩ | ⟨-, f, n, -, rfl⟩
  · exact ⟨rfl, rfl, rfl⟩
  · obtain ⟨hk, -⟩ := ruleOf_ok hu
    exact ⟨rfl, hk.pending, hk.answered⟩
  · exact ⟨rfl, rfl, rfl⟩

/-- So does an accepted word that runs to its end, its decode faults included (rule R103). -/
theorem runWord_hostSide {w : CmdWord} {s t : State} (h : runWord w s = .next t) :
    t.inFlight = none ∧ t.pending = s.pending ∧ t.answered = s.answered := by
  rcases runWord_cases h with ⟨i, -, he⟩ | ⟨-, rfl⟩ | ⟨-, rfl⟩
  · exact exec_hostSide he
  · exact ⟨rfl, rfl, rfl⟩
  · exact ⟨rfl, rfl, rfl⟩

/-- Settles O16: of the ways one step can go, those of a busy block. -/
theorem otherAccessesAreHeld : Obligations.OtherAccessesAreHeld := by
  intro s t hbusy h
  rcases step_cases h with ⟨w, x, rest, -, -, hp, hx, rfl⟩ | ⟨w, -, -, hrun⟩ | ⟨hi, -, -⟩ |
    ⟨x, rest, hi, -, -⟩
  · rcases hx with rfl | ⟨a, rfl, ha⟩
    · exact .inr (.inl ⟨rest, hp, rfl⟩)
    · exact .inl ⟨a, rest, hp, ha, takeAccess_read s (s.busyReads - 1) rest a⟩
  · exact .inr (.inr (runWord_hostSide hrun))
  · simp [hi] at hbusy
  · simp [hi] at hbusy

/-! The buffer window. -/

/-- The key of a component names its element. -/
theorem compKey_div_two (i : Nat) (ax : Axis) : compKey i ax / 2 = i := by
  cases ax <;> simp only [compKey] <;> omega

/-- Different components of a buffer have different keys (rule R64). -/
theorem compKey_inj {i j : Nat} {ax bx : Axis} (h : compKey j bx = compKey i ax) : j = i ∧ bx = ax := by
  obtain rfl : j = i := by rw [← compKey_div_two j bx, h, compKey_div_two]
  cases ax <;> cases bx <;> simp [compKey] at h ⊢

/-- The component that is written holds what was written (rule R66). -/
theorem comp_writeCell_same (s : State) (n : Buf) (i : Nat) (ax : Axis) (v : Scalar) :
    (writeCell s n (compKey i ax) v).comp n i ax = some v := by
  rw [State.comp, writeCell, buf_setBuf_same]
  exact lookupCell_setCell_same _ _ v

/-- Every other component is as before (rule R66). -/
theorem comp_writeCell_ne (s : State) {n m : Buf} {i j : Nat} {ax bx : Axis} (v : Scalar)
    (h : ¬ (m = n ∧ j = i ∧ bx = ax)) :
    (writeCell s n (compKey i ax) v).comp m j bx = s.comp m j bx :=
  lookupCell_writeCell_ne s v fun ⟨hm, hk⟩ => h ⟨hm, compKey_inj hk⟩

/-- No length changes with a component (rule R66). -/
theorem bufLen_writeCell (s : State) (n m : Buf) (k : Nat) (v : Scalar) :
    (writeCell s n k v).bufLen m = s.bufLen m :=
  congrArg BitVec.toNat (len_writeCell s n m k v)

/-- A component below `LEN[n]` that has a value reads as that value (rule R67). -/
theorem memRead_of_comp {s : State} {a : Nat} {n : Buf} {i : Nat} {ax : Axis} {x : Scalar}
    (ha : target s.aw a = .cell n (compKey i ax)) (hi : i < s.bufLen n) (hx : s.comp n i ax = some x) :
    memRead s a = .num x := by
  rw [State.comp] at hx
  rw [memRead, ha]
  simp only [readCell, compKey_div_two, hi, if_true, hx]

/-- Settles O25: the address is that of one component, and the write is of its cell. -/
theorem windowWriteThenRead : Obligations.WindowWriteThenRead := by
  intro s n i ax w a hi ha
  have htarget : target s.aw a = .cell n (compKey i ax) := by
    have haddr : a = windowBase s.aw n + compKey i ax := by rw [ha]; cases ax <;> rfl
    rw [haddr, target_cell s n ax hi]
  have hwrite : memWrite s a w = writeCell s n (compKey i ax) w.toNum := by rw [memWrite, htarget]
  have hheld : (memWrite s a w).comp n i ax = some w.toNum := by rw [hwrite, comp_writeCell_same]
  have hlen : ∀ m, (memWrite s a w).bufLen m = s.bufLen m := fun m => by
    rw [hwrite, bufLen_writeCell]
  refine ⟨hheld, fun m j bx hne => by rw [hwrite, comp_writeCell_ne s _ hne], hlen, by rw [hwrite]; rfl,
    fun hbelow => ?_, fun x hbelow hx => memRead_of_comp htarget hbelow hx⟩
  exact memRead_of_comp (by rw [aw_memWrite, htarget]) (by rwa [hlen]) hheld

end Sys2Proof.Machine

/-!
PROOF. Decoding and encoding are inverse (rules R90 to R103): what mask and match say of the fields of a
word, and from that which words spell an instruction and how every other word faults.
-/

namespace Sys2Proof

/-! The operands that the fields of a word of format `C` name (rules R90 to R92). -/

section
variable (op : BitVec 8) (d0 d1 d2 s0 s1 s2 : BitVec 3) (ax : BitVec 1) (b : Buf)

@[simp] theorem fieldD0_formatC : fieldD0 (formatC op (bufBits b) d1 d2 s0 s1 s2 ax) = b :=
  bufField_of_bits (bits_d0 ..)

@[simp] theorem fieldD1_formatC : fieldD1 (formatC op d0 (bufBits b) d2 s0 s1 s2 ax) = b :=
  bufField_of_bits (bits_d1 ..)

@[simp] theorem fieldD2_formatC : fieldD2 (formatC op d0 d1 (bufBits b) s0 s1 s2 ax) = b :=
  bufField_of_bits (bits_d2 ..)

@[simp] theorem fieldS0_formatC : fieldS0 (formatC op d0 d1 d2 (bufBits b) s1 s2 ax) = b :=
  bufField_of_bits (bits_s0 ..)

@[simp] theorem fieldS1_formatC : fieldS1 (formatC op d0 d1 d2 s0 (bufBits b) s2 ax) = b :=
  bufField_of_bits (bits_s1 ..)

@[simp] theorem fieldS2_formatC : fieldS2 (formatC op d0 d1 d2 s0 s1 (bufBits b) ax) = b :=
  bufField_of_bits (bits_s2 ..)

@[simp] theorem fieldAx_formatC (a : Axis) : fieldAx (formatC op d0 d1 d2 s0 s1 s2 (axisBit a)) = a :=
  fieldAx_of_bit (bit_ax ..)

end

/-- The fields of an encoding name the operands that were encoded (rules R91, R95). -/
theorem operandsOf_encode (i : Instr) : operandsOf i.opcode (encode i) = i := by
  cases i <;> simp [Instr.opcode, operandsOf, encode, wordD0S0]

@[simp] theorem opcode_operandsOf (o : Opcode) (w : CmdWord) : (operandsOf o w).opcode = o := by
  cases o <;> rfl

/-! What mask and match say of a word (rule R96). -/

open Laws.EncodeMatch in
/-- The encoding of any instruction meets the mask and match of its operation (rules R95, R96). -/
theorem encode_meets_mask : ∀ i : Instr, encode i &&& opcodeMask i.opcode = opcodeMatch i.opcode
  | .nop => nop
  | .srst => srst
  | .clrf => clrf
  | .srrc d0 => srrc d0
  | .interp ax s0 => interp ax s0
  | .pow4 d0 s0 => pow4 d0 s0
  | .fest s0 => fest s0
  | .costas d0 d1 d2 s0 s1 => costas d0 d1 d2 s0 s1
  | .trec ax d0 d1 s0 => trec ax d0 d1 s0
  | .quant d0 s0 => quant d0 s0
  | .barker d0 => barker d0
  | .xcorr d0 d1 s0 => xcorr d0 d1 s0
  | .fext d0 s0 s1 s2 => fext d0 s0 s1 s2
  | .ltr2pam d0 s0 => ltr2pam d0 s0
  | .pam2ltr d0 s0 => pam2ltr d0 s0
  | .pam2qam d0 s0 => pam2qam d0 s0
  | .qam2pam d0 s0 => qam2pam d0 s0
  | .pam2q42 d0 s0 => pam2q42 d0 s0
  | .q422pam d0 s0 => q422pam d0 s0
  | .pam2sym d0 s0 => pam2sym d0 s0
  | .sym2pam d0 s0 => sym2pam d0 s0

/-- A field that a mask holds whole is 0 where its masked bits are. -/
theorem eq_zero_of_masked {n : ℕ} {x m : BitVec n} (h : x &&& m = 0#n) (hm : m = BitVec.allOnes n) :
    x = 0#n := by
  rwa [hm, BitVec.and_allOnes] at h

/-- A word that meets the mask and match of an operation has its opcode, and 0 in `rsv` and in every field
that the mask holds (rule R96). -/
theorem fields_of_opcodeMask {o : Opcode} {w : CmdWord} (h : w &&& opcodeMask o = opcodeMatch o) :
    fieldOp w = opcodeBits o ∧
      ((opcodeMask o).extractLsb' 21 3 = BitVec.allOnes 3 → w.extractLsb' 21 3 = 0#3) ∧
      ((opcodeMask o).extractLsb' 18 3 = BitVec.allOnes 3 → w.extractLsb' 18 3 = 0#3) ∧
      ((opcodeMask o).extractLsb' 15 3 = BitVec.allOnes 3 → w.extractLsb' 15 3 = 0#3) ∧
      ((opcodeMask o).extractLsb' 12 3 = BitVec.allOnes 3 → w.extractLsb' 12 3 = 0#3) ∧
      ((opcodeMask o).extractLsb' 9 3 = BitVec.allOnes 3 → w.extractLsb' 9 3 = 0#3) ∧
      ((opcodeMask o).extractLsb' 6 3 = BitVec.allOnes 3 → w.extractLsb' 6 3 = 0#3) ∧
      w.extractLsb' 1 5 = 0#5 ∧
      ((opcodeMask o).extractLsb' 0 1 = BitVec.allOnes 1 → w.extractLsb' 0 1 = 0#1) := by
  obtain ⟨hop, h0, h1, h2, h3, h4, h5, hrsv, hax⟩ := fields_of_mask (w := w) (op := opcodeBits o)
    (m0 := (opcodeMask o).extractLsb' 21 3) (m1 := (opcodeMask o).extractLsb' 18 3)
    (m2 := (opcodeMask o).extractLsb' 15 3) (n0 := (opcodeMask o).extractLsb' 12 3)
    (n1 := (opcodeMask o).extractLsb' 9 3) (n2 := (opcodeMask o).extractLsb' 6 3)
    (ma := (opcodeMask o).extractLsb' 0 1) (by cases o <;> exact h)
  exact ⟨hop, eq_zero_of_masked h0, eq_zero_of_masked h1, eq_zero_of_masked h2, eq_zero_of_masked h3,
    eq_zero_of_masked h4, eq_zero_of_masked h5, hrsv, eq_zero_of_masked hax⟩

/-- A word that meets the mask and match of an operation is the encoding of the operands it names: the
mask leaves no bit free but those of the operands (rules R95, R96). -/
theorem encode_operandsOf {o : Opcode} {w : CmdWord} (h : w &&& opcodeMask o = opcodeMatch o) :
    encode (operandsOf o w) = w := by
  obtain ⟨hop, hd0, hd1, hd2, hs0, hs1, hs2, hrsv, hax⟩ := fields_of_opcodeMask h
  calc encode (operandsOf o w)
      = formatC (opcodeBits o) (w.extractLsb' 21 3) (w.extractLsb' 18 3) (w.extractLsb' 15 3)
          (w.extractLsb' 12 3) (w.extractLsb' 9 3) (w.extractLsb' 6 3) (w.extractLsb' 0 1) := by
        cases o <;>
        simp (disch := decide) only [encode, operandsOf, wordD0S0, fieldD0, fieldD1, fieldD2, fieldS0,
          fieldS1, fieldS2, bufBits_bufField, axisBit_fieldAx, hd0, hd1, hd2, hs0, hs1, hs2, hax]
    _ = w := by rw [formatC, ← hop, ← hrsv, ← word_eq_fields]

/-! What a word decodes to (rules R97, R98, R103). -/

/-- A word whose `op` names an operation spells that operation if it meets its mask and its operands are
well-formed, and has an illegal field otherwise (rule R98). -/
theorem decode_of_fieldOp {o : Opcode} {w : CmdWord} (h : fieldOp w = opcodeBits o) :
    decode w =
      if w &&& opcodeMask o = opcodeMatch o then
        if (operandsOf o w).wellFormed then .instr (operandsOf o w) else .illegalField
      else .illegalField := by
  rw [decode, h, opcodeOf_opcodeBits]

/-- A word spells an instruction exactly when that is well-formed and the word is its encoding: no two
words spell one instruction, and no word spells two (rules R96, R98, R99). -/
theorem decode_eq_instr_iff {w : CmdWord} {i : Instr} :
    decode w = .instr i ↔ i.wellFormed = true ∧ encode i = w := by
  constructor
  · intro h
    cases ho : opcodeOf (fieldOp w) with
    | none => simp [decode, ho] at h
    | some o =>
      rw [decode_of_fieldOp (opcodeBits_of_opcodeOf ho)] at h
      split_ifs at h with hmask hwf
      cases h
      exact ⟨hwf, encode_operandsOf hmask⟩
  · rintro ⟨hwf, rfl⟩
    have hmask := encode_meets_mask i
    obtain ⟨hop, -⟩ := fields_of_opcodeMask hmask
    rw [decode_of_fieldOp hop, if_pos hmask, operandsOf_encode, if_pos hwf]

/-- Settles O1: a well-formed instruction is spelt by its encoding. -/
theorem decodeEncode : Obligations.DecodeEncode := fun _ h => decode_eq_instr_iff.mpr ⟨h, rfl⟩

/-- Settles O2: nothing else spells it. -/
theorem decodedWordIsItsEncoding : Obligations.DecodedWordIsItsEncoding := fun _ _ =>
  decode_eq_instr_iff.mp

/-- Settles O3: the operands of a word that meets the mask are those its fields name. -/
theorem maskSelectsOperation : Obligations.MaskSelectsOperation := by
  intro o w
  constructor
  · exact fun h => ⟨operandsOf o w, opcode_operandsOf o w, encode_operandsOf h⟩
  · rintro ⟨i, rfl, rfl⟩
    exact encode_meets_mask i

/-- Field `op` of an encoding is the opcode of the operation (rule R94). -/
theorem fieldOp_encode (i : Instr) : fieldOp (encode i) = opcodeBits i.opcode := by
  obtain ⟨hop, -⟩ := fields_of_opcodeMask (encode_meets_mask i)
  exact hop

/-- A value of `op` outside the table decodes as an undefined opcode (rule R97). -/
theorem decode_of_undefined {w : CmdWord} (h : ∀ o : Opcode, fieldOp w ≠ opcodeBits o) :
    decode w = .illegalOpcode := by
  cases ho : opcodeOf (fieldOp w) with
  | none => rw [decode, ho]
  | some o => exact absurd (opcodeBits_of_opcodeOf ho) (h o)

/-- A word with a defined `op` that is no well-formed instruction's encoding has an illegal field (rule
R98). -/
theorem decode_of_not_encoding {w : CmdWord} {o : Opcode} (hop : fieldOp w = opcodeBits o)
    (h : ∀ i : Instr, i.wellFormed = true → encode i ≠ w) : decode w = .illegalField := by
  rw [decode_of_fieldOp hop]
  split_ifs with hmask hwf
  · exact absurd (encode_operandsOf hmask) (h _ hwf)
  · rfl
  · rfl

/-! How an illegal word ends (rules R97, R98, R103). -/

namespace Machine

/-- A busy block that no host access comes before runs its word to the end (rule R103). -/
theorem step_runWord {s : State} {w : CmdWord} (hw : s.inFlight = some w)
    (ha : accessWhileBusy s = none) : step s = runWord w s := by
  simp only [step, hw, busyStep, ha]

/-- A decode fault changes the fault registers and `BUSY` alone, and `FCMD` holds the word at fault (rule
R262). -/
theorem raise_decode_fault {s : State} {w : CmdWord} (f : FCode) (hw : s.inFlight = some w) :
    FaultsWith f 0 s (raise f 0 s) ∧ (raise f 0 s).fcmd = w :=
  ⟨faultsWith_raise f 0 s, by simp [State.acceptedWord, hw]⟩

end Machine

open Machine

/-- Settles O4: `op` names no operation, so no instruction has it and the word decodes to the fault. -/
theorem undefinedOpcodeFaults : Obligations.UndefinedOpcodeFaults := by
  intro s w hw ha hundef
  have hop (o : Opcode) : fieldOp w ≠ opcodeBits o := by
    intro e
    refine hundef ?_
    rw [← fieldOp, e]
    cases o <;> decide
  refine ⟨?_, raise .illegalOpcode 0 s, ?_, raise_decode_fault _ hw⟩
  · rintro i rfl
    exact hop i.opcode (fieldOp_encode i)
  · rw [step_runWord hw ha, runWord, decode_of_undefined hop]

/-- The encoding of any instruction has `rsv = 0` (rule R90): every mask holds those bits. -/
theorem encode_reserved (i : Instr) : encode i &&& 0x3E#32 = 0#32 := by
  have hmask : opcodeMask i.opcode &&& 0x3E#32 = 0x3E#32 := by cases i.opcode <;> rfl
  have hmatch : opcodeMatch i.opcode &&& 0x3E#32 = 0#32 := by cases i.opcode <;> rfl
  rw [← hmask, ← BitVec.and_assoc, encode_meets_mask, hmatch]

/-- Settles O5: the word decodes to the fault, no encoding has a reserved bit, and two equal destinations
are not well-formed. -/
theorem illegalFieldFaults : Obligations.IllegalFieldFaults := by
  refine ⟨fun s w o hw ha hop hne => ?_, ?_, fun d d1 s0 s1 ax => ?_⟩
  · refine ⟨raise .illegalField 0 s, ?_, raise_decode_fault _ hw⟩
    rw [step_runWord hw ha, runWord, decode_of_not_encoding hop hne]
  · rintro w i hrsv rfl
    exact hrsv (encode_reserved i)
  · simp [Instr.wellFormed]

/-- Settles O6: each word is the encoding of the instruction written for it. -/
theorem sampleCommandWords : Obligations.SampleCommandWords := by
  refine ⟨?_, ?_, ?_, ?_, ?_, ?_, ?_, ?_⟩ <;> exact decode_eq_instr_iff.mpr ⟨by decide, by decide⟩

end Sys2Proof

/-!
PROOF. The system operations `NOP`, `SRST` and `CLRF` (`40_system_ops.md`): how their words are accepted
and decoded, and what their completion leaves.
-/

namespace Sys2Proof

/-- An operation whose mask holds every bit is spelt by its match alone: with that opcode any other word has
an illegal field (rules R96, R98). -/
theorem decode_of_ne_match {o : Opcode} {w : CmdWord} (hop : fieldOp w = opcodeBits o)
    (hm : opcodeMask o = BitVec.allOnes 32) (hne : w ≠ opcodeMatch o) : decode w = .illegalField := by
  rw [decode_of_fieldOp hop, hm, BitVec.and_allOnes, if_neg hne]

namespace Machine

/-! Completion. -/

/-- Settles O14, for each way an operation ends: its reset, its result, or its fault. -/
theorem completionSetsDone : Obligations.CompletionSetsDone := by
  intro i s t h
  rcases exec_cases h with ⟨rfl, rfl⟩ | ⟨hne, u, -, rfl⟩ | ⟨-, f, n, -, rfl⟩
  · exact ⟨rfl, rfl, fun _ => rfl⟩
  · exact ⟨rfl, rfl, fun _ => (decide_eq_true hne).symm⟩
  · exact ⟨rfl, rfl, nofun⟩

/-! The acceptance of a command. -/

/-- While a fault stands every word but that of `SRST` is dropped (rule R113). -/
theorem offerCommand_dropped {w : CmdWord} {s : State} (hf : s.status.fault = true) (hw : w ≠ srstWord) :
    offerCommand w s = s := by
  simp [offerCommand, hf, hw]

/-- Without a fault every word is accepted, and that of `SRST` always (rules R113, R260). -/
theorem offerCommand_accepted {w : CmdWord} {s : State} (h : s.status.fault = false ∨ w = srstWord) :
    offerCommand w s = { s with
      inFlight := some w
      busyReads := Config.opTime s.epoch
      status := { s.status with done := false } } := by
  rcases h with h | h <;> simp [offerCommand, h]

/-- A write of `CMD` to an idle block offers its word as a command (rules R28, R73, R113). -/
theorem step_writeCmd {s : State} {v : PortWord} {rest : List HostAccess} (h : s.inFlight = none)
    (hp : s.pending = .write 0x01 v :: rest) :
    step s = .next (offerCommand v.toInt { s with pending := rest }) := by
  rw [step_access h hp, takeAccess, memWrite_reg (r := .cmd) _ _ (by omega) rfl, writeReg]

/-- An accepted `SRST` that no host access comes before ends in the reset of the registers (rule R112). -/
theorem step_srst {s : State} (hw : s.inFlight = some srstWord) (ha : accessWhileBusy s = none) :
    step s = .next (softReset s) := by
  rw [step_runWord hw ha, runWord_srstWord]

/-- Settles O12: one clause for each of the two things an offered command can come to. -/
theorem commandAcceptance : Obligations.CommandAcceptance := by
  intro s v rest hi hp
  have hstep := step_writeCmd hi hp
  constructor
  · rintro ⟨hf, hw⟩
    rw [hstep, offerCommand_dropped (s := { s with pending := rest }) hf hw]
  · intro h
    rw [offerCommand_accepted (s := { s with pending := rest }) h] at hstep
    exact ⟨_, hstep, rfl, fun hw => step_srst (congrArg some hw)⟩

/-! The three operations. -/

/-- Settles O28: the result of `NOP` is the state itself. -/
theorem nopCompletes : Obligations.NopCompletes := by
  refine ⟨decodeEncode .nop rfl, fun w hop hne => decode_of_ne_match (o := .NOP) hop rfl hne,
    fun s hf => offerCommand_dropped hf (by decide), fun s => ⟨complete s, rfl, ?_, rfl, rfl⟩⟩
  exact completesWith_complete (.refl s) (setConds_empty_status s).symm fun _ _ => rfl

/-- Settles O29: `SRST` ends in the reset of the registers, which keeps every element. -/
theorem srstCompletes : Obligations.SrstCompletes := by
  refine ⟨decode_srstWord, fun w hop hne => decode_of_ne_match (o := .SRST) hop rfl hne, fun s => ?_,
    fun s => ⟨softReset s, rfl, registersReset_softReset s, rfl, comp_softReset s, rfl, rfl⟩⟩
  exact congrArg State.inFlight (offerCommand_accepted (.inr rfl))

/-- Settles O30: the result of `CLRF` is the state with its condition flags cleared. -/
theorem clrfCompletes : Obligations.ClrfCompletes := by
  refine ⟨decodeEncode .clrf rfl, fun w hop hne => decode_of_ne_match (o := .CLRF) hop rfl hne,
    fun s hf => offerCommand_dropped hf (by decide),
    fun s => ⟨complete (clearConds s), rfl, rfl, rfl, rfl, ?_, fun _ _ => .of_buf rfl, rfl, rfl⟩⟩
  exact ⟨rfl, rfl, rfl, rfl, rfl, rfl⟩

end Machine

end Sys2Proof

/-!
PROOF. The pulse, its kernel, and the two operations over it, `SRRC` and `INTERP` (`41_srrc_interp.md`),
with the faults of a window that leaves its buffer.
-/

namespace Sys2Proof.Machine

/-! The pulse and its kernel. -/

/-- The pulse is even: each of the three forms of rules R121 and R122 is. -/
theorem realPulse_neg (t beta : ℝ) (p : ℕ) : realPulse (-t) beta p = realPulse t beta p := by
  have hedge : |4 * realBeta beta * -t| = |4 * realBeta beta * t| := by rw [mul_neg, abs_neg]
  refine ite_congr (propext neg_eq_zero) (fun _ => rfl) fun _ =>
    ite_congr (by rw [hedge]) (fun _ => rfl) fun _ => ?_
  rw [← regular_even, abs_neg, regular_even]

/-- The kernel tap by tap (rule R123). -/
theorem kernel_getElem? {l p m : ℕ} (b o : Scalar) (hm : m ≤ 2 * l * p) :
    (kernel l p b o)[m]? = some (kernelTap l p b o m) := by
  have hlt : m < 2 * (l * p) + 1 := by rw [← mul_assoc]; omega
  simp [kernel, hlt]

/-- Settles O37: each tap is the pulse at its time. -/
theorem kernelTapValues : Obligations.KernelTapValues := fun l p beta off _ _ =>
  ⟨kernel_length l p beta off, fun m hm => ⟨_, kernel_getElem? beta off hm, kernelTap_val l p beta off m⟩⟩

/-- Without offset the times of two taps that mirror each other are opposite (rules R123, R125). -/
theorem kernelTap_mirror {l p m : ℕ} {off : Scalar} (beta : Scalar) (ho : off.val = 0) (hm : m ≤ 2 * l * p) :
    (kernelTap l p beta off (2 * l * p - m)).val = (kernelTap l p beta off m).val := by
  rw [kernelTap_val, kernelTap_val, ← realPulse_neg, ho]
  congr 1
  push_cast [hm]
  ring

/-- Settles O38: the evenness of the pulse, at the times of two mirrored taps. -/
theorem pulseSymmetry : Obligations.PulseSymmetry :=
  ⟨realPulse_neg, fun _ _ beta off _ _ ho m hm =>
    ⟨_, _, kernel_getElem? beta off hm, kernel_getElem? beta off (Nat.sub_le _ m),
      (kernelTap_mirror beta ho hm).symm⟩⟩

/-! `SRRC`. -/

/-- On legal registers and with room for it the result of `SRRC` is the kernel (rule R124). -/
theorem srrcRule_eq {s : State} (d0 : Buf) (hp : s.cfg.p ≠ 0#32) (hb : LegalBeta s.cfg.beta)
    (hcap : 2 * s.lNat * s.pNat + 1 ≤ s.bufCap) :
    srrcRule d0 s = .ok (s.writeReal d0 (kernel s.lNat s.pNat s.cfg.beta s.cfg.toff)) := by
  rw [srrcRule, pulseConfigLegal_of_legal hp hb, decide_eq_true hcap]
  rfl

/-- Settles O36: the result of `SRRC` is the kernel, written to `B[d0]` alone. -/
theorem srrcCompletes : Obligations.SrrcCompletes := by
  intro s d0 hp hb hcap
  set ks := kernel s.cfg.l.toNat s.cfg.p.toNat s.cfg.beta s.cfg.toff
  have hlen : ks.length = 2 * s.cfg.l.toNat * s.cfg.p.toNat + 1 := kernel_length ..
  have hframe : CompletesWith {} [d0] s (complete (s.writeReal d0 ks)) :=
    completesWith_complete (keeps_writeReal s d0 ks) (setConds_empty_status s).symm fun n hn =>
      buf_writeReal_ne s ks (by simpa using hn)
  exact ⟨_, ks, exec_ok (by simp) (srrcRule_eq d0 hp hb hcap), ⟨hframe, rfl, rfl⟩,
    HoldsCx.congr (holdsReal_writeReal s d0 ks (hlen ▸ hcap)) rfl, rfl, hlen⟩

/-! `INTERP`. -/

/-- The sum of the products of a sequence and another one read backwards (rule R126). -/
theorem dot_reverse_val {n : ℕ} {xs ks : List Scalar} (hx : xs.length = n + 1) (hk : ks.length = n + 1) :
    (Scalar.dot xs ks.reverse).val =
      ((List.range (n + 1)).map fun i => (xs.getD i .zero).val * (ks.getD (n - i) .zero).val).sum := by
  rw [Scalar.val_dot]
  congr 1
  refine List.ext_getElem (by simp [hx, hk]) fun i _ hi => ?_
  have hi' : i < n + 1 := by simpa using hi
  simp [hx, hk, hi']

/-- The state in which `INTERP` completes, before completion (rule R127). -/
def interpDone (s : State) (v : Scalar) : State := { s with res := { s.res with ival := v } }

/-- Nothing but `IVAL` changes (rule R127). -/
theorem interpDone_frame (s : State) (v : Scalar) : CompletesWith {} [] s (complete (interpDone s v)) :=
  completesWith_complete (keeps_res s _) (setConds_empty_status s).symm fun _ _ => rfl

/-- On legal registers the result of `INTERP` is that of the interpolation at `TQ` (rule R127). -/
theorem interpRule_eq {s : State} (ax : Axis) (s0 : Buf) (hp : s.cfg.p ≠ 0#32) (hb : LegalBeta s.cfg.beta) :
    interpRule ax s0 s = (interpolate s s0 ax s.cfg.tq 0).bind fun v => .ok (interpDone s v) := by
  rw [interpRule, pulseConfigLegal_of_legal hp hb]
  rfl

/-- Settles O39: the interpolation of a window inside the buffer, as a sum over the window. -/
theorem interpCompletes : Obligations.InterpCompletes := by
  rintro s ax s0 xs t0 l ⟨hbuf, -⟩ hp hb ht0 hl hlo hhi hlen hx
  obtain rfl : s.cfg.tq.floor = t0 := (Scalar.floor_val _).trans ht0.symm
  set ks := kernel s.cfg.l.toNat s.cfg.p.toNat s.cfg.beta (s.cfg.tq.sub (.ofInt s.cfg.tq.floor))
  have hks : ks.length = 2 * l + 1 := by rw [kernel_length, hl, mul_assoc]
  have hrule : interpRule ax s0 s = .ok (interpDone s (Scalar.dot xs ks.reverse)) := by
    rw [interpRule_eq ax s0 hp hb, interpolate_inside hbuf hl hlo hhi hlen hx, Res.bind_ok]
    rfl
  exact ⟨_, _, exec_ok (by simp) hrule, interpDone_frame s _, rfl, rfl, dot_reverse_val hlen hks⟩

/-- Tap `2*l - i` of the kernel offset by `tau = TQ - t0` is the pulse of the sample at `t0 - l + i`
(rules R126, R128). -/
theorem kernel_tap_of_sample {l p n i : ℕ} {t0 : ℤ} (beta tq : Scalar) (hn : n = l * p) (hi : i < 2 * n + 1) :
    ((kernel l p beta (tq.sub (.ofInt t0))).getD (2 * n - i) .zero).val =
      realPulse ((tq.val - ((t0 - n : ℤ) + i)) / p) beta.val p := by
  have hm : 2 * n - i ≤ 2 * l * p := by rw [mul_assoc, ← hn]; exact Nat.sub_le _ i
  rw [List.getD_eq_getElem?_getD, kernel_getElem? _ _ hm, Option.getD_some, kernelTap_val, ← hn,
    Scalar.val_sub, Scalar.val_ofInt, Nat.cast_sub (by omega)]
  congr 1
  push_cast
  ring

/-- Settles O40: the sum of `INTERP`, each tap as the pulse of its sample. -/
theorem interpIsPulseTrain : Obligations.InterpIsPulseTrain := by
  intro s ax s0 xs t0 l hinv hp hb ht0 hl hlo hhi hlen hx
  obtain ⟨t, v, hexec, -, -, hres, hv⟩ := interpCompletes s ax s0 xs t0 l hinv hp hb ht0 hl hlo hhi hlen hx
  refine ⟨t, hexec, ?_⟩
  rw [hres, hv]
  congr 1
  refine List.map_congr_left fun i hi => ?_
  rw [kernel_tap_of_sample _ _ hl (List.mem_range.mp hi)]

/-! Windows that leave the buffer. -/

/-- An interpolation at a time whose window leaves the buffer (rule R265). -/
theorem interpolate_of_leaves {s : State} {ax : Axis} {s0 : Buf} {t : Scalar} (k : ℕ)
    (h : s.LeavesBuffer s0 t.val) : interpolate s s0 ax t k = .raise .margin k := by
  apply interpolate_outside
  rw [Scalar.floor_val]
  exact h

/-- One of an iteration's three probes leaves the buffer, those before it being inside (rules R169, R265). -/
def State.ProbeLeaves (s : State) (s0 : Buf) (ax : Axis) (st : TimingState) : Prop :=
  s.LeavesBuffer s0 (st.tnow.val + st.tau.val) ∨
    ∃ cur, interpolate s s0 ax (st.tnow.add st.tau) st.n = .ok cur ∧
      (s.LeavesBuffer s0 (st.tnow.val + st.tau.val + s.cfg.delta.val) ∨
        ∃ late, interpolate s s0 ax ((st.tnow.add st.tau).add s.cfg.delta) st.n = .ok late ∧
          s.LeavesBuffer s0 (st.tnow.val + st.tau.val - s.cfg.delta.val))

/-- An iteration of `TREC` faults at the first probe that leaves the buffer (rule R265). -/
theorem timingStep_of_leaves {s : State} {s0 : Buf} {ax : Axis} {st : TimingState}
    (h : s.ProbeLeaves s0 ax st) : timingStep s s0 ax st = .raise .margin st.n := by
  rw [timingStep]
  rcases h with h | ⟨cur, hcur, h | ⟨late, hlate, h⟩⟩
  · rw [interpolate_of_leaves _ (by simpa using h), Res.bind_raise]
  · rw [hcur, Res.bind_ok, interpolate_of_leaves _ (by simpa using h), Res.bind_raise]
  · rw [hcur, Res.bind_ok, hlate, Res.bind_ok, interpolate_of_leaves _ (by simpa using h), Res.bind_raise]

/-- The iterations that the count admits are those at whose times the guard holds (rules R169, R170). -/
theorem lt_iterationCount {c : Cfg} {len k : ℕ} (hp : c.p ≠ 0#32) :
    k < iterationCount c len ↔ max c.tinit.val c.tmLo.val + k * c.p.toNat < len - c.tmHi.val := by
  rw [iterationCount_eq]
  exact lt_count (Nat.cast_pos.mpr (toNat_pos hp))

/-- The loop ends in the fault of its iteration, while its guard holds (rule R169). -/
theorem timingLoop_of_leaves {s : State} {s0 : Buf} {ax : Axis} {st : TimingState} (fuel : ℕ)
    (hg : st.tnow.val < s.bufLen s0 - s.cfg.tmHi.val) (h : s.ProbeLeaves s0 ax st) :
    timingLoop s s0 ax (fuel + 1) st = .raise .margin st.n := by
  rw [timingLoop, if_pos (guard_iff.mpr hg), timingStep_of_leaves h, Res.bind_raise]

/-- On legal registers a fault of the loop is that of `TREC` (rule R172). -/
theorem trecRule_of_loop_raise {s : State} {ax : Axis} (d0 d1 : Buf) {s0 : Buf} {f : FCode} {k : ℕ}
    (hp : s.cfg.p ≠ 0#32) (hb : LegalBeta s.cfg.beta)
    (h : timingLoop s s0 ax (iterationCount s.cfg (s.bufLen s0)) (.initial s.cfg) = .raise f k) :
    trecRule ax d0 d1 s0 s = .raise f k := by
  rw [trecRule, pulseConfigLegal_of_legal hp hb, h]
  rfl

/-- Settles O32: `INTERP` by its only window, `TREC` by a run of `k` iterations up to the one whose probe
leaves the buffer. -/
theorem marginTraps : Obligations.MarginTraps := by
  refine ⟨fun s ax s0 hp hb h => ?_, fun s ax d0 d1 s0 k tnow tau hp hb h0 h1 hst hguard hleaves => ?_⟩
  · have hrule : interpRule ax s0 s = .raise .margin 0 := by
      rw [interpRule_eq ax s0 hp hb, interpolate_of_leaves 0 h, Res.bind_raise]
    exact ⟨_, exec_raise (by simp) hrule, faultsWith_raise .margin 0 s⟩
  · have : Nonempty Scalar := ⟨.zero⟩
    choose! cur late early hst using hst
    have hcount : k < iterationCount s.cfg (s.bufLen s0) := (lt_iterationCount hp).mpr hguard
    obtain ⟨fuel, hfuel⟩ : ∃ fuel, iterationCount s.cfg (s.bufLen s0) = k + (fuel + 1) :=
      ⟨iterationCount s.cfg (s.bufLen s0) - (k + 1), by omega⟩
    have hbefore : ∀ i < k, max s.cfg.tinit.val s.cfg.tmLo.val + i * s.cfg.p.toNat <
        s.bufLen s0 - s.cfg.tmHi.val := fun i hi => (lt_iterationCount hp).mp (hi.trans hcount)
    obtain ⟨htime, hrun⟩ := timingLoop_from (fuel := fuel + 1) h0 h1 hst hbefore
    have hloop : timingLoop s s0 ax (k + (fuel + 1)) (.initial s.cfg) = .raise .margin k := by
      rw [hrun]
      exact timingLoop_of_leaves (st := timingAt tnow tau cur k) fuel ((htime k le_rfl).trans_lt hguard) hleaves
    exact ⟨_, exec_raise (by simp) (trecRule_of_loop_raise d0 d1 hp hb (hfuel ▸ hloop)),
      faultsWith_raise .margin k s⟩

end Sys2Proof.Machine

/-!
PROOF. The coarse frequency estimator: `POW4` takes its source element by element, `FEST` the first peak
of its spectrum (`42_freq_est.md`).
-/

namespace Sys2Proof.Machine

/-! `POW4`. -/

/-- The fourth power of rule R141 is that of the complex numbers. -/
theorem fourthPower_val (z : Cx) : (fourthPower z).val = z.val ^ 4 := by
  rw [fourthPower, Cx.val_mul, Cx.val_mul, Cx.val_mul]
  ring

/-- The result of `POW4` on the sequence that its source holds (rule R141). -/
theorem pow4Rule_eq {s : State} (d0 : Buf) {s0 : Buf} {zs : List Cx} (hb : s.BuffersSound)
    (hz : s.HoldsCx s0 zs) : pow4Rule d0 s0 s = .ok (s.writeCx d0 (zs.map fourthPower)) := by
  rw [pow4Rule, (srcCx_eq_ok (hb s0).1).mpr hz, Res.bind_ok]

/-- Settles O41: the result of `POW4` is the source's sequence mapped by the fourth power; the source is
read whole before the result is written, so they may be one buffer. -/
theorem pow4Completes : Obligations.Pow4Completes := by
  rintro s d0 s0 zs ⟨hbuf, -⟩ hz
  have hcap : zs.length ≤ s.bufCap := hz.1 ▸ (hbuf s0).2
  set ws := zs.map fourthPower with hws
  have hframe : CompletesWith {} [d0] s (complete (s.writeCx d0 ws)) :=
    completesWith_complete (keeps_writeCx s d0 ws) (setConds_empty_status s).symm fun n hn =>
      buf_writeCx_ne s ws (by simpa using hn)
  have hholds : (s.writeCx d0 ws).HoldsCx d0 ws := holdsCx_writeCx s d0 ws (by simpa [ws] using hcap)
  refine ⟨_, ws, exec_ok (by simp) (pow4Rule_eq d0 hbuf hz), ⟨hframe, rfl, rfl⟩,
    HoldsCx.congr hholds rfl, List.length_map _, fun i z w hi hw => ?_⟩
  obtain rfl : fourthPower z = w := by
    rw [hws, List.getElem?_map, hi] at hw
    exact Option.some.inj hw
  exact fourthPower_val z

/-! `FEST`. -/

/-- The state in which `FEST` completes, before completion (rule R144). -/
def festDone (s : State) (v : Scalar) : State := { s with cfg := { s.cfg with f0 := v } }

/-- Nothing but `F0` changes (rule R144). -/
theorem festDone_frame (s : State) (v : Scalar) : CompletesWith {} [] s (complete (festDone s v)) :=
  completesWith_complete (keeps_cfg s _) (setConds_empty_status s).symm fun _ _ => rfl

/-- With a positive rate and a source that is there, the result of `FEST` is the estimate (rule R144). -/
theorem festRule_eq {s : State} {s0 : Buf} {zs : List Cx} (hb : s.BuffersSound) (hfs : 0 < s.cfg.fs.val)
    (hz : s.HoldsCx s0 zs) (hne : zs ≠ []) :
    festRule s0 s = .ok (festDone s (festValue zs s.cfg.fs)) := by
  have hlen : s.bufLen s0 ≠ 0 := by
    rw [hz.1]
    exact fun h => hne (List.eq_nil_of_length_eq_zero h)
  rw [festRule, zero_lt_of_pos hfs, decide_eq_true hlen, (srcCx_eq_ok (hb s0).1).mpr hz]
  rfl

/-- The magnitude that rule R142 puts at index `j` of the zero-centred spectrum. -/
noncomputable def magnitudeAt (zs : List Cx) (j : ℕ) : ℝ :=
  ‖realDft (zs.map Cx.val) ((j : ℤ) - (zs.length / 2 : ℕ))‖

/-- The peak that the scan finds in the squares is the first greatest magnitude: on magnitudes, which are
not negative, squaring keeps the order (rule R143; log entry 11). -/
theorem peakIndex_spectrumSq {zs : List Cx} (hne : zs ≠ []) :
    peakIndex (spectrumSq zs) < zs.length ∧
      (∀ j < zs.length, magnitudeAt zs j ≤ magnitudeAt zs (peakIndex (spectrumSq zs))) ∧
      ∀ j < peakIndex (spectrumSq zs), magnitudeAt zs j < magnitudeAt zs (peakIndex (spectrumSq zs)) := by
  have hlen : (spectrumSq zs).length = zs.length := by simp [spectrumSq]
  obtain ⟨w, hw, hmax, hfirst⟩ := peakIndex_spec (L := spectrumSq zs) fun h =>
    hne (List.eq_nil_of_length_eq_zero (by rw [← hlen, h]; rfl))
  have hi : peakIndex (spectrumSq zs) < zs.length := hlen ▸ (List.getElem?_eq_some_iff.mp hw).1
  have hwval : w.val = magnitudeAt zs (peakIndex (spectrumSq zs)) ^ 2 := by
    obtain ⟨u, hu, huval⟩ := spectrumSq_val hi
    rwa [Option.some.inj (hw.symm.trans hu)]
  refine ⟨hi, fun j hj => ?_, fun j hj => ?_⟩
  · obtain ⟨y, hy, hyval⟩ := spectrumSq_val hj
    exact le_of_sq_le_sq (hyval ▸ hwval ▸ hmax j y hy) (norm_nonneg _)
  · obtain ⟨y, hy, hyval⟩ := spectrumSq_val (hj.trans hi)
    exact lt_of_pow_lt_pow_left₀ 2 (norm_nonneg _) (hyval ▸ hwval ▸ hfirst j y hj hy)

/-- The signed bin of an index, as a real number (rule R142). -/
theorem binOf_cast (len i : ℕ) : (binOf len i : ℝ) = (i : ℝ) - (len / 2 : ℕ) := by
  rw [binOf, Int.cast_sub, Int.cast_natCast, Int.cast_natCast]

/-- The estimate as a real number (rule R143). -/
theorem festValue_val (zs : List Cx) (fs : Scalar) :
    (festValue zs fs).val =
      ((peakIndex (spectrumSq zs) : ℝ) - (zs.length / 2 : ℕ)) * fs.val / (4 * zs.length) := by
  simp [festValue, binOf_cast]

/-- A bin of the zero-centred spectrum stands for a frequency in `[-FS/8, FS/8)`: twice the bin is at
least `-N` and less than `N` (rules R142, R143). -/
theorem binFrequency_bounds {len i : ℕ} {fs : ℝ} (hi : i < len) (hfs : 0 < fs) :
    -fs / 8 ≤ ((i : ℝ) - (len / 2 : ℕ)) * fs / (4 * len) ∧
      ((i : ℝ) - (len / 2 : ℕ)) * fs / (4 * len) < fs / 8 := by
  have hlen : (0 : ℝ) < len := by exact_mod_cast Nat.zero_lt_of_lt hi
  have hlo : 2 * ((len / 2 : ℕ) : ℝ) ≤ 2 * i + len := by
    exact_mod_cast (by omega : 2 * (len / 2) ≤ 2 * i + len)
  have hhi : 2 * (i : ℝ) < 2 * (len / 2 : ℕ) + len := by
    exact_mod_cast (by omega : 2 * i < 2 * (len / 2) + len)
  constructor
  · rw [le_div_iff₀ (by positivity)]
    linarith only [mul_le_mul_of_nonneg_right hlo hfs.le]
  · rw [div_lt_iff₀ (by positivity)]
    linarith only [mul_lt_mul_of_pos_right hhi hfs]

/-- Settles O42: the bin is that of the first greatest magnitude, found on the squares. -/
theorem festFindsPeak : Obligations.FestFindsPeak := by
  rintro s s0 zs ⟨hbuf, -⟩ hfs hz hne
  obtain ⟨hi, hmax, hfirst⟩ := peakIndex_spectrumSq hne
  have hval := festValue_val zs s.cfg.fs
  obtain ⟨hlo, hhi⟩ := binFrequency_bounds hi hfs
  exact ⟨_, _, _, exec_ok (by simp) (festRule_eq hbuf hfs hz hne), festDone_frame s _, rfl, rfl, hi, hval,
    hval ▸ hlo, hval ▸ hhi, hmax, hfirst⟩

end Sys2Proof.Machine

/-!
PROOF. The carrier loop over the reals: one sample of the recurrence of rule R153, the three outputs of
rule R155, and what `COSTAS` writes of them (`43_costas.md`).
-/

namespace Sys2Proof.Machine

/-! One sample of the loop. -/

/-- The oscillator phase as a real number (rule R153). -/
theorem oscPhase_val (c : LoopParams) (st : LoopState) :
    (oscPhase c st).val = 2 * Real.pi * c.f0.val * st.k / c.fs.val + st.theta.val := by
  simp only [oscPhase, Scalar.val_add, Scalar.val_div, Scalar.val_mul, Scalar.val_timesPi]
  push_cast
  ring

/-- The mixer product of branch `m` at sample `j` as a real number (rule R153). -/
theorem mixed_val (c : LoopParams) (st : LoopState) (xs : List Cx) (m j : ℕ) :
    (mixed c st xs m j).val = (xs.getD j ⟨.zero, .zero⟩).re.val *
      Real.cos ((oscPhase c (loopAt c st xs j)).val + m * Real.pi / 4) := by
  simp only [mixed, mixer, Scalar.val_mul, Scalar.val_cos, Scalar.val_add, Scalar.val_timesPi]
  push_cast
  rw [div_mul_eq_mul_div]

/-- `theta` moves by the product of the four branch outputs, each over the mixer products up to and with
that of the sample itself (rule R153). -/
theorem theta_loopAt_succ {c : LoopParams} {xs : List Cx} {k : ℕ} (hne : c.taps ≠ []) (hk : k < xs.length) :
    (loopAt c (.initial c.taps.length) xs (k + 1)).theta.val =
      (loopAt c (.initial c.taps.length) xs k).theta.val + c.mu.val *
        ∏ m ∈ Finset.range 4, (branchOut c.taps (delayLine c c.taps.length xs m (k + 1))).val := by
  obtain ⟨-, h0, h1, h2, h3⟩ := loopAt_lines c xs _ (List.length_pos_iff.mpr hne) (k + 1) hk
  simp only [Finset.prod_range_succ, Finset.prod_range_zero, one_mul, ← h0, ← h1, ← h2, ← h3,
    loopAt_succ c _ xs k hk, loopStep, Scalar.val_add, Scalar.val_mul]

/-- The outputs of sample `x` as numbers (rule R155). -/
theorem carrierOut_val (c : LoopParams) (st : LoopState) (x : Cx) :
    (carrierOut c st x).traj.val = ⟨st.theta.val, Real.cos (oscPhase c st).val⟩ ∧
      (carrierOut c st x).derot.val = ⟨Real.cos (oscPhase c st).val, -Real.sin (oscPhase c st).val⟩ ∧
      (carrierOut c st x).corrected.val = x.val * (carrierOut c st x).derot.val := by
  refine ⟨?_, ?_, Cx.val_mul _ _⟩ <;> simp [carrierOut, Cx.val]

/-- An entry of one of the three output sequences is that output of its sample (rule R155). -/
theorem eq_of_runLoop_output {c : LoopParams} {st : LoopState} {xs : List Cx} {k : ℕ} {x w : Cx}
    {f : CarrierOut → Cx} (hx : xs[k]? = some x) (hw : ((runLoop c st xs).1.map f)[k]? = some w) :
    w = f (carrierOut c (loopAt c st xs k) x) := by
  obtain ⟨hout, -⟩ := runLoop_at c xs st
  rw [List.getElem?_map, hout k x hx] at hw
  exact (Option.some.inj hw).symm

/-! The recurrence. -/

/-- The registers and taps that the loop runs with (rule R151). -/
def loopParams (g : Cfg) (hs : List Scalar) : LoopParams := { f0 := g.f0, fs := g.fs, mu := g.muC, taps := hs }

/-- The LoopState of `COSTAS` before sample `k` (rules R152, R153). -/
def carrierAt (g : Cfg) (hs : List Scalar) (xs : List Cx) (k : ℕ) : LoopState :=
  loopAt (loopParams g hs) (.initial hs.length) xs k

/-- `theta[k]` (rule R153). -/
noncomputable def carrierTheta (g : Cfg) (hs : List Scalar) (xs : List Cx) (k : ℕ) : ℝ :=
  (carrierAt g hs xs k).theta.val

/-- `phi[k]` (rule R153). -/
noncomputable def carrierPhase (g : Cfg) (hs : List Scalar) (xs : List Cx) (k : ℕ) : ℝ :=
  (oscPhase (loopParams g hs) (carrierAt g hs xs k)).val

section
variable {g : Cfg} {hs : List Scalar} {xs : List Cx}

theorem carrierTheta_zero : carrierTheta g hs xs 0 = 0 := Scalar.val_zero

theorem carrierPhase_eq {k : ℕ} (hne : hs ≠ []) (hk : k < xs.length) :
    carrierPhase g hs xs k = 2 * Real.pi * g.f0.val * k / g.fs.val + carrierTheta g hs xs k := by
  obtain ⟨hindex, -⟩ := loopAt_lines (loopParams g hs) xs _ (List.length_pos_iff.mpr hne) k hk.le
  rw [carrierPhase, oscPhase_val, carrierAt, hindex]
  rfl

theorem carrierTheta_succ {k : ℕ} (hne : hs ≠ []) (hk : k < xs.length) :
    carrierTheta g hs xs (k + 1) = carrierTheta g hs xs k + g.muC.val *
      ∏ m ∈ Finset.range 4, ∑ q ∈ Finset.range hs.length,
        if q ≤ k then
          (hs.getD q .zero).val * ((xs.getD (k - q) ⟨.zero, .zero⟩).re.val *
            Real.cos (carrierPhase g hs xs (k - q) + m * Real.pi / 4))
        else 0 := by
  refine (theta_loopAt_succ (c := loopParams g hs) hne hk).trans ?_
  simp only [loopParams, branchOut_val, mixed_val]
  rfl

end

/-! `COSTAS`. -/

/-- The state in which `COSTAS` completes, before completion (rules R155, R156). -/
def costasDone (s : State) (d0 d1 d2 : Buf) (outs : List CarrierOut) (y : Scalar) : State :=
  { ((s.writeCx d0 (outs.map CarrierOut.corrected)).writeCx d1 (outs.map CarrierOut.derot)).writeCx d2
      (outs.map CarrierOut.traj) with res := { s.res with theta := y } }

/-- Nothing but the three destinations and `THETA` changes (rule R156). -/
theorem costasDone_frame (s : State) (d0 d1 d2 : Buf) (outs : List CarrierOut) (y : Scalar) :
    CompletesWith {} [d0, d1, d2] s (complete (costasDone s d0 d1 d2 outs y)) := by
  refine completesWith_complete (((keeps_writeCx s d0 _).trans (keeps_writeCx _ d1 _)).trans
    (keeps_writeCx _ d2 _) |>.trans (keeps_res _ _)) (setConds_empty_status s).symm fun n hn => ?_
  simp only [List.mem_cons, List.not_mem_nil, or_false, not_or] at hn
  obtain ⟨hn0, hn1, hn2⟩ := hn
  exact (buf_writeCx_ne _ _ hn2).trans ((buf_writeCx_ne _ _ hn1).trans (buf_writeCx_ne _ _ hn0))

/-- A result leaves what another buffer holds (rule R23). -/
theorem holdsCx_writeCx_ne {s : State} {b d : Buf} {zs ws : List Cx} (hne : b ≠ d) (h : s.HoldsCx b zs) :
    (s.writeCx d ws).HoldsCx b zs := HoldsCx.congr h (buf_writeCx_ne s ws hne)

/-- Three different destinations hold the three outputs: a later one leaves an earlier one alone. -/
theorem costasDone_holds {s : State} {d0 d1 d2 : Buf} {outs : List CarrierOut} (y : Scalar)
    (h01 : d0 ≠ d1) (h02 : d0 ≠ d2) (h12 : d1 ≠ d2) (hcap : outs.length ≤ s.bufCap) :
    (costasDone s d0 d1 d2 outs y).HoldsCx d0 (outs.map CarrierOut.corrected) ∧
      (costasDone s d0 d1 d2 outs y).HoldsCx d1 (outs.map CarrierOut.derot) ∧
      (costasDone s d0 d1 d2 outs y).HoldsCx d2 (outs.map CarrierOut.traj) := by
  have hlen (f : CarrierOut → Cx) : (outs.map f).length ≤ s.bufCap := by rwa [List.length_map]
  exact ⟨holdsCx_writeCx_ne h02 (holdsCx_writeCx_ne h01 (holdsCx_writeCx s d0 _ (hlen _))),
    holdsCx_writeCx_ne h12 (holdsCx_writeCx (s.writeCx d0 _) d1 _ (hlen _)),
    holdsCx_writeCx ((s.writeCx d0 _).writeCx d1 _) d2 _ (hlen _)⟩

/-- With a positive rate, taps that are there and a written signal, `COSTAS` has the outputs and the last
`theta` of the run (rule R156). -/
theorem costasRule_eq {s : State} (d0 d1 d2 : Buf) {s0 s1 : Buf} {xs : List Cx} {hs : List Scalar}
    (hb : s.BuffersSound) (hfs : 0 < s.cfg.fs.val) (hx : s.HoldsCx s0 xs) (hh : s.HoldsAxis s1 .re hs)
    (hne : hs ≠ []) :
    costasRule d0 d1 d2 s0 s1 s = .ok (costasDone s d0 d1 d2
      (runLoop (loopParams s.cfg hs) (.initial hs.length) xs).1
      (carrierAt s.cfg hs xs xs.length).theta) := by
  have htaps : s.bufLen s1 ≠ 0 := hh.1.trans_ne (List.length_pos_iff.mpr hne).ne'
  obtain ⟨-, hlast⟩ := runLoop_at (loopParams s.cfg hs) xs (.initial hs.length)
  rw [carrierAt, ← hlast, costasRule, zero_lt_of_pos hfs, decide_eq_true htaps,
    (srcCx_eq_ok (hb s0).1).mpr hx, State.srcRe, (srcAxis_eq_ok (hb s1).1).mpr hh]
  rfl

/-- Settles O43: the run of the loop, sample by sample, and its outputs in the three destinations. -/
theorem costasRunsLoop : Obligations.CostasRunsLoop := by
  rintro s d0 d1 d2 s0 s1 xs hs ⟨hbuf, -⟩ h01 h02 h12 hfs hx hh hne
  set outs := (runLoop (loopParams s.cfg hs) (.initial hs.length) xs).1
  have hlen : outs.length = xs.length := length_runLoop ..
  have hlens (f : CarrierOut → Cx) : (outs.map f).length = xs.length := (List.length_map f).trans hlen
  have hcap : outs.length ≤ s.bufCap := (hlen.trans hx.1.symm).trans_le (hbuf s0).2
  obtain ⟨hd, he, ht⟩ := costasDone_holds (carrierAt s.cfg hs xs xs.length).theta h01 h02 h12 hcap
  refine ⟨_, _, _, _, _, carrierTheta s.cfg hs xs, carrierPhase s.cfg hs xs,
    exec_ok (by simp) (costasRule_eq d0 d1 d2 hbuf hfs hx hh hne), costasDone_frame .., rfl, rfl, rfl,
    HoldsCx.congr hd rfl, HoldsCx.congr he rfl, HoldsCx.congr ht rfl, hlens _, hlens _, hlens _,
    carrierTheta_zero, fun k hk => ⟨carrierPhase_eq hne hk, carrierTheta_succ hne hk⟩,
    fun k x d e u hk hdk hek huk => ?_⟩
  rw [eq_of_runLoop_output hk hdk, eq_of_runLoop_output hk hek, eq_of_runLoop_output hk huk]
  exact carrierOut_val _ _ x

end Sys2Proof.Machine

/-!
PROOF. The timing loop `TREC`: a run whose probes are all inside the buffer and the two merged records it
leaves, and the margins within which no probe leaves the buffer (`44_timing.md`).
-/

namespace Sys2Proof.Machine

/-! The records of a run. -/

/-- `B[d]` of `t` is `vs` in component `ax`, merged into what `B[d]` of `s` holds: the other component is
kept below the old length and 0 beyond it (rule R172). -/
def HoldsMerged (s t : State) (d : Buf) (ax : Axis) (vs : List Scalar) : Prop :=
  t.bufLen d = vs.length ∧ ∀ k x, vs[k]? = some x → t.comp d k ax = some x ∧
    ∀ other ≠ ax, t.comp d k other = if k < s.bufLen d then s.comp d k other else some .zero

/-- Beside either axis there is the other, whose component a merge keeps (rule R172). -/
theorem exists_other_axis (ax : Axis) : ∃ other, other ≠ ax := by
  cases ax
  · exact ⟨.im, nofun⟩
  · exact ⟨.re, nofun⟩

/-- Writing the merged elements makes the destination hold them (rules R23, R172). -/
theorem holdsMerged_writeElems (s : State) {u : State} (d : Buf) (ax : Axis) {vs : List Scalar}
    (hcap : vs.length ≤ u.bufCap) : HoldsMerged s (u.writeElems d (mergedElems s d ax vs)) d ax vs := by
  have hlen := length_mergedElems s d ax vs
  refine ⟨(bufLen_writeElems u d _ (hlen.trans_le hcap)).trans hlen, fun k x hx => ⟨?_, fun other ho => ?_⟩⟩
  · obtain ⟨other, ho⟩ := exists_other_axis ax
    exact (comp_mergedElems ho hx).1
  · exact (comp_mergedElems ho hx).2

/-- What a buffer holds depends on that buffer alone. -/
theorem HoldsMerged.congr {s t u : State} {d : Buf} {ax : Axis} {vs : List Scalar}
    (h : HoldsMerged s t d ax vs) (e : u.buf d = t.buf d) : HoldsMerged s u d ax vs := by
  simpa [HoldsMerged, State.bufLen, State.comp, e] using h

/-- The state in which `TREC` completes from the last TimingState, before completion (rule R172). -/
def trecDone (s : State) (ax : Axis) (d0 d1 : Buf) (st : TimingState) : State :=
  { (s.writeElems d0 (mergedElems s d0 ax st.xs.reverse)).writeElems d1
      (mergedElems s d1 ax st.ts.reverse) with
    res := { s.res with tau := st.tau, tnow := st.tnow, nsym := BitVec.ofNat 32 st.n } }

/-- Nothing but the two destinations and the results of the loop changes (rule R172). -/
theorem trecDone_frame (s : State) (ax : Axis) (d0 d1 : Buf) (st : TimingState) :
    CompletesWith {} [d0, d1] s (complete (trecDone s ax d0 d1 st)) := by
  refine completesWith_complete (((keeps_writeElems s d0 _).trans (keeps_writeElems _ d1 _)).trans
    (keeps_res _ _)) (setConds_empty_status s).symm fun n hn => ?_
  simp only [List.mem_cons, List.not_mem_nil, or_false, not_or] at hn
  obtain ⟨hn0, hn1⟩ := hn
  exact (buf_writeElems_ne _ _ hn1).trans (buf_writeElems_ne _ _ hn0)

/-- Two different destinations hold the two records, each merged into its old elements: the second one
leaves the first alone. -/
theorem trecDone_holds {s : State} {ax : Axis} {d0 d1 : Buf} {st : TimingState} (h01 : d0 ≠ d1)
    (hst : st.Counted) (hcap : st.n ≤ s.bufCap) :
    HoldsMerged s (trecDone s ax d0 d1 st) d0 ax st.xs.reverse ∧
      HoldsMerged s (trecDone s ax d0 d1 st) d1 ax st.ts.reverse := by
  obtain ⟨hxs, hts⟩ := hst
  exact ⟨(holdsMerged_writeElems s d0 ax (by rwa [List.length_reverse, hxs])).congr
      (buf_writeElems_ne _ _ h01),
    holdsMerged_writeElems s (u := s.writeElems d0 _) d1 ax (by rwa [List.length_reverse, hts])⟩

/-- On legal registers and with room for its records, `TREC` has the result of its loop (rule R172). -/
theorem trecRule_of_loop_ok {s : State} {ax : Axis} (d0 d1 : Buf) {s0 : Buf} {st : TimingState}
    (hp : s.cfg.p ≠ 0#32) (hb : LegalBeta s.cfg.beta)
    (h : timingLoop s s0 ax (iterationCount s.cfg (s.bufLen s0)) (.initial s.cfg) = .ok st)
    (hcap : st.n ≤ s.bufCap) : trecRule ax d0 d1 s0 s = .ok (trecDone s ax d0 d1 st) := by
  rw [trecRule, pulseConfigLegal_of_legal hp hb, h, require_true, Res.bind_ok, Res.bind_ok,
    decide_eq_true hcap]
  rfl

/-- The samples and the `tau`s recorded after `n` iterations, in their order (rule R169). -/
theorem timingAt_records (tnow tau cur : ℕ → Scalar) (n : ℕ) :
    (timingAt tnow tau cur n).xs.reverse = (List.range n).map cur ∧
      (timingAt tnow tau cur n).ts.reverse = (List.range n).map fun k => tau (k + 1) := by
  simp [timingAt]

/-- Settles O44: the loop runs through its iterations up to the count, where its fuel ends, and the
records of the last TimingState are what the destinations then hold. -/
theorem trecRunsLoop : Obligations.TrecRunsLoop := by
  intro s ax other d0 d1 s0 n tnow tau cur late early _ hother h01 hp hb hn hcap h0 h1 hst
  rw [← iterationCount_eq] at hn
  obtain ⟨htime, hrun⟩ := timingLoop_from (fuel := 0) h0 h1 hst fun i hi =>
    (lt_iterationCount hp).mp (hn ▸ hi)
  have hloop : timingLoop s s0 ax (iterationCount s.cfg (s.bufLen s0)) (.initial s.cfg) =
      .ok (timingAt tnow tau cur n) := hn ▸ hrun
  obtain ⟨hxs, hts⟩ := timingAt_records tnow tau cur n
  obtain ⟨⟨hlen0, hd0⟩, hlen1, hd1⟩ :=
    trecDone_holds (ax := ax) h01 (counted_timingLoop (counted_initial _) hloop) hcap
  rw [hxs] at hlen0 hd0
  rw [hts] at hlen1 hd1
  refine ⟨_, exec_ok (by simp) (trecRule_of_loop_ok d0 d1 hp hb hloop hcap), trecDone_frame s ax d0 d1 _,
    rfl, rfl, ofNat_toNat_of_le hcap, htime n le_rfl, fun k hk => ?_, ?_, ?_, fun k hk => ?_⟩
  · obtain ⟨-, -, -, -, htau⟩ := hst k hk
    simp [htau]
  · exact hlen0.trans (by simp)
  · exact hlen1.trans (by simp)
  · obtain ⟨hcur, hkept0⟩ := hd0 k (cur k) (by simp [hk])
    obtain ⟨htau, hkept1⟩ := hd1 k (tau (k + 1)) (by simp [hk])
    refine ⟨hcur, htau, fun d hd => ?_⟩
    obtain rfl | rfl : d = d0 ∨ d = d1 := by simpa using hd
    · exact hkept0 other hother
    · exact hkept1 other hother

/-! Probes within the margins. -/

/-- What an interpolation answers where it does (rule R126). -/
def interpValue (s : State) (s0 : Buf) (ax : Axis) (t : Scalar) : Scalar :=
  Scalar.dot (s.prefixOf s0 ax (t.floor - (s.lNat * s.pNat : ℕ)).toNat (2 * (s.lNat * s.pNat) + 1))
    (kernel s.lNat s.pNat s.cfg.beta (t.sub (.ofInt t.floor))).reverse

/-- A run of components that have all been written is read to its end. -/
theorem length_prefixOf_of_written {s : State} {b : Buf} {ax : Axis} {i0 n : ℕ} (hb : s.BuffersSound)
    (hw : ∀ i < s.bufLen b, (s.comp b i ax).isSome = true) (hn : i0 + n ≤ s.bufLen b) :
    (s.prefixOf b ax i0 n).length = n := by
  refine (prefixOf_length_le s b ax i0 n).antisymm (not_lt.mp fun hlt => ?_)
  have := hw (i0 + (s.prefixOf b ax i0 n).length) (by omega)
  rw [prefixOf_stop (hb b).1 hlt] at this
  cases this

/-- At a time at least `L*P` after the start of a written source and `L*P + 1` before its end, the window
is inside and the interpolation answers (rules R126, R168). -/
theorem interpolate_within_margins {s : State} {s0 : Buf} {ax : Axis} {t : Scalar} (k : ℕ)
    (hb : s.BuffersSound) (hw : ∀ i < s.bufLen s0, (s.comp s0 i ax).isSome = true)
    (hlo : ((s.lNat * s.pNat : ℕ) : ℝ) ≤ t.val)
    (hhi : t.val + (s.lNat * s.pNat : ℕ) + 1 ≤ s.bufLen s0) :
    interpolate s s0 ax t k = .ok (interpValue s s0 ax t) := by
  have hstart : ((s.lNat * s.pNat : ℕ) : ℤ) ≤ t.floor := by
    rw [Scalar.floor_val]
    exact Int.le_floor.mpr (by exact_mod_cast hlo)
  have hstop : t.floor + (s.lNat * s.pNat : ℕ) + 1 ≤ s.bufLen s0 := by
    have hfloor : (t.floor : ℝ) ≤ t.val := Scalar.floor_val t ▸ Int.floor_le t.val
    have : (t.floor : ℝ) + (s.lNat * s.pNat : ℕ) + 1 ≤ s.bufLen s0 := by linarith
    exact_mod_cast this
  have hlen := length_prefixOf_of_written (i0 := (t.floor - (s.lNat * s.pNat : ℕ)).toNat)
    (n := 2 * (s.lNat * s.pNat) + 1) hb hw (by omega)
  refine interpolate_inside hb rfl (by omega) hstop hlen fun i x hx => ?_
  obtain ⟨hi, -⟩ := List.getElem?_eq_some_iff.mp hx
  rw [← prefixOf_getElem? (hb s0).1 hi, hx]

/-- The margins of rule R168, on the registers alone. -/
structure MarginsHold (s : State) : Prop where
  low : (s.lNat * s.pNat : ℕ) + |s.cfg.delta.val| ≤ s.cfg.tmLo.val
  high : (s.lNat * s.pNat : ℕ) + 1 + |s.cfg.delta.val| ≤ s.cfg.tmHi.val

/-- Within the margins a probe no further than `|DELTA|` from a time of the loop is inside (rule R168). -/
theorem interpolate_near {s : State} {s0 : Buf} {ax : Axis} {t : Scalar} {y : ℝ} (k : ℕ)
    (hb : s.BuffersSound) (hw : ∀ i < s.bufLen s0, (s.comp s0 i ax).isSome = true) (hm : MarginsHold s)
    (hlo : s.cfg.tmLo.val ≤ y) (hhi : y < s.bufLen s0 - s.cfg.tmHi.val)
    (ht : |t.val - y| ≤ |s.cfg.delta.val|) : interpolate s s0 ax t k = .ok (interpValue s s0 ax t) := by
  obtain ⟨hm0, hm1⟩ := hm
  obtain ⟨hleft, hright⟩ := abs_le.mp ht
  exact interpolate_within_margins k hb hw (by linarith) (by linarith)

/-- Within the margins there are no more iterations than samples: `P` is at least 1 (rules R168, R170). -/
theorem iterationCount_le_bufLen {s : State} {s0 : Buf} (hp : s.cfg.p ≠ 0#32) (hm : MarginsHold s) :
    iterationCount s.cfg (s.bufLen s0) ≤ s.bufLen s0 := by
  refine not_lt.mp fun hlt => ?_
  have hguard := (lt_iterationCount hp).mp hlt
  have hspacing : (s.bufLen s0 : ℝ) ≤ s.bufLen s0 * s.cfg.p.toNat := by
    exact_mod_cast Nat.le_mul_of_pos_right _ (toNat_pos hp)
  have hdelta := abs_nonneg s.cfg.delta.val
  have hl : (0 : ℝ) ≤ (s.lNat * s.pNat : ℕ) := Nat.cast_nonneg _
  linarith [hm.low, hm.high, le_max_right s.cfg.tinit.val s.cfg.tmLo.val]

/-! The run of a resampler. -/

/-- `t_now` after `k` iterations (rules R167, R169). -/
def timingNow (s : State) : ℕ → Scalar
  | 0 => s.cfg.tinit.max s.cfg.tmLo
  | k + 1 => (timingNow s k).add (.ofNat s.pNat)

/-- `tau` after `k` iterations whose probes are inside (rules R167, R169). -/
def timingTau (s : State) (s0 : Buf) (ax : Axis) : ℕ → Scalar
  | 0 => .zero
  | k + 1 =>
    let t := (timingNow s k).add (timingTau s s0 ax k)
    (timingTau s s0 ax k).add ((s.cfg.muT.mul ((interpValue s s0 ax (t.add s.cfg.delta)).sub
      (interpValue s s0 ax (t.sub s.cfg.delta)))).mul (interpValue s s0 ax t))

/-- The times of the loop are spaced by `P` (rule R169). -/
theorem timingNow_val (s : State) (k : ℕ) :
    (timingNow s k).val = max s.cfg.tinit.val s.cfg.tmLo.val + k * s.cfg.p.toNat := by
  rw [tnow_val (n := k) (tnow := timingNow s) (fun _ _ => rfl) k le_rfl, timingNow, Scalar.val_max]
  rfl

/-- With `MU_T = 0` no iteration moves `tau` (rule R172). -/
theorem timingTau_val {s : State} (s0 : Buf) (ax : Axis) (hmu : s.cfg.muT.val = 0) :
    ∀ k, (timingTau s s0 ax k).val = 0
  | 0 => Scalar.val_zero
  | k + 1 => by
    rw [timingTau, Scalar.val_add, Scalar.val_mul, Scalar.val_mul, timingTau_val s0 ax hmu k, hmu]
    ring

/-- With `MU_T = 0` the current probe of iteration `k` is at `P` times `k` from the first (rule R172). -/
theorem resampleTime_val {s : State} (s0 : Buf) (ax : Axis) (hmu : s.cfg.muT.val = 0) (k : ℕ) :
    ((timingNow s k).add (timingTau s s0 ax k)).val =
      max s.cfg.tinit.val s.cfg.tmLo.val + k * s.cfg.p.toNat := by
  rw [Scalar.val_add, timingNow_val, timingTau_val s0 ax hmu, add_zero]

/-- With `MU_T = 0` the three probes of every iteration answer within the margins (rule R168). -/
theorem resampleProbes_inside {s : State} {s0 : Buf} {ax : Axis} {k : ℕ} (hb : s.BuffersSound)
    (hw : ∀ i < s.bufLen s0, (s.comp s0 i ax).isSome = true) (hm : MarginsHold s) (hp : s.cfg.p ≠ 0#32)
    (hmu : s.cfg.muT.val = 0) (hk : k < iterationCount s.cfg (s.bufLen s0)) :
    let t := (timingNow s k).add (timingTau s s0 ax k)
    interpolate s s0 ax t k = .ok (interpValue s s0 ax t) ∧
      interpolate s s0 ax (t.add s.cfg.delta) k = .ok (interpValue s s0 ax (t.add s.cfg.delta)) ∧
      interpolate s s0 ax (t.sub s.cfg.delta) k = .ok (interpValue s s0 ax (t.sub s.cfg.delta)) := by
  intro t
  have ht := resampleTime_val s0 ax hmu k
  have hspan : (0 : ℝ) ≤ k * s.cfg.p.toNat := by positivity
  have hlo : s.cfg.tmLo.val ≤ t.val := by linarith [le_max_right s.cfg.tinit.val s.cfg.tmLo.val]
  have hhi : t.val < s.bufLen s0 - s.cfg.tmHi.val := ht ▸ (lt_iterationCount hp).mp hk
  have answers (u : Scalar) (hu : |u.val - t.val| ≤ |s.cfg.delta.val|) :
      interpolate s s0 ax u k = .ok (interpValue s s0 ax u) := interpolate_near k hb hw hm hlo hhi hu
  exact ⟨answers t (by simp), answers _ (by simp), answers _ (by simp)⟩

/-- Settles O45: the run of O44, its probes inside by the margins and its `tau` 0 throughout. -/
theorem trecResamples : Obligations.TrecResamples := by
  intro s ax d0 d1 s0 first n hinv h01 hp hb hmu hm0 hm1 hw hfirst hn
  subst hfirst
  have ⟨hbuf, _⟩ := hinv
  have hm : MarginsHold s := ⟨hm0, hm1⟩
  have hcount : n = iterationCount s.cfg (s.bufLen s0) := hn.trans (iterationCount_eq ..).symm
  have hcap : n ≤ s.bufCap := hcount ▸ (iterationCount_le_bufLen hp hm).trans (hbuf s0).2
  have hprobes (k : ℕ) (hk : k < n) := resampleProbes_inside hbuf hw hm hp hmu (hcount ▸ hk)
  obtain ⟨other, hother⟩ := exists_other_axis ax
  obtain ⟨t, hexec, hframe, hcfg, hres, hnsym, htnow, -, hlen0, hlen1, helems⟩ :=
    trecRunsLoop s ax other d0 d1 s0 n (timingNow s) (timingTau s s0 ax) _ _ _ hinv hother h01 hp hb hn
      hcap rfl rfl fun k hk => by
        obtain ⟨hcur, hlate, hearly⟩ := hprobes k hk
        exact ⟨hcur, hlate, hearly, rfl, rfl⟩
  refine ⟨t, hexec, hframe, hcfg, hnsym, ?_, ?_, hlen0, hlen1, fun k hk => ?_⟩
  · rw [hres]
    exact timingTau_val s0 ax hmu n
  · rw [hres]
    exact htnow
  · obtain ⟨hcur, htau, -⟩ := helems k hk
    exact ⟨_, _, _, resampleTime_val s0 ax hmu k, hcur, htau, timingTau_val s0 ax hmu (k + 1),
      (hprobes k hk).1⟩

end Sys2Proof.Machine

/-!
PROOF. `QUANT` on rational symbols: its decision is exact, as the data of two rationals (rule R8).
-/

namespace Sys2Proof.Machine

/-! The threshold and the ring. -/

theorem norm_ratCx (q : ℚ × ℚ) : ‖(ratCx q).val‖ = Real.sqrt (q.1 ^ 2 + q.2 ^ 2 : ℚ) := by
  rw [Complex.norm_def, Complex.normSq_apply]
  simp [ratCx, Cx.val, sq]

theorem norm_ratCx_sq (q : ℚ × ℚ) : ‖(ratCx q).val‖ ^ 2 = ((q.1 ^ 2 + q.2 ^ 2 : ℚ) : ℝ) := by
  rw [norm_ratCx, Real.sq_sqrt (by positivity)]

/-- The threshold of two rational extremes (rule R183). -/
theorem threshold_ratCx (lo hi : ℚ × ℚ) :
    (threshold (ratCx lo) (ratCx hi)).val =
      (Real.sqrt (lo.1 ^ 2 + lo.2 ^ 2 : ℚ) + Real.sqrt (hi.1 ^ 2 + hi.2 ^ 2 : ℚ)) / 4 := by
  rw [threshold_val, norm_ratCx, norm_ratCx]

/-- Of a rational alphabet the ring is a rational: `amin` strictly below the threshold, `amax` from it on
(rule R184). -/
theorem ringOf_ratCx (lo hi : Cx) (amin amax : ℚ) (q : ℚ × ℚ) :
    ∃ r : ℚ, ringOf lo hi (.rat amin) (.rat amax) (ratCx q) = .rat r ∧
      (((q.1 ^ 2 + q.2 ^ 2 : ℚ) : ℝ) < (threshold lo hi).val ^ 2 → r = amin) ∧
      ((threshold lo hi).val ^ 2 ≤ ((q.1 ^ 2 + q.2 ^ 2 : ℚ) : ℝ) → r = amax) := by
  rw [← norm_ratCx_sq]
  rcases lt_or_ge (‖(ratCx q).val‖ ^ 2) ((threshold lo hi).val ^ 2) with h | h
  · exact ⟨amin, ringOf_inner _ _ h, fun _ => rfl, fun h' => absurd h h'.not_gt⟩
  · exact ⟨amax, ringOf_outer _ _ h, fun h' => absurd h h'.not_ge, fun _ => rfl⟩

/-- On a rational ring the decision of a rational symbol is rational (rules R14, R184). -/
theorem quantize_ratCx {lo hi : Cx} {amin amax : Scalar} {q : ℚ × ℚ} {r : ℚ}
    (h : ringOf lo hi amin amax (ratCx q) = .rat r) :
    quantize lo hi amin amax (ratCx q) = ratCx (ratSign q.1 * r, ratSign q.2 * r) := by
  have hq : quantize lo hi amin amax (ratCx q) =
      ⟨Scalar.scale (Scalar.rat q.1).sgn (ringOf lo hi amin amax (ratCx q)),
        Scalar.scale (Scalar.rat q.2).sgn (ringOf lo hi amin amax (ratCx q))⟩ := rfl
  rw [hq, h, Scalar.sgn_rat, Scalar.sgn_rat]
  rfl

/-! The operation. -/

/-- `QUANT` on a sequence that is not empty: its next state, and what that holds in `B[d0]` (rule R185). -/
theorem exec_quant_cons {s : State} (d0 : Buf) {s0 : Buf} {z : Cx} {zs : List Cx} (hb : s.BuffersSound)
    (hl : LegalAlphabet s.cfg.amin s.cfg.amax) (hz : s.HoldsCx s0 (z :: zs)) :
    let ws := (z :: zs).map (quantize (cxMin z zs) (cxMax z zs) s.cfg.amin s.cfg.amax)
    let t := complete (quantDone s d0 ws (threshold (cxMin z zs) (cxMax z zs)))
    exec (.quant d0 s0) s = .next t ∧ t.HoldsCx d0 ws := by
  intro ws t
  have hcap : ws.length ≤ s.bufCap := by
    rw [List.length_map, ← hz.1]
    exact (hb s0).2
  refine ⟨?_, HoldsCx.congr (holdsCx_writeCx s d0 ws hcap) rfl⟩
  rw [exec_eq_finish s (by simp), ruleOf, quantRule_eq hb hl hz (List.cons_ne_nil z zs), quantSeq_cons,
    finish_ok]

/-- Settles O47: the extremes are rational symbols, and so the ring and the decision are rational. -/
theorem quantRingDecision : Obligations.QuantRingDecision := by
  intro s d0 s0 qs amin amax hinv hmin hmax hpos hle hz hne
  obtain ⟨hbuf, -⟩ := hinv
  have hlegal : LegalAlphabet s.cfg.amin s.cfg.amax := by
    rw [hmin, hmax, LegalAlphabet, Scalar.val_rat, Scalar.val_rat]
    exact_mod_cast And.intro hpos hle
  obtain ⟨m, ms, rfl⟩ := List.exists_cons_of_ne_nil hne
  obtain ⟨lo, hlo, hlo_eq, hlo_le⟩ := cxMin_rat m ms
  obtain ⟨hi, hhi, hhi_eq, hle_hi⟩ := cxMax_rat m ms
  obtain ⟨hexec, hlen, hholds⟩ := exec_quant_cons d0 hbuf hlegal (show s.HoldsCx s0 (ratCx m :: _) from hz)
  rw [hlo_eq, hhi_eq, hmin, hmax] at hexec hlen hholds
  refine ⟨_, lo, hlo, hi, hhi, (threshold (ratCx lo) (ratCx hi)).val, hexec,
    fun q hq => ⟨hlo_le q hq, hle_hi q hq⟩, threshold_ratCx lo hi, rfl, by simpa using hlen,
    fun i q hq => ?_⟩
  obtain ⟨r, hring, hinner, houter⟩ := ringOf_ratCx (ratCx lo) (ratCx hi) amin amax q
  have hw := hholds i (ratCx (ratSign q.1 * r, ratSign q.2 * r)) (by
    rw [← List.map_cons, List.map_map, List.getElem?_map, hq, Option.map_some, Function.comp_apply,
      quantize_ratCx hring])
  exact ⟨r, hinner, houter, hw⟩

end Sys2Proof.Machine

/-!
PROOF. The Barker header and the correlator (`46_barker_sync.md`): what legal `HDR` and `MOD` select, the
header, and what `XCORR` records of the lags that meet the trigger.
-/

namespace Sys2Proof.Machine

/-! What legal `HDR` and `MOD` select. -/

/-- The code and the modulation that `HDR` and `MOD` select, and what they mean on rational data (rules
R191, R192, R230). -/
structure FrameSelected (s : State) (code : List Int) (m : Modulation) : Prop where
  code_ok : selectedCode s = .ok code
  mod_ok : modulation s = .ok m
  pam4_iff : m = .pam4 ↔ s.cfg.modType.toNat = 2
  code_ne_nil : code ≠ []
  header_eq : header m code =
    (specChips s.cfg.hdr).map fun b => ratCx (specHeaderSymbol s.cfg.modType.toNat b)
  demap : ∀ z : ℚ × ℚ, (sym2pamOne m (ratCx z)).out = .rat (specLevel s.cfg.modType.toNat z) ∧
    ((sym2pamOne m (ratCx z)).unrec = true ↔ ¬ specKnown s.cfg.modType.toNat z)

theorem frameSelected_of_legal {s : State} (h : LegalFrame s.cfg) : ∃ code m, FrameSelected s code m := by
  obtain ⟨code, m, hcode, hmod, hm, hne, hheader⟩ := frame_of_legal h
  refine ⟨code, m, hcode, hmod, ?_, hne, hheader, fun z => ?_⟩
  · rcases hm with ⟨rfl, hn⟩ | ⟨rfl, hn⟩ | ⟨rfl, hn⟩ <;> simp [hn]
  · rcases hm with ⟨rfl, hn⟩ | ⟨rfl, hn⟩ | ⟨rfl, hn⟩ <;> rw [hn]
    · exact sym2pamOne_complex (.inl ⟨rfl, rfl⟩) z
    · exact sym2pamOne_complex (.inr ⟨rfl, rfl⟩) z
    · exact sym2pamOne_real z.1 _ z.2

/-- `MOD` is not 2 exactly where the modulation has an imaginary axis (rule R34). -/
theorem FrameSelected.ne_pam4 {s : State} {code : List Int} {m : Modulation} (h : FrameSelected s code m)
    (hm : s.cfg.modType.toNat ≠ 2) : m ≠ .pam4 := mt h.pam4_iff.mp hm

/-- The code is as long as `HDR` says (rule R191). -/
theorem length_specChips {c : Cfg} (h : LegalFrame c) : (specChips c.hdr).length = c.hdr.toNat := by
  obtain ⟨hhdr, -⟩ := h
  rcases hhdr with e | e | e <;> rw [e] <;> rfl

/-! `BARKER`. -/

/-- The result of `BARKER` is the header of what is selected (rule R193). -/
theorem barkerRule_eq {s : State} {code : List Int} {m : Modulation} (d0 : Buf)
    (h : FrameSelected s code m) : barkerRule d0 s = .ok (s.writeCx d0 (header m code)) := by
  rw [barkerRule, h.code_ok, Res.bind_ok, h.mod_ok, Res.bind_ok]

/-- Settles O48: the header of the selected code is the one that the spec lists, and fits in a buffer. -/
theorem barkerHeader : Obligations.BarkerHeader := by
  intro s d0 hlegal
  obtain ⟨code, m, hsel⟩ := frameSelected_of_legal hlegal
  have hlen : (header m code).length = s.cfg.hdr.toNat := by
    rw [hsel.header_eq, List.length_map, length_specChips hlegal]
  have hcap : (header m code).length ≤ s.bufCap := by
    have hshort : (header m code).length ≤ 13 := by
      obtain ⟨hhdr, -⟩ := hlegal
      rcases hhdr with e | e | e <;> simp [hlen, e]
    exact hshort.trans ((by norm_num : 13 ≤ 256).trans (bufCap_ge s))
  have hframe : CompletesWith {} [d0] s (complete (s.writeCx d0 (header m code))) :=
    completesWith_complete (keeps_writeCx s d0 _) (setConds_empty_status s).symm fun n hn =>
      buf_writeCx_ne s _ (by simpa using hn)
  have hholds : (complete (s.writeCx d0 (header m code))).HoldsCx d0 (header m code) :=
    HoldsCx.congr (holdsCx_writeCx s d0 _ hcap) rfl
  exact ⟨_, exec_ok (by simp) (barkerRule_eq d0 hsel), ⟨hframe, rfl, rfl⟩, hholds.1.trans hlen,
    hsel.header_eq ▸ hholds⟩

/-! `XCORR`. -/

/-- The hits of one axis, its symbols `q` against the header's component `v` (rules R195 to R197). -/
def axisHits (s : State) (q v : List Scalar) : Hits :=
  scanHits s.cfg.trig 0 s.hitcapNat (correlate q v)

/-- The state in which `XCORR` completes, before completion (rules R198 to R200). -/
def xcorrDone (s : State) (d0 d1 : Buf) (hr hi : Hits) (complex : Bool) : State :=
  setConds
    { hitovf := hr.dropped || hi.dropped, desync := decide (hr.list.length ≠ hi.list.length) && complex }
    { (s.writeCx d0 (trimZeros (packTables hr.indices hi.indices))).writeCx d1
        (trimZeros (packTables hr.values hi.values)) with
      res := { s.res with
        nhr := BitVec.ofNat 32 hr.list.length
        nhi := BitVec.ofNat 32 hi.list.length } }

/-- Nothing but the two destinations, the two counts, `HITOVF` and `DESYNC` changes (rule R200). -/
theorem xcorrDone_frame (s : State) (d0 d1 : Buf) (hr hi : Hits) (complex : Bool) :
    CompletesWith
      { hitovf := hr.dropped || hi.dropped, desync := decide (hr.list.length ≠ hi.list.length) && complex }
      [d0, d1] s (complete (xcorrDone s d0 d1 hr hi complex)) := by
  refine completesWith_complete ((keeps_writeCx s d0 _).trans (keeps_writeCx _ d1 _)
    |>.trans (keeps_res _ _) |>.trans (keeps_setConds _ _)) rfl fun n hn => ?_
  simp only [List.mem_cons, List.not_mem_nil, or_false, not_or] at hn
  obtain ⟨hn0, hn1⟩ := hn
  exact (buf_writeCx_ne _ _ hn1).trans (buf_writeCx_ne _ _ hn0)

/-- The first destination holds the packed indices; the second, another buffer, leaves them alone. -/
theorem buf_xcorrDone_indices (s : State) {d0 d1 : Buf} (hr hi : Hits) (complex : Bool) (hne : d0 ≠ d1) :
    (complete (xcorrDone s d0 d1 hr hi complex)).buf d0 =
      (s.writeCx d0 (trimZeros (packTables hr.indices hi.indices))).buf d0 := buf_writeCx_ne _ _ hne

/-- The second destination holds the packed values. -/
theorem buf_xcorrDone_values (s : State) (d0 d1 : Buf) (hr hi : Hits) (complex : Bool) :
    (complete (xcorrDone s d0 d1 hr hi complex)).buf d1 =
      ((s.writeCx d0 (trimZeros (packTables hr.indices hi.indices))).writeCx d1
        (trimZeros (packTables hr.values hi.values))).buf d1 := rfl

/-- A result is not longer than its list of elements (rule R23). -/
theorem bufLen_writeCx_le (s : State) (d : Buf) (zs : List Cx) : (s.writeCx d zs).bufLen d ≤ zs.length := by
  rw [State.bufLen, State.writeCx, buf_writeElems_same, List.length_map, BitVec.toNat_ofNat]
  exact Nat.mod_le _ _

/-- A packed list is at most as long as the longer of its tables (rule R198). -/
theorem bufLen_writePacked_le (s : State) (d : Buf) (xs ys : List Scalar) :
    (s.writeCx d (trimZeros (packTables xs ys))).bufLen d ≤ max xs.length ys.length :=
  (bufLen_writeCx_le s d _).trans ((length_trimZeros_le _).trans_eq (length_packTables xs ys))

theorem Hits.length_indices (h : Hits) : h.indices.length = h.list.length := List.length_map _

theorem Hits.length_values (h : Hits) : h.values.length = h.list.length := List.length_map _

/-- The imaginary component of a source that has one is what it holds (rule R200). -/
theorem corrIm_of_holds {s : State} {m : Modulation} {s0 : Buf} {qi : List Scalar} (hb : s.BuffersSound)
    (hm : m ≠ .pam4) (hi : s.HoldsAxis s0 .im qi) : corrIm m s0 s = .ok qi := by
  cases m with
  | pam4 => exact absurd rfl hm
  | qam4 | qam42 => exact (srcAxis_eq_ok (hb s0).1).mpr hi

/-- With legal registers and a source that is not empty, `XCORR` has the hits of both axes (rule R200). -/
theorem xcorrRule_eq {s : State} {code : List Int} {m : Modulation} {s0 : Buf} {qr qi : List Scalar}
    (d0 d1 : Buf) (hb : s.BuffersSound) (hsel : FrameSelected s code m) (hcap : s.hitcapNat ≤ s.bufCap)
    (hr : s.HoldsAxis s0 .re qr) (hne : qr ≠ []) (hi : corrIm m s0 s = .ok qi) :
    xcorrRule d0 d1 s0 s = .ok (xcorrDone s d0 d1 (axisHits s qr ((header m code).map Cx.re))
      (axisHits s qi ((header m code).map Cx.im)) (decide (s.cfg.modType.toNat ≠ 2))) := by
  have hlen : s.bufLen s0 ≠ 0 := hr.1.trans_ne (List.length_pos_iff.mpr hne).ne'
  have hmod : decide (m ≠ .pam4) = decide (s.cfg.modType.toNat ≠ 2) :=
    decide_eq_decide.mpr (not_congr hsel.pam4_iff)
  rw [xcorrRule, hsel.code_ok, Res.bind_ok, hsel.mod_ok, Res.bind_ok, decide_eq_true hcap,
    decide_eq_true hlen, (srcAxis_eq_ok (hb s0).1).mpr hr, hi, hmod]
  rfl

/-- Settles O49: the two tables have at most `HITCAP` entries, and a packed list at most the longer's. -/
theorem xcorrCompletes : Obligations.XcorrCompletes := by
  rintro s d0 d1 s0 xr ⟨hbuf, -⟩ hd hlegal hcap hxr hne hxi
  obtain ⟨code, m, hsel⟩ := frameSelected_of_legal hlegal
  obtain ⟨qi, hqi⟩ : ∃ qi, corrIm m s0 s = .ok qi := by
    by_cases hm : s.cfg.modType.toNat = 2
    · rw [hsel.pam4_iff.mpr hm]
      exact ⟨_, rfl⟩
    · obtain ⟨xi, hi⟩ := hxi hm
      exact ⟨xi, corrIm_of_holds hbuf (hsel.ne_pam4 hm) hi⟩
  set hr := axisHits s xr ((header m code).map Cx.re)
  set hi := axisHits s qi ((header m code).map Cx.im)
  have hindices := bufLen_writePacked_le s d0 hr.indices hi.indices
  have hvalues := bufLen_writePacked_le
    (s.writeCx d0 (trimZeros (packTables hr.indices hi.indices))) d1 hr.values hi.values
  rw [hr.length_indices, hi.length_indices] at hindices
  rw [hr.length_values, hi.length_values] at hvalues
  refine ⟨_, hr.list.length, hi.list.length, hr.dropped || hi.dropped,
    exec_ok (by simp) (xcorrRule_eq d0 d1 hbuf hsel hcap hxr hne hqi), xcorrDone_frame .., rfl, rfl,
    length_scanHits_le .., length_scanHits_le .., ?_, hvalues⟩
  rw [State.bufLen, buf_xcorrDone_indices s hr hi _ hd]
  exact hindices

/-! `XCORR` on rational symbols. -/

/-- The real components of the header that `HDR` and `MOD` select (rule R192). -/
def headerRe (c : Cfg) : List ℚ := (specChips c.hdr).map fun b => (specHeaderSymbol c.modType.toNat b).1

/-- The imaginary components of that header. -/
def headerIm (c : Cfg) : List ℚ := (specChips c.hdr).map fun b => (specHeaderSymbol c.modType.toNat b).2

section
variable {s : State} {code : List Int} {m : Modulation} (h : FrameSelected s code m)
include h

theorem FrameSelected.header_re : (header m code).map Cx.re = (headerRe s.cfg).map Scalar.rat := by
  rw [h.header_eq, headerRe, List.map_map, List.map_map]
  rfl

theorem FrameSelected.header_im : (header m code).map Cx.im = (headerIm s.cfg).map Scalar.rat := by
  rw [h.header_eq, headerIm, List.map_map, List.map_map]
  rfl

theorem FrameSelected.chips_ne_nil : specChips s.cfg.hdr ≠ [] := by
  intro hnil
  have hheader := h.header_eq
  rw [hnil, List.map_nil, header, List.map_eq_nil_iff] at hheader
  exact h.code_ne_nil hheader

theorem FrameSelected.headerRe_ne_nil : headerRe s.cfg ≠ [] := by
  rw [headerRe, ne_eq, List.map_eq_nil_iff]
  exact h.chips_ne_nil

theorem FrameSelected.headerIm_ne_nil : headerIm s.cfg ≠ [] := by
  rw [headerIm, ne_eq, List.map_eq_nil_iff]
  exact h.chips_ne_nil

end

/-- The header of `4PAM` is real (rule R192). -/
theorem headerIm_pam4 {c : Cfg} (hm : c.modType.toNat = 2) : ∀ b ∈ headerIm c, b = 0 := by
  simp [headerIm, specHeaderSymbol, hm]

/-- The correlation with zeros is zero (rule R195). -/
theorem specCorrelation_zeros {v : List ℚ} (a : List ℚ) (i : ℕ) (hv : ∀ b ∈ v, b = 0) :
    specCorrelation a v i = 0 := by
  have hentry (n : ℕ) : v[n]?.getD 0 = 0 := by
    cases hb : v[n]? with
    | none => rfl
    | some b => exact hv b (List.mem_of_getElem? hb)
  simp [specCorrelation, hentry]

/-- Sequences of one length have one correlation with zeros, whatever their values. -/
theorem correlate_zeros {a b v : List ℚ} (hne : v ≠ []) (hv : ∀ x ∈ v, x = 0) (hl : a.length = b.length) :
    correlate (a.map Scalar.rat) (v.map Scalar.rat) = correlate (b.map Scalar.rat) (v.map Scalar.rat) := by
  have hzero : specCorrelation a v = specCorrelation b v :=
    funext fun i => (specCorrelation_zeros a i hv).trans (specCorrelation_zeros b i hv).symm
  rw [correlate_rat a v hne, correlate_rat b v hne, hl, hzero]

/-- The imaginary correlation on rational data: of the imaginary component where it is read, and for
`MOD = 2` what it would be if it were (rules R192, R200; log entry 13). -/
theorem corrIm_rat {s : State} {code : List Int} {m : Modulation} {s0 : Buf} {xi : List ℚ}
    (hb : s.BuffersSound) (hsel : FrameSelected s code m) (hl : s.bufLen s0 = xi.length)
    (hi : s.cfg.modType.toNat ≠ 2 → s.HoldsAxis s0 .im (xi.map Scalar.rat)) :
    ∃ qi, corrIm m s0 s = .ok qi ∧ correlate qi ((headerIm s.cfg).map Scalar.rat) =
      correlate (xi.map Scalar.rat) ((headerIm s.cfg).map Scalar.rat) := by
  by_cases hm : s.cfg.modType.toNat = 2
  · refine ⟨(List.replicate (s.bufLen s0) 0).map Scalar.rat, ?_, ?_⟩
    · rw [hsel.pam4_iff.mpr hm, List.map_replicate]
      rfl
    · exact correlate_zeros hsel.headerIm_ne_nil (headerIm_pam4 hm) (by simpa using hl)
  · exact ⟨_, corrIm_of_holds hb (hsel.ne_pam4 hm) (hi hm), rfl⟩

/-- The hits of one axis as the spec has them, and whether there are more than `cap` (rules R196, R197). -/
def ratHits (a v : List ℚ) (trig : ℚ) (cap : ℕ) : Hits :=
  ⟨(specHits a v trig cap).map fun p => (p.1, .rat p.2), decide (cap < (specAllHits a v trig).length)⟩

section
variable (a v : List ℚ) (trig : ℚ) (cap : ℕ)

theorem length_ratHits : (ratHits a v trig cap).list.length = (specHits a v trig cap).length :=
  List.length_map _

theorem length_specHits_le : (specHits a v trig cap).length ≤ cap := by
  rw [specHits, List.length_map, List.length_take]
  exact Nat.min_le_left _ _

theorem ratHits_indices : (ratHits a v trig cap).indices =
    ((specHits a v trig cap).map fun p => (p.1 : ℚ)).map Scalar.rat := by
  simp only [Hits.indices, ratHits, List.map_map]
  rfl

theorem ratHits_values : (ratHits a v trig cap).values =
    ((specHits a v trig cap).map Prod.snd).map Scalar.rat := by
  simp only [Hits.values, ratHits, List.map_map]
  rfl

end

/-- An index table reads 0 beyond its count (rule R196). -/
theorem indexEntry_eq (h : List (ℕ × ℚ)) :
    (fun k => (h.map fun p => (p.1 : ℚ)).getD k 0) = indexEntry h := by
  funext k
  rw [List.getD_eq_getElem?_getD, List.getElem?_map, indexEntry]
  cases h[k]? <;> simp

/-- A value table reads 0 beyond its count (rule R196). -/
theorem valueEntry_eq (h : List (ℕ × ℚ)) : (fun k => (h.map Prod.snd).getD k 0) = valueEntry h := by
  funext k
  rw [List.getD_eq_getElem?_getD, List.getElem?_map, valueEntry]

/-- The two destinations hold the packed tables of two lists of hits (rule R198). -/
theorem xcorrDone_holds {s : State} {d0 d1 : Buf} {a b v w : List ℚ} {trig : ℚ} (complex : Bool)
    (hne : d0 ≠ d1) (hcap : s.hitcapNat ≤ s.bufCap) :
    let t := complete (xcorrDone s d0 d1 (ratHits a v trig s.hitcapNat) (ratHits b w trig s.hitcapNat) complex)
    let hr := specHits a v trig s.hitcapNat
    let hi := specHits b w trig s.hitcapNat
    HoldsTrimmed t d0 (indexEntry hr) (indexEntry hi) ∧ HoldsTrimmed t d1 (valueEntry hr) (valueEntry hi) := by
  intro t hr hi
  have hlen : max hr.length hi.length ≤ s.bufCap :=
    (max_le (length_specHits_le ..) (length_specHits_le ..)).trans hcap
  rw [← indexEntry_eq, ← indexEntry_eq, ← valueEntry_eq, ← valueEntry_eq]
  have hbuf0 := buf_xcorrDone_indices s (ratHits a v trig s.hitcapNat) (ratHits b w trig s.hitcapNat)
    complex hne
  have hbuf1 := buf_xcorrDone_values s d0 d1 (ratHits a v trig s.hitcapNat)
    (ratHits b w trig s.hitcapNat) complex
  rw [ratHits_indices, ratHits_indices] at hbuf0
  rw [ratHits_values, ratHits_values] at hbuf1
  exact ⟨holdsTrimmed_of_write (by simpa using hlen) hbuf0, holdsTrimmed_of_write (by simpa using hlen) hbuf1⟩

/-- Settles O50: on each axis the hits are those of the spec's correlation, for `MOD = 2` of one with
zeros; their tables are packed into the two destinations. -/
theorem xcorrRecordsHits : Obligations.XcorrRecordsHits := by
  rintro s d0 d1 s0 xr xi trig hr hi ar ai ⟨hbuf, -⟩ hd hlegal hcap htrig hne hxr hxi hl rfl rfl rfl rfl
  obtain ⟨code, m, hsel⟩ := frameSelected_of_legal hlegal
  have hlen : s.bufLen s0 = xi.length := by rw [hxr.1, List.length_map, hl]
  obtain ⟨qi, hqi, hcorr⟩ := corrIm_rat hbuf hsel hlen hxi
  have hre : axisHits s (xr.map Scalar.rat) ((header m code).map Cx.re) =
      ratHits xr (headerRe s.cfg) trig s.hitcapNat := by
    rw [axisHits, htrig, hsel.header_re, scanHits_correlate _ _ hsel.headerRe_ne_nil, ratHits]
  have him : axisHits s qi ((header m code).map Cx.im) =
      ratHits xi (headerIm s.cfg) trig s.hitcapNat := by
    rw [axisHits, htrig, hsel.header_im, hcorr, scanHits_correlate _ _ hsel.headerIm_ne_nil, ratHits]
  have hrule := xcorrRule_eq d0 d1 hbuf hsel hcap hxr (by simpa using hne) hqi
  rw [hre, him] at hrule
  have hframe := xcorrDone_frame s d0 d1 (ratHits xr (headerRe s.cfg) trig s.hitcapNat)
    (ratHits xi (headerIm s.cfg) trig s.hitcapNat) (decide (s.cfg.modType.toNat ≠ 2))
  rw [length_ratHits, length_ratHits] at hframe
  obtain ⟨hindices, hvalues⟩ := xcorrDone_holds (a := xr) (b := xi) (v := headerRe s.cfg)
    (w := headerIm s.cfg) (trig := trig) (decide (s.cfg.modType.toNat ≠ 2)) hd hcap
  refine ⟨_, exec_ok (by simp) hrule, hframe, rfl, ?_, hindices, hvalues⟩
  simp only [complete_res, xcorrDone, setConds_res, length_ratHits]
  rfl

end Sys2Proof.Machine

/-!
PROOF. The frame extractor (`46_barker_sync.md`): what it does where every hit has symbols, and the faults
of its lists.
-/

namespace Sys2Proof.Machine

/-! The end of `FEXT`. -/

/-- The operands and registers that `FEXT` extracts with (rules R205, R210). -/
def fextArgs (s : State) (s0 s1 s2 : Buf) : FextArgs :=
  { q := s0, idx := s1, val := s2, hdr := s.cfg.hdr.toNat, flen := s.flenNat, nHits := s.bufLen s1 }

/-- The state in which `FEXT` completes, before completion (rule R210). -/
def fextDone (s : State) (d0 : Buf) (nosync : Bool) (r : Looked (List Scalar)) : State :=
  setConds { nosync := nosync, unrec := r.unrec } (s.writeReal d0 r.out)

/-- Nothing but the destination, `NOSYNC` and `UNREC` changes (rule R210). -/
theorem fextDone_frame (s : State) (d0 : Buf) (nosync : Bool) (r : Looked (List Scalar)) :
    CompletesPlain { nosync := nosync, unrec := r.unrec } [d0] s (complete (fextDone s d0 nosync r)) :=
  ⟨completesWith_complete ((keeps_writeReal s d0 _).trans (keeps_setConds _ _)) rfl fun n hn =>
    buf_writeReal_ne s _ (by simpa using hn), rfl, rfl⟩

/-- Hit lists that differ in length raise `DESYNC` before any hit is looked at (rules R208, R210). -/
theorem fextRule_of_length_ne {s : State} {code : List Int} {m : Modulation} {s1 s2 : Buf} (d0 s0 : Buf)
    (hsel : FrameSelected s code m) (h : s.bufLen s2 ≠ s.bufLen s1) :
    fextRule d0 s0 s1 s2 s = .raise .desync 0 := by
  rw [fextRule, hsel.code_ok, Res.bind_ok, hsel.mod_ok, Res.bind_ok, decide_eq_false h]
  rfl

/-- Legal registers and hit lists of one length: the rule goes on with the extraction (rule R210). -/
theorem fextRule_eq {s : State} {code : List Int} {m : Modulation} {s1 s2 : Buf} (d0 s0 : Buf)
    (hsel : FrameSelected s code m) (h : s.bufLen s2 = s.bufLen s1) :
    fextRule d0 s0 s1 s2 s = (extractFrom m s (fextArgs s s0 s1 s2) (s.bufLen s1) 0).bind fun r =>
      (require (decide (r.out.length ≤ s.bufCap)) .overflow 0).bind fun _ =>
      .ok (fextDone s d0 (decide (s.bufLen s1 = 0)) r) := by
  rw [fextRule, hsel.code_ok, Res.bind_ok, hsel.mod_ok, Res.bind_ok, decide_eq_true h]
  rfl

/-! Every hit has symbols. -/

/-- The character codes of `n` hits whose symbols are `zs` (rules R209, R210). -/
def hitCodes (modType n : ℕ) (zs : ℕ → List (ℚ × ℚ)) : List ℚ :=
  (List.range n).flatMap fun k => specCodes ((zs k).map (specLevel modType))

/-- Where every hit has symbols and the codes fit in a buffer, `FEXT` completes with the codes, and with
`UNREC` exactly where a symbol is none of the points (rules R204, R209, R210, R233). -/
theorem exec_fext_of_symbols {s : State} {code : List Int} {m : Modulation} {s0 s1 s2 : Buf}
    {zs : ℕ → List (ℚ × ℚ)} (d0 : Buf) (hsel : FrameSelected s code m) (hlen : s.bufLen s2 = s.bufLen s1)
    (hz : ∀ k < s.bufLen s1, hitSymbols m s (fextArgs s s0 s1 s2) k = .ok ((zs k).map ratCx))
    (hcap : (hitCodes s.cfg.modType.toNat (s.bufLen s1) zs).length ≤ s.bufCap) :
    ∃ (t : State) (unrec : Bool), exec (.fext d0 s0 s1 s2) s = .next t ∧
      CompletesPlain { nosync := decide (s.bufLen s1 = 0), unrec := unrec } [d0] s t ∧
      (unrec = true ↔ ∃ k < s.bufLen s1, ∃ z ∈ zs k, ¬ specKnown s.cfg.modType.toNat z) ∧
      t.HoldsReal d0 ((hitCodes s.cfg.modType.toNat (s.bufLen s1) zs).map Scalar.rat) := by
  obtain ⟨unrec, hex, hunrec⟩ := extractFrom_rat (fun _ z _ => hsel.demap z) (s.bufLen s1) 0
    fun k _ hk => hz k (by simpa using hk)
  rw [← List.range_eq_range', ← hitCodes] at hex
  set out := (hitCodes s.cfg.modType.toNat (s.bufLen s1) zs).map Scalar.rat with hout
  have hfits : out.length ≤ s.bufCap := by simpa [hout] using hcap
  have hrule : fextRule d0 s0 s1 s2 s = .ok (fextDone s d0 (decide (s.bufLen s1 = 0)) ⟨out, unrec⟩) := by
    rw [fextRule_eq d0 s0 hsel hlen, hex, Res.bind_ok, decide_eq_true hfits, require_true, Res.bind_ok]
  exact ⟨_, unrec, exec_ok (by simp) hrule, fextDone_frame .., by simpa using hunrec,
    HoldsCx.congr (holdsReal_writeReal s d0 out hfits) rfl⟩

/-- Settles O51: without hits there is nothing to extract. -/
theorem fextWithoutHits : Obligations.FextWithoutHits := by
  intro s d0 s0 s1 s2 hlegal h1 h2
  obtain ⟨code, m, hsel⟩ := frameSelected_of_legal hlegal
  obtain ⟨t, unrec, hexec, hdone, hunrec, hholds⟩ := exec_fext_of_symbols (s0 := s0) (zs := fun _ => []) d0
    hsel (h2.trans h1.symm) (fun k hk => absurd hk (by simp [h1])) (by simp [h1, hitCodes])
  obtain rfl : unrec = false := by simpa using hunrec
  rw [h1] at hdone hholds
  exact ⟨t, hexec, hdone, hholds.1⟩

/-- The symbols of hit `k` on two axes, recombined (rule R208). -/
def pairSymbols (s : State) (xr xi vr vi : List ℚ) (ir ii : List ℕ) (k : ℕ) : List (ℚ × ℚ) :=
  (specAxisSlice xr ir vr s.cfg.hdr.toNat s.cfg.flen.toNat k).zip
    (specAxisSlice xi ii vi s.cfg.hdr.toNat s.cfg.flen.toNat k)

/-- The stream and the hit lists of both axes, on rational data, as `FEXT` takes them (rules R204, R205). -/
structure HoldsHits (s : State) (s0 s1 s2 : Buf) (xr xi vr vi : List ℚ) (ir ii : List ℕ) : Prop where
  streamRe : s.HoldsAxis s0 .re (xr.map Scalar.rat)
  streamIm : s.HoldsAxis s0 .im (xi.map Scalar.rat)
  indexRe : s.HoldsAxis s1 .re (ir.map Scalar.ofNat)
  indexIm : s.HoldsAxis s1 .im (ii.map Scalar.ofNat)
  valueRe : s.HoldsAxis s2 .re (vr.map Scalar.rat)
  valueIm : s.HoldsAxis s2 .im (vi.map Scalar.rat)
  values : vr.length = ir.length

section
variable {s : State} {s0 s1 s2 : Buf} {xr xi vr vi : List ℚ} {ir ii : List ℕ}
  (h : HoldsHits s s0 s1 s2 xr xi vr vi ir ii)
include h

theorem HoldsHits.bufLen_index : s.bufLen s1 = ir.length := by simpa using h.indexRe.1

theorem HoldsHits.bufLen_value : s.bufLen s2 = s.bufLen s1 := by
  rw [h.bufLen_index, h.valueRe.1, List.length_map, h.values]

/-- A hit whose two slices are of one length has symbols (rule R208). -/
theorem HoldsHits.symbols_of_length_eq {m : Modulation} {k : ℕ} (hm : m ≠ .pam4) (hb : s.BuffersSound)
    (hk : k < ir.length)
    (hl : (specAxisSlice xr ir vr s.cfg.hdr.toNat s.cfg.flen.toNat k).length =
      (specAxisSlice xi ii vi s.cfg.hdr.toNat s.cfg.flen.toNat k).length) :
    hitSymbols m s (fextArgs s s0 s1 s2) k = .ok ((pairSymbols s xr xi vr vi ir ii k).map ratCx) :=
  (hitSymbols_rat hm hb h.streamRe h.streamIm h.indexRe h.indexIm h.valueRe h.valueIm h.bufLen_index
    h.values hk).trans (if_pos hl)

/-- A hit whose two slices differ in length raises `DESYNC` (rules R208, R269). -/
theorem HoldsHits.raise_of_length_ne {m : Modulation} {k : ℕ} (hm : m ≠ .pam4) (hb : s.BuffersSound)
    (hk : k < ir.length)
    (hl : (specAxisSlice xr ir vr s.cfg.hdr.toNat s.cfg.flen.toNat k).length ≠
      (specAxisSlice xi ii vi s.cfg.hdr.toNat s.cfg.flen.toNat k).length) :
    hitSymbols m s (fextArgs s s0 s1 s2) k = .raise .desync k :=
  (hitSymbols_rat hm hb h.streamRe h.streamIm h.indexRe h.indexIm h.valueRe h.valueIm h.bufLen_index
    h.values hk).trans (if_neg hl)

/-- `FEXT` on two axes whose slices are of one length at every hit: its codes are those of the recombined
symbols (rules R205 to R210). -/
theorem HoldsHits.exec_fext (d0 : Buf) (hb : s.BuffersSound) (hlegal : LegalFrame s.cfg)
    (hm : s.cfg.modType.toNat ≠ 2)
    (hl : ∀ k < ir.length, (specAxisSlice xr ir vr s.cfg.hdr.toNat s.cfg.flen.toNat k).length =
      (specAxisSlice xi ii vi s.cfg.hdr.toNat s.cfg.flen.toNat k).length)
    (hcap : (hitCodes s.cfg.modType.toNat ir.length (pairSymbols s xr xi vr vi ir ii)).length ≤ s.bufCap) :
    ∃ (t : State) (unrec : Bool), exec (.fext d0 s0 s1 s2) s = .next t ∧
      CompletesPlain { nosync := decide (ir.length = 0), unrec := unrec } [d0] s t ∧
      (unrec = true ↔ ∃ k < ir.length, ∃ z ∈ pairSymbols s xr xi vr vi ir ii k,
        ¬ specKnown s.cfg.modType.toNat z) ∧
      t.HoldsReal d0
        ((hitCodes s.cfg.modType.toNat ir.length (pairSymbols s xr xi vr vi ir ii)).map Scalar.rat) := by
  obtain ⟨code, m, hsel⟩ := frameSelected_of_legal hlegal
  rw [← h.bufLen_index] at hcap ⊢
  exact exec_fext_of_symbols d0 hsel h.bufLen_value (fun k hk =>
    have hk' : k < ir.length := h.bufLen_index ▸ hk
    h.symbols_of_length_eq (hsel.ne_pam4 hm) hb hk' (hl k hk')) hcap

end

/-- Settles O52: the symbols of a hit are its two slices recombined. -/
theorem fextExtracts : Obligations.FextExtracts := by
  rintro s d0 s0 s1 s2 xr xi vr vi ir ii zs out ⟨hbuf, -⟩ hlegal hm hv hxr hxi hir hii hvr hvi hl hz rfl hcap
  have hhits : HoldsHits s s0 s1 s2 xr xi vr vi ir ii := ⟨hxr, hxi, hir, hii, hvr, hvi, hv⟩
  obtain rfl : zs = pairSymbols s xr xi vr vi ir ii := funext hz
  have hnil : decide (ir = []) = decide (ir.length = 0) := decide_eq_decide.mpr List.length_eq_zero_iff.symm
  rw [hnil]
  exact hhits.exec_fext d0 hbuf hlegal hm hl hcap

/-- Settles O53: for `4PAM` the symbols of a hit are its real slice, whatever stands beside it. -/
theorem fextExtractsRealAxis : Obligations.FextExtractsRealAxis := by
  rintro s d0 s0 s1 s2 xr vr ir zs out ⟨hbuf, -⟩ hlegal hm hv hxr hir hvr hz rfl hcap
  obtain ⟨code, m, hsel⟩ := frameSelected_of_legal hlegal
  obtain rfl : m = .pam4 := hsel.pam4_iff.mpr hm
  have hidx : s.bufLen s1 = ir.length := by simpa using hir.1
  have hval : s.bufLen s2 = s.bufLen s1 := by rw [hidx, hvr.1, List.length_map, hv]
  have hsym : ∀ k < s.bufLen s1, hitSymbols .pam4 s (fextArgs s s0 s1 s2) k =
      .ok (((zs k).map fun x => (x, 0)).map ratCx) := fun k hk => by
    rw [hz, List.map_map]
    exact hitSymbols_pam4_rat hbuf hxr hir hvr hidx hv (hidx ▸ hk)
  have hcodes : hitCodes s.cfg.modType.toNat (s.bufLen s1) (fun k => (zs k).map fun x => (x, 0)) =
      (List.range ir.length).flatMap fun k => specCodes ((zs k).map fun x => specLevel 2 (x, 0)) := by
    simp only [hitCodes, hm, hidx, List.map_map]
    rfl
  obtain ⟨t, unrec, hexec, hdone, hunrec, hholds⟩ := exec_fext_of_symbols d0 hsel hval hsym (hcodes ▸ hcap)
  have hnil : decide (ir = []) = decide (s.bufLen s1 = 0) :=
    decide_eq_decide.mpr (by rw [hidx, List.length_eq_zero_iff])
  refine ⟨t, unrec, hexec, hnil ▸ hdone, ?_, hcodes ▸ hholds⟩
  simpa [hm, hidx] using hunrec

/-! An inverted axis. -/

/-- A sign of 1 or -1 that both the value and the symbol carry has no effect on their product (rule R207). -/
theorem ratSign_mul_mul {e : ℚ} (he : e ∈ ([1, -1] : List ℚ)) (v x : ℚ) :
    ratSign (e * v) * (e * x) = ratSign v * x := by
  simp only [List.mem_cons, List.not_mem_nil, or_false] at he
  rcases he with rfl | rfl
  · rw [one_mul, one_mul]
  · rcases lt_trichotomy v 0 with hv | rfl | hv
    · simp [ratSign, hv, hv.not_gt]
    · simp [ratSign]
    · simp [ratSign, hv, hv.not_gt]

theorem getD_map_mul (e : ℚ) (xs : List ℚ) (i : ℕ) :
    (xs.map fun x => e * x).getD i 0 = e * xs.getD i 0 := by
  simp only [List.getD_eq_getElem?_getD, List.getElem?_map]
  cases xs[i]? <;> simp

/-- An inversion of the stream and of the hit values leaves the corrected slice as it is (rule R207). -/
theorem specAxisSlice_inverted {e : ℚ} (he : e ∈ ([1, -1] : List ℚ)) (xs vs : List ℚ) (idx : List ℕ)
    (hdr flen k : ℕ) :
    specAxisSlice (xs.map fun x => e * x) idx (vs.map fun v => e * v) hdr flen k =
      specAxisSlice xs idx vs hdr flen k := by
  simp only [specAxisSlice, specSlice, List.length_map, List.map_map, Function.comp_def, getD_map_mul,
    ratSign_mul_mul he]

/-- One character code per full group of four levels (rule R223). -/
theorem length_hitCodes (modType n : ℕ) (zs : ℕ → List (ℚ × ℚ)) :
    (hitCodes modType n zs).length = ((List.range n).map fun k => (zs k).length / 4).sum := by
  simp [hitCodes, List.length_flatMap, specCodes]

/-- Settles O54: both blocks extract the codes of the same corrected slices. -/
theorem axisInversionUndone : Obligations.AxisInversionUndone := by
  rintro s s' d0 s0 s1 s2 xr xi vr vi ir ii er ei ⟨hbuf, -⟩ ⟨hbuf', -⟩ hlegal hm haw hhdr hmod hflen her hei
    hv hxr hxi hir hii hvr hvi hxr' hxi' hir' hii' hvr' hvi' hl hcap
  have hhits : HoldsHits s s0 s1 s2 xr xi vr vi ir ii := ⟨hxr, hxi, hir, hii, hvr, hvi, hv⟩
  have hhits' : HoldsHits s' s0 s1 s2 (xr.map fun x => er * x) (xi.map fun x => ei * x)
      (vr.map fun v => er * v) (vi.map fun v => ei * v) ir ii := by
    constructor <;> simpa [Function.comp_def]
  have hsym : pairSymbols s' (xr.map fun x => er * x) (xi.map fun x => ei * x) (vr.map fun v => er * v)
      (vi.map fun v => ei * v) ir ii = pairSymbols s xr xi vr vi ir ii := by
    funext k
    simp only [pairSymbols, specAxisSlice_inverted her, specAxisSlice_inverted hei, hhdr, hflen]
  have hfits :
      (hitCodes s.cfg.modType.toNat ir.length (pairSymbols s xr xi vr vi ir ii)).length ≤ s.bufCap := by
    rw [length_hitCodes]
    refine le_trans (List.sum_le_sum fun k _ => Nat.div_le_div_right ?_) hcap
    rw [pairSymbols, List.length_zip]
    exact Nat.min_le_left _ _
  obtain ⟨t, -, hexec, -, -, hholds⟩ := hhits.exec_fext d0 hbuf hlegal hm hl hfits
  obtain ⟨t', -, hexec', -, -, hholds'⟩ := hhits'.exec_fext d0 hbuf' (by rwa [LegalFrame, hhdr, hmod])
    (by rwa [hmod])
    (by simpa only [specAxisSlice_inverted her, specAxisSlice_inverted hei, hhdr, hflen] using hl)
    (by rw [hsym, hmod, State.bufCap, haw]; exact hfits)
  rw [hsym, hmod] at hholds'
  exact ⟨t, t', _, hexec, hexec', hholds, hholds'⟩

/-! A hit that faults. -/

/-- Where the hits before hit `k` have symbols and hit `k` raises, so does `FEXT` (rules R210, R262). -/
theorem exec_fext_of_raise {s : State} {code : List Int} {m : Modulation} {s0 s1 s2 : Buf} {k : ℕ}
    {f : FCode} {zs : ℕ → List (ℚ × ℚ)} (d0 : Buf) (hsel : FrameSelected s code m)
    (hlen : s.bufLen s2 = s.bufLen s1) (hk : k < s.bufLen s1)
    (hz : ∀ j < k, hitSymbols m s (fextArgs s s0 s1 s2) j = .ok ((zs j).map ratCx))
    (hf : hitSymbols m s (fextArgs s s0 s1 s2) k = .raise f k) :
    ∃ t, exec (.fext d0 s0 s1 s2) s = .next t ∧ FaultsWith f k s t := by
  have hex : extractFrom m s (fextArgs s s0 s1 s2) (s.bufLen s1) 0 = .raise f k :=
    extractFrom_stops (fun _ z _ => hsel.demap z) hf k 0 _ (Nat.zero_add k) (by simpa using hk)
      fun j _ hj => hz j hj
  have hrule : fextRule d0 s0 s1 s2 s = .raise f k := by
    rw [fextRule_eq d0 s0 hsel hlen, hex, Res.bind_raise]
  exact ⟨_, exec_raise (by simp) hrule, faultsWith_raise ..⟩

/-- A hit's own index that is no natural (rules R205, R268). -/
theorem sliceBounds_bad_index {s : State} {a : FextArgs} {ax : Axis} {k : ℕ} (h : s.BadIndex a.idx k ax) :
    sliceBounds s a ax k = .raise .domain k := by
  rw [sliceBounds, hitIndex_bad h, Res.bind_raise]

/-- The next hit's index that is no natural, read for the end of the slice (rules R205, R268). -/
theorem sliceBounds_bad_next {s : State} {a : FextArgs} {ax : Axis} {k n : ℕ}
    (hk : s.comp a.idx k ax = some (.ofNat n)) (hn : k + 1 < a.nHits) (h : s.BadIndex a.idx (k + 1) ax) :
    sliceBounds s a ax k = .raise .domain k := by
  rw [sliceBounds, hitIndex_nat hk, Res.bind_ok, sliceEnd, if_pos hn, hitIndex_bad h]
  rfl

/-- The read of an index that has been written is not refused (rules R68, R205). -/
theorem hitIndex_ne_uninit {s : State} {b : Buf} {ax : Axis} {k : ℕ} (hit : ℕ) (c : Buf)
    (h : (s.comp b k ax).isSome = true) : hitIndex s b ax k hit ≠ .uninit c := by
  obtain ⟨x, hx⟩ := Option.isSome_iff_exists.mp h
  rw [hitIndex, srcComp_eq_ok.mpr hx, Res.bind_ok]
  split
  · split <;> simp
  · simp

/-- Bounds whose indices have been written answer, or raise `DOMAIN` with the hit (rules R205, R263). -/
theorem sliceBounds_written {s : State} {a : FextArgs} {ax : Axis} {k : ℕ}
    (h : (s.comp a.idx k ax).isSome = true)
    (hnext : k + 1 < a.nHits → (s.comp a.idx (k + 1) ax).isSome = true) :
    (∃ b, sliceBounds s a ax k = .ok b) ∨ sliceBounds s a ax k = .raise .domain k := by
  cases hres : sliceBounds s a ax k with
  | ok b => exact .inl ⟨b, rfl⟩
  | raise f n =>
    obtain ⟨rfl, rfl⟩ := sliceBounds_raise hres
    exact .inr rfl
  | uninit c =>
    simp only [sliceBounds, sliceEnd, Res.bind_eq_uninit, hitIndex_ne_uninit k c h, reduceCtorEq, and_false,
      exists_false, or_false, false_or] at hres
    obtain ⟨_, _, hend⟩ := hres
    split at hend
    · rename_i hlt
      simp [Res.bind_eq_uninit, hitIndex_ne_uninit k c (hnext hlt)] at hend
    · cases hend

/-- The real axis's bounds come first, whatever the modulation (rule R210). -/
theorem hitSymbols_of_bounds_re {s : State} {a : FextArgs} {k : ℕ} (m : Modulation)
    (h : sliceBounds s a .re k = .raise .domain k) : hitSymbols m s a k = .raise .domain k := by
  cases m <;> rw [hitSymbols, h, Res.bind_raise]

/-- The imaginary axis's bounds come next: a fault of the real ones is the same fault (rule R210). -/
theorem hitSymbols_of_bounds_im {s : State} {a : FextArgs} {m : Modulation} {k : ℕ} (hm : m ≠ .pam4)
    (hre : (∃ b, sliceBounds s a .re k = .ok b) ∨ sliceBounds s a .re k = .raise .domain k)
    (h : sliceBounds s a .im k = .raise .domain k) : hitSymbols m s a k = .raise .domain k := by
  obtain ⟨b, hb⟩ | hr := hre
  · cases m with
    | pam4 => exact absurd rfl hm
    | qam4 | qam42 => rw [hitSymbols, hb, Res.bind_ok, h, Res.bind_raise]
  · exact hitSymbols_of_bounds_re m hr

/-- The first `k + 1` entries of both hit lists, on one axis (rule R204). -/
structure HoldsFirst (s : State) (a : FextArgs) (ax : Axis) (idx : List ℕ) (vs : List ℚ) (k : ℕ) :
    Prop where
  indices : idx.length = k + 1
  index : ∀ j y, idx[j]? = some y → s.comp a.idx j ax = some (.ofNat y)
  values : vs.length = k + 1
  value : ∀ j y, vs[j]? = some y → s.comp a.val j ax = some (.rat y)

/-- They are all that the hits before hit `k` read: their own entries and the next index (rule R205). -/
theorem HoldsFirst.hitAt {s : State} {a : FextArgs} {ax : Axis} {idx : List ℕ} {vs : List ℚ} {j k : ℕ}
    (h : HoldsFirst s a ax idx vs k) (hn : k + 1 < a.nHits) (hj : j < k) : HitAt s a ax idx vs j where
  index := h.index j _ (by simp [h.indices, hj.trans (Nat.lt_succ_self k)])
  value := h.value j _ (by simp [h.values, hj.trans (Nat.lt_succ_self k)])
  last := by rw [h.indices]; omega
  next hlt := h.index (j + 1) _ (by simp [hlt])

/-- The last of them is the index of hit `k`. -/
theorem HoldsFirst.own_index {s : State} {a : FextArgs} {ax : Axis} {idx : List ℕ} {vs : List ℚ} {k : ℕ}
    (h : HoldsFirst s a ax idx vs k) : s.comp a.idx k ax = some (.ofNat (idx.getD k 0)) :=
  h.index k _ (by simp [h.indices])

/-- `DOMAIN(0)` at the first hit's own index, of either axis (rules R205, R268). -/
theorem fext_domain_first {s : State} (d0 s0 : Buf) {s1 s2 : Buf} (hlegal : LegalFrame s.cfg)
    (hlen : s.bufLen s2 = s.bufLen s1) (hne : s.bufLen s1 ≠ 0)
    (hbad : s.BadIndex s1 0 .re ∨ s.cfg.modType.toNat ≠ 2 ∧ (s.comp s1 0 .re).isSome = true ∧
      (1 < s.bufLen s1 → (s.comp s1 1 .re).isSome = true) ∧ s.BadIndex s1 0 .im) :
    ∃ t, exec (.fext d0 s0 s1 s2) s = .next t ∧ FaultsWith .domain 0 s t := by
  obtain ⟨code, m, hsel⟩ := frameSelected_of_legal hlegal
  refine exec_fext_of_raise (zs := fun _ => []) d0 hsel hlen (Nat.pos_of_ne_zero hne) nofun ?_
  obtain hre | ⟨hm, hown, hnext, him⟩ := hbad
  · exact hitSymbols_of_bounds_re m (sliceBounds_bad_index hre)
  · exact hitSymbols_of_bounds_im (hsel.ne_pam4 hm) (sliceBounds_written hown hnext)
      (sliceBounds_bad_index him)

/-- `DOMAIN(k)` at the next index of hit `k`, of either axis, where the hits before it extract: for `4PAM`
on the real axis alone (rules R205, R263, R268). -/
theorem fext_domain_next {s : State} (d0 : Buf) {s0 s1 s2 : Buf} {xr xi vr vi : List ℚ} {ir ii : List ℕ}
    {k : ℕ} (hb : s.BuffersSound) (hlegal : LegalFrame s.cfg) (hlen : s.bufLen s2 = s.bufLen s1)
    (hk : k + 1 < s.bufLen s1) (hxr : s.HoldsAxis s0 .re (xr.map Scalar.rat))
    (hr : HoldsFirst s (fextArgs s s0 s1 s2) .re ir vr k)
    (him : s.cfg.modType.toNat ≠ 2 → s.HoldsAxis s0 .im (xi.map Scalar.rat) ∧
      HoldsFirst s (fextArgs s s0 s1 s2) .im ii vi k ∧
      ∀ j < k, (specAxisSlice xr ir vr s.cfg.hdr.toNat s.cfg.flen.toNat j).length =
        (specAxisSlice xi ii vi s.cfg.hdr.toNat s.cfg.flen.toNat j).length)
    (hbad : s.BadIndex s1 (k + 1) .re ∨
      s.cfg.modType.toNat ≠ 2 ∧ (s.comp s1 (k + 1) .re).isSome = true ∧ s.BadIndex s1 (k + 1) .im) :
    ∃ t, exec (.fext d0 s0 s1 s2) s = .next t ∧ FaultsWith .domain k s t := by
  obtain ⟨code, m, hsel⟩ := frameSelected_of_legal hlegal
  obtain ⟨zs, hz⟩ : ∃ zs : ℕ → List (ℚ × ℚ), ∀ j < k,
      hitSymbols m s (fextArgs s s0 s1 s2) j = .ok ((zs j).map ratCx) := by
    by_cases hm : s.cfg.modType.toNat = 2
    · obtain rfl : m = .pam4 := hsel.pam4_iff.mpr hm
      refine ⟨fun j => (specAxisSlice xr ir vr s.cfg.hdr.toNat s.cfg.flen.toNat j).map fun x => (x, 0),
        fun j hj => ?_⟩
      rw [List.map_map]
      exact hitSymbols_pam4_at hb hxr (hr.hitAt hk hj)
    · obtain ⟨hxi, hi, hl⟩ := him hm
      exact ⟨pairSymbols s xr xi vr vi ir ii, fun j hj =>
        (hitSymbols_at (hsel.ne_pam4 hm) hb hxr hxi (hr.hitAt hk hj) (hi.hitAt hk hj)).trans
          (if_pos (hl j hj))⟩
  refine exec_fext_of_raise d0 hsel hlen (Nat.lt_of_succ_lt hk) hz ?_
  obtain hre | ⟨hm, hnext, hbad_im⟩ := hbad
  · exact hitSymbols_of_bounds_re m (sliceBounds_bad_next hr.own_index hk hre)
  · obtain ⟨-, hi, -⟩ := him hm
    exact hitSymbols_of_bounds_im (hsel.ne_pam4 hm)
      (sliceBounds_written (Option.isSome_iff_exists.mpr ⟨_, hr.own_index⟩) fun _ => hnext)
      (sliceBounds_bad_next hi.own_index hk hbad_im)

/-- Settles O35: the lists before any hit, then the first hit whose slices differ, whose own index is bad,
or whose next index is. -/
theorem fextDesyncTraps : Obligations.FextDesyncTraps := by
  refine ⟨fun s d0 s0 s1 s2 hlegal hne => ?_, ?_, fun s d0 s0 s1 s2 => fext_domain_first d0 s0, ?_⟩
  · obtain ⟨code, m, hsel⟩ := frameSelected_of_legal hlegal
    exact ⟨_, exec_raise (by simp) (fextRule_of_length_ne d0 s0 hsel hne), faultsWith_raise ..⟩
  · rintro s d0 s0 s1 s2 xr xi vr vi ir ii k ⟨hbuf, -⟩ hlegal hm hv hxr hxi hir hii hvr hvi hk hl hne
    have hhits : HoldsHits s s0 s1 s2 xr xi vr vi ir ii := ⟨hxr, hxi, hir, hii, hvr, hvi, hv⟩
    obtain ⟨code, m, hsel⟩ := frameSelected_of_legal hlegal
    have hm4 := hsel.ne_pam4 hm
    exact exec_fext_of_raise d0 hsel hhits.bufLen_value (hhits.bufLen_index ▸ hk)
      (fun j hj => hhits.symbols_of_length_eq hm4 hbuf (hj.trans hk) (hl j hj))
      (hhits.raise_of_length_ne hm4 hbuf hk hne)
  · rintro s d0 s0 s1 s2 xr xi vr vi ir ii k ⟨hbuf, -⟩ hlegal hlen hk hxr hirl hir hvrl hvr him hbad
    exact fext_domain_next d0 hbuf hlegal hlen hk hxr ⟨hirl, hir, hvrl, hvr⟩
      (fun hm => by
        obtain ⟨hxi, hiil, hii, hvil, hvi, hl⟩ := him hm
        exact ⟨hxi, ⟨hiil, hii, hvil, hvi⟩, hl⟩) hbad

end Sys2Proof.Machine

/-!
PROOF. Faults and resets (`60_exceptions.md`, `70_reset_and_hazards.md`): what a step does to the record of
a fault, what clears it, the hardware reset, and that every operation comes to an end.
-/

namespace Sys2Proof.Machine

/-! Hardware reset. -/

/-- A hardware reset that is next takes effect in an idle block, and in the middle of an operation while
that still takes time (rule R290). -/
theorem step_reset {s : State} {rest : List HostAccess} (hp : s.pending = .reset :: rest)
    (h : s.inFlight = none ∨ s.busyReads ≠ 0) :
    step s = .next (hardReset { s with pending := rest }) := by
  cases hi : s.inFlight with
  | none => exact step_access hi hp
  | some w =>
    have hb : s.busyReads ≠ 0 := by simpa [hi] using h
    have hfirst : accessWhileBusy s = some .reset := by simp only [accessWhileBusy, hb, hp, if_false]
    rw [step_busy_access hi hfirst, hp]
    rfl

/-- Settles O11: the state after the step is that of the reset, whatever was in progress. -/
theorem hardwareResetAbandons : Obligations.HardwareResetAbandons := fun s rest hp h =>
  ⟨_, step_reset hp h, registersReset_hardReset _, rfl, rfl, irq_of_ctrl_zero rfl,
    memRead_reg (r := .id) _ (by omega) rfl, comp_hardReset _⟩

/-! The record of a fault. -/

/-- `FAULT`, `FCODE`, `FINFO` and `FCMD` are the same (rules R26, R32). -/
structure SameFaultRecord (s t : State) : Prop where
  fault : t.status.fault = s.status.fault
  fcode : t.status.fcode = s.status.fcode
  finfo : t.finfo = s.finfo
  fcmd : t.fcmd = s.fcmd

theorem SameFaultRecord.refl (s : State) : SameFaultRecord s s := ⟨rfl, rfl, rfl, rfl⟩

theorem sameFaultRecord_offerCommand (w : CmdWord) (s : State) : SameFaultRecord s (offerCommand w s) := by
  rcases offerCommand_cases w s with ⟨-, -, e⟩ | ⟨-, e⟩ <;> rw [e]
  · exact .refl s
  · exact ⟨rfl, rfl, rfl, rfl⟩

/-- No host write changes the record of a fault (rules R28, R32). -/
theorem sameFaultRecord_memWrite (s : State) (a : Nat) (w : PortWord) :
    SameFaultRecord s (memWrite s a w) := by
  rcases memWrite_cases s a w with e | e | ⟨c, e⟩ | ⟨n, e⟩ | ⟨n, k, -, e⟩ | e <;> rw [e]
  · exact sameFaultRecord_offerCommand _ s
  · exact ⟨rfl, rfl, rfl, rfl⟩
  · exact ⟨rfl, rfl, rfl, rfl⟩
  · obtain ⟨bs, e⟩ := writeLen_eq_bufs s n w.toInt
    rw [e]
    exact ⟨rfl, rfl, rfl, rfl⟩
  · exact ⟨rfl, rfl, rfl, rfl⟩
  · exact .refl s

/-- What one step does to the record of a fault: nothing, unless a hardware reset takes effect or an
accepted word runs to its end (rules R262, R275). -/
theorem step_faultRecord {s t : State} (h : step s = .next t) :
    SameFaultRecord s t ∨
    (∃ rest, s.pending = .reset :: rest ∧ t = hardReset { s with pending := rest }) ∨
    ∃ w, s.inFlight = some w ∧ runWord w s = .next t := by
  rcases step_cases h with ⟨w, x, rest, -, -, hp, hx, rfl⟩ | ⟨w, hw, -, hrun⟩ | ⟨-, -, rfl⟩ |
    ⟨x, rest, -, hp, rfl⟩
  · rcases hx with rfl | ⟨a, rfl, -⟩
    · exact .inr (.inl ⟨rest, hp, rfl⟩)
    · exact .inl ⟨rfl, rfl, rfl, rfl⟩
  · exact .inr (.inr ⟨w, hw, hrun⟩)
  · exact .inl (.refl _)
  · cases x with
    | read a => exact .inl ⟨rfl, rfl, rfl, rfl⟩
    | write a v =>
      obtain ⟨hfault, hfcode, hfinfo, hfcmd⟩ := sameFaultRecord_memWrite { s with pending := rest } a v
      exact .inl ⟨hfault, hfcode, hfinfo, hfcmd⟩
    | reset => exact .inr (.inl ⟨rest, hp, rfl⟩)

/-- The end of an operation that leaves a fault in an unfaulted block is the fault that its rule raises
(rule R262). -/
theorem exec_faulted {i : Instr} {s t : State} (h : exec i s = .next t) (hs : s.status.fault = false)
    (ht : t.status.fault = true) : ∃ f n, f ≠ .none ∧ t = raise f n s := by
  rcases exec_cases h with ⟨-, rfl⟩ | ⟨-, u, hu, rfl⟩ | ⟨-, f, n, hr, rfl⟩
  · cases ht
  · obtain ⟨hk, -⟩ := ruleOf_ok hu
    exact absurd (ht.symm.trans (hk.fault.trans hs)) (by decide)
  · exact ⟨f, n, ruleOf_raise hr, rfl⟩

/-- Of the words that run to their end that of `SRST` alone clears a fault (rule R275): any other
operation keeps it or raises one. -/
theorem runWord_clears_fault {w : CmdWord} {s t : State} (h : runWord w s = .next t)
    (hs : s.status.fault = true) (ht : t.status.fault = false) : w = srstWord ∧ t = softReset s := by
  rcases runWord_cases h with ⟨i, hi, he⟩ | ⟨-, rfl⟩ | ⟨-, rfl⟩
  · rcases exec_cases he with ⟨rfl, rfl⟩ | ⟨-, u, hu, rfl⟩ | ⟨-, f, n, -, rfl⟩
    · exact ⟨eq_opcodeMatch_of_decode hi rfl, rfl⟩
    · obtain ⟨hk, -⟩ := ruleOf_ok hu
      exact absurd (ht.symm.trans (hk.fault.trans hs)) (by decide)
    · cases ht
  · cases ht
  · cases ht

/-- Settles O13: an operation that faults ends in its `raise`; under a fault nothing runs but `SRST`, which
clears it. -/
theorem faultsArePrecise : Obligations.FaultsArePrecise := by
  refine ⟨fun i s t hs h ht => ?_, fun s t hinv hs h ht => ?_⟩
  · obtain ⟨f, n, hf, rfl⟩ := exec_faulted h hs ht
    exact ⟨f, n, hf, faultsWith_raise f n s⟩
  · obtain ⟨-, -, -, -, hfaulted, -⟩ := hinv
    rcases step_faultRecord h with hsame | ⟨rest, -, rfl⟩ | ⟨w, hw, hrun⟩
    · exact ⟨hsame.fcode, hsame.finfo, hsame.fcmd⟩
    · cases ht
    · obtain rfl : w = srstWord := by
        by_contra hne
        exact absurd (hs.symm.trans (fault_eq_false_of_inFlight hfaulted hw hne)) (by decide)
      rw [runWord_srstWord] at hrun
      cases hrun
      cases ht

/-- Settles O18: of the things a step does to the record of a fault, those after which none stands. -/
theorem faultClearedOnlyByReset : Obligations.FaultClearedOnlyByReset := by
  intro s t hs h ht
  rcases step_faultRecord h with hsame | ⟨rest, hp, rfl⟩ | ⟨w, hw, hrun⟩
  · exact absurd (ht.symm.trans (hsame.fault.trans hs)) (by decide)
  · exact .inr ⟨rest, hp, registersReset_hardReset _, rfl⟩
  · obtain ⟨rfl, rfl⟩ := runWord_clears_fault hrun hs ht
    exact .inl ⟨hw, registersReset_softReset s, comp_softReset s⟩

/-! Every operation ends. -/

/-- A rule that reads a component never written ends its operation in a refusal (rule R68; log entry 10). -/
theorem exec_uninit {i : Instr} {s : State} {b : Buf} (hi : i ≠ .srst) (h : ruleOf i s = .uninit b) :
    exec i s = .refused (.uninitialised b) := by
  rw [exec_eq_finish s hi, h, finish_uninit]

/-- Settles O21: a rule comes to a result, to a fault, or to the read of a component never written. -/
theorem operationsEndUnlessUnwritten : Obligations.OperationsEndUnlessUnwritten := by
  rintro i s ⟨hbuf, -⟩
  by_cases hi : i = .srst
  · subst hi
    exact .inl ⟨_, exec_srst s⟩
  · cases hr : ruleOf i s with
    | ok u => exact .inl ⟨_, exec_ok hi hr⟩
    | raise f n => exact .inl ⟨_, exec_raise hi hr⟩
    | uninit b =>
      obtain ⟨hb, hunwritten⟩ := ruleOf_uninit hbuf hr
      exact .inr ⟨b, hb, exec_uninit hi hr, hunwritten⟩

end Sys2Proof.Machine

/-!
PROOF. The mapper (`47_mapper.md`): its character codes and its lookups over all reals, their faults, and
the round trips.
-/

namespace Sys2Proof.Machine

/-! The end of a mapping. -/

theorem setConds_empty (s : State) : setConds {} s = s := by
  simp [setConds]

/-- An operation that writes one destination and raises the flags of `c` changes nothing else (rules R12,
R261). -/
theorem completesPlain_writeCx (c : Conds) (s : State) (d : Buf) (zs : List Cx) :
    CompletesPlain c [d] s (complete (setConds c (s.writeCx d zs))) :=
  ⟨completesWith_complete ((keeps_writeCx s d zs).trans (keeps_setConds c _)) rfl fun n hn =>
    buf_writeCx_ne s zs (by simpa using hn), rfl, rfl⟩

/-- The same without a flag, for a real sequence. -/
theorem completesPlain_writeReal (s : State) (d : Buf) (xs : List Scalar) :
    CompletesPlain {} [d] s (complete (s.writeReal d xs)) := by
  have h := completesPlain_writeCx {} s d (xs.map Cx.ofReal)
  rwa [setConds_empty] at h

/-- A run of components from the first on that holds `xs`. -/
theorem prefixOf_eq_of_comp {s : State} {b : Buf} {ax : Axis} {xs : List Scalar} (hb : s.BuffersSound)
    (h : ∀ j x, xs[j]? = some x → s.comp b j ax = some x) : s.prefixOf b ax 0 xs.length = xs :=
  prefixOf_eq (hb b).1 fun j x hx => by rw [Nat.zero_add]; exact h j x hx

/-! Character codes. -/

/-- The real is a character code (rule R221). -/
def IsCode (x : Scalar) : Prop := ∃ c : ℕ, c ≤ 255 ∧ x.val = c

theorem charCode_of_val {x : Scalar} {c : ℕ} (hc : c ≤ 255) (h : x.val = c) : charCode? x = some c :=
  charCode_nat (Scalar.toInt?_iff.mpr (by simpa using h)) hc

/-- Character codes at the front have their levels, and the rest is examined on from there (rule R222). -/
theorem ltr2pamFrom_append {xs : List Scalar} (h : ∀ x ∈ xs, IsCode x) :
    ∃ ls, ∀ (i : ℕ) (ys : List Scalar), ltr2pamFrom i (xs ++ ys) =
      (ltr2pamFrom (i + xs.length) ys).bind fun rest => .ok (ls ++ rest) := by
  induction xs with
  | nil =>
    refine ⟨[], fun i ys => ?_⟩
    cases hr : ltr2pamFrom i ys <;> simp [hr]
  | cons x xs ih =>
    obtain ⟨ls, hls⟩ := ih fun y hy => h y (List.mem_cons_of_mem x hy)
    obtain ⟨c, hc, hx⟩ := h x List.mem_cons_self
    refine ⟨levelsOf c ++ ls, fun i ys => ?_⟩
    rw [List.cons_append, ltr2pamFrom, charCode_of_val hc hx, hls (i + 1) ys, List.length_cons,
      show i + (xs.length + 1) = i + 1 + xs.length by omega]
    cases hr : ltr2pamFrom (i + 1 + xs.length) ys <;> simp

/-- A sequence of character codes has levels (rule R222). -/
theorem ltr2pamFrom_codes {xs : List Scalar} (h : ∀ x ∈ xs, IsCode x) : ∃ ls, ltr2pamFrom 0 xs = .ok ls := by
  obtain ⟨ls, hls⟩ := ltr2pamFrom_append h
  have hend := hls 0 []
  rw [List.append_nil, ltr2pamFrom, Res.bind_ok] at hend
  exact ⟨_, hend⟩

/-- The first element that is no character code raises `DOMAIN` with its index (rules R222, R268). -/
theorem ltr2pamFrom_domain {xs : List Scalar} {x : Scalar} (zs : List Scalar) (h : ∀ y ∈ xs, IsCode y)
    (hx : ∀ c : ℕ, c ≤ 255 → x.val ≠ c) : ltr2pamFrom 0 (xs ++ x :: zs) = .raise .domain xs.length := by
  obtain ⟨ls, hls⟩ := ltr2pamFrom_append h
  rw [hls, Nat.zero_add, ltr2pamFrom, charCode_eq_none hx, Res.bind_raise]

/-- Where the result fits, `LTR2PAM` examines what is written of its source (rule R222). -/
theorem ltr2pamRule_eq {s : State} (d : Buf) {b : Buf} (hcap : 4 * s.bufLen b ≤ s.bufCap) :
    ltr2pamRule d b s = (ltr2pamFrom 0 (s.prefixOf b .re 0 (s.bufLen b))).bind fun levels =>
      (allOf b (s.bufLen b) (s.prefixOf b .re 0 (s.bufLen b))).bind fun _ => .ok (s.writeReal d levels) := by
  rw [ltr2pamRule, decide_eq_true hcap]
  rfl

/-- Reals that are naturals are the integers that the test of rule R221 takes them for. -/
theorem map_toInt?_of_val {xs : List Scalar} {cs : List ℕ}
    (h : xs.map Scalar.val = cs.map fun c : ℕ => (c : ℝ)) :
    xs.map Scalar.toInt? = cs.map fun c : ℕ => some (c : ℤ) := by
  induction xs generalizing cs with
  | nil => cases cs <;> simp_all
  | cons x xs ih =>
    cases cs with
    | nil => simp at h
    | cons c cs =>
      simp only [List.map_cons, List.cons.injEq] at h ⊢
      obtain ⟨hx, hxs⟩ := h
      exact ⟨Scalar.toInt?_iff.mpr (by simpa using hx), ih hxs⟩

/-- Each character code has four levels (rule R221). -/
theorem length_flatMap_specLevels (cs : List ℕ) : (cs.flatMap specLevels).length = 4 * cs.length := by
  simp [List.length_flatMap, specLevels, mul_comm]

/-- Settles O55: all the source is character codes, whose levels fit in the destination. -/
theorem ltr2pamCompletes : Obligations.Ltr2pamCompletes := by
  rintro s d0 s0 xs cs ⟨hbuf, -⟩ ⟨hlen, hx⟩ hval hcs hcap
  have hread : s.prefixOf s0 .re 0 (s.bufLen s0) = xs := by rw [hlen, prefixOf_eq_of_comp hbuf hx]
  have hrule : ltr2pamRule d0 s0 s = .ok (s.writeReal d0 ((cs.flatMap specLevels).map Scalar.rat)) := by
    rw [ltr2pamRule_eq d0 (hlen ▸ hcap), hread, ltr2pamFrom_eq 0 xs cs (map_toInt?_of_val hval) hcs,
      allOf_eq_ok.mpr ⟨hlen.symm, rfl⟩]
    rfl
  have hcount : xs.length = cs.length := by simpa using congrArg List.length hval
  exact ⟨_, exec_ok (by simp) hrule, completesPlain_writeReal .., HoldsCx.congr (holdsReal_writeReal s d0 _
    (by rwa [List.length_map, length_flatMap_specLevels, ← hcount])) rfl⟩

/-! PAM levels. -/

/-- The real is a PAM level (rule R223). -/
def IsLevel (x : Scalar) : Prop := ∃ l ∈ ([-3, -1, 1, 3] : List ℤ), x.val = l

theorem digitOf_of_level {x : Scalar} (h : IsLevel x) : ∃ d, digitOf x = some d := by
  obtain ⟨l, hl, hx⟩ := h
  exact Option.ne_none_iff_exists'.mp fun hn => digitOf_eq_none.mp hn l hl hx

/-- Levels at the front are passed over by the search for one that is none (rule R224). -/
theorem badLevelFrom_append (i : ℕ) {xs : List Scalar} (ys : List Scalar) (h : ∀ x ∈ xs, IsLevel x) :
    badLevelFrom i (xs ++ ys) = badLevelFrom (i + xs.length) ys := by
  induction xs generalizing i with
  | nil => rfl
  | cons x xs ih =>
    obtain ⟨d, hd⟩ := digitOf_of_level (h x List.mem_cons_self)
    simp only [List.cons_append, badLevelFrom, hd, ih (i + 1) fun y hy => h y (List.mem_cons_of_mem x hy),
      List.length_cons, Nat.add_assoc, Nat.add_comm 1]

theorem badLevelFrom_levels {xs : List Scalar} (h : ∀ x ∈ xs, IsLevel x) : badLevelFrom 0 xs = none := by
  rw [← List.append_nil xs, badLevelFrom_append 0 [] h, badLevelFrom]

/-- The search finds the first element that is no level (rules R224, R268). -/
theorem badLevelFrom_domain {xs : List Scalar} {x : Scalar} (zs : List Scalar) (h : ∀ y ∈ xs, IsLevel y)
    (hx : ∀ l ∈ ([-3, -1, 1, 3] : List ℤ), x.val ≠ l) : badLevelFrom 0 (xs ++ x :: zs) = some xs.length := by
  rw [badLevelFrom_append 0 _ h, badLevelFrom, digitOf_eq_none.mpr hx, Nat.zero_add]

/-- What `PAM2LTR` examines of its source: what is written of its full groups (rule R224). -/
def fullGroups (s : State) (b : Buf) : List Scalar := s.prefixOf b .re 0 (4 * (s.bufLen b / 4))

/-- A bad level among the full groups ends `PAM2LTR` in `DOMAIN` (rule R224). -/
theorem pam2ltrRule_bad {s : State} (d : Buf) {b : Buf} {i : ℕ}
    (h : badLevelFrom 0 (fullGroups s b) = some i) : pam2ltrRule d b s = .raise .domain i := by
  rw [fullGroups] at h
  simp only [pam2ltrRule, h, Res.bind_raise]

/-- Without one the full groups are read whole and mapped (rule R224). -/
theorem pam2ltrRule_good {s : State} (d : Buf) {b : Buf} (h : badLevelFrom 0 (fullGroups s b) = none) :
    pam2ltrRule d b s = (allOf b (4 * (s.bufLen b / 4)) (fullGroups s b)).bind fun _ =>
      (pam2ltrFrom 0 (fullGroups s b)).bind fun codes => .ok (s.writeReal d codes) := by
  rw [fullGroups] at h ⊢
  simp only [pam2ltrRule, h, Res.bind_ok]

/-- One of the four rational levels is one of the four integer ones. -/
theorem isLevel_rat {q : ℚ} (h : q ∈ ([-3, -1, 1, 3] : List ℚ)) : IsLevel (.rat q) := by
  simp only [List.mem_cons, List.not_mem_nil, or_false] at h
  rcases h with rfl | rfl | rfl | rfl
  · exact ⟨-3, by simp⟩
  · exact ⟨-1, by simp⟩
  · exact ⟨1, by simp⟩
  · exact ⟨3, by simp⟩

/-- Settles O56: the full groups are all that the operation reads, and all of it is levels. -/
theorem pam2ltrCompletes : Obligations.Pam2ltrCompletes := by
  rintro s d0 s0 ls ⟨hbuf, -⟩ hlen hlevels hcomp
  have hread : fullGroups s s0 = ls.map Scalar.rat := by
    have h := prefixOf_eq_of_comp (xs := ls.map Scalar.rat) (ax := .re) hbuf fun j x hx => by
      rw [List.getElem?_map, Option.map_eq_some_iff] at hx
      obtain ⟨l, hl, rfl⟩ := hx
      exact hcomp j l hl
    rwa [List.length_map, hlen] at h
  have hgood : badLevelFrom 0 (fullGroups s s0) = none := by
    rw [hread]
    refine badLevelFrom_levels fun x hx => ?_
    obtain ⟨l, hl, rfl⟩ := List.mem_map.mp hx
    exact isLevel_rat (hlevels l hl)
  have hrule : pam2ltrRule d0 s0 s = .ok (s.writeReal d0 ((specCodes ls).map Scalar.rat)) := by
    rw [pam2ltrRule_good d0 hgood, hread, allOf_eq_ok.mpr ⟨by rw [List.length_map, hlen], rfl⟩,
      pam2ltrFrom_eq 0 ls hlevels]
    rfl
  have hcodes : ((specCodes ls).map Scalar.rat).length = s.bufLen s0 / 4 := by
    simp [specCodes, hlen]
  have hholds := holdsReal_writeReal s d0 ((specCodes ls).map Scalar.rat)
    (hcodes.trans_le ((Nat.div_le_self _ 4).trans (hbuf s0).2))
  exact ⟨_, exec_ok (by simp) hrule, completesPlain_writeReal .., hholds.1.trans (by simpa using hcodes),
    HoldsCx.congr hholds rfl⟩

/-- Settles O34: what is written before the bad element has an image, and the read goes that far. -/
theorem characterDomainTraps : Obligations.CharacterDomainTraps := by
  constructor
  · rintro s d b xs x ⟨hbuf, -⟩ hlt hcap hxs hx hbad
    obtain ⟨zs, hread⟩ := prefixOf_split (hbuf b).1 hlt (fun j y hy => (hxs j y hy).1) hx
    have hcodes : ∀ y ∈ xs, IsCode y := fun y hy => by
      obtain ⟨j, hj⟩ := List.mem_iff_getElem?.mp hy
      exact (hxs j y hj).2
    have hrule : ltr2pamRule d b s = .raise .domain xs.length := by
      rw [ltr2pamRule_eq d hcap, hread, ltr2pamFrom_domain zs hcodes hbad, Res.bind_raise]
    exact ⟨_, exec_raise (by simp) hrule, faultsWith_raise ..⟩
  · rintro s d b ls x ⟨hbuf, -⟩ hlt hls hx hbad
    obtain ⟨zs, hread⟩ := prefixOf_split (hbuf b).1 hlt (fun j y hy => (hls j y hy).1) hx
    have hlevels : ∀ y ∈ ls, IsLevel y := fun y hy => by
      obtain ⟨j, hj⟩ := List.mem_iff_getElem?.mp hy
      exact (hls j y hj).2
    have hrule : pam2ltrRule d b s = .raise .domain ls.length :=
      pam2ltrRule_bad d (by rw [fullGroups, hread, badLevelFrom_domain zs hlevels hbad])
    exact ⟨_, exec_raise (by simp) hrule, faultsWith_raise ..⟩

/-! The modulations. -/

/-- The value of `MOD` that selects a modulation (rule R34). -/
def Modulation.number : Modulation → ℕ
  | .qam4 => 0
  | .qam42 => 1
  | .pam4 => 2

theorem Modulation.number_ne_two {m : Modulation} : m.number ≠ 2 ↔ m ≠ .pam4 := by
  cases m <;> simp [Modulation.number]

/-- A value of `MOD` up to 2 selects the modulation of that number (rule R34). -/
theorem modulation_of_le {s : State} (h : s.cfg.modType.toNat ≤ 2) :
    ∃ m, modulation s = .ok m ∧ m.number = s.cfg.modType.toNat := by
  rcases modulationOf_cases h with ⟨hn, hm⟩ | ⟨hn, hm⟩ | ⟨hn, hm⟩
  · exact ⟨.qam4, by rw [modulation, hm], hn.symm⟩
  · exact ⟨.qam42, by rw [modulation, hm], hn.symm⟩
  · exact ⟨.pam4, by rw [modulation, hm], hn.symm⟩

/-! Levels to symbols. -/

/-- The point of a level that is rational (rules R225, R227, R229). -/
theorem pam2symOne_out_of_rat (m : Modulation) {p : Scalar} {q : ℚ} (h : p.val = q) :
    (pam2symOne m p).out = ratCx (specPoint m.number q) := by
  have hq : pam2symOne m p = pam2symOne m (.rat q) := by
    rw [pam2symOne, digitOf_congr (x := p) (y := .rat q) h, pam2symOne]
  rw [hq]
  cases m with
  | qam4 => exact pam2symOne_qam4 q
  | qam42 => exact pam2symOne_qam42 q
  | pam4 => exact pam2symOne_pam4 q

/-- A level goes to the catch-all exactly where it is none of the four (rule R233). -/
theorem pam2symOne_unrec_iff {m : Modulation} {p : Scalar} :
    (pam2symOne m p).unrec = true ↔ ∀ l ∈ ([-3, -1, 1, 3] : List ℤ), p.val ≠ l := by
  rw [← digitOf_eq_none, pam2symOne]
  cases digitOf p <;> simp

/-- The catch-all's point is that of the level 3 (rules R225, R227, R229, R233). -/
theorem pam2symOne_out_of_irrational (m : Modulation) {p : Scalar} (h : ∀ q : ℚ, p.val ≠ q) :
    (pam2symOne m p).out = ratCx (specPoint m.number 3) := by
  have hnone : digitOf p = none := digitOf_eq_none.mpr fun l _ => by simpa using h l
  have hlast : digitOf (.rat 3) = some 3 := by norm_num [digitOf_rat]
  calc (pam2symOne m p).out = pointOf m 3 := by rw [pam2symOne, hnone]
    _ = (pam2symOne m (.rat 3)).out := by rw [pam2symOne, hlast]
    _ = _ := pam2symOne_out_of_rat m rfl

/-- The result of a mapping of the levels that the source holds (rules R225, R227, R229). -/
theorem mapToSymbols_eq {s : State} {m : Modulation} (d : Buf) {b : Buf} {ps : List Scalar}
    (hb : s.BuffersSound) (hp : s.HoldsAxis b .re ps) :
    mapToSymbols m d b s = .ok (setConds { unrec := anyUnrec (pam2symSeq m ps) }
      (s.writeCx d ((pam2symSeq m ps).map Looked.out))) := by
  rw [mapToSymbols, State.srcRe, (srcAxis_eq_ok (hb b).1).mpr hp, Res.bind_ok]

/-- The three operations map in the modulation that they name or that `MOD` selects (rules R225, R227,
R231). -/
theorem ruleOf_levelsToSymbols {s : State} {d b : Buf} {i : Instr} {n : ℕ}
    (h : (i = .pam2qam d b ∧ n = 0) ∨ (i = .pam2q42 d b ∧ n = 1) ∨
      (i = .pam2sym d b ∧ n = s.cfg.modType.toNat ∧ n ≤ 2)) :
    ∃ m : Modulation, m.number = n ∧ i ≠ .srst ∧ ruleOf i s = mapToSymbols m d b s := by
  rcases h with ⟨rfl, rfl⟩ | ⟨rfl, rfl⟩ | ⟨rfl, rfl, hle⟩
  · exact ⟨.qam4, rfl, by simp, rfl⟩
  · exact ⟨.qam42, rfl, by simp, rfl⟩
  · obtain ⟨m, hm, hn⟩ := modulation_of_le hle
    exact ⟨m, hn, by simp, by rw [ruleOf, hm, Res.bind_ok]⟩

/-- Settles O57, level by level. -/
theorem levelsToSymbols : Obligations.LevelsToSymbols := by
  rintro s d0 s0 i n ps ⟨hbuf, -⟩ hi hp
  obtain ⟨m, rfl, hne, hrule⟩ := ruleOf_levelsToSymbols hi
  set zs := (pam2symSeq m ps).map Looked.out with hzs
  have hlen : zs.length = ps.length := by simp [hzs, pam2symSeq]
  have hholds : (s.writeCx d0 zs).HoldsCx d0 zs :=
    holdsCx_writeCx s d0 zs (hlen.trans_le (hp.1 ▸ (hbuf s0).2))
  refine ⟨_, zs, anyUnrec (pam2symSeq m ps), exec_ok hne (hrule.trans (mapToSymbols_eq d0 hbuf hp)),
    completesPlain_writeCx .., HoldsCx.congr hholds rfl, hlen, fun k p z hpk hzk => ?_, ?_⟩
  · obtain rfl : (pam2symOne m p).out = z := by simpa [hzs, pam2symSeq, hpk] using hzk
    exact ⟨fun q => pam2symOne_out_of_rat m, pam2symOne_out_of_irrational m⟩
  · simp [anyUnrec, pam2symSeq, pam2symOne_unrec_iff]

/-! Symbols to levels. -/

/-- The level of a symbol that is rational where the modulation looks (rules R226, R228, R230, R233). -/
theorem sym2pamOne_of_rat {m : Modulation} {z : Cx} {q : ℚ × ℚ} (hre : z.re.val = q.1)
    (him : m.number ≠ 2 → z.im.val = q.2) :
    (sym2pamOne m z).out = .rat (specLevel m.number q) ∧
      ((sym2pamOne m z).unrec = true ↔ ¬ specKnown m.number q) := by
  rw [sym2pamOne_congr (w := ratCx q) hre fun hm => him (Modulation.number_ne_two.mpr hm)]
  cases m with
  | qam4 => exact sym2pamOne_complex (.inl ⟨rfl, rfl⟩) q
  | qam42 => exact sym2pamOne_complex (.inr ⟨rfl, rfl⟩) q
  | pam4 => exact sym2pamOne_real q.1 _ q.2

/-- A symbol goes to the catch-all exactly where it is none of the four points (rule R233). -/
theorem sym2pamOne_unrec_iff {m : Modulation} {z : Cx} :
    (sym2pamOne m z).unrec = true ↔
      ∀ q : ℚ × ℚ, z.re.val = q.1 → (m.number ≠ 2 → z.im.val = q.2) → ¬ specKnown m.number q := by
  constructor
  · intro hu q hre him
    obtain ⟨-, hiff⟩ := sym2pamOne_of_rat hre him
    exact hiff.mp hu
  · intro hq
    by_cases hrat : ∃ q : ℚ × ℚ, z.re.val = q.1 ∧ (m.number ≠ 2 → z.im.val = q.2)
    · obtain ⟨q, hre, him⟩ := hrat
      obtain ⟨-, hiff⟩ := sym2pamOne_of_rat hre him
      exact hiff.mpr (hq q hre him)
    · rw [sym2pamOne_irrational fun q hre him =>
        hrat ⟨q, hre, fun hn => him (Modulation.number_ne_two.mp hn)⟩]

/-- A symbol that is not rational where the modulation looks goes to the level 3 (rule R233). -/
theorem sym2pamOne_out_of_irrational {m : Modulation} {z : Cx}
    (hcomplex : ∀ q : ℚ × ℚ, z.re.val = q.1 → m.number ≠ 2 → z.im.val ≠ q.2)
    (hreal : m.number = 2 → ∀ q : ℚ, z.re.val ≠ q) : (sym2pamOne m z).out = .rat 3 := by
  rw [sym2pamOne_irrational fun q hre him => ?_]
  by_cases hn : m.number = 2
  · exact hreal hn q.1 hre
  · exact hcomplex q hre hn (him (Modulation.number_ne_two.mp hn))

/-- A buffer that holds both components of a sequence holds it. -/
theorem holdsCx_of_axes {s : State} {b : Buf} {zs : List Cx} (hre : s.HoldsAxis b .re (zs.map Cx.re))
    (him : s.HoldsAxis b .im (zs.map Cx.im)) : s.HoldsCx b zs :=
  ⟨by simpa using hre.1, fun i z hz => ⟨hre.2 i _ (by simp [hz]), him.2 i _ (by simp [hz])⟩⟩

/-- The lookup of a symbol source, from the components that the modulation looks at (rule R230). -/
theorem srcSymbols_lookup {s : State} {m : Modulation} {b : Buf} {zs : List Cx} (hb : s.BuffersSound)
    (hre : s.HoldsAxis b .re (zs.map Cx.re)) (him : m.number ≠ 2 → s.HoldsAxis b .im (zs.map Cx.im)) :
    ∃ ws, srcSymbols m b s = .ok ws ∧ sym2pamSeq m ws = sym2pamSeq m zs := by
  cases m with
  | pam4 =>
    refine ⟨(zs.map Cx.re).map Cx.ofReal, ?_, ?_⟩
    · rw [srcSymbols, State.srcRe, (srcAxis_eq_ok (hb b).1).mpr hre, Res.bind_ok]
    · simp only [sym2pamSeq, List.map_map]
      exact List.map_congr_left fun z _ => sym2pamOne_congr rfl (absurd rfl)
  | qam4 | qam42 => exact ⟨zs, (srcCx_eq_ok (hb b).1).mpr (holdsCx_of_axes hre (him (by decide))), rfl⟩

/-- The result of a mapping of the symbols that the source holds where the modulation looks (rules R226,
R228, R230). -/
theorem mapToLevels_eq {s : State} {m : Modulation} (d : Buf) {b : Buf} {zs : List Cx}
    (hb : s.BuffersSound) (hre : s.HoldsAxis b .re (zs.map Cx.re))
    (him : m.number ≠ 2 → s.HoldsAxis b .im (zs.map Cx.im)) :
    mapToLevels m d b s = .ok (setConds { unrec := anyUnrec (sym2pamSeq m zs) }
      (s.writeReal d ((sym2pamSeq m zs).map Looked.out))) := by
  obtain ⟨ws, hws, hlook⟩ := srcSymbols_lookup hb hre him
  rw [mapToLevels, hws, Res.bind_ok, hlook]

/-- The three operations map in the modulation that they name or that `MOD` selects (rules R226, R228,
R232). -/
theorem ruleOf_symbolsToLevels {s : State} {d b : Buf} {i : Instr} {n : ℕ}
    (h : (i = .qam2pam d b ∧ n = 0) ∨ (i = .q422pam d b ∧ n = 1) ∨
      (i = .sym2pam d b ∧ n = s.cfg.modType.toNat ∧ n ≤ 2)) :
    ∃ m : Modulation, m.number = n ∧ i ≠ .srst ∧ ruleOf i s = mapToLevels m d b s := by
  rcases h with ⟨rfl, rfl⟩ | ⟨rfl, rfl⟩ | ⟨rfl, rfl, hle⟩
  · exact ⟨.qam4, rfl, by simp, rfl⟩
  · exact ⟨.qam42, rfl, by simp, rfl⟩
  · obtain ⟨m, hm, hn⟩ := modulation_of_le hle
    exact ⟨m, hn, by simp, by rw [ruleOf, hm, Res.bind_ok]⟩

/-- Settles O58, symbol by symbol. -/
theorem symbolsToLevels : Obligations.SymbolsToLevels := by
  rintro s d0 s0 i n zs ⟨hbuf, -⟩ hi hre him
  obtain ⟨m, rfl, hne, hrule⟩ := ruleOf_symbolsToLevels hi
  set ls := (sym2pamSeq m zs).map Looked.out with hls
  have hlen : ls.length = zs.length := by simp [hls, sym2pamSeq]
  have hsrc : s.bufLen s0 = zs.length := by simpa using hre.1
  have hholds : (s.writeReal d0 ls).HoldsReal d0 ls :=
    holdsReal_writeReal s d0 ls (hlen.trans_le (hsrc ▸ (hbuf s0).2))
  refine ⟨_, ls, anyUnrec (sym2pamSeq m zs), exec_ok hne (hrule.trans (mapToLevels_eq d0 hbuf hre him)),
    completesPlain_writeCx .., HoldsCx.congr hholds rfl, hlen, fun k z l hzk hlk => ?_, ?_⟩
  · obtain rfl : (sym2pamOne m z).out = l := by simpa [hls, sym2pamSeq, hzk] using hlk
    exact ⟨fun q hr hi => (sym2pamOne_of_rat hr hi).1, sym2pamOne_out_of_irrational⟩
  · simp only [anyUnrec, sym2pamSeq, List.any_map, List.any_eq_true, Function.comp_apply,
      sym2pamOne_unrec_iff]

/-! Round trips. -/

/-- The point of a level is recognised as that level's (rule R234). -/
theorem specLevel_specPoint {n : ℕ} {p : ℚ} (hn : n ≤ 2) (hp : p ∈ ([-3, -1, 1, 3] : List ℚ)) :
    specLevel n (specPoint n p) = p ∧ specKnown n (specPoint n p) := by
  simp only [List.mem_cons, List.not_mem_nil, or_false] at hp
  interval_cases n <;> rcases hp with rfl | rfl | rfl | rfl <;> norm_num [specLevel, specPoint, specKnown]

/-- A level comes back from its symbol, and neither lookup goes to the catch-all (rule R234). -/
theorem sym2pam_pam2sym (m : Modulation) {p : ℚ} (hp : p ∈ ([-3, -1, 1, 3] : List ℚ)) :
    (pam2symOne m (.rat p)).unrec = false ∧ sym2pamOne m (pam2symOne m (.rat p)).out = ⟨.rat p, false⟩ := by
  have hle : m.number ≤ 2 := by cases m <;> decide
  obtain ⟨hlevel, hknown⟩ := specLevel_specPoint hle hp
  have hpoint : (pam2symOne m (.rat p)).out = ratCx (specPoint m.number p) := pam2symOne_out_of_rat m rfl
  obtain ⟨hout, hunrec⟩ := sym2pamOne_of_rat (m := m) (z := ratCx (specPoint m.number p)) rfl fun _ => rfl
  constructor
  · rw [← Bool.not_eq_true, pam2symOne_unrec]
    exact not_not_intro hp
  · rw [hlevel] at hout
    have hfound : (sym2pamOne m (ratCx (specPoint m.number p))).unrec = false := by
      rw [← Bool.not_eq_true, hunrec]
      exact not_not_intro hknown
    rw [hpoint, ← hout, ← hfound]

/-- Settles O59: both directions are those of the codes and levels that the spec lists. -/
theorem mapperRoundTrip : Obligations.MapperRoundTrip := by
  refine ⟨fun cs hcs => ⟨_, ltr2pamFrom_eq 0 _ cs (by simp [Function.comp_def]) hcs, ?_⟩,
    fun m p => sym2pam_pam2sym m, fun ls hls hlen => ?_⟩
  · have hlevels : ∀ l ∈ cs.flatMap specLevels, l ∈ ([-3, -1, 1, 3] : List ℚ) := fun l hl => by
      obtain ⟨c, -, hc⟩ := List.mem_flatMap.mp hl
      exact specLevels_mem c l hc
    rw [pam2ltrFrom_eq 0 _ hlevels, specCodes_flatMap cs hcs, List.map_map]
    rfl
  · obtain ⟨cs, hcs, rfl⟩ := exists_codes ls hls hlen
    refine ⟨_, pam2ltrFrom_eq 0 _ hls, ltr2pamFrom_eq 0 _ cs ?_ hcs⟩
    rw [specCodes_flatMap cs hcs, List.map_map, List.map_map]
    exact List.map_congr_left fun c _ => toInt?_ofNat c

end Sys2Proof.Machine

/-!
PROOF. The faults that an operation's own tests raise (`60_exceptions.md`): `CONFIG`, `EMPTY` and
`OVERFLOW`.
-/

namespace Sys2Proof.Machine

/-! `CONFIG`: each test fails on registers outside its legal set (rule R264). -/

theorem pulseConfigLegal_of_illegal {c : Cfg} (h : c.p = 0#32 ∨ c.beta.val < 0 ∨ 1 < c.beta.val) :
    pulseConfigLegal c = false := by
  rw [← Bool.not_eq_true]
  simp only [pulseConfigLegal, Bool.and_eq_true, decide_eq_true_eq, Scalar.le_iff, Scalar.val_zero,
    Scalar.val_one]
  rintro ⟨⟨hp, hlo⟩, hhi⟩
  rcases h with h | h | h
  · exact hp h
  · exact hlo.not_gt h
  · exact hhi.not_gt h

theorem zero_lt_of_not_pos {x : Scalar} (h : x.val ≤ 0) : Scalar.zero.lt x = false := by
  rw [← Bool.not_eq_true, Scalar.lt_iff, Scalar.val_zero]
  exact h.not_gt

theorem alphabet_of_illegal {a b : Scalar} (h : a.val ≤ 0 ∨ b.val < a.val) :
    (Scalar.zero.lt a && a.le b) = false := by
  rw [← Bool.not_eq_true, Bool.and_eq_true, Scalar.lt_iff, Scalar.le_iff, Scalar.val_zero]
  rintro ⟨hpos, hle⟩
  rcases h with h | h
  · exact h.not_gt hpos
  · exact hle.not_gt h

theorem selectedCode_of_illegal {s : State} (h : s.cfg.hdr ≠ 7#32 ∧ s.cfg.hdr ≠ 11#32 ∧ s.cfg.hdr ≠ 13#32) :
    selectedCode s = .raise .config 0 := by
  obtain ⟨h7, h11, h13⟩ := h
  have hnone : barkerCode s.cfg.hdr = none :=
    (barkerCode_cases s.cfg.hdr).resolve_left (by simp [h7, h11, h13])
  rw [selectedCode, hnone]

theorem modulation_of_reserved {s : State} (h : 3 ≤ s.cfg.modType.toNat) :
    modulation s = .raise .config 0 := by
  rw [modulation, modulationOf_reserved h]

/-- The test of `HDR` answers a code or raises `CONFIG` (rules R191, R264). -/
theorem selectedCode_cases (s : State) :
    (∃ c, selectedCode s = .ok c) ∨ selectedCode s = .raise .config 0 := by
  unfold selectedCode
  split
  · exact .inl ⟨_, rfl⟩
  · exact .inr rfl

/-- The test of `MOD` answers a modulation or raises `CONFIG` (rules R34, R264). -/
theorem modulation_cases (s : State) : (∃ m, modulation s = .ok m) ∨ modulation s = .raise .config 0 := by
  unfold modulation
  split
  · exact .inl ⟨_, rfl⟩
  · exact .inr rfl

/-! `CONFIG`: the operations that make a test raise what it does. -/

theorem ruleOf_of_illegal_pulse {i : Instr} {s : State} (hi : i.opcode ∈ [.SRRC, .INTERP, .TREC])
    (h : pulseConfigLegal s.cfg = false) : ruleOf i s = .raise .config 0 := by
  cases i with
  | srrc d0 => rw [ruleOf, srrcRule, h, require_false, Res.bind_raise]
  | interp ax s0 => rw [ruleOf, interpRule, h, require_false, Res.bind_raise]
  | trec ax d0 d1 s0 => rw [ruleOf, trecRule, h, require_false, Res.bind_raise]
  | _ => simp [Instr.opcode] at hi

theorem ruleOf_of_illegal_rate {i : Instr} {s : State} (hi : i.opcode ∈ [.FEST, .COSTAS])
    (h : Scalar.zero.lt s.cfg.fs = false) : ruleOf i s = .raise .config 0 := by
  cases i with
  | fest s0 => rw [ruleOf, festRule, h, require_false, Res.bind_raise]
  | costas d0 d1 d2 s0 s1 => rw [ruleOf, costasRule, h, require_false, Res.bind_raise]
  | _ => simp [Instr.opcode] at hi

theorem ruleOf_of_illegal_alphabet {i : Instr} {s : State} (hi : i.opcode = .QUANT)
    (h : (Scalar.zero.lt s.cfg.amin && s.cfg.amin.le s.cfg.amax) = false) :
    ruleOf i s = .raise .config 0 := by
  cases i with
  | quant d0 s0 => rw [ruleOf, quantRule, h, require_false, Res.bind_raise]
  | _ => simp [Instr.opcode] at hi

theorem ruleOf_of_illegal_code {i : Instr} {s : State} (hi : i.opcode ∈ [.BARKER, .XCORR, .FEXT])
    (h : selectedCode s = .raise .config 0) : ruleOf i s = .raise .config 0 := by
  cases i with
  | barker d0 => rw [ruleOf, barkerRule, h, Res.bind_raise]
  | xcorr d0 d1 s0 => rw [ruleOf, xcorrRule, h, Res.bind_raise]
  | fext d0 s0 s1 s2 => rw [ruleOf, fextRule, h, Res.bind_raise]
  | _ => simp [Instr.opcode] at hi

/-- `HDR` is looked at before `MOD`: where it is illegal too the fault is the same. -/
theorem ruleOf_of_illegal_modulation {i : Instr} {s : State}
    (hi : i.opcode ∈ [.BARKER, .XCORR, .FEXT, .PAM2SYM, .SYM2PAM])
    (h : modulation s = .raise .config 0) : ruleOf i s = .raise .config 0 := by
  have afterCode {f : List Int → Modulation → Res State} :
      ((selectedCode s).bind fun c => (modulation s).bind (f c)) = .raise .config 0 := by
    rcases selectedCode_cases s with ⟨c, hc⟩ | hc
    · rw [hc, Res.bind_ok, h, Res.bind_raise]
    · rw [hc, Res.bind_raise]
  cases i with
  | barker d0 => exact afterCode
  | xcorr d0 d1 s0 => exact afterCode
  | fext d0 s0 s1 s2 => exact afterCode
  | pam2sym d0 s0 => rw [ruleOf, h, Res.bind_raise]
  | sym2pam d0 s0 => rw [ruleOf, h, Res.bind_raise]
  | _ => simp [Instr.opcode] at hi

/-- `HDR` and `MOD` are looked at before `HITCAP`: where one is illegal too the fault is the same. -/
theorem ruleOf_of_illegal_hitcap {i : Instr} {s : State} (hi : i.opcode = .XCORR)
    (h : s.bufCap < s.hitcapNat) : ruleOf i s = .raise .config 0 := by
  obtain ⟨d0, d1, s0, rfl⟩ := xcorr_of_opcode hi
  rcases selectedCode_cases s with ⟨c, hc⟩ | hc
  · rcases modulation_cases s with ⟨m, hm⟩ | hm
    · rw [ruleOf, xcorrRule, hc, Res.bind_ok, hm, Res.bind_ok, decide_eq_false h.not_ge, require_false,
        Res.bind_raise]
    · exact ruleOf_of_illegal_modulation (by simp [hi]) hm
  · exact ruleOf_of_illegal_code (by simp [hi]) hc

/-- Settles O31, test by test. -/
theorem configTraps : Obligations.ConfigTraps := by
  intro s i h
  have hne : i ≠ .srst := by
    rintro rfl
    simp [Instr.opcode] at h
  have hrule : ruleOf i s = .raise .config 0 := by
    rcases h with ⟨hi, h⟩ | ⟨hi, h⟩ | ⟨hi, h⟩ | ⟨hi, h⟩ | ⟨hi, h⟩ | ⟨hi, h⟩
    · exact ruleOf_of_illegal_pulse hi (pulseConfigLegal_of_illegal h)
    · exact ruleOf_of_illegal_rate hi (zero_lt_of_not_pos h)
    · exact ruleOf_of_illegal_alphabet hi (alphabet_of_illegal h)
    · exact ruleOf_of_illegal_code hi (selectedCode_of_illegal h)
    · exact ruleOf_of_illegal_modulation hi (modulation_of_reserved h)
    · exact ruleOf_of_illegal_hitcap hi h
  exact ⟨_, exec_raise hne hrule, faultsWith_raise ..⟩

/-! `EMPTY` (rule R266). -/

theorem festRule_of_empty {s : State} {b : Buf} (hfs : 0 < s.cfg.fs.val) (h : s.bufLen b = 0) :
    festRule b s = .raise .empty 0 := by
  rw [festRule, zero_lt_of_pos hfs, decide_eq_false (not_not_intro h)]
  rfl

theorem costasRule_of_empty {s : State} {b : Buf} (d0 d1 d2 s0 : Buf) (hfs : 0 < s.cfg.fs.val)
    (h : s.bufLen b = 0) : costasRule d0 d1 d2 s0 b s = .raise .empty 0 := by
  rw [costasRule, zero_lt_of_pos hfs, decide_eq_false (not_not_intro h)]
  rfl

theorem quantRule_of_empty {s : State} {b : Buf} (d : Buf) (hl : LegalAlphabet s.cfg.amin s.cfg.amax)
    (h : s.bufLen b = 0) : quantRule d b s = .raise .empty 0 := by
  rw [quantRule, alphabet_of_legal hl, decide_eq_false (not_not_intro h)]
  rfl

theorem xcorrRule_of_empty {s : State} {b : Buf} (d0 d1 : Buf) (hl : LegalFrame s.cfg)
    (hcap : s.hitcapNat ≤ s.bufCap) (h : s.bufLen b = 0) : xcorrRule d0 d1 b s = .raise .empty 0 := by
  obtain ⟨code, m, hsel⟩ := frameSelected_of_legal hl
  rw [xcorrRule, hsel.code_ok, Res.bind_ok, hsel.mod_ok, Res.bind_ok, decide_eq_true hcap,
    decide_eq_false (not_not_intro h)]
  rfl

/-! `OVERFLOW` (rule R267). -/

theorem srrcRule_of_overflow {s : State} (d : Buf) (hp : s.cfg.p ≠ 0#32) (hb : LegalBeta s.cfg.beta)
    (h : s.bufCap < 2 * s.lNat * s.pNat + 1) : srrcRule d s = .raise .overflow 0 := by
  rw [srrcRule, pulseConfigLegal_of_legal hp hb, decide_eq_false h.not_ge]
  rfl

theorem ltr2pamRule_of_overflow {s : State} {b : Buf} (d : Buf) (h : s.bufCap < 4 * s.bufLen b) :
    ltr2pamRule d b s = .raise .overflow 0 := by
  rw [ltr2pamRule, decide_eq_false h.not_ge]
  rfl

/-- A run of `TREC` whose records do not fit (rule R172). -/
theorem trecRule_of_overflow {s : State} {ax : Axis} (d0 d1 : Buf) {s0 : Buf} {st : TimingState}
    (hp : s.cfg.p ≠ 0#32) (hb : LegalBeta s.cfg.beta)
    (h : timingLoop s s0 ax (iterationCount s.cfg (s.bufLen s0)) (.initial s.cfg) = .ok st)
    (hcap : s.bufCap < st.n) : trecRule ax d0 d1 s0 s = .raise .overflow 0 := by
  rw [trecRule, pulseConfigLegal_of_legal hp hb, h, require_true, Res.bind_ok, Res.bind_ok,
    decide_eq_false hcap.not_ge]
  rfl

/-- Where every hit has symbols and the codes do not fit in a buffer, `FEXT` faults (rule R210). -/
theorem exec_fext_of_overflow {s : State} {code : List Int} {m : Modulation} {s0 s1 s2 : Buf}
    {zs : ℕ → List (ℚ × ℚ)} (d0 : Buf) (hsel : FrameSelected s code m) (hlen : s.bufLen s2 = s.bufLen s1)
    (hz : ∀ k < s.bufLen s1, hitSymbols m s (fextArgs s s0 s1 s2) k = .ok ((zs k).map ratCx))
    (hcap : s.bufCap < (hitCodes s.cfg.modType.toNat (s.bufLen s1) zs).length) :
    ∃ t, exec (.fext d0 s0 s1 s2) s = .next t ∧ FaultsWith .overflow 0 s t := by
  obtain ⟨unrec, hex, -⟩ := extractFrom_rat (fun _ z _ => hsel.demap z) (s.bufLen s1) 0
    fun k _ hk => hz k (by simpa using hk)
  rw [← List.range_eq_range', ← hitCodes] at hex
  have hrule : fextRule d0 s0 s1 s2 s = .raise .overflow 0 := by
    rw [fextRule_eq d0 s0 hsel hlen, hex, Res.bind_ok, decide_eq_false (by simpa using hcap),
      require_false, Res.bind_raise]
  exact ⟨_, exec_raise (by simp) hrule, faultsWith_raise ..⟩

/-- Settles O33: each test of a length, in the operation that makes it. -/
theorem emptyAndOverflowTraps : Obligations.EmptyAndOverflowTraps := by
  refine ⟨fun s b hfs h => ⟨?_, fun d0 d1 d2 s0 => ?_⟩, fun s d b hl h => ?_, fun s d0 d1 b hl hcap h => ?_,
    fun s d hp hb h => ?_, fun s d b h => ?_, ?_, ?_, ?_⟩
  · exact ⟨_, exec_raise (by simp) (festRule_of_empty hfs h), faultsWith_raise ..⟩
  · exact ⟨_, exec_raise (by simp) (costasRule_of_empty d0 d1 d2 s0 hfs h), faultsWith_raise ..⟩
  · exact ⟨_, exec_raise (by simp) (quantRule_of_empty d hl h), faultsWith_raise ..⟩
  · exact ⟨_, exec_raise (by simp) (xcorrRule_of_empty d0 d1 hl hcap h), faultsWith_raise ..⟩
  · exact ⟨_, exec_raise (by simp) (srrcRule_of_overflow d hp hb h), faultsWith_raise ..⟩
  · exact ⟨_, exec_raise (by simp) (ltr2pamRule_of_overflow d h), faultsWith_raise ..⟩
  · intro s ax d0 d1 s0 n tnow tau hp hb hn hcap h0 h1 hst
    rw [← iterationCount_eq] at hn
    have : Nonempty Scalar := ⟨.zero⟩
    choose! cur late early hst using hst
    obtain ⟨-, hrun⟩ := timingLoop_from (fuel := 0) h0 h1 hst fun i hi =>
      (lt_iterationCount hp).mp (hn ▸ hi)
    have hloop : timingLoop s s0 ax (iterationCount s.cfg (s.bufLen s0)) (.initial s.cfg) =
        .ok (timingAt tnow tau cur n) := hn ▸ hrun
    exact ⟨_, exec_raise (by simp) (trecRule_of_overflow d0 d1 hp hb hloop hcap), faultsWith_raise ..⟩
  · rintro s d0 s0 s1 s2 xr xi vr vi ir ii zs ⟨hbuf, -⟩ hlegal hm hv hxr hxi hir hii hvr hvi hl hz hcap
    have hhits : HoldsHits s s0 s1 s2 xr xi vr vi ir ii := ⟨hxr, hxi, hir, hii, hvr, hvi, hv⟩
    obtain rfl : zs = pairSymbols s xr xi vr vi ir ii := funext hz
    obtain ⟨code, m, hsel⟩ := frameSelected_of_legal hlegal
    exact exec_fext_of_overflow d0 hsel hhits.bufLen_value (fun k hk =>
      have hk' : k < ir.length := hhits.bufLen_index ▸ hk
      hhits.symbols_of_length_eq (hsel.ne_pam4 hm) hbuf hk' (hl k hk')) (hhits.bufLen_index ▸ hcap)
  · rintro s d0 s0 s1 s2 xr vr ir ⟨hbuf, -⟩ hlegal hm hv hxr hir hvr hcap
    obtain ⟨code, m, hsel⟩ := frameSelected_of_legal hlegal
    obtain rfl : m = .pam4 := hsel.pam4_iff.mpr hm
    have hidx : s.bufLen s1 = ir.length := by simpa using hir.1
    have hval : s.bufLen s2 = s.bufLen s1 := by rw [hidx, hvr.1, List.length_map, hv]
    refine exec_fext_of_overflow
      (zs := fun k => (specAxisSlice xr ir vr s.cfg.hdr.toNat s.cfg.flen.toNat k).map fun x => (x, 0))
      d0 hsel hval (fun k hk => ?_) ?_
    · rw [List.map_map]
      exact hitSymbols_pam4_rat hbuf hxr hir hvr hidx hv (hidx ▸ hk)
    · rw [hitCodes, hm, hidx]
      simpa only [List.map_map, Function.comp_def] using hcap

end Sys2Proof.Machine

/-!
PROOF. A source with a component that nothing has written is refused by every operation that reads the
whole of it (rule R68; log entries 10 and 13).
-/

namespace Sys2Proof.Machine

/-! Reading a source that is not written whole. -/

/-- A buffer that is not loaded has an element. -/
theorem bufLen_ne_zero_of_not_loaded {s : State} {b : Buf} (h : ¬ s.Loaded b) : s.bufLen b ≠ 0 :=
  fun h0 => h fun i hi => absurd hi (h0 ▸ Nat.not_lt_zero i)

/-- The read of one component after the other is refused at either. -/
theorem srcAxes_unwritten {s : State} {b : Buf} (hb : s.BuffersSound) (h : ¬ s.Loaded b) :
    s.srcAxis b .re = .uninit b ∨ (∃ xs, s.srcAxis b .re = .ok xs) ∧ s.srcAxis b .im = .uninit b := by
  have hcx := srcCx_unwritten (hb b).1 h
  simp only [State.srcCx, Res.bind_eq_uninit, reduceCtorEq, and_false, exists_false, or_false] at hcx
  exact hcx.imp_right fun ⟨xs, hxs, him⟩ => ⟨⟨xs, hxs⟩, him⟩

theorem srcSymbols_unwritten {s : State} {m : Modulation} {b : Buf} (hb : s.BuffersSound) (hm : m ≠ .pam4)
    (h : ¬ s.Loaded b) : srcSymbols m b s = .uninit b := by
  cases m with
  | pam4 => exact absurd rfl hm
  | qam4 | qam42 => exact srcCx_unwritten (hb b).1 h

theorem srcSymbols_pam4_unwritten {s : State} {b : Buf} (h : s.srcAxis b .re = .uninit b) :
    srcSymbols .pam4 b s = .uninit b := by
  rw [srcSymbols, State.srcRe, h, Res.bind_uninit]

/-- What is written of a run ends before a component that is not: the read of the whole run is refused, and
what has been read satisfies what everything before that component does. -/
theorem prefixOf_unwritten {s : State} {b : Buf} {i n : ℕ} {P : Scalar → Prop} (hb : s.BuffersSound)
    (hi : i < n) (hnone : s.comp b i .re = none) (h : ∀ j < i, ∃ x, s.comp b j .re = some x ∧ P x) :
    (∀ x ∈ s.prefixOf b .re 0 n, P x) ∧ allOf b n (s.prefixOf b .re 0 n) = .uninit b := by
  have hread {j : ℕ} (hj : j < (s.prefixOf b .re 0 n).length) :
      (s.prefixOf b .re 0 n)[j]? = s.comp b j .re := by
    rw [prefixOf_getElem? (hb b).1 hj, Nat.zero_add]
  have hshort : (s.prefixOf b .re 0 n).length ≤ i := by
    refine not_lt.mp fun hlt => ?_
    have hread_i := hread hlt
    rw [hnone, List.getElem?_eq_getElem hlt] at hread_i
    cases hread_i
  refine ⟨fun x hx => ?_, allOf_eq_uninit.mpr ⟨(hshort.trans_lt hi).ne, rfl⟩⟩
  obtain ⟨j, hj, rfl⟩ := List.mem_iff_getElem.mp hx
  obtain ⟨y, hy, hPy⟩ := h j (hj.trans_le hshort)
  rw [← hread hj, List.getElem?_eq_getElem hj] at hy
  exact Option.some.inj hy ▸ hPy

/-! The rules that read it. -/

theorem pow4Rule_unwritten {s : State} (d : Buf) {b : Buf} (hb : s.BuffersSound) (h : ¬ s.Loaded b) :
    pow4Rule d b s = .uninit b := by
  rw [pow4Rule, srcCx_unwritten (hb b).1 h, Res.bind_uninit]

theorem festRule_unwritten {s : State} {b : Buf} (hb : s.BuffersSound) (hfs : 0 < s.cfg.fs.val)
    (h : ¬ s.Loaded b) : festRule b s = .uninit b := by
  rw [festRule, zero_lt_of_pos hfs, decide_eq_true (bufLen_ne_zero_of_not_loaded h),
    srcCx_unwritten (hb b).1 h]
  rfl

/-- `COSTAS` reads its signal first. -/
theorem costasRule_unwritten_signal {s : State} (d0 d1 d2 : Buf) {b taps : Buf} (hb : s.BuffersSound)
    (hfs : 0 < s.cfg.fs.val) (htaps : s.bufLen taps ≠ 0) (h : ¬ s.Loaded b) :
    costasRule d0 d1 d2 b taps s = .uninit b := by
  rw [costasRule, zero_lt_of_pos hfs, decide_eq_true htaps, srcCx_unwritten (hb b).1 h]
  rfl

/-- A loaded buffer reads as a sequence. -/
theorem srcCx_loaded {s : State} {b : Buf} (hb : s.BuffersSound) (h : s.Loaded b) :
    ∃ zs, s.srcCx b = .ok zs := by
  cases hr : s.srcCx b with
  | ok zs => exact ⟨zs, rfl⟩
  | raise f n => exact absurd hr (srcCx_ne_raise _ _ _ _)
  | uninit c => exact absurd h (srcCx_uninit hb hr).2

theorem costasRule_unwritten_taps {s : State} (d0 d1 d2 : Buf) {b x : Buf} (hb : s.BuffersSound)
    (hfs : 0 < s.cfg.fs.val) (hx : s.Loaded x) (hne : s.bufLen b ≠ 0) (h : s.srcAxis b .re = .uninit b) :
    costasRule d0 d1 d2 x b s = .uninit b := by
  obtain ⟨zs, hzs⟩ := srcCx_loaded hb hx
  rw [costasRule, zero_lt_of_pos hfs, decide_eq_true hne, hzs, State.srcRe, h]
  rfl

theorem quantRule_unwritten {s : State} (d : Buf) {b : Buf} (hb : s.BuffersSound)
    (hl : LegalAlphabet s.cfg.amin s.cfg.amax) (h : ¬ s.Loaded b) : quantRule d b s = .uninit b := by
  rw [quantRule, alphabet_of_legal hl, decide_eq_true (bufLen_ne_zero_of_not_loaded h),
    srcCx_unwritten (hb b).1 h]
  rfl

/-- With legal registers and a source that is not empty, `XCORR` reads the real component, then what the
modulation has of the imaginary one (rule R200; log entry 13). -/
theorem xcorrRule_unwritten {s : State} {code : List Int} {m : Modulation} {b : Buf} (d0 d1 : Buf)
    (hsel : FrameSelected s code m) (hcap : s.hitcapNat ≤ s.bufCap) (hne : s.bufLen b ≠ 0)
    (h : s.srcAxis b .re = .uninit b ∨ (∃ xs, s.srcAxis b .re = .ok xs) ∧ corrIm m b s = .uninit b) :
    xcorrRule d0 d1 b s = .uninit b := by
  rw [xcorrRule, hsel.code_ok, Res.bind_ok, hsel.mod_ok, Res.bind_ok, decide_eq_true hcap, require_true,
    Res.bind_ok, decide_eq_true hne, require_true, Res.bind_ok]
  obtain hre | ⟨⟨xs, hre⟩, him⟩ := h
  · rw [hre, Res.bind_uninit]
  · rw [hre, Res.bind_ok, him, Res.bind_uninit]

theorem corrIm_unwritten {s : State} {m : Modulation} {b : Buf} (hm : m ≠ .pam4)
    (h : s.srcAxis b .im = .uninit b) : corrIm m b s = .uninit b := by
  cases m with
  | pam4 => exact absurd rfl hm
  | qam4 | qam42 => exact h

theorem mapToSymbols_unwritten {s : State} (m : Modulation) (d : Buf) {b : Buf}
    (h : s.srcAxis b .re = .uninit b) : mapToSymbols m d b s = .uninit b := by
  rw [mapToSymbols, State.srcRe, h, Res.bind_uninit]

theorem mapToLevels_unwritten {s : State} {m : Modulation} (d : Buf) {b : Buf}
    (h : srcSymbols m b s = .uninit b) : mapToLevels m d b s = .uninit b := by
  rw [mapToLevels, h, Res.bind_uninit]

theorem sym2pam_unwritten {s : State} {m : Modulation} (d : Buf) {b : Buf} (hm : modulation s = .ok m)
    (h : srcSymbols m b s = .uninit b) : ruleOf (.sym2pam d b) s = .uninit b := by
  rw [ruleOf, hm, Res.bind_ok, mapToLevels_unwritten d h]

/-- `LTR2PAM` gets to a component never written past the character codes before it (rule R222). -/
theorem ltr2pamRule_unwritten {s : State} (d : Buf) {b : Buf} {i : ℕ} (hb : s.BuffersSound)
    (hi : i < s.bufLen b) (hnone : s.comp b i .re = none) (hcap : 4 * s.bufLen b ≤ s.bufCap)
    (h : ∀ j < i, ∃ x, s.comp b j .re = some x ∧ IsCode x) : ltr2pamRule d b s = .uninit b := by
  obtain ⟨hcodes, hstop⟩ := prefixOf_unwritten hb hi hnone h
  obtain ⟨ls, hls⟩ := ltr2pamFrom_codes hcodes
  rw [ltr2pamRule_eq d hcap, hls, Res.bind_ok, hstop, Res.bind_uninit]

/-- `PAM2LTR` gets to a component never written past the levels before it (rule R224). -/
theorem pam2ltrRule_unwritten {s : State} (d : Buf) {b : Buf} {i : ℕ} (hb : s.BuffersSound)
    (hi : i < 4 * (s.bufLen b / 4)) (hnone : s.comp b i .re = none)
    (h : ∀ j < i, ∃ x, s.comp b j .re = some x ∧ IsLevel x) : pam2ltrRule d b s = .uninit b := by
  obtain ⟨hlevels, hstop⟩ := prefixOf_unwritten hb hi hnone h
  rw [← fullGroups] at hlevels hstop
  rw [pam2ltrRule_good d (badLevelFrom_levels hlevels), hstop, Res.bind_uninit]

/-- Settles O22, operation by operation: first those that read both components, then those that read `re`
alone. -/
theorem unwrittenSourceIsRefused : Obligations.UnwrittenSourceIsRefused := by
  rintro s b d d1 d2 ⟨hbuf, -⟩
  refine ⟨fun hb => ?_, fun i hi hnone => ?_⟩
  · have hne := bufLen_ne_zero_of_not_loaded hb
    refine ⟨?_, ?_, ?_, fun hm => ?_, fun hfs => ⟨?_, fun taps htaps => ?_⟩, fun hl => ?_,
      fun hl hm hcap => ?_⟩
    · exact exec_uninit (by simp) (pow4Rule_unwritten d hbuf hb)
    · exact exec_uninit (by simp)
        (mapToLevels_unwritten (m := .qam4) d (srcSymbols_unwritten hbuf (by decide) hb))
    · exact exec_uninit (by simp)
        (mapToLevels_unwritten (m := .qam42) d (srcSymbols_unwritten hbuf (by decide) hb))
    · obtain ⟨m, hmod, hn⟩ := modulation_of_le (hm.trans one_le_two)
      have hm4 : m ≠ .pam4 := Modulation.number_ne_two.mp (by omega)
      exact exec_uninit (by simp) (sym2pam_unwritten d hmod (srcSymbols_unwritten hbuf hm4 hb))
    · exact exec_uninit (by simp) (festRule_unwritten hbuf hfs hb)
    · exact exec_uninit (by simp) (costasRule_unwritten_signal d d1 d2 hbuf hfs htaps hb)
    · exact exec_uninit (by simp) (quantRule_unwritten d hbuf hl hb)
    · obtain ⟨code, m, hsel⟩ := frameSelected_of_legal hl
      exact exec_uninit (by simp) (xcorrRule_unwritten d d1 hsel hcap hne
        ((srcAxes_unwritten hbuf hb).imp_right fun ⟨hre, him⟩ =>
          ⟨hre, corrIm_unwritten (hsel.ne_pam4 (by omega)) him⟩))
  · have hre : s.srcAxis b .re = .uninit b := srcAxis_unwritten (hbuf b).1 hi hnone
    have hne : s.bufLen b ≠ 0 := (Nat.zero_le i |>.trans_lt hi).ne'
    refine ⟨?_, ?_, fun hm => ?_, fun hm => ?_, fun hl hm hcap => ?_, fun hfs x hx => ?_,
      fun hcap h => ?_, fun hgroup h => ?_⟩
    · exact exec_uninit (by simp) (mapToSymbols_unwritten .qam4 d hre)
    · exact exec_uninit (by simp) (mapToSymbols_unwritten .qam42 d hre)
    · obtain ⟨m, hmod, -⟩ := modulation_of_le hm
      exact exec_uninit (by simp) (by rw [ruleOf, hmod, Res.bind_ok, mapToSymbols_unwritten m d hre])
    · obtain ⟨m, hmod, hn⟩ := modulation_of_le hm.le
      obtain rfl : m = .pam4 := not_not.mp (mt Modulation.number_ne_two.mpr (by omega))
      exact exec_uninit (by simp) (sym2pam_unwritten d hmod (srcSymbols_pam4_unwritten hre))
    · obtain ⟨code, m, hsel⟩ := frameSelected_of_legal hl
      exact exec_uninit (by simp) (xcorrRule_unwritten d d1 hsel hcap hne (.inl hre))
    · exact exec_uninit (by simp) (costasRule_unwritten_taps d d1 d2 hbuf hfs hx hne hre)
    · exact exec_uninit (by simp) (ltr2pamRule_unwritten d hbuf hi hnone hcap h)
    · exact exec_uninit (by simp) (pam2ltrRule_unwritten d hbuf hgroup hnone h)

end Sys2Proof.Machine
